-- ==== Sys2Proof/Word.lean ====
section
/-! DEFINITION. The fixed-width words of the block (spec/00_scope.md R5, R6; spec/10_state.md R20, R26, R29;
spec/30_encoding.md R80). Sizes, coordinates, bit-plane numbers, thresholds and context labels are counts and are
`Nat` in this model; only what the spec treats as bits is a bit vector (log 9). -/

namespace Sys2Proof

/-- A command word (R80). -/
abbrev Word := BitVec 64

/-- A host-visible 32-bit register (R40). -/
abbrev Reg := BitVec 32

/-- A flag word of the window (R26). -/
abbrev FlagWord := BitVec 16

/-- A coefficient magnitude (R29). -/
abbrev Magnitude := BitVec 31

end Sys2Proof
end

