-- ==== Sys2Proof/Config.lean ====
section
/-! DEFINITION. What the spec fixes as a number (spec/00_scope.md R5) and what it leaves as a parameter of the
implementation (`CUP_RL`, `TT_MAXDIM`: spec/93_implementation_defined.md U13, U14). The parameters are a field of
State that no step changes, so that a claim holds for every value of them (log 8). -/

namespace Sys2Proof

/-- The two open parameters of the block (R5, D9, D20). -/
structure Config where
  /-- `CUP_RL` = 1: the cleanup pass uses the run-length mode (R189); 0: it does not (R188). -/
  runLength : Bool
  /-- `TT_MAXDIM`: largest tag-tree width and height. -/
  ttMaxDim : Nat
  deriving DecidableEq, Repr

/-- The spec's default values: `CUP_RL` = 1, `TT_MAXDIM` = 64 (R5). -/
def Config.default : Config := ⟨true, 64⟩

/-- The values R5 admits: `TT_MAXDIM` is 1 to 2047. -/
abbrev Config.ok (c : Config) : Prop := 1 ≤ c.ttMaxDim ∧ c.ttMaxDim ≤ 2047

/-- `CB_MAXW` = `CB_MAXH` (R5). -/
def cbMax : Nat := 64

/-- `MAGW`, the number of bit-planes (R5). -/
def magW : Nat := 31

/-- `TT_INF`, the value of a node that is not known (R5, R31). -/
def ttInf : Nat := 255

/-- `TT_TMAX`, the largest threshold and the largest leaf value (R5). -/
def ttTMax : Nat := 254

/-- `CX_UNI`, the uniform context (R5). -/
def cxUni : Nat := 17

/-- `CX_RL`, the run-length context (R5). -/
def cxRl : Nat := 18

/-- The constant of register `ID`, the characters "J2T1" (R40). -/
def idValue : Reg := 0x4A325431#32

end Sys2Proof
end

