-- ==== Sys2Proof/Syntax.lean ====
section
/-! DEFINITION. The 21 commands of J2KT1 (spec/30_encoding.md R88, spec/opcode_table.json), one constructor each, with
the operands of R81. A selector is a name of its own, so a reserved selector value is no term of this type (R82). -/

namespace Sys2Proof

/-- Tree selector (R82): 0 the inclusion tree, 1 the zero-bit-plane tree. -/
inductive TreeSel where
  | incl
  | zbp
  deriving DecidableEq, Repr

/-- Band orientation (R82, R141). -/
inductive Orient where
  | ll
  | hl
  | lh
  | hh
  deriving DecidableEq, Repr

/-- Pass kind (R82): significance propagation, magnitude refinement, cleanup. -/
inductive PassKind where
  | spp
  | mrp
  | cup
  deriving DecidableEq, Repr

/-- A command (R88). Coordinates, sizes, values, thresholds, plane numbers and node indices are the unsigned values of
their fields (R82); `Instr.wf` says that they fit them. -/
inductive Instr where
  /-- R101 -/
  | nop
  /-- R102 -/
  | softReset
  /-- R103 -/
  | clrErr
  /-- R112: tree, width, height -/
  | ttInit (t : TreeSel) (w h : Nat)
  /-- R113: tree, leaf, value -/
  | ttSet (t : TreeSel) (x y v : Nat)
  /-- R116: tree, leaf, threshold -/
  | ttEnc (t : TreeSel) (x y thr : Nat)
  /-- R117: tree, leaf, threshold -/
  | ttDec (t : TreeSel) (x y thr : Nat)
  /-- R119: tree, node index -/
  | ttRd (t : TreeSel) (node : Nat)
  /-- R150: orientation, flag word -/
  | ctxSig (o : Orient) (f : FlagWord)
  /-- R151: flag word -/
  | ctxRef (f : FlagWord)
  /-- R152: flag word -/
  | ctxSgn (f : FlagWord)
  /-- R162: orientation, width, height -/
  | cbCfg (o : Orient) (w h : Nat)
  /-- R163 -/
  | cbClear
  /-- R166: coefficient, sign, magnitude -/
  | magWr (x y : Nat) (neg : Bool) (mag : Magnitude)
  /-- R167: coefficient -/
  | magRd (x y : Nat)
  /-- R168: window coordinates -/
  | flgRd (wx wy : Nat)
  /-- R169: coefficient, sign -/
  | setSig (x y : Nat) (neg : Bool)
  /-- R191: pass kind, bit-plane -/
  | t1EncPass (k : PassKind) (p : Nat)
  /-- R192: pass kind, bit-plane -/
  | t1DecPass (k : PassKind) (p : Nat)
  /-- R193 -/
  | t1EncBlock
  /-- R194: number of bit-planes -/
  | t1DecBlock (nbp : Nat)
  deriving DecidableEq, Repr

end Sys2Proof
end

