-- ==== Sys2Proof/WellFormed.lean ====
section
/-! DEFINITION. When a command's operands fit the fields of its format (spec/30_encoding.md R80, R81): exactly the
commands a 64-bit word can carry. Ranges that a rule checks at run time (a coordinate inside the window, a plane below
31) are no part of it. -/

namespace Sys2Proof

/-- An 11-bit `x` or `y` field (R80). -/
def fitsCoord (n : Nat) : Bool := decide (n < 2048)

/-- The operands of `i` fit the fields of its format (R81). -/
def Instr.wf : Instr → Bool
  | .nop => true
  | .softReset => true
  | .clrErr => true
  | .ttInit _ w h => fitsCoord w && fitsCoord h
  | .ttSet _ x y v => fitsCoord x && fitsCoord y && decide (v < 256)
  | .ttEnc _ x y thr => fitsCoord x && fitsCoord y && decide (thr < 256)
  | .ttDec _ x y thr => fitsCoord x && fitsCoord y && decide (thr < 256)
  | .ttRd _ node => decide (node < 4294967296)
  | .ctxSig _ _ => true
  | .ctxRef _ => true
  | .ctxSgn _ => true
  | .cbCfg _ w h => fitsCoord w && fitsCoord h
  | .cbClear => true
  | .magWr x y _ _ => fitsCoord x && fitsCoord y
  | .magRd x y => fitsCoord x && fitsCoord y
  | .flgRd wx wy => fitsCoord wx && fitsCoord wy
  | .setSig x y _ => fitsCoord x && fitsCoord y
  | .t1EncPass _ p => decide (p < 32)
  | .t1DecPass _ p => decide (p < 32)
  | .t1EncBlock => true
  | .t1DecBlock nbp => decide (nbp < 64)

end Sys2Proof
end

