-- ==== Sys2Proof/Decode.lean ====
section
/-! DEFINITION. The decoder and the encoder of command words (spec/30_encoding.md R80 to R88). The decoder is total:
every 64-bit word is exactly one command or is rejected with the reason it is illegal (R83, R85, R87). -/

namespace Sys2Proof

/-- Why a word is illegal (R83, R85). -/
inductive DecodeError where
  /-- R85: the opcode is not listed in R88. -/
  | unknownOpcode (op : Nat)
  /-- R83: a bit that the format marks 0 is 1. -/
  | unusedBitSet
  /-- R83: a selector has a value that R82 marks reserved. -/
  | reservedSelector
  deriving DecidableEq, Repr

/-- Bits `lo + n - 1` to `lo` of a word as an unsigned number (R6). -/
def slice (w : Word) (lo n : Nat) : Nat := w.toNat / 2 ^ lo % 2 ^ n

/-- The five fields of a command word (R80). -/
def fieldOp (w : Word) : Nat := slice w 56 8
def fieldS (w : Word) : Nat := slice w 54 2
def fieldX (w : Word) : Nat := slice w 43 11
def fieldY (w : Word) : Nat := slice w 32 11
def fieldImm (w : Word) : Nat := slice w 0 32

/-- The command word whose halves are the two port registers: `CMD_HI` is bits 63:32, `CMD_LO` bits 31:0 (R80, R64). -/
def commandWord (hi lo : Reg) : Word := hi ++ lo

/-- R82: tree selectors 2 and 3 are reserved. -/
def treeOf : Nat → Option TreeSel
  | 0 => some .incl
  | 1 => some .zbp
  | _ => none

/-- R82: every orientation selector is defined; the argument is a 2-bit field. -/
def orientOf : Nat → Orient
  | 0 => .ll
  | 1 => .hl
  | 2 => .lh
  | _ => .hh

/-- R82: pass kind 3 is reserved. -/
def kindOf : Nat → Option PassKind
  | 0 => some .spp
  | 1 => some .mrp
  | 2 => some .cup
  | _ => none

/-- A command, unless one of the bits its format leaves unused is set (R83). -/
def whenZero (unused : Nat) (r : Except DecodeError Instr) : Except DecodeError Instr :=
  if unused = 0 then r else .error .unusedBitSet

/-- A command with a tree selector (R82, R83). -/
def withTree (s : Nat) (mk : TreeSel → Instr) : Except DecodeError Instr :=
  match treeOf s with
  | some t => .ok (mk t)
  | none => .error .reservedSelector

/-- A command with a pass kind (R82, R83). -/
def withKind (s : Nat) (mk : PassKind → Instr) : Except DecodeError Instr :=
  match kindOf s with
  | some k => .ok (mk k)
  | none => .error .reservedSelector

/-- The command of an opcode and its four operand fields (R81, R88). -/
def decodeFields (op s x y imm : Nat) : Except DecodeError Instr :=
  match op with
  | 0x00 => whenZero (s + x + y + imm) (.ok .nop)
  | 0x01 => whenZero (s + x + y + imm) (.ok .softReset)
  | 0x02 => whenZero (s + x + y + imm) (.ok .clrErr)
  | 0x10 => whenZero imm (withTree s fun t => .ttInit t x y)
  | 0x11 => whenZero (imm / 256) (withTree s fun t => .ttSet t x y (imm % 256))
  | 0x12 => whenZero (imm / 256) (withTree s fun t => .ttEnc t x y (imm % 256))
  | 0x13 => whenZero (imm / 256) (withTree s fun t => .ttDec t x y (imm % 256))
  | 0x14 => whenZero (x + y) (withTree s fun t => .ttRd t imm)
  | 0x20 => whenZero (x + y + imm / 65536) (.ok (.ctxSig (orientOf s) (BitVec.ofNat 16 imm)))
  | 0x21 => whenZero (s + x + y + imm / 65536) (.ok (.ctxRef (BitVec.ofNat 16 imm)))
  | 0x22 => whenZero (s + x + y + imm / 65536) (.ok (.ctxSgn (BitVec.ofNat 16 imm)))
  | 0x30 => whenZero imm (.ok (.cbCfg (orientOf s) x y))
  | 0x31 => whenZero (s + x + y + imm) (.ok .cbClear)
  | 0x32 => whenZero s (.ok (.magWr x y (decide (imm / 2147483648 = 1)) (BitVec.ofNat 31 imm)))
  | 0x33 => whenZero (s + imm) (.ok (.magRd x y))
  | 0x34 => whenZero (s + imm) (.ok (.flgRd x y))
  | 0x35 => whenZero (s + imm / 2) (.ok (.setSig x y (decide (imm % 2 = 1))))
  | 0x40 => whenZero (x + y + imm / 32) (withKind s fun k => .t1EncPass k (imm % 32))
  | 0x41 => whenZero (x + y + imm / 32) (withKind s fun k => .t1DecPass k (imm % 32))
  | 0x42 => whenZero (s + x + y + imm) (.ok .t1EncBlock)
  | 0x43 => whenZero (s + x + y + imm / 64) (.ok (.t1DecBlock (imm % 64)))
  | other => .error (.unknownOpcode other)

/-- R87: every word is one command or illegal, with the reason. -/
def decode (w : Word) : Except DecodeError Instr :=
  decodeFields (fieldOp w) (fieldS w) (fieldX w) (fieldY w) (fieldImm w)

/-- The decoder on an instruction of `spec/opcode_table.json`: bit 0 of `w` is bit 0 of the 64-bit word; bits from
`nbits` up are 0. A command word reaches the block whole, so no byte order enters (R62). -/
def decodeTableWord (nbits w : Nat) : Option Instr :=
  let v := w % 2 ^ nbits
  if v < 2 ^ 64 then (decode (BitVec.ofNat 64 v)).toOption else none

/-- A command word put together from its five fields (R80). -/
def assemble (op s x y imm : Nat) : Word :=
  BitVec.ofNat 64 (op * 2 ^ 56 + s * 2 ^ 54 + x * 2 ^ 43 + y * 2 ^ 32 + imm)

/-- Selector values (R82). -/
def TreeSel.code : TreeSel → Nat
  | .incl => 0
  | .zbp => 1

def Orient.code : Orient → Nat
  | .ll => 0
  | .hl => 1
  | .lh => 2
  | .hh => 3

def PassKind.code : PassKind → Nat
  | .spp => 0
  | .mrp => 1
  | .cup => 2

/-- The word of a command (R81, R82, R88). -/
def encode : Instr → Word
  | .nop => assemble 0x00 0 0 0 0
  | .softReset => assemble 0x01 0 0 0 0
  | .clrErr => assemble 0x02 0 0 0 0
  | .ttInit t w h => assemble 0x10 t.code w h 0
  | .ttSet t x y v => assemble 0x11 t.code x y v
  | .ttEnc t x y thr => assemble 0x12 t.code x y thr
  | .ttDec t x y thr => assemble 0x13 t.code x y thr
  | .ttRd t node => assemble 0x14 t.code 0 0 node
  | .ctxSig o f => assemble 0x20 o.code 0 0 f.toNat
  | .ctxRef f => assemble 0x21 0 0 0 f.toNat
  | .ctxSgn f => assemble 0x22 0 0 0 f.toNat
  | .cbCfg o w h => assemble 0x30 o.code w h 0
  | .cbClear => assemble 0x31 0 0 0 0
  | .magWr x y neg mag => assemble 0x32 0 x y (neg.toNat * 2147483648 + mag.toNat)
  | .magRd x y => assemble 0x33 0 x y 0
  | .flgRd wx wy => assemble 0x34 0 wx wy 0
  | .setSig x y neg => assemble 0x35 0 x y neg.toNat
  | .t1EncPass k p => assemble 0x40 k.code 0 0 p
  | .t1DecPass k p => assemble 0x41 k.code 0 0 p
  | .t1EncBlock => assemble 0x42 0 0 0 0
  | .t1DecBlock nbp => assemble 0x43 0 0 0 nbp

end Sys2Proof
end

