-- ==== Sys2Proof/Machine/State.lean ====
section
/-! DEFINITION. The state of J2KT1 (spec/10_state.md), plain data; the model's own stops; the state after reset
(R45). The environment's side (host accesses still to come, port answers still to come, the last value read on the bus)
is held in the same record, in fields marked as the model's own. -/

namespace Sys2Proof.Machine

/-- One memory of the block: index and word pairs, indices strictly rising, no entry equal to the word every cell holds
after the memory is cleared (log 1). -/
abbrev Memory (α : Type) := List (Nat × α)

/-- `CB_STATE` (R24). -/
inductive CbState where
  | unconf
  | conf
  | ready
  | active
  | dirty
  deriving DecidableEq, Repr

/-- `TT[t].mode` (R33). -/
inductive TreeMode where
  | uninit
  | fresh
  | loaded
  | enc
  | dec
  deriving DecidableEq, Repr

/-- The five faults (R210). -/
inductive ErrCode where
  | config
  | capacity
  | consistency
  | illegal
  | sequence
  deriving DecidableEq, Repr

/-- A tag-tree node (R31): `val` and `low` are 8-bit numbers, `vis` one bit. -/
structure Node where
  val : Nat
  low : Nat
  vis : Bool
  deriving DecidableEq, Repr

/-- A tag tree (R30). `nodes` is `none` while the node array is unspecified (R45, U1; log 2). -/
structure TagTree where
  w : Nat
  h : Nat
  mode : TreeMode
  nodes : Option (Memory Node)
  deriving DecidableEq, Repr

/-- The contents of the window: flag SRAM `F` (R25) and magnitude SRAM `MAG` (R29), at their physical addresses. -/
structure Window where
  flags : Memory FlagWord
  mags : Memory Magnitude
  deriving DecidableEq, Repr

/-- An event of the coder port (R38, R70). -/
inductive CodEvent where
  | reset
  | enc (ctx : Nat) (bit : Bool)
  | dec (ctx : Nat) (bit : Bool)
  | passEnd (k : PassKind) (p : Nat)
  deriving DecidableEq, Repr

/-- An event of the header port (R38, R71). -/
inductive HdrEvent where
  | put (bit : Bool)
  | get (bit : Bool)
  deriving DecidableEq, Repr

/-- What `CoderEncode` may answer (R70). -/
inductive EncAnswer where
  | ok
  | full
  deriving DecidableEq, Repr

/-- The answers of one port still to come: those of `pending` in order, then `rest` for ever, or none (the port does
not answer) where `rest` is `none` (R72, R73; log 5). -/
structure Answers (α : Type) where
  pending : List α
  rest : Option α
  deriving DecidableEq, Repr

/-- Where a running command stands (R22): before its first step, at the scan cursor of a pass, or at a node of a
tag-tree path. -/
inductive Cursor where
  | start
  | scan (k : PassKind) (p y0 x y : Nat)
  | path (t : TreeSel) (node : Nat)
  deriving DecidableEq, Repr

/-- A held command (R73): the command, where it waits (R22), and what it started from (log 6). -/
structure Pending where
  cmd : Instr
  cursor : Cursor
  cbState : CbState
  window : Option Window
  tree0 : TagTree
  tree1 : TagTree
  cod : List CodEvent
  hdr : List HdrEvent
  encIn : Answers EncAnswer
  decIn : Answers Bool
  hdrIn : Answers Bool
  deriving DecidableEq, Repr

/-- What reaches the block from outside, one at a time (R11): register accesses of the host (R63, R64), the reset input
(R240), port answers that arrive late (R73). `slowCommand` is a write of `CMD_HI` whose command is still running when
the next event lands, `proceed` lets it go on (log 7). -/
inductive Event where
  | read (off width : Nat)
  | write (off width : Nat) (v : Reg)
  | slowCommand (v : Reg)
  | proceed
  | reset
  | encAnswer (a : EncAnswer)
  | decAnswer (b : Bool)
  | hdrAnswer (b : Bool)
  deriving DecidableEq, Repr

/-- The state of the block and of its surroundings (INVENTORY.md, "State"). -/
structure State where
  /-- Parameters of the implementation (R5). -/
  cfg : Config
  /-- R20 -/
  res0 : Reg
  /-- R20 -/
  res1 : Reg
  /-- `CMD_LO` (R40) -/
  cmdLo : Reg
  /-- R36 -/
  busy : Bool
  /-- R36 -/
  err : Bool
  /-- R36 -/
  everErr : Bool
  /-- R36 -/
  ovr : Bool
  /-- `ERRCODE` (R36); `none` is 0 -/
  errCode : Option ErrCode
  /-- R36 -/
  errCmd : Word
  /-- R36 -/
  errPos : Reg
  /-- R23 -/
  cbW : Nat
  /-- R23 -/
  cbH : Nat
  /-- R23 -/
  cbOrient : Orient
  /-- R24 -/
  cbState : CbState
  /-- `F` and `MAG` (R25, R29); `none` while they are unspecified (R45, R162, U1; log 2) -/
  window : Option Window
  /-- Tree 0 (R30) -/
  tree0 : TagTree
  /-- Tree 1 (R30) -/
  tree1 : TagTree
  /-- The command in progress, while `BUSY` = 1 (R73) -/
  held : Option Pending
  /-- Trace `COD` (R38) -/
  cod : List CodEvent
  /-- Trace `HDR` (R38) -/
  hdr : List HdrEvent
  /-- The model's own: answers of `CoderEncode` still to come (R72) -/
  encIn : Answers EncAnswer
  /-- The model's own: answers of `CoderDecode` still to come (R72) -/
  decIn : Answers Bool
  /-- The model's own: answers of `HdrGet` still to come (R72) -/
  hdrIn : Answers Bool
  /-- The model's own: events still to come (R11) -/
  inputs : List Event
  /-- The model's own: what the last register read returned (R63) -/
  rdata : Reg
  deriving DecidableEq, Repr

/-- Why the model stops. Neither reason is a fault of the block: the block's five faults are next states (R216). -/
inductive Fault where
  /-- A window command accepted while `F` and `MAG` are unspecified. Raised by the window and pass commands. Safe: no
  run reaches it, since `CB_STATE` accepts none of them before `CB_CLEAR` (R45, R241). -/
  | windowUnspecified
  /-- A tree command accepted while the node array is unspecified. Raised by `TT_SET`, `TT_ENC`, `TT_DEC`, `TT_RD`. Safe:
  no run reaches it, since the mode accepts none of them before `TT_INIT` (R45, R241). -/
  | treeUnspecified
  deriving DecidableEq, Repr

/-- Refusals. No instruction is refused by this model. -/
inductive Refusal where
  /-- An instruction without a meaning. Raised by no arm of `exec`. Safe. -/
  | notModelled (mnemonic : String)
  deriving DecidableEq, Repr

/-- The outcome of a command or of a step. -/
abbrev Result := Host.Outcome State Fault Refusal

/-- A tree after reset (R45). -/
def TagTree.uninit : TagTree := ⟨0, 0, .uninit, none⟩

/-- A port that has not answered and will not (log 5). -/
def Answers.silent {α : Type} : Answers α := ⟨[], none⟩

/-- The machine right after reset (R45, R241), with the default parameters (R5). -/
def State.reset : State where
  cfg := Config.default
  res0 := 0#32
  res1 := 0#32
  cmdLo := 0#32
  busy := false
  err := false
  everErr := false
  ovr := false
  errCode := none
  errCmd := 0#64
  errPos := 0#32
  cbW := 0
  cbH := 0
  cbOrient := .ll
  cbState := .unconf
  window := none
  tree0 := TagTree.uninit
  tree1 := TagTree.uninit
  held := none
  cod := []
  hdr := []
  encIn := Answers.silent
  decIn := Answers.silent
  hdrIn := Answers.silent
  inputs := []
  rdata := 0#32

end Sys2Proof.Machine
end

