-- ==== Sys2Proof/Machine/Flags.lean ====
section
/-! DEFINITION. The flag word (spec/10_state.md R26) and the context-label ROM computed from it
(spec/42_context_rom.md R141 to R149). The ROM is constant (R35): its entries are given by the rules the spec computes
them from (R142 to R148); the printed tables R145 and R149 are checked in Sys2Proof/Tests/Slice0.lean (log 17). -/

namespace Sys2Proof.Machine

/-- Masks of the flag word (R26). -/
def sigN : FlagWord := 0x0001#16
def sigE : FlagWord := 0x0002#16
def sigW : FlagWord := 0x0004#16
def sigS : FlagWord := 0x0008#16
def sigNE : FlagWord := 0x0010#16
def sigNW : FlagWord := 0x0020#16
def sigSE : FlagWord := 0x0040#16
def sigSW : FlagWord := 0x0080#16
def sgnN : FlagWord := 0x0100#16
def sgnS : FlagWord := 0x0200#16
def sgnW : FlagWord := 0x0400#16
def sgnE : FlagWord := 0x0800#16
def flagVis : FlagWord := 0x1000#16
def flagSig : FlagWord := 0x2000#16
def flagRef : FlagWord := 0x4000#16
def flagSgn : FlagWord := 0x8000#16

/-- `SIG_NB`, `VIS` and `SIG` together: the run-length test of R189. -/
def runMask : FlagWord := 0x30FF#16

/-- Owner bits of a flag word (R26). -/
def isVis (f : FlagWord) : Bool := f.getLsbD 12
def isSig (f : FlagWord) : Bool := f.getLsbD 13
def isRef (f : FlagWord) : Bool := f.getLsbD 14
def isNeg (f : FlagWord) : Bool := f.getLsbD 15

/-- `flag[7:0] != 0`: some neighbour is significant (R26 `SIG_NB`). -/
def hasSigNeighbour (f : FlagWord) : Bool := decide (f &&& 0x00FF#16 ≠ 0#16)

/-- Bit `m` of a word written with `b` (R7). -/
def putMask (f m : FlagWord) (b : Bool) : FlagWord := if b then f ||| m else f &&& ~~~m

/-- Neighbour counts (R142). -/
def countH (f : FlagWord) : Nat := (f.getLsbD 1).toNat + (f.getLsbD 2).toNat
def countV (f : FlagWord) : Nat := (f.getLsbD 0).toNat + (f.getLsbD 3).toNat
def countD (f : FlagWord) : Nat :=
  (f.getLsbD 4).toNat + (f.getLsbD 5).toNat + (f.getLsbD 6).toNat + (f.getLsbD 7).toNat

/-- The table of R143, first matching row, for `LL`, `LH` and (counts exchanged) `HL`. -/
def labelLine (a c d : Nat) : Nat :=
  if a = 2 then 8
  else if a = 1 then (if 1 ≤ c then 7 else if 1 ≤ d then 6 else 5)
  else if c = 2 then 4
  else if c = 1 then 3
  else if 2 ≤ d then 2
  else if d = 1 then 1
  else 0

/-- The table of R144, first matching row, for `HH`. -/
def labelDiag (d hv : Nat) : Nat :=
  if 3 ≤ d then 8
  else if d = 2 then (if 1 ≤ hv then 7 else 6)
  else if d = 1 then (if 2 ≤ hv then 5 else if hv = 1 then 4 else 3)
  else if 2 ≤ hv then 2
  else if hv = 1 then 1
  else 0

/-- `NBCTX[o][f[7:0]]`, the significance context (R143 to R145). -/
def sigLabel (o : Orient) (f : FlagWord) : Nat :=
  match o with
  | .ll => labelLine (countH f) (countV f) (countD f)
  | .lh => labelLine (countH f) (countV f) (countD f)
  | .hl => labelLine (countV f) (countH f) (countD f)
  | .hh => labelDiag (countD f) (countH f + countV f)

/-- `REFCTX`, the refinement context (R146). -/
def refLabel (f : FlagWord) : Nat :=
  if isRef f then 16 else if hasSigNeighbour f then 15 else 14

/-- The contribution of one orthogonal neighbour (R147). -/
def contribution (sig sgn : Bool) : Int :=
  if sig then (if sgn then -1 else 1) else 0

/-- `clamp` of R147. -/
def clampSign (a : Int) : Int := if a < 0 then -1 else if a = 0 then 0 else 1

/-- Horizontal contribution `H`: east and west (R147). -/
def signH (f : FlagWord) : Int :=
  clampSign (contribution (f.getLsbD 1) (f.getLsbD 11) + contribution (f.getLsbD 2) (f.getLsbD 10))

/-- Vertical contribution `V`: north and south (R147). -/
def signV (f : FlagWord) : Int :=
  clampSign (contribution (f.getLsbD 0) (f.getLsbD 8) + contribution (f.getLsbD 3) (f.getLsbD 9))

/-- The labels of R148. -/
def labelOfSigns (h v : Int) : Nat :=
  if h = 0 then (if v = 0 then 9 else 10)
  else if v = 0 then 12
  else if h = v then 13
  else 11

/-- `SGNCTX.label`, the sign context (R148, R149). -/
def signLabel (f : FlagWord) : Nat := labelOfSigns (signH f) (signV f)

/-- `SGNCTX.xor`, the XOR bit (R148, R149). -/
def signXor (f : FlagWord) : Bool := decide (signH f < 0 ∨ (signH f = 0 ∧ signV f < 0))

/-- `bitlen(v)` (R6). -/
def bitLen (v : Nat) : Nat := if v = 0 then 0 else Nat.log2 v + 1

end Sys2Proof.Machine
end

