-- ==== Sys2Proof/Machine/Ops.lean ====
section
/-! DEFINITION. The operations every command is written over: the memories (spec/20_memory.md R60), the ports (R70 to
R73), the run of a command that may stop at a port, taking a fault (spec/60_exceptions.md R216) and returning from it
(R220), reset (spec/70_reset_and_hazards.md R240), holding a command and going on with it (R73), and the dispatch order
(spec/30_encoding.md R87). -/

namespace Sys2Proof.Machine

/-! Memories -/

/-- The word at index `a`; `fill` is what every cell holds after the memory is cleared (R163, R112). -/
def Memory.read {α : Type} (fill : α) : Memory α → Nat → α
  | [], _ => fill
  | (b, v) :: rest, a => if a = b then v else Memory.read fill rest a

/-- Entries other than the one at `a`. -/
def Memory.erase {α : Type} (m : Memory α) (a : Nat) : Memory α := m.filter fun c => decide (c.1 ≠ a)

/-- Put an entry before the first one of a higher index. -/
def Memory.insert {α : Type} (a : Nat) (v : α) : Memory α → Memory α
  | [] => [(a, v)]
  | (b, w) :: rest => if a < b then (a, v) :: (b, w) :: rest else (b, w) :: Memory.insert a v rest

/-- Write one word. Writing `fill` removes the entry, so that equal memories are equal lists. -/
def Memory.write {α : Type} [DecidableEq α] (fill : α) (m : Memory α) (a : Nat) (v : α) : Memory α :=
  if v = fill then m.erase a else Memory.insert a v (m.erase a)

/-- The canonical form: indices strictly rising, no entry equal to `fill`. -/
def Memory.wf {α : Type} [DecidableEq α] (fill : α) : Memory α → Bool
  | [] => true
  | (a, v) :: rest => decide (v ≠ fill) && rest.all (fun c => decide (a < c.1)) && Memory.wf fill rest

/-! Ports -/

/-- The next answer of a port, if it answers (R72, R73). -/
def Answers.pop {α : Type} (q : Answers α) : Option (α × Answers α) :=
  match q.pending with
  | a :: more => some (a, { q with pending := more })
  | [] => q.rest.map fun a => (a, q)

/-- An answer that arrives after those already waiting. -/
def Answers.push {α : Type} (q : Answers α) (a : α) : Answers α := { q with pending := q.pending ++ [a] }

/-! The run of a command that talks to a port -/

/-- How a piece of a command's pseudocode ends: it goes on with a value, or it stops at a port call that answered `full`
(R196) or has not answered (R73). Either way it gives the state reached: every write before the call, none after. -/
inductive Res (σ α : Type) where
  | done (a : α) (s : σ)
  | full (cur : Cursor) (s : σ)
  | hold (cur : Cursor) (s : σ)
  deriving Repr

/-- Sequencing in pseudocode order (R67). -/
def Res.bind {σ α β : Type} (r : Res σ α) (f : α → σ → Res σ β) : Res σ β :=
  match r with
  | .done a s => f a s
  | .full cur s => .full cur s
  | .hold cur s => .hold cur s

/-- A `for` loop over a list fixed before the loop starts (R104). -/
def forEach {σ ι : Type} : List ι → (ι → σ → Res σ Unit) → σ → Res σ Unit
  | [], _, s => .done () s
  | i :: rest, body, s => (body i s).bind fun _ s' => forEach rest body s'

/-! Trees -/

/-- Tree `t` (R30). -/
def State.tree (s : State) : TreeSel → TagTree
  | .incl => s.tree0
  | .zbp => s.tree1

/-- Tree `t` replaced (R30). -/
def State.setTree (s : State) (t : TreeSel) (tr : TagTree) : State :=
  match t with
  | .incl => { s with tree0 := tr }
  | .zbp => { s with tree1 := tr }

/-! Results -/

/-- `RES0 <- a` (R20). -/
def State.setRes0 (s : State) (a : Reg) : State := { s with res0 := a }

/-- `RES0 <- a; RES1 <- b` (R20). -/
def State.setRes (s : State) (a b : Reg) : State := { s with res0 := a, res1 := b }

/-! Faults -/

/-- The number of a fault (R210). -/
def ErrCode.code : ErrCode → Nat
  | .config => 1
  | .capacity => 2
  | .consistency => 3
  | .illegal => 4
  | .sequence => 5

/-- `ERRPOS` of the coefficient at a scan cursor: `valid`, kind, plane, row, column (R36, R196). -/
def errPosOf : Cursor → Reg
  | .scan k p _ x y => BitVec.ofNat 32 (2 ^ 31 + k.code * 2 ^ 28 + p * 2 ^ 20 + y * 2 ^ 8 + x)
  | .start => 0#32
  | .path _ _ => 0#32

/-- Fault entry (R216): the one way a command raises a fault. `pos` is 0 but for `CAPACITY`. -/
def State.raise (s : State) (c : ErrCode) (w : Word) (pos : Reg) : State :=
  { s with
    err := true
    everErr := true
    errCode := some c
    errCmd := w
    errPos := pos
    cbState := if c = .capacity then .dirty else s.cbState
    busy := false
    held := none }

/-- Return from a fault (R103, R220). -/
def State.clearError (s : State) : State :=
  { s with err := false, errCode := none, errCmd := 0#64, errPos := 0#32 }

/-- Reset, by the reset input or by `SOFT_RESET` (R102, R240, R241): every piece of the block's state takes its value of
R45. The parameters, the ports' future answers, the events still to come and the bus are not the block's. -/
def State.blockReset (s : State) : State :=
  { State.reset with
    cfg := s.cfg
    encIn := s.encIn
    decIn := s.decIn
    hdrIn := s.hdrIn
    inputs := s.inputs
    rdata := s.rdata }

/-! Holding a command -/

/-- Command `i`, started in `start`, waits at `cur` in the state `now` (R73): `BUSY` stays 1. -/
def State.hold (start : State) (i : Instr) (cur : Cursor) (now : State) : State :=
  { now with
    busy := true
    held := some
      { cmd := i
        cursor := cur
        cbState := start.cbState
        window := start.window
        tree0 := start.tree0
        tree1 := start.tree1
        cod := start.cod
        hdr := start.hdr
        encIn := start.encIn
        decIn := start.decIn
        hdrIn := start.hdrIn } }

/-- Back to where the held command `h` started, keeping what the host did meanwhile. Running the command again from
here, with one more answer waiting, goes through the same steps to the point of the hold and on (log 6). -/
def State.rewind (s : State) (h : Pending) : State :=
  { s with
    busy := false
    held := none
    cbState := h.cbState
    window := h.window
    tree0 := h.tree0
    tree1 := h.tree1
    cod := h.cod
    hdr := h.hdr
    encIn := h.encIn
    decIn := h.decIn
    hdrIn := h.hdrIn }

/-- A late answer of `CoderEncode` (R73). -/
def State.offerEnc (s : State) (a : EncAnswer) : State :=
  { s with encIn := s.encIn.push a, held := s.held.map fun h => { h with encIn := h.encIn.push a } }

/-- A late answer of `CoderDecode` (R73). -/
def State.offerDec (s : State) (b : Bool) : State :=
  { s with decIn := s.decIn.push b, held := s.held.map fun h => { h with decIn := h.decIn.push b } }

/-- A late answer of `HdrGet` (R73). -/
def State.offerHdr (s : State) (b : Bool) : State :=
  { s with hdrIn := s.hdrIn.push b, held := s.held.map fun h => { h with hdrIn := h.hdrIn.push b } }

/-! Dispatch -/

/-- Steps 1, 3 and 4 of the dispatch order (R87) around a command's own effect: dropped while `ERR` = 1 (R219), then
`SEQUENCE` if the unit does not accept it, then the fault of the operand checks, then the effect. `CLR_ERR` and
`SOFT_RESET` do not go through here. Step 2 (`ILLEGAL`) comes before there is a command (`hostEvent`). -/
def State.dispatch (s : State) (i : Instr) (accepted : Bool) (check : Option ErrCode) (effect : Result) : Result :=
  if s.err then .next s
  else if accepted then
    match check with
    | some c => .next (s.raise c (encode i) 0#32)
    | none => effect
  else .next (s.raise .sequence (encode i) 0#32)

end Sys2Proof.Machine
end

