-- ==== Sys2Proof/Machine/Operands.lean ====
section
/-! DEFINITION. Where an operand leads: coefficients and window cells (spec/00_scope.md R9, spec/10_state.md R25, R29),
tag-tree geometry (R32), the operand checks of the commands (spec/60_exceptions.md R211, R213) and the unit states that
accept them (spec/43_codeblock_window.md R161, spec/41_tagtree.md R120). -/

namespace Sys2Proof.Machine

/-! Window cells -/

/-- Physical address of `F[wy][wx]`: 66 words a row (R25, R60). -/
def flagAddr (wx wy : Nat) : Nat := wy * 66 + wx

/-- Physical address of `MAG[y][x]`: 64 words a row (R29, R60). -/
def magAddr (x y : Nat) : Nat := y * 64 + x

/-- `F[wy][wx]`. -/
def Window.flag (win : Window) (wx wy : Nat) : FlagWord := Memory.read 0#16 win.flags (flagAddr wx wy)

/-- `F[wy][wx] <- f`. -/
def Window.putFlag (win : Window) (wx wy : Nat) (f : FlagWord) : Window :=
  { win with flags := Memory.write 0#16 win.flags (flagAddr wx wy) f }

/-- `F[wy][wx] |= m` (R7). -/
def Window.orFlag (win : Window) (wx wy : Nat) (m : FlagWord) : Window :=
  win.putFlag wx wy (win.flag wx wy ||| m)

/-- `F[wy][wx].m <- b` for a one-bit mask `m` (R7). -/
def Window.putBit (win : Window) (wx wy : Nat) (m : FlagWord) (b : Bool) : Window :=
  win.putFlag wx wy (putMask (win.flag wx wy) m b)

/-- `MAG[y][x]`. -/
def Window.mag (win : Window) (x y : Nat) : Magnitude := Memory.read 0#31 win.mags (magAddr x y)

/-- `MAG[y][x] <- v`. -/
def Window.putMag (win : Window) (x y : Nat) (v : Magnitude) : Window :=
  { win with mags := Memory.write 0#31 win.mags (magAddr x y) v }

/-- `MAG[y][x] <- MAG[y][x] | (1 << p)` (R186). -/
def Window.orMag (win : Window) (x y p : Nat) : Window :=
  win.putMag x y (win.mag x y ||| BitVec.ofNat 31 (2 ^ p))

/-- The flag word of coefficient `(x, y)` (R9). -/
def Window.coef (win : Window) (x y : Nat) : FlagWord := win.flag (x + 1) (y + 1)

/-- A window with every word 0 (R163). -/
def Window.cleared : Window := ⟨[], []⟩

/-! Scan order (R181) -/

/-- First rows of the stripes, top to bottom. -/
def stripes (h : Nat) : List Nat := (List.range ((h + 3) / 4)).map fun k => 4 * k

/-- The columns of the stripes, in scan order: first row of the stripe, column. -/
def columns (w h : Nat) : List (Nat × Nat) :=
  (stripes h).flatMap fun y0 => (List.range w).map fun x => (y0, x)

/-- The rows of a column of the stripe that starts at `y0`, north to south. -/
def rowsOf (h y0 : Nat) : List Nat := (List.range (min 4 (h - y0))).map fun r => y0 + r

/-- Every coefficient once, in scan order: first row of the stripe, column, row. -/
def scan (w h : Nat) : List (Nat × Nat × Nat) :=
  (columns w h).flatMap fun c => (rowsOf h c.1).map fun y => (c.1, c.2, y)

/-! Tag-tree geometry (R32) -/

/-- One level: index of its first node, columns, rows. -/
structure Level where
  base : Nat
  w : Nat
  h : Nat
  deriving DecidableEq, Repr

/-- Levels from the one of `w` by `h` nodes that starts at `base` up to the root. The first argument bounds their
number. -/
def levelsFrom : Nat → Nat → Nat → Nat → List Level
  | 0, base, w, h => [⟨base, w, h⟩]
  | n + 1, base, w, h =>
    if w = 1 ∧ h = 1 then [⟨base, w, h⟩]
    else ⟨base, w, h⟩ :: levelsFrom n (base + w * h) ((w + 1) / 2) ((h + 1) / 2)

/-- The levels of a tree of `w` by `h` leaves, leaves first. Their number is below `w + h` whenever `w + h` is over 2. -/
def levels (w h : Nat) : List Level := levelsFrom (w + h) 0 w h

/-- `node(k, i, j)` at a level (R32): row-major. -/
def Level.node (lv : Level) (i j : Nat) : Nat := lv.base + j * lv.w + i

/-- Node count `n` = index of the root + 1. -/
def nodeCountOf : List Level → Nat
  | [] => 0
  | [root] => root.base + 1
  | _ :: rest => nodeCountOf rest

/-- `TT[t].n` (R32). -/
def nodeCount (w h : Nat) : Nat := nodeCountOf (levels w h)

/-- Nodes from leaf `(x, y)` up to the root. -/
def pathUp : List Level → Nat → Nat → List Nat
  | [], _, _ => []
  | lv :: rest, x, y => lv.node x y :: pathUp rest (x / 2) (y / 2)

/-- The path of leaf `(x, y)`, root first (R114). -/
def treePath (w h x y : Nat) : List Nat := (pathUp (levels w h) x y).reverse

/-- The children, at level `lv`, of node `(i, j)` of the level above (R32). -/
def childrenOf (lv : Level) (i j : Nat) : List Nat :=
  (([(0, 0), (1, 0), (0, 1), (1, 1)] : List (Nat × Nat)).filter fun d =>
    decide (2 * i + d.1 < lv.w ∧ 2 * j + d.2 < lv.h)).map fun d => lv.node (2 * i + d.1) (2 * j + d.2)

/-- `parent(i)` among the given levels; `none` for the root (R32). -/
def parentIn : List Level → Nat → Option Nat
  | lv :: up :: rest, i =>
    if i < up.base then some (up.node ((i - lv.base) % lv.w / 2) ((i - lv.base) / lv.w / 2))
    else parentIn (up :: rest) i
  | _, _ => none

/-- `parent(i)` in a tree of `w` by `h` leaves (R32, R119). -/
def parentOf (w h i : Nat) : Option Nat := parentIn (levels w h) i

/-! Unit states that accept a command -/

/-- `CB_CLEAR` (R163). -/
def CbState.acceptsClear : CbState → Bool
  | .unconf => false
  | .conf => true
  | .ready => true
  | .active => true
  | .dirty => true

/-- `MAG_WR` and the block commands (R161). -/
def CbState.acceptsLoad : CbState → Bool
  | .unconf => false
  | .conf => false
  | .ready => true
  | .active => false
  | .dirty => false

/-- `MAG_RD` and `FLG_RD` (R161). -/
def CbState.acceptsRead : CbState → Bool
  | .unconf => false
  | .conf => false
  | .ready => true
  | .active => true
  | .dirty => true

/-- `SET_SIG` and the pass commands (R161). -/
def CbState.acceptsPass : CbState → Bool
  | .unconf => false
  | .conf => false
  | .ready => true
  | .active => true
  | .dirty => false

/-- `TT_SET` (R120). -/
def TreeMode.acceptsSet : TreeMode → Bool
  | .uninit => false
  | .fresh => true
  | .loaded => true
  | .enc => false
  | .dec => false

/-- `TT_ENC` (R120). -/
def TreeMode.acceptsEnc : TreeMode → Bool
  | .uninit => false
  | .fresh => true
  | .loaded => true
  | .enc => true
  | .dec => false

/-- `TT_DEC` (R120). -/
def TreeMode.acceptsDec : TreeMode → Bool
  | .uninit => false
  | .fresh => true
  | .loaded => false
  | .enc => false
  | .dec => true

/-- `TT_RD` (R120). -/
def TreeMode.acceptsRead : TreeMode → Bool
  | .uninit => false
  | .fresh => true
  | .loaded => true
  | .enc => true
  | .dec => true

/-! Operand checks -/

/-- A fault unless a condition holds. -/
def unlessOk (ok : Bool) (c : ErrCode) : Option ErrCode := if ok then none else some c

/-- `TT_INIT` (R112, R211). -/
def checkTreeSize (maxDim w h : Nat) : Option ErrCode :=
  unlessOk (decide (1 ≤ w ∧ w ≤ maxDim ∧ 1 ≤ h ∧ h ≤ maxDim)) .config

/-- `TT_SET`, `TT_ENC`, `TT_DEC` (R113, R116, R117, R213). -/
def checkLeaf (tr : TagTree) (x y v : Nat) : Option ErrCode :=
  unlessOk (decide (x < tr.w ∧ y < tr.h ∧ v ≤ ttTMax)) .consistency

/-- `TT_RD` (R119, R213). -/
def checkNode (tr : TagTree) (i : Nat) : Option ErrCode :=
  unlessOk (decide (i < nodeCount tr.w tr.h)) .consistency

/-- `CB_CFG` (R162, R211). -/
def checkBlockSize (w h : Nat) : Option ErrCode :=
  unlessOk (decide (1 ≤ w ∧ w ≤ cbMax ∧ 1 ≤ h ∧ h ≤ cbMax)) .config

/-- `MAG_WR`, `MAG_RD`, `SET_SIG` (R166, R167, R169, R213). -/
def checkCoef (s : State) (x y : Nat) : Option ErrCode :=
  unlessOk (decide (x < s.cbW ∧ y < s.cbH)) .consistency

/-- `FLG_RD` (R168, R213). -/
def checkCell (s : State) (wx wy : Nat) : Option ErrCode :=
  unlessOk (decide (wx ≤ s.cbW + 1 ∧ wy ≤ s.cbH + 1)) .consistency

/-- `T1_ENC_PASS`, `T1_DEC_PASS` (R191, R192, R213). -/
def checkPlane (p : Nat) : Option ErrCode := unlessOk (decide (p < magW)) .consistency

/-- `T1_DEC_BLOCK` (R194, R213). -/
def checkPlanes (nbp : Nat) : Option ErrCode := unlessOk (decide (nbp ≤ magW)) .consistency

/-! Contents -/

/-- The window's contents, or the stop that stands for reading unspecified cells (R45, U1; log 2). -/
def State.withWindow (s : State) (f : Window → Result) : Result :=
  match s.window with
  | some win => f win
  | none => .fault .windowUnspecified

/-- A tree's node array, or the stop that stands for reading unspecified cells (R45, U1; log 2). -/
def TagTree.withNodes (tr : TagTree) (f : Memory Node → Result) : Result :=
  match tr.nodes with
  | some m => f m
  | none => .fault .treeUnspecified

end Sys2Proof.Machine
end

