-- ==== Sys2Proof/Machine/ContextRom.lean ====
section
/-! DEFINITION. The context-label commands (spec/42_context_rom.md R150 to R152). They need no configuration. -/

namespace Sys2Proof.Machine

/-- `CTX_SIG` (R150): `RES0` is the significance context. -/
def execCtxSig (o : Orient) (f : FlagWord) (s : State) : Result :=
  s.dispatch (.ctxSig o f) true none (.next (s.setRes0 (BitVec.ofNat 32 (sigLabel o f))))

/-- `CTX_REF` (R151): `RES0` is the refinement context. -/
def execCtxRef (f : FlagWord) (s : State) : Result :=
  s.dispatch (.ctxRef f) true none (.next (s.setRes0 (BitVec.ofNat 32 (refLabel f))))

/-- `CTX_SGN` (R152): `RES0` is the sign context, `RES1` the XOR bit. -/
def execCtxSgn (f : FlagWord) (s : State) : Result :=
  s.dispatch (.ctxSgn f) true none
    (.next (s.setRes (BitVec.ofNat 32 (signLabel f)) (BitVec.ofNat 32 (signXor f).toNat)))

end Sys2Proof.Machine
end

