-- ==== Sys2Proof/Machine/Window.lean ====
section
/-! DEFINITION. The code-block window and the significance tracker (spec/43_codeblock_window.md R162 to R169). -/

namespace Sys2Proof.Machine

/-- A neighbour-sign mask, if the coefficient is negative (`s(m)` of R164). -/
def signMask (neg : Bool) (m : FlagWord) : FlagWord := if neg then m else 0#16

/-- The significance tracker `SetSig(x, y, neg)` (R164): the only writer of `SIG` and of the twelve neighbour bits. -/
def Window.setSig (win : Window) (x y : Nat) (neg : Bool) : Window :=
  let wx := x + 1
  let wy := y + 1
  let own := (win.orFlag wx wy flagSig).putBit wx wy flagSgn neg
  let east := own.orFlag (wx + 1) wy (sigW ||| signMask neg sgnW)
  let west := east.orFlag (wx - 1) wy (sigE ||| signMask neg sgnE)
  let south := west.orFlag wx (wy + 1) (sigN ||| signMask neg sgnN)
  let north := south.orFlag wx (wy - 1) (sigS ||| signMask neg sgnS)
  let southEast := north.orFlag (wx + 1) (wy + 1) sigNW
  let southWest := southEast.orFlag (wx - 1) (wy + 1) sigNE
  let northEast := southWest.orFlag (wx + 1) (wy - 1) sigSW
  northEast.orFlag (wx - 1) (wy - 1) sigSE

/-- `CB_CFG` (R162): new geometry; the contents become unspecified. -/
def execCbCfg (o : Orient) (w h : Nat) (s : State) : Result :=
  s.dispatch (.cbCfg o w h) true (checkBlockSize w h)
    (.next { s with cbW := w, cbH := h, cbOrient := o, cbState := .conf, window := none })

/-- `CB_CLEAR` (R163): every word of the window 0. -/
def execCbClear (s : State) : Result :=
  s.dispatch .cbClear s.cbState.acceptsClear none
    (.next { s with window := some Window.cleared, cbState := .ready })

/-- `MAG_WR` (R166): magnitude and `SGN` of one coefficient. -/
def execMagWr (x y : Nat) (neg : Bool) (mag : Magnitude) (s : State) : Result :=
  s.dispatch (.magWr x y neg mag) s.cbState.acceptsLoad (checkCoef s x y)
    (s.withWindow fun win =>
      .next { s with window := some ((win.putMag x y mag).putBit (x + 1) (y + 1) flagSgn neg) })

/-- The value `{SGN, MAG}` of a coefficient (R167). -/
def Window.signedMag (win : Window) (x y : Nat) : Reg := BitVec.ofBool (isNeg (win.coef x y)) ++ win.mag x y

/-- `MAG_RD` (R167): `RES0` is sign and magnitude of one coefficient. -/
def execMagRd (x y : Nat) (s : State) : Result :=
  s.dispatch (.magRd x y) s.cbState.acceptsRead (checkCoef s x y)
    (s.withWindow fun win => .next (s.setRes0 (win.signedMag x y)))

/-- `FLG_RD` (R168): `RES0` is one flag word, by window coordinates. -/
def execFlgRd (wx wy : Nat) (s : State) : Result :=
  s.dispatch (.flgRd wx wy) s.cbState.acceptsRead (checkCell s wx wy)
    (s.withWindow fun win => .next (s.setRes0 (BitVec.setWidth 32 (win.flag wx wy))))

/-- `SET_SIG` (R169): after the range check a coefficient already significant raises `SEQUENCE` (R215). -/
def execSetSig (x y : Nat) (neg : Bool) (s : State) : Result :=
  s.dispatch (.setSig x y neg) s.cbState.acceptsPass (checkCoef s x y)
    (s.withWindow fun win =>
      if isSig (win.coef x y) then .next (s.raise .sequence (encode (.setSig x y neg)) 0#32)
      else .next { s with window := some (win.setSig x y neg), cbState := .active })

end Sys2Proof.Machine
end

