-- ==== Sys2Proof/Machine/Passes.lean ====
section
/-! DEFINITION. The Tier-1 coding passes (spec/44_tier1_passes.md R180 to R199). One text serves both directions: the
direction is the coder call's, and a bit that comes back from it, coded or decoded, is used alike. -/

namespace Sys2Proof.Machine

/-- `mode` of R183. -/
inductive Mode where
  | enc
  | dec
  deriving DecidableEq, Repr

/-- What is fixed while a pass command runs: direction, geometry, orientation (R23), `CUP_RL` (R5). -/
structure PassCtx where
  mode : Mode
  w : Nat
  h : Nat
  orient : Orient
  runLength : Bool
  deriving DecidableEq, Repr

/-- What a pass command changes: the window and the coder port. -/
structure Coding where
  win : Window
  cod : List CodEvent
  encIn : Answers EncAnswer
  decIn : Answers Bool
  deriving Repr

/-- The window changed. -/
def Coding.mapWin (c : Coding) (f : Window → Window) : Coding := { c with win := f c.win }

/-- A coder event issued (R38). -/
def Coding.emit (c : Coding) (e : CodEvent) : Coding := { c with cod := c.cod ++ [e] }

/-- `Code(mode, ctx, v)` (R183) at a scan cursor: the bit coded or decoded. A call answered `full` is not recorded as
coded (R196; log 12). -/
def codeBit (m : Mode) (cur : Cursor) (ctx : Nat) (v : Bool) (c : Coding) : Res Coding Bool :=
  match m with
  | .enc =>
    match c.encIn.pop with
    | none => .hold cur c
    | some (.full, more) => .full cur { c with encIn := more }
    | some (.ok, more) => .done v (Coding.emit { c with encIn := more } (.enc ctx v))
  | .dec =>
    match c.decIn.pop with
    | none => .hold cur c
    | some (b, more) => .done b (Coding.emit { c with decIn := more } (.dec ctx b))

/-- A decoded 1 sets bit `p` of the magnitude; encoding writes no magnitude (R186). -/
def storeBit (g : PassCtx) (x y p : Nat) (b : Bool) (c : Coding) : Coding :=
  if g.mode = .dec ∧ b = true then c.mapWin fun win => win.orMag x y p else c

/-- `MAG[y][x][p]` (R186). -/
def magBit (win : Window) (x y p : Nat) : Bool := (win.mag x y).getLsbD p

/-- `SigStep` (R183). -/
def sigStep (g : PassCtx) (cur : Cursor) (x y p : Nat) (c : Coding) : Res Coding Bool :=
  (codeBit g.mode cur (sigLabel g.orient (c.win.coef x y)) (magBit c.win x y p) c).bind fun b c' =>
    .done b (storeBit g x y p b c')

/-- `SignStep` (R184): the bit on the port is sign XOR xorBit; the tracker runs after the coder call. -/
def signStep (g : PassCtx) (cur : Cursor) (x y : Nat) (c : Coding) : Res Coding Unit :=
  let f := c.win.coef x y
  (codeBit g.mode cur (signLabel f) (isNeg f ^^ signXor f) c).bind fun b c' =>
    .done () (c'.mapWin fun win => win.setSig x y (b ^^ signXor f))

/-- `F[y+1][x+1].m <- b`. -/
def Coding.putOwner (c : Coding) (x y : Nat) (m : FlagWord) (b : Bool) : Coding :=
  c.mapWin fun win => win.putBit (x + 1) (y + 1) m b

/-- The significance step and, after a 1, the sign step; then `VIS <- vis` (R185, R188). -/
def sigThenSign (g : PassCtx) (cur : Cursor) (x y p : Nat) (vis : Bool) (c : Coding) : Res Coding Unit :=
  (sigStep g cur x y p c).bind fun b c1 =>
    (if b then signStep g cur x y c1 else .done () c1).bind fun _ c2 =>
      .done () (c2.putOwner x y flagVis vis)

/-- One visit of the significance propagation pass (R185). -/
def sppCell (g : PassCtx) (p y0 x y : Nat) (c : Coding) : Res Coding Unit :=
  let f := c.win.coef x y
  if !isSig f && !isVis f && hasSigNeighbour f then sigThenSign g (.scan .spp p y0 x y) x y p true c
  else .done () c

/-- One visit of the magnitude refinement pass (R187): the context is taken before `REF` is set. -/
def mrpCell (g : PassCtx) (p y0 x y : Nat) (c : Coding) : Res Coding Unit :=
  let f := c.win.coef x y
  if isSig f && !isVis f then
    (codeBit g.mode (.scan .mrp p y0 x y) (refLabel f) (magBit c.win x y p) c).bind fun b c' =>
      .done () ((storeBit g x y p b c').putOwner x y flagRef true)
  else .done () c

/-- `CleanupCell` (R188), with the `VIS` clearing of R190. -/
def cupCell (g : PassCtx) (p y0 x y : Nat) (c : Coding) : Res Coding Unit :=
  let f := c.win.coef x y
  if !isSig f && !isVis f then sigThenSign g (.scan .cup p y0 x y) x y p false c
  else .done () (c.putOwner x y flagVis false)

/-- The run-length condition of R189: a full column of four with no bit of `SIG_NB`, `VIS`, `SIG` set. -/
def quietColumn (g : PassCtx) (win : Window) (y0 x : Nat) : Bool :=
  g.runLength && decide (y0 + 3 < g.h) &&
    [0, 1, 2, 3].all fun r => decide (win.coef x (y0 + r) &&& runMask = 0#16)

/-- `rlen` of R189 on encode: the first row of the column with bit `p` set, 4 if there is none. -/
def runOf (win : Window) (p y0 x : Nat) : Nat :=
  if magBit win x y0 p then 0
  else if magBit win x (y0 + 1) p then 1
  else if magBit win x (y0 + 2) p then 2
  else if magBit win x (y0 + 3) p then 3
  else 4

/-- The rest of a run-length column once the run is known to end at row `y0 + rlen` (R189): significance there is
implied, the sign is coded, the rows below go cell by cell. -/
def runEnd (g : PassCtx) (p y0 x rlen : Nat) (c : Coding) : Res Coding Unit :=
  let y := y0 + rlen
  (signStep g (.scan .cup p y0 x y) x y (storeBit g x y p true c)).bind fun _ c1 =>
    forEach ((rowsOf g.h y0).drop (rlen + 1)) (fun y' => cupCell g p y0 x y') (c1.putOwner x y flagVis false)

/-- A run-length column (R189): one bit in context `CX_RL`, then the run in two bits of context `CX_UNI`, high first. -/
def runColumn (g : PassCtx) (p y0 x : Nat) (c : Coding) : Res Coding Unit :=
  let cur := Cursor.scan .cup p y0 x y0
  let rlen := runOf c.win p y0 x
  (codeBit g.mode cur cxRl (decide (rlen ≠ 4)) c).bind fun found c1 =>
    if found then
      (codeBit g.mode cur cxUni (decide (rlen / 2 = 1)) c1).bind fun hi c2 =>
        (codeBit g.mode cur cxUni (decide (rlen % 2 = 1)) c2).bind fun lo c3 =>
          runEnd g p y0 x (2 * hi.toNat + lo.toNat) c3
    else .done () c1

/-- One column of the cleanup pass (R188, R189). -/
def cupColumn (g : PassCtx) (p y0 x : Nat) (c : Coding) : Res Coding Unit :=
  if quietColumn g c.win y0 x then runColumn g p y0 x c
  else forEach (rowsOf g.h y0) (fun y => cupCell g p y0 x y) c

/-- One column of a pass. -/
def passColumn (g : PassCtx) (k : PassKind) (p y0 x : Nat) (c : Coding) : Res Coding Unit :=
  match k with
  | .spp => forEach (rowsOf g.h y0) (fun y => sppCell g p y0 x y) c
  | .mrp => forEach (rowsOf g.h y0) (fun y => mrpCell g p y0 x y) c
  | .cup => cupColumn g p y0 x c

/-- A pass: every column in scan order (R181), then `PassEnd` (R185, R187 to R189). -/
def codingPass (g : PassCtx) (k : PassKind) (p : Nat) (c : Coding) : Res Coding Unit :=
  (forEach (columns g.w g.h) (fun col => passColumn g k p col.1 col.2) c).bind fun _ c' =>
    .done () (c'.emit (.passEnd k p))

/-- The passes of one bit-plane of a block command (R193): the top plane has the cleanup pass alone (R195). -/
def planePasses (nbp p : Nat) : List PassKind := if p + 1 = nbp then [.cup] else [.spp, .mrp, .cup]

/-- The loop of R193: `CoderReset`, then the planes from `nbp - 1` down to 0. -/
def codingBlock (g : PassCtx) (nbp : Nat) (c : Coding) : Res Coding Unit :=
  forEach (List.range nbp).reverse
    (fun p => forEach (planePasses nbp p) fun k => codingPass g k p) (c.emit .reset)

/-- The largest magnitude of the code-block (R193). -/
def maxMag (win : Window) (w h : Nat) : Nat :=
  (scan w h).foldl (fun acc c => max acc (win.mag c.2.1 c.2.2).toNat) 0

/-- Number of coded bit-planes (R193). -/
def planesOf (win : Window) (w h : Nat) : Nat := bitLen (maxMag win w h)

/-- Number of passes (R193). -/
def passCount (nbp : Nat) : Nat := if 0 < nbp then 3 * nbp - 2 else 0

/-- `RES0` and `RES1` of a block command (R193, R194). -/
def State.blockResults (s : State) (nbp : Nat) : State :=
  s.setRes (BitVec.ofNat 32 nbp) (BitVec.ofNat 32 (passCount nbp))

/-- The pass context of a state (R23, R5). -/
def State.passCtx (s : State) (m : Mode) : PassCtx := ⟨m, s.cbW, s.cbH, s.cbOrient, s.cfg.runLength⟩

/-- What a pass command starts from. -/
def State.coding (s : State) (win : Window) : Coding := ⟨win, s.cod, s.encIn, s.decIn⟩

/-- What a pass command leaves, with `CB_STATE` = `ACTIVE` (R191, R193). -/
def State.withCoding (s : State) (c : Coding) : State :=
  { s with cbState := .active, window := some c.win, cod := c.cod, encIn := c.encIn, decIn := c.decIn }

/-- The end of a pass command: completed, with its results; refused by the coder, which raises `CAPACITY` (R196, R216);
or held (R73). -/
def State.finish (s : State) (i : Instr) (results : State → State) : Res Coding Unit → Result
  | .done _ c => .next (results (s.withCoding c))
  | .full cur c => .next ((s.withCoding c).raise .capacity (encode i) (errPosOf cur))
  | .hold cur c => .next (s.hold i cur (s.withCoding c))

/-- A single pass in one direction (R191, R192). -/
def State.onePass (s : State) (i : Instr) (m : Mode) (k : PassKind) (p : Nat) : Result :=
  s.dispatch i s.cbState.acceptsPass (checkPlane p)
    (s.withWindow fun win => s.finish i id (codingPass (s.passCtx m) k p (s.coding win)))

/-- `T1_ENC_PASS` (R191). -/
def execT1EncPass (k : PassKind) (p : Nat) (s : State) : Result := s.onePass (.t1EncPass k p) .enc k p

/-- `T1_DEC_PASS` (R192). -/
def execT1DecPass (k : PassKind) (p : Nat) (s : State) : Result := s.onePass (.t1DecPass k p) .dec k p

/-- `T1_ENC_BLOCK` (R193). -/
def execT1EncBlock (s : State) : Result :=
  s.dispatch .t1EncBlock s.cbState.acceptsLoad none
    (s.withWindow fun win =>
      let nbp := planesOf win s.cbW s.cbH
      s.finish .t1EncBlock (fun t => t.blockResults nbp) (codingBlock (s.passCtx .enc) nbp (s.coding win)))

/-- `T1_DEC_BLOCK` (R194). -/
def execT1DecBlock (nbp : Nat) (s : State) : Result :=
  s.dispatch (.t1DecBlock nbp) s.cbState.acceptsLoad (checkPlanes nbp)
    (s.withWindow fun win =>
      s.finish (.t1DecBlock nbp) (fun t => t.blockResults nbp)
        (codingBlock (s.passCtx .dec) nbp (s.coding win)))

end Sys2Proof.Machine
end

