-- ==== Sys2Proof/Machine/System.lean ====
section
/-! DEFINITION. The system commands (spec/40_system.md R101 to R103). -/

namespace Sys2Proof.Machine

/-- `NOP` (R101): no state changes. -/
def execNop (s : State) : Result := s.dispatch .nop true none (.next s)

/-- `SOFT_RESET` (R102): accepted always, also while `ERR` = 1. -/
def execSoftReset (s : State) : Result := .next s.blockReset

/-- `CLR_ERR` (R103): accepted always; with `ERR` = 0 it changes nothing that R36 lets be other than 0. -/
def execClrErr (s : State) : Result := .next s.clearError

end Sys2Proof.Machine
end

