-- ==== Sys2Proof/Machine/TagTree.lean ====
section
/-! DEFINITION. The tag-tree evaluator (spec/41_tagtree.md R110 to R123). -/

namespace Sys2Proof.Machine

/-- What `TT_INIT` writes into every node (R112). -/
def Node.fresh : Node := ⟨ttInf, 0, false⟩

/-- Node `i` (R31). -/
def nodeAt (m : Memory Node) (i : Nat) : Node := Memory.read Node.fresh m i

/-- Node `i` replaced. -/
def putNode (m : Memory Node) (i : Nat) (n : Node) : Memory Node := Memory.write Node.fresh m i n

/-- The minimum of the values of some nodes; `TT_INF` is its identity (R106, R113). -/
def minVal (m : Memory Node) (l : List Nat) : Nat := l.foldl (fun acc i => min acc (nodeAt m i).val) ttInf

/-- Recompute every ancestor of `(x, y)` as the minimum of its children, bottom-up (R113). The first level is the one of
`(x, y)`. -/
def raiseMins : List Level → Nat → Nat → Memory Node → Memory Node
  | lv :: up :: rest, x, y, m =>
    let a := up.node (x / 2) (y / 2)
    raiseMins (up :: rest) (x / 2) (y / 2)
      (putNode m a { nodeAt m a with val := minVal m (childrenOf lv (x / 2) (y / 2)) })
  | _, _, _, m => m

/-- Store leaf `(x, y)` and restore the minimum invariant (R113). -/
def loadLeaf (w h x y v : Nat) (m : Memory Node) : Memory Node :=
  let leaf := Level.node ⟨0, w, h⟩ x y
  raiseMins (levels w h) x y (putNode m leaf { nodeAt m leaf with val := v })

/-- The working state of a walk (R115): the nodes, the header port, the floor and the bit counter. -/
structure Walk where
  nodes : Memory Node
  hdr : List HdrEvent
  hdrIn : Answers Bool
  floor : Nat
  nbits : Nat
  deriving Repr

/-- The node step of `TT_ENC` (R116) with the given number of candidate values left (`T + 1 - floor`). -/
def encNode (n : Nat) : Nat → Walk → Walk
  | 0, k => k
  | left + 1, k =>
    let nd := nodeAt k.nodes n
    if nd.val ≤ k.floor then
      if nd.vis then k
      else { k with
        nodes := putNode k.nodes n { nd with vis := true }
        hdr := k.hdr ++ [HdrEvent.put true]
        nbits := k.nbits + 1 }
    else encNode n left { k with hdr := k.hdr ++ [HdrEvent.put false], nbits := k.nbits + 1, floor := k.floor + 1 }

/-- The node step of `TT_DEC` (R117) with the given number of candidate values left (`T + 1 - floor`). It stops where
`HdrGet` does not answer (R73). -/
def decNode (t : TreeSel) (n : Nat) : Nat → Walk → Res Walk Unit
  | 0, k => .done () k
  | left + 1, k =>
    let nd := nodeAt k.nodes n
    if k.floor < nd.val then
      match k.hdrIn.pop with
      | none => .hold (.path t n) k
      | some (b, more) =>
        let k' := { k with hdrIn := more, hdr := k.hdr ++ [HdrEvent.get b], nbits := k.nbits + 1 }
        if b then .done () { k' with nodes := putNode k.nodes n { nd with val := k.floor, vis := true } }
        else decNode t n left { k' with floor := k.floor + 1 }
    else .done () k

/-- The node step of either query. -/
def nodeStep (decoding : Bool) (t : TreeSel) (thr n : Nat) (k : Walk) : Res Walk Unit :=
  if decoding then decNode t n (thr + 1 - k.floor) k else .done () (encNode n (thr + 1 - k.floor) k)

/-- Entering a node: its floor is raised to the walk's, or the walk's to the node's (R115). -/
def enterNode (n : Nat) (k : Walk) : Walk :=
  let nd := nodeAt k.nodes n
  if nd.low < k.floor then { k with nodes := putNode k.nodes n { nd with low := k.floor } }
  else { k with floor := nd.low }

/-- Leaving a node: its floor is the walk's (R115). -/
def leaveNode (n : Nat) (k : Walk) : Walk :=
  { k with nodes := putNode k.nodes n { nodeAt k.nodes n with low := k.floor } }

/-- One node of the path (R115). -/
def visitNode (decoding : Bool) (t : TreeSel) (thr n : Nat) (k : Walk) : Res Walk Unit :=
  (nodeStep decoding t thr n (enterNode n k)).bind fun _ k' => .done () (leaveNode n k')

/-- The walk from the root to leaf `(x, y)` (R115). -/
def walk (decoding : Bool) (t : TreeSel) (w h x y thr : Nat) (k : Walk) : Res Walk Unit :=
  forEach (treePath w h x y) (visitNode decoding t thr) k

/-- `done` of R118. -/
def queryDone (nd : Node) (thr : Nat) : Bool := nd.vis && decide (nd.val ≤ thr)

/-- `RES0` of a query (R118). -/
def queryResult (nd : Node) (thr : Nat) : Reg :=
  if queryDone nd thr then BitVec.ofNat 32 (256 + nd.val % 256) else BitVec.ofNat 32 (nd.low % 256)

/-- The state after a walk: nodes, header port. -/
def State.afterWalk (s : State) (t : TreeSel) (mode : TreeMode) (k : Walk) : State :=
  State.setTree { s with hdr := k.hdr, hdrIn := k.hdrIn } t { s.tree t with mode := mode, nodes := some k.nodes }

/-- A query (R115 to R118): the walk, the new mode and the results; a walk that waits holds the command (R73) with the
mode unchanged. `HdrPut` cannot fail (R71), so no walk ends in `full`. -/
def State.query (s : State) (i : Instr) (decoding : Bool) (t : TreeSel) (mode : TreeMode) (x y thr : Nat) : Result :=
  let tr := s.tree t
  tr.withNodes fun m =>
    match walk decoding t tr.w tr.h x y thr ⟨m, s.hdr, s.hdrIn, 0, 0⟩ with
    | .done _ k =>
      let leaf := nodeAt k.nodes (Level.node ⟨0, tr.w, tr.h⟩ x y)
      .next ((s.afterWalk t mode k).setRes (queryResult leaf thr) (BitVec.ofNat 32 k.nbits))
    | .hold cur k => .next (s.hold i cur (s.afterWalk t tr.mode k))
    | .full cur k => .next (s.hold i cur (s.afterWalk t tr.mode k))

/-- `TT_INIT` (R112): a fresh tree of the given size. -/
def execTtInit (t : TreeSel) (w h : Nat) (s : State) : Result :=
  s.dispatch (.ttInit t w h) true (checkTreeSize s.cfg.ttMaxDim w h)
    (.next (s.setTree t ⟨w, h, .fresh, some []⟩))

/-- `TT_SET` (R113): one leaf value, minima restored. -/
def execTtSet (t : TreeSel) (x y v : Nat) (s : State) : Result :=
  let tr := s.tree t
  s.dispatch (.ttSet t x y v) tr.mode.acceptsSet (checkLeaf tr x y v)
    (tr.withNodes fun m =>
      .next (s.setTree t { tr with mode := .loaded, nodes := some (loadLeaf tr.w tr.h x y v m) }))

/-- `TT_ENC` (R116). -/
def execTtEnc (t : TreeSel) (x y thr : Nat) (s : State) : Result :=
  s.dispatch (.ttEnc t x y thr) (s.tree t).mode.acceptsEnc (checkLeaf (s.tree t) x y thr)
    (s.query (.ttEnc t x y thr) false t .enc x y thr)

/-- `TT_DEC` (R117). -/
def execTtDec (t : TreeSel) (x y thr : Nat) (s : State) : Result :=
  s.dispatch (.ttDec t x y thr) (s.tree t).mode.acceptsDec (checkLeaf (s.tree t) x y thr)
    (s.query (.ttDec t x y thr) true t .dec x y thr)

/-- The node word `{vis, low, val}` (R60, R119). -/
def Node.word (n : Node) : Reg :=
  BitVec.ofNat 32 (n.vis.toNat * 65536 + n.low % 256 * 256 + n.val % 256)

/-- `RES1` of `TT_RD`: the parent, all ones for the root (R119). -/
def parentWord (w h i : Nat) : Reg :=
  match parentOf w h i with
  | some a => BitVec.ofNat 32 a
  | none => 0xFFFFFFFF#32

/-- `TT_RD` (R119): one node and its parent. -/
def execTtRd (t : TreeSel) (node : Nat) (s : State) : Result :=
  let tr := s.tree t
  s.dispatch (.ttRd t node) tr.mode.acceptsRead (checkNode tr node)
    (tr.withNodes fun m => .next (s.setRes (nodeAt m node).word (parentWord tr.w tr.h node)))

end Sys2Proof.Machine
end

