-- ==== Sys2Proof/Machine/Dispatch.lean ====
section
/-! DEFINITION. The meaning of every command, one arm each (spec/30_encoding.md R88). -/

namespace Sys2Proof.Machine

def exec (i : Instr) (s : State) : Host.Outcome State Fault Refusal :=
  match i with
  | .nop => Sys2Proof.Machine.execNop s
  | .softReset => Sys2Proof.Machine.execSoftReset s
  | .clrErr => Sys2Proof.Machine.execClrErr s
  | .ttInit t w h => Sys2Proof.Machine.execTtInit t w h s
  | .ttSet t x y v => Sys2Proof.Machine.execTtSet t x y v s
  | .ttEnc t x y thr => Sys2Proof.Machine.execTtEnc t x y thr s
  | .ttDec t x y thr => Sys2Proof.Machine.execTtDec t x y thr s
  | .ttRd t node => Sys2Proof.Machine.execTtRd t node s
  | .ctxSig o f => Sys2Proof.Machine.execCtxSig o f s
  | .ctxRef f => Sys2Proof.Machine.execCtxRef f s
  | .ctxSgn f => Sys2Proof.Machine.execCtxSgn f s
  | .cbCfg o w h => Sys2Proof.Machine.execCbCfg o w h s
  | .cbClear => Sys2Proof.Machine.execCbClear s
  | .magWr x y neg mag => Sys2Proof.Machine.execMagWr x y neg mag s
  | .magRd x y => Sys2Proof.Machine.execMagRd x y s
  | .flgRd wx wy => Sys2Proof.Machine.execFlgRd wx wy s
  | .setSig x y neg => Sys2Proof.Machine.execSetSig x y neg s
  | .t1EncPass k p => Sys2Proof.Machine.execT1EncPass k p s
  | .t1DecPass k p => Sys2Proof.Machine.execT1DecPass k p s
  | .t1EncBlock => Sys2Proof.Machine.execT1EncBlock s
  | .t1DecBlock nbp => Sys2Proof.Machine.execT1DecBlock nbp s

end Sys2Proof.Machine
end

