-- ==== Sys2Proof/Machine/HostPort.lean ====
section
/-! DEFINITION. The host's side: the register map (spec/10_state.md R40 to R42), register accesses (spec/20_memory.md
R63, R64), the reset input (R240) and late port answers (R73). -/

namespace Sys2Proof.Machine

/-- Codes of the register views (R24, R33, R36). -/
def CbState.code : CbState → Nat
  | .unconf => 0
  | .conf => 1
  | .ready => 2
  | .active => 3
  | .dirty => 4

def TreeMode.code : TreeMode → Nat
  | .uninit => 0
  | .fresh => 1
  | .loaded => 2
  | .enc => 3
  | .dec => 4

/-- `STATUS` (R41). -/
def State.statusReg (s : State) : Reg :=
  BitVec.ofNat 32 (s.busy.toNat + s.err.toNat * 2 + s.everErr.toNat * 4 + s.ovr.toNat * 8 + s.cbState.code * 16
    + s.tree0.mode.code * 256 + s.tree1.mode.code * 4096)

/-- `ERRCODE` (R36, R40). -/
def State.errCodeReg (s : State) : Reg :=
  match s.errCode with
  | none => 0#32
  | some c => BitVec.ofNat 32 c.code

/-- `CBCFG` (R42). -/
def State.cbCfgReg (s : State) : Reg :=
  BitVec.ofNat 32 (s.cbW % 128 + s.cbH % 128 * 256 + s.cbOrient.code * 65536)

/-- `TTCFG<t>` (R42). -/
def TagTree.cfgReg (tr : TagTree) : Reg := BitVec.ofNat 32 (tr.w % 2048 + tr.h % 2048 * 65536)

/-- The registers by offset (R40): write-only ones and the rest of the aperture read 0. -/
def State.readReg (s : State) (off : Nat) : Reg :=
  match off with
  | 0x08 => s.statusReg
  | 0x0C => s.errCodeReg
  | 0x10 => BitVec.extractLsb' 0 32 s.errCmd
  | 0x14 => BitVec.extractLsb' 32 32 s.errCmd
  | 0x18 => s.errPos
  | 0x1C => s.res0
  | 0x20 => s.res1
  | 0x24 => s.cbCfgReg
  | 0x28 => s.tree0.cfgReg
  | 0x2C => s.tree1.cfgReg
  | 0x30 => idValue
  | _ => 0#32

/-- `MemRead(base + off, n)` (R63): an access of another width or alignment is not performed and returns 0. -/
def State.busRead (s : State) (off width : Nat) : Reg :=
  if width = 4 ∧ off % 4 = 0 then s.readReg off else 0#32

/-- What an event leads to: a state, or a command to run from a state. -/
inductive HostAction where
  | settle (s : State)
  | run (i : Instr) (s : State)
  deriving Repr

/-- A write of `CMD_HI` (R64, R87). While `BUSY` = 1 only the word of `SOFT_RESET` is taken, any other sets `OVR`. An
illegal word raises `ILLEGAL`, or is dropped while `ERR` = 1 (R219). -/
def State.writeCmdHi (s : State) (hi : Reg) : HostAction :=
  let w := commandWord hi s.cmdLo
  if s.busy then
    if w = encode .softReset then .run .softReset s else .settle { s with ovr := true }
  else
    match decode w with
    | .ok i => .run i s
    | .error _ => .settle (if s.err then s else s.raise .illegal w 0#32)

/-- `MemWrite(base + off, n, v)` (R63, R64): only aligned 32-bit writes of `CMD_LO` and `CMD_HI` do anything. -/
def State.busWrite (s : State) (off width : Nat) (v : Reg) : HostAction :=
  if width = 4 then
    match off with
    | 0x00 => .settle { s with cmdLo := v }
    | 0x04 => s.writeCmdHi v
    | _ => .settle s
  else .settle s

/-- A command accepted but still running when the next event lands (log 7). -/
def HostAction.delayed : HostAction → HostAction
  | .settle s => .settle s
  | .run i s => if s.busy then .run i s else .settle (s.hold i .start s)

/-- A held command goes on (R73; log 6). -/
def State.resume (s : State) : HostAction :=
  match s.held with
  | some h => .run h.cmd (s.rewind h)
  | none => .settle s

/-- One event (R11, R64, R73, R240). -/
def hostEvent (e : Event) (s : State) : HostAction :=
  match e with
  | .read off width => .settle { s with rdata := s.busRead off width }
  | .write off width v => s.busWrite off width v
  | .slowCommand v => (s.writeCmdHi v).delayed
  | .proceed => s.resume
  | .reset => .settle s.blockReset
  | .encAnswer a => (s.offerEnc a).resume
  | .decAnswer b => (s.offerDec b).resume
  | .hdrAnswer b => (s.offerHdr b).resume

/-- The next event and the state it lands in; with none left the block stays as it is (log 4). -/
def nextAction (s : State) : HostAction :=
  match s.inputs with
  | [] => .settle s
  | e :: more => hostEvent e { s with inputs := more }

/-- A state about to receive the command word `w`: its low half in `CMD_LO`, the write of its high half the next event,
no command in progress (log 11). -/
def State.withCommand (s : State) (w : Word) : State :=
  { s with
    cmdLo := BitVec.extractLsb' 0 32 w
    inputs := .write 0x04 4 (BitVec.extractLsb' 32 32 w) :: s.inputs
    busy := false
    held := none }

end Sys2Proof.Machine
end

