-- ==== Sys2Proof/Machine/Step.lean ====
section
/-! DEFINITION. One step of the machine: the next event from outside and, where it starts or resumes a command, that
command run whole (spec/92_eei_decisions.md D2: "a single step function: one command"; log 3). -/

namespace Sys2Proof.Machine

/-- One step (R64, R67). -/
def step (s : State) : Host.Outcome State Fault Refusal :=
  match nextAction s with
  | .settle t => .next t
  | .run i t => exec i t

/-- `s` with an instruction of `spec/opcode_table.json` as the next command: it stands for the host's two register
writes (log 11). -/
def State.withFetchWord (s : State) (nbits w : Nat) : State :=
  s.withCommand (BitVec.ofNat 64 (w % 2 ^ nbits))

end Sys2Proof.Machine
end

