-- ==== Sys2Proof/Safety.lean ====
section
/-! DEFINITION. The terms claims about J2KT1 are made in: the canonical form of its memories, the life cycle of its
units (spec/10_state.md R24, R30, R33, R36), the flag-word invariants (R27, R28), the tag-tree invariants (R34), and
when a port is sure to answer (spec/20_memory.md R72, R73). -/

namespace Sys2Proof.Machine

/-! Memories in canonical form -/

/-- Both memories of a window are in canonical form. -/
def Window.memWf (win : Window) : Bool := Memory.wf 0#16 win.flags && Memory.wf 0#31 win.mags

/-- The node memory of a tree is in canonical form. -/
def TagTree.memWf (tr : TagTree) : Bool := tr.nodes.all fun m => Memory.wf Node.fresh m

/-- Every memory of a state, those a held command started from included, is in canonical form. -/
def State.memWf (s : State) : Bool :=
  s.window.all Window.memWf && s.tree0.memWf && s.tree1.memWf &&
    s.held.all fun h => h.window.all Window.memWf && h.tree0.memWf && h.tree1.memWf

/-! Life cycle -/

/-- The window's contents exist exactly in the states that allow them to be read (R24, R45), and the geometry is the
configured one or none (R23). -/
def windowOk (st : CbState) (w h : Nat) (win : Option Window) : Prop :=
  win.isSome = st.acceptsRead ∧
    (st = .unconf → w = 0 ∧ h = 0) ∧
    (st ≠ .unconf → 1 ≤ w ∧ w ≤ cbMax ∧ 1 ≤ h ∧ h ≤ cbMax)

/-- A tree is as after reset, or has a size `TT_INIT` admits and a node array of 8-bit numbers (R30, R31, R33). -/
def TagTree.ok (maxDim : Nat) (tr : TagTree) : Prop :=
  (tr.mode = .uninit → tr = TagTree.uninit) ∧
    (tr.mode ≠ .uninit → 1 ≤ tr.w ∧ tr.w ≤ maxDim ∧ 1 ≤ tr.h ∧ tr.h ≤ maxDim ∧ tr.nodes.isSome = true) ∧
    ∀ m, tr.nodes = some m → ∀ i, (nodeAt m i).val ≤ ttInf ∧ (nodeAt m i).low ≤ ttInf

/-- What the life-cycle states of the units say (R24, R33, R45), of the state and of what a held command started from;
`BUSY` is 1 between steps exactly while a command is held (R73); `ERR` is 1 exactly while a fault code stands, and
`EVERERR` with it (R36, R216). -/
structure State.LifeCycle (s : State) : Prop where
  cfgOk : s.cfg.ok
  windowNow : windowOk s.cbState s.cbW s.cbH s.window
  tree0Now : s.tree0.ok s.cfg.ttMaxDim
  tree1Now : s.tree1.ok s.cfg.ttMaxDim
  busyHeld : s.busy = s.held.isSome
  errCode : s.err = s.errCode.isSome
  everErr : s.err = true → s.everErr = true
  noErrorLeft : s.err = false → s.errCmd = 0#64 ∧ s.errPos = 0#32
  windowThen : ∀ h, s.held = some h → windowOk h.cbState s.cbW s.cbH h.window
  tree0Then : ∀ h, s.held = some h → h.tree0.ok s.cfg.ttMaxDim
  tree1Then : ∀ h, s.held = some h → h.tree1.ok s.cfg.ttMaxDim

/-! Flag words -/

/-- A window cell that belongs to a coefficient of a `w` by `h` code-block (R9). -/
def inBlock (w h wx wy : Nat) : Bool := decide (1 ≤ wx ∧ wx ≤ w ∧ 1 ≤ wy ∧ wy ≤ h)

/-- The cell belongs to a significant coefficient. -/
def Window.sigIn (win : Window) (w h wx wy : Nat) : Bool := inBlock w h wx wy && isSig (win.flag wx wy)

/-- The cell belongs to a significant negative coefficient. -/
def Window.negIn (win : Window) (w h wx wy : Nat) : Bool := win.sigIn w h wx wy && isNeg (win.flag wx wy)

/-- The eight neighbour-significance bits of the cell are the neighbours' `SIG` bits (R27 (a)). -/
def Window.sigBitsOk (win : Window) (w h wx wy : Nat) : Prop :=
  (win.flag wx wy).getLsbD 0 = win.sigIn w h wx (wy - 1) ∧
    (win.flag wx wy).getLsbD 1 = win.sigIn w h (wx + 1) wy ∧
    (win.flag wx wy).getLsbD 2 = win.sigIn w h (wx - 1) wy ∧
    (win.flag wx wy).getLsbD 3 = win.sigIn w h wx (wy + 1) ∧
    (win.flag wx wy).getLsbD 4 = win.sigIn w h (wx + 1) (wy - 1) ∧
    (win.flag wx wy).getLsbD 5 = win.sigIn w h (wx - 1) (wy - 1) ∧
    (win.flag wx wy).getLsbD 6 = win.sigIn w h (wx + 1) (wy + 1) ∧
    (win.flag wx wy).getLsbD 7 = win.sigIn w h (wx - 1) (wy + 1)

/-- The four neighbour-sign bits of the cell are the neighbours' `SIG` and `SGN` (R27 (b)). -/
def Window.sgnBitsOk (win : Window) (w h wx wy : Nat) : Prop :=
  (win.flag wx wy).getLsbD 8 = win.negIn w h wx (wy - 1) ∧
    (win.flag wx wy).getLsbD 9 = win.negIn w h wx (wy + 1) ∧
    (win.flag wx wy).getLsbD 10 = win.negIn w h (wx - 1) wy ∧
    (win.flag wx wy).getLsbD 11 = win.negIn w h (wx + 1) wy

/-- The flag-word invariants R27 (a), (b), (d) of every coefficient. -/
def Window.symmetric (win : Window) (w h : Nat) : Prop :=
  ∀ x y, x < w → y < h →
    win.sigBitsOk w h (x + 1) (y + 1) ∧ win.sgnBitsOk w h (x + 1) (y + 1) ∧
      (isRef (win.coef x y) = true → isSig (win.coef x y) = true)

/-- In `READY` no coefficient is significant and no pass has run (R24): of every flag word, border included, all bits but
`SGN`, which `MAG_WR` writes (R166), are 0. -/
def Window.quiet (win : Window) (w h : Nat) : Prop :=
  ∀ wx wy, wx ≤ w + 1 → wy ≤ h + 1 → win.flag wx wy &&& 0x7FFF#16 = 0#16

/-- The owner bits of the border cells stay 0 (R28). -/
def Window.borderOk (win : Window) (w h : Nat) : Prop :=
  ∀ wx wy, wx ≤ w + 1 → wy ≤ h + 1 → inBlock w h wx wy = false → win.flag wx wy &&& 0xF000#16 = 0#16

/-- The window invariants of one life-cycle state. -/
def flagsOk (st : CbState) (w h : Nat) (win : Option Window) : Prop :=
  ∀ v, win = some v → v.symmetric w h ∧ v.borderOk w h ∧ (st = .ready → v.quiet w h)

/-- The window invariants, of the state and of what a held command started from. -/
def State.flagsOk (s : State) : Prop :=
  Machine.flagsOk s.cbState s.cbW s.cbH s.window ∧
    ∀ h, s.held = some h → Machine.flagsOk h.cbState s.cbW s.cbH h.window

/-! Tag trees -/

/-- `v` is the least value of the nodes `l`, 255 if there is none (R34 (a), R106). -/
def isMinOf (m : Memory Node) (l : List Nat) (v : Nat) : Prop :=
  v ≤ 255 ∧ (∀ n ∈ l, v ≤ (nodeAt m n).val) ∧ (v = 255 ∨ ∃ n ∈ l, (nodeAt m n).val = v)

/-- Every node above the first level is the minimum of its children (R34 (a)). -/
def minOk : List Level → Memory Node → Prop
  | lv :: up :: rest, m =>
    (∀ i j, i < up.w → j < up.h → isMinOf m (childrenOf lv i j) (nodeAt m (up.node i j)).val) ∧
      minOk (up :: rest) m
  | _, _ => True

/-- Below a node that has been reported its parent has been, and stands no higher (R34 (c), R111). -/
def reportedOk : List Level → Memory Node → Prop
  | lv :: up :: rest, m =>
    (∀ i j, i < lv.w → j < lv.h → (nodeAt m (lv.node i j)).vis = true →
      (nodeAt m (up.node (i / 2) (j / 2))).vis = true ∧
        (nodeAt m (up.node (i / 2) (j / 2))).low ≤ (nodeAt m (lv.node i j)).low) ∧
      reportedOk (up :: rest) m
  | _, _ => True

/-- What the floor and the visited flag of a node mean in each mode (R31, R33, R34): nothing reported before the first
query; on an encoder's tree the floor is never above the value and meets it when reported; on a decoder's tree a node
is unknown until it is reported. -/
def nodeOk (mode : TreeMode) (n : Node) : Prop :=
  match mode with
  | .uninit => True
  | .fresh => n = Node.fresh
  | .loaded => n.low = 0 ∧ n.vis = false
  | .enc => n.low ≤ n.val ∧ (n.vis = true → n.low = n.val)
  | .dec => (n.vis = true → n.val = n.low) ∧ (n.vis = false → n.val = ttInf)

/-- Whether R34 (a) is claimed in a mode. -/
def TreeMode.hasMins : TreeMode → Bool
  | .uninit => false
  | .fresh => true
  | .loaded => true
  | .enc => true
  | .dec => false

/-- The node invariants of a tree (R34). -/
def TagTree.coherent (tr : TagTree) : Prop :=
  ∀ m, tr.nodes = some m →
    (∀ i, nodeOk tr.mode (nodeAt m i)) ∧ (tr.mode.hasMins = true → minOk (levels tr.w tr.h) m) ∧
      (tr.mode = .dec → reportedOk (levels tr.w tr.h) m)

/-- A `TT_DEC` waits at a node of tree `t`. -/
def State.waitsOn (s : State) (t : TreeSel) : Prop := ∃ h n, s.held = some h ∧ h.cursor = .path t n

/-- The node invariants of both trees, of the state and of what a held command started from. A tree on which a `TT_DEC`
waits has those of mode `DEC` whatever its mode still says: the nodes above the waiting one are already updated, the mode
is not (R117; log 16). -/
def State.treesOk (s : State) : Prop :=
  (∀ t, (¬ s.waitsOn t → (s.tree t).coherent) ∧ (s.waitsOn t → { s.tree t with mode := .dec }.coherent)) ∧
    ∀ h, s.held = some h → h.tree0.coherent ∧ h.tree1.coherent

/-- Every ancestor of `(x, y)` is the minimum of its children (R113). The first level is the one of `(x, y)`. -/
def pathMinOk : List Level → Nat → Nat → Memory Node → Prop
  | lv :: up :: rest, x, y, m =>
    isMinOf m (childrenOf lv (x / 2) (y / 2)) (nodeAt m (up.node (x / 2) (y / 2))).val ∧
      pathMinOk (up :: rest) (x / 2) (y / 2) m
  | _, _, _, _ => True

/-! Faults -/

/-- Fault entry of the four precise faults (R216, R217), field by field. -/
def State.faulted (s : State) (c : ErrCode) (w : Word) : State :=
  { s with
    err := true
    everErr := true
    errCode := some c
    errCmd := w
    errPos := 0#32
    busy := false
    held := none }

/-! Ports -/

/-- The port answers every call, for ever. -/
def Answers.endless {α : Type} (q : Answers α) : Bool := q.rest.isSome

/-- `CoderEncode` answers every call with `ok`. -/
def Answers.neverFull (q : Answers EncAnswer) : Bool :=
  q.pending.all (fun a => decide (a = .ok)) && decide (q.rest = some .ok)

/-- The port gave exactly the answers `l`, in order: those of `pending` first, then `rest` again and again (R72). -/
def Answers.gives {α : Type} (q : Answers α) (l : List α) (r : Answers α) : Prop :=
  r.rest = q.rest ∧
    (q.pending = l ++ r.pending ∨
      (r.pending = [] ∧ ∃ (n : Nat) (a : α), q.rest = some a ∧ l = q.pending ++ List.replicate n a))

/-! Traces -/

/-- The bits of the `Enc` events of a trace, in order (R198). -/
def encBits : List CodEvent → List Bool
  | [] => []
  | .enc _ b :: rest => b :: encBits rest
  | .reset :: rest => encBits rest
  | .dec _ _ :: rest => encBits rest
  | .passEnd _ _ :: rest => encBits rest

/-- The bits of the `Dec` events of a trace, in order (R198). -/
def decBits : List CodEvent → List Bool
  | [] => []
  | .dec _ b :: rest => b :: decBits rest
  | .reset :: rest => decBits rest
  | .enc _ _ :: rest => decBits rest
  | .passEnd _ _ :: rest => decBits rest

/-- The trace with each `Enc(ctx, b)` replaced by `Dec(ctx) -> b` (R198). -/
def decoded : List CodEvent → List CodEvent
  | [] => []
  | .enc ctx b :: rest => .dec ctx b :: decoded rest
  | .reset :: rest => .reset :: decoded rest
  | .dec ctx b :: rest => .dec ctx b :: decoded rest
  | .passEnd k p :: rest => .passEnd k p :: decoded rest

/-- The `PassEnd` events of a trace, in order (R193). -/
def passEnds : List CodEvent → List (PassKind × Nat)
  | [] => []
  | .passEnd k p :: rest => (k, p) :: passEnds rest
  | .enc _ _ :: rest => passEnds rest
  | .dec _ _ :: rest => passEnds rest
  | .reset :: rest => passEnds rest

/-- The passes of a block of `nbp` bit-planes, top plane first, the top plane with the cleanup pass alone (R193, R195). -/
def blockPasses : Nat → List (PassKind × Nat)
  | 0 => []
  | n + 1 => (.cup, n) :: (List.range n).reverse.flatMap fun p => [(.spp, p), (.mrp, p), (.cup, p)]

/-- Two flag words agree but for the sign of an insignificant coefficient (R198). -/
def sameButIdleSign (f g : FlagWord) : Prop :=
  f &&& 0x7FFF#16 = g &&& 0x7FFF#16 ∧ (isSig f = true → f = g)

/-- Two windows agree, cell by cell, but for the signs of insignificant coefficients (R198). -/
def Window.sameFlags (a b : Window) (w h : Nat) : Prop :=
  ∀ wx wy, wx ≤ w + 1 → wy ≤ h + 1 → sameButIdleSign (a.flag wx wy) (b.flag wx wy)

/-- An encoder's and a decoder's node agree (R122). -/
def nodesAgree (e d : Node) : Prop := e.low = d.low ∧ e.vis = d.vis ∧ (e.vis = true → e.val = d.val)

/-- An encoder's tree and a decoder's tree of the same size agree at every node (R122). -/
def TagTree.agrees (e d : TagTree) : Prop :=
  e.w = d.w ∧ e.h = d.h ∧
    ∃ me md, e.nodes = some me ∧ d.nodes = some md ∧ ∀ i, nodesAgree (nodeAt me i) (nodeAt md i)

/-! Queries as relations

What R115 to R117 allow at the nodes of a path, said of the nodes before and after. -/

/-- What a query does at one node: from the node and the walk's floor, with the bits that crossed the header port, to the
node and the walk's floor. -/
abbrev NodeStep := Node → Nat → List Bool → Node → Nat → Prop

/-- One node of a `TT_ENC` with threshold `thr` (R115, R116). The walk stands at the higher of the two floors. Past the
threshold it asks nothing; below it, it puts a 0 for each candidate below the value and, if the value is within the
threshold, a 1 unless the node was reported before. The node keeps its value and takes the walk's floor. -/
def encStep (thr : Nat) : NodeStep := fun nd f bits nd' f' =>
  let start := max f nd.low
  (thr < start → bits = [] ∧ f' = start ∧ nd' = { nd with low := start }) ∧
    (start ≤ thr → thr < nd.val →
      bits = List.replicate (thr + 1 - start) false ∧ f' = thr + 1 ∧ nd' = { nd with low := thr + 1 }) ∧
    (start ≤ thr → nd.val ≤ thr →
      bits = List.replicate (nd.val - start) false ++ (if nd.vis then [] else [true]) ∧ f' = max start nd.val ∧
        nd' = { nd with low := max start nd.val, vis := true })

/-- One node of a `TT_DEC` with threshold `thr` (R115, R117). The walk stands at the higher of the two floors and takes a
bit for each candidate that is within the threshold and below the value: a 0 raises the floor, a 1 makes the floor the
value of a reported node and ends the node. The node takes the walk's floor. -/
def decStep (thr : Nat) : NodeStep := fun nd f bits nd' f' =>
  let start := max f nd.low
  ∃ zeros : Nat, f' = start + zeros ∧ (∀ i, i < zeros → start + i ≤ thr ∧ start + i < nd.val) ∧
    ((bits = List.replicate zeros false ∧ (thr < f' ∨ nd.val ≤ f') ∧ nd' = { nd with low := f' }) ∨
      (bits = List.replicate zeros false ++ [true] ∧ f' ≤ thr ∧ f' < nd.val ∧ nd' = ⟨f', f', true⟩))

/-- Only node `n` is written, with `nd`. -/
def onlyNode (m m' : Memory Node) (n : Nat) (nd : Node) : Prop :=
  nodeAt m' n = nd ∧ ∀ i, i ≠ n → nodeAt m' i = nodeAt m i

/-- The nodes of a path one after the other, the floor carried along (R115). -/
def walkVisit (step : NodeStep) : List Nat → Memory Node → Nat → List Bool → Memory Node → Nat → Prop
  | [], m, f, bits, m', f' => bits = [] ∧ m' = m ∧ f' = f
  | n :: rest, m, f, bits, m', f' =>
    ∃ (nd : Node) (f1 : Nat) (m1 : Memory Node) (b1 b2 : List Bool),
      step (nodeAt m n) f b1 nd f1 ∧ onlyNode m m1 n nd ∧ walkVisit step rest m1 f1 b2 m' f' ∧ bits = b1 ++ b2

/-! Coding passes as relations

What R183 to R189 allow, said of the flag words and magnitudes before and after, without the machine that runs them. -/

/-- Where a coder call belongs: pass kind, bit-plane, column, row (R196). -/
abbrev Spot := PassKind × Nat × Nat × Nat

/-- What a part of a pass may do: from a window, with the coder events it issued, to a window. `stop` names the call
that was refused or not answered, if the part stopped at one (R73, R196). -/
abbrev Visit := Window → List CodEvent → Option Spot → Window → Prop

/-- Nothing to do. -/
def Visit.nothing : Visit := fun a ev stop c => ev = [] ∧ stop = none ∧ c = a

/-- One part, then the next unless the first stopped. -/
def Visit.andThen (R S : Visit) : Visit := fun a ev stop c =>
  (stop ≠ none ∧ R a ev stop c) ∨
    ∃ (b : Window) (e1 e2 : List CodEvent), R a e1 none b ∧ S b e2 stop c ∧ ev = e1 ++ e2

/-- One part for each item of a list, in order. -/
def Visit.each {ι : Type} : List ι → (ι → Visit) → Visit
  | [], _ => Visit.nothing
  | i :: rest, R => (R i).andThen (Visit.each rest R)

/-- A write into the window, no coder call. -/
def Visit.write (R : Window → Window → Prop) : Visit := fun a ev stop c => ev = [] ∧ stop = none ∧ R a c

/-- An event of the coder port that no answer can stop. -/
def Visit.event (e : CodEvent) : Visit := fun a ev stop c => ev = [e] ∧ stop = none ∧ c = a

/-- The event of a coder call (R38). -/
def CodEvent.ofCall (m : Mode) (ctx : Nat) (b : Bool) : CodEvent :=
  match m with
  | .enc => .enc ctx b
  | .dec => .dec ctx b

/-- One coder call with its context and the bit that crosses the port: answered and recorded, or the place where the pass
stops (R183, R196). -/
def coderCall (m : Mode) (spot : Spot) (ctx : Nat) (b : Bool) : Visit := fun a ev stop c =>
  c = a ∧ ((stop = none ∧ ev = [CodEvent.ofCall m ctx b]) ∨ (stop = some spot ∧ ev = []))

/-- Only the flag word of coefficient `(x, y)` is written, with `f`. -/
def Window.onlyFlag (a c : Window) (x y : Nat) (f : FlagWord) : Prop :=
  c.flag (x + 1) (y + 1) = f ∧ c.mags = a.mags ∧
    ∀ wx wy, wx < 66 → (wx, wy) ≠ (x + 1, y + 1) → c.flag wx wy = a.flag wx wy

/-- Only the magnitude of coefficient `(x, y)` is written, with `v`. -/
def Window.onlyMag (a c : Window) (x y : Nat) (v : Magnitude) : Prop :=
  c.mag x y = v ∧ c.flags = a.flags ∧ ∀ i j, i < 64 → (i, j) ≠ (x, y) → c.mag i j = a.mag i j

/-- Coefficient `(x, y)` is made significant with a sign, and its eight neighbours are told; nothing else is written
(R164). -/
def Window.marked (a c : Window) (x y : Nat) (neg : Bool) : Prop :=
  c.flag (x + 1) (y + 1) =
      (if neg then a.flag (x + 1) (y + 1) ||| 0xA000#16 else (a.flag (x + 1) (y + 1) ||| 0x2000#16) &&& 0x7FFF#16) ∧
    c.flag (x + 2) (y + 1) = a.flag (x + 2) (y + 1) ||| (if neg then 0x0404#16 else 0x0004#16) ∧
    c.flag x (y + 1) = a.flag x (y + 1) ||| (if neg then 0x0802#16 else 0x0002#16) ∧
    c.flag (x + 1) (y + 2) = a.flag (x + 1) (y + 2) ||| (if neg then 0x0101#16 else 0x0001#16) ∧
    c.flag (x + 1) y = a.flag (x + 1) y ||| (if neg then 0x0208#16 else 0x0008#16) ∧
    c.flag (x + 2) (y + 2) = a.flag (x + 2) (y + 2) ||| 0x0020#16 ∧
    c.flag x (y + 2) = a.flag x (y + 2) ||| 0x0010#16 ∧
    c.flag (x + 2) y = a.flag (x + 2) y ||| 0x0080#16 ∧
    c.flag x y = a.flag x y ||| 0x0040#16 ∧
    c.mags = a.mags ∧
    ∀ wx wy, wx < 66 → ¬ (x ≤ wx ∧ wx ≤ x + 2 ∧ y ≤ wy ∧ wy ≤ y + 2) → c.flag wx wy = a.flag wx wy

/-- `VIS` of coefficient `(x, y)` is written. -/
def visWritten (x y : Nat) (vis : Bool) : Visit := .write fun a c =>
  a.onlyFlag c x y
    (if vis then a.flag (x + 1) (y + 1) ||| 0x1000#16 else a.flag (x + 1) (y + 1) &&& 0xEFFF#16)

/-- A 1 at bit-plane `p`: a decoder stores it, an encoder writes no magnitude (R186). -/
def oneStored (m : Mode) (x y p : Nat) : Visit := .write fun a c =>
  (m = .enc → c = a) ∧ (m = .dec → a.onlyMag c x y (a.mag x y ||| (1#31 <<< p)))

/-- The sign step: sign XOR the predicted flip crosses the port, in the sign context of the flag word at that moment; an
encoder's sign is the stored one; afterwards the coefficient is significant (R184). -/
def signVisit (m : Mode) (spot : Spot) (x y : Nat) : Visit := fun a ev stop c =>
  ∃ neg : Bool, (m = .enc → neg = isNeg (a.flag (x + 1) (y + 1))) ∧
    Visit.andThen
      (coderCall m spot (signLabel (a.flag (x + 1) (y + 1))) (neg ^^ signXor (a.flag (x + 1) (y + 1))))
      (.write fun b c => b.marked c x y neg) a ev stop c

/-- The significance step in the significance context of the flag word, on a 1 the sign step, then `VIS` (R183, R185,
R188). -/
def sigVisit (m : Mode) (o : Orient) (spot : Spot) (x y p : Nat) (vis : Bool) : Visit := fun a ev stop c =>
  ∃ b : Bool, (m = .enc → b = (a.mag x y).getLsbD p) ∧
    Visit.andThen (coderCall m spot (sigLabel o (a.flag (x + 1) (y + 1))) b)
      (Visit.andThen
        (if b then Visit.andThen (oneStored m x y p) (signVisit m spot x y) else Visit.nothing)
        (visWritten x y vis)) a ev stop c

/-- A visit of the significance propagation pass (R185). -/
def sppVisit (g : PassCtx) (p x y : Nat) : Visit := fun a =>
  let f := a.flag (x + 1) (y + 1)
  if isSig f = false ∧ isVis f = false ∧ f &&& 0x00FF#16 ≠ 0#16 then
    sigVisit g.mode g.orient (.spp, p, x, y) x y p true a
  else Visit.nothing a

/-- A visit of the magnitude refinement pass (R187). -/
def mrpVisit (g : PassCtx) (p x y : Nat) : Visit := fun a ev stop c =>
  let f := a.flag (x + 1) (y + 1)
  if isSig f = true ∧ isVis f = false then
    ∃ b : Bool, (g.mode = .enc → b = (a.mag x y).getLsbD p) ∧
      Visit.andThen (coderCall g.mode (.mrp, p, x, y) (refLabel f) b)
        (Visit.andThen (if b then oneStored g.mode x y p else Visit.nothing)
          (.write fun a c => a.onlyFlag c x y (f ||| 0x4000#16))) a ev stop c
  else Visit.nothing a ev stop c

/-- A visit of the cleanup pass, one cell (R188, R190). -/
def cupVisit (g : PassCtx) (p x y : Nat) : Visit := fun a =>
  let f := a.flag (x + 1) (y + 1)
  if isSig f = false ∧ isVis f = false then sigVisit g.mode g.orient (.cup, p, x, y) x y p false a
  else visWritten x y false a

/-- The rows of the column at the stripe `y0`, from its `n`-th on, north to south (R181). -/
def eachRow (h y0 n : Nat) (R : Nat → Visit) : Visit :=
  Visit.each ((List.range (min 4 (h - y0) - n)).map fun r => y0 + n + r) R

/-- The columns of the stripes: stripes top to bottom, columns west to east (R181). -/
def eachColumn (w h : Nat) (R : Nat → Nat → Visit) : Visit :=
  Visit.each (List.range ((h + 3) / 4)) fun k => Visit.each (List.range w) fun x => R (4 * k) x

/-- Row `y0 + r` is the first of the column with bit `p` set, or `r` is 4 and none of the four has it. -/
def firstOne (a : Window) (p y0 x r : Nat) : Prop :=
  (∀ i, i < r → (a.mag x (y0 + i)).getLsbD p = false) ∧ (r < 4 → (a.mag x (y0 + r)).getLsbD p = true)

/-- A run-length column (R189): whether there is a 1, where it is in two bits, its sign, then the rows below it. -/
def runVisit (g : PassCtx) (p y0 x : Nat) : Visit := fun a ev stop c =>
  ∃ r : Nat, r ≤ 4 ∧ (g.mode = .enc → firstOne a p y0 x r) ∧
    Visit.andThen (coderCall g.mode (.cup, p, x, y0) 18 (decide (r < 4)))
      (if r = 4 then Visit.nothing
        else
          Visit.andThen (coderCall g.mode (.cup, p, x, y0) 17 (decide (2 ≤ r))) <|
          Visit.andThen (coderCall g.mode (.cup, p, x, y0) 17 (decide (r % 2 = 1))) <|
          Visit.andThen (oneStored g.mode x (y0 + r) p) <|
          Visit.andThen (signVisit g.mode (.cup, p, x, y0 + r) x (y0 + r)) <|
          Visit.andThen (visWritten x (y0 + r) false) <|
          eachRow g.h y0 (r + 1) (cupVisit g p x)) a ev stop c

/-- The run-length condition: `CUP_RL` is 1, the column is full, and its four words have no bit of `SIG_NB`, `VIS`, `SIG`
set (R189). -/
def runReady (g : PassCtx) (a : Window) (y0 x : Nat) : Prop :=
  g.runLength = true ∧ y0 + 3 < g.h ∧ ∀ r, r < 4 → a.flag (x + 1) (y0 + r + 1) &&& 0x30FF#16 = 0#16

/-- A column of the cleanup pass: as a run, or cell by cell (R188, R189). -/
def cupColumnVisit (g : PassCtx) (p y0 x : Nat) : Visit := fun a ev stop c =>
  (runReady g a y0 x → runVisit g p y0 x a ev stop c) ∧
    (¬ runReady g a y0 x → eachRow g.h y0 0 (cupVisit g p x) a ev stop c)

/-- A pass: every column in scan order, then `PassEnd` (R185, R187 to R189). -/
def passVisit (g : PassCtx) (k : PassKind) (p : Nat) : Visit :=
  Visit.andThen
    (match k with
      | .spp => eachColumn g.w g.h fun y0 x => eachRow g.h y0 0 (sppVisit g p x)
      | .mrp => eachColumn g.w g.h fun y0 x => eachRow g.h y0 0 (mrpVisit g p x)
      | .cup => eachColumn g.w g.h (cupColumnVisit g p))
    (.event (.passEnd k p))

/-- Some passes, in order (R193). -/
def passesVisit (g : PassCtx) (l : List (PassKind × Nat)) : Visit := Visit.each l fun kp => passVisit g kp.1 kp.2

/-- The number of bit-planes of the largest magnitude of the code-block (R193). -/
def Window.planes (win : Window) (w h nbp : Nat) : Prop :=
  (∀ x y, x < w → y < h → (win.mag x y).toNat < 2 ^ nbp) ∧
    (0 < nbp → ∃ x y, x < w ∧ y < h ∧ 2 ^ (nbp - 1) ≤ (win.mag x y).toNat)

/-- The direction, the passes and the events before the first of them of a command that runs passes, in a state that
accepts it with its operand in range (R191 to R195). -/
def State.startsPasses (s : State) (win : Window) (i : Instr) (m : Mode) (l : List (PassKind × Nat))
    (first : List CodEvent) : Prop :=
  (∃ k p, (s.cbState = .ready ∨ s.cbState = .active) ∧ p ≤ 30 ∧ l = [(k, p)] ∧ first = [] ∧
    ((m = .enc ∧ i = .t1EncPass k p) ∨ (m = .dec ∧ i = .t1DecPass k p))) ∨
  (∃ nbp, s.cbState = .ready ∧ nbp ≤ 31 ∧ l = blockPasses nbp ∧ first = [.reset] ∧
    ((m = .enc ∧ i = .t1EncBlock ∧ win.planes s.cbW s.cbH nbp) ∨ (m = .dec ∧ i = .t1DecBlock nbp)))

end Sys2Proof.Machine
end

