-- ==== Sys2Proof/Certificates/Slice0/Obligations.lean ====
section
/-! DEFINITION. The statements for the provers about J2KT1, listed in OBLIGATIONS.json. Each docstring names the rule of
spec/ it formalises. A command's words are those of spec/30_encoding.md; `encode i` is the word of command `i`. -/

open Sys2Proof Sys2Proof.Machine

/-! ## Encoding -/

/-- R81, R82, R88: no bit of an encoding is dropped: every command whose operands fit its fields is read back from its
word, every operand at every value. -/
def Obligations.DecodeOfEncodeIsTheCommand : Prop :=
  ∀ i : Instr, i.wf = true → decode (encode i) = .ok i

/-- R87: "every 64-bit word is either exactly one command of rule R88 or illegal": the command a word decodes to fits
its fields, has that word and no other word decodes to it. -/
def Obligations.DecodedWordIsItsEncoding : Prop :=
  ∀ (w : Word) (i : Instr), decode w = .ok i →
    i.wf = true ∧ encode i = w ∧ ∀ v : Word, decode v = .ok i → v = w

/-- R89: the ten words of the assembler examples decode to the commands they are listed for. -/
def Obligations.ListedWordsDecode : Prop :=
  decode 0x0000000000000000#64 = .ok .nop ∧
    decode 0x1000100200000000#64 = .ok (.ttInit .incl 2 2) ∧
    decode 0x1100080100000001#64 = .ok (.ttSet .incl 1 1 1) ∧
    decode 0x12402802000000FE#64 = .ok (.ttEnc .zbp 5 2 254) ∧
    decode 0x20C00000000000B1#64 = .ok (.ctxSig .hh 0xB1#16) ∧
    decode 0x3040180500000000#64 = .ok (.cbCfg .hl 3 5) ∧
    decode 0x3200080180000003#64 = .ok (.magWr 1 1 true 3#31) ∧
    decode 0x3501F83F00000001#64 = .ok (.setSig 63 63 true) ∧
    decode 0x4080000000000002#64 = .ok (.t1EncPass .cup 2) ∧
    decode 0x4300000000000003#64 = .ok (.t1DecBlock 3)

/-- R85, R214: a word that is the encoding of no command, among them every word whose opcode R88 does not list, raises
`ILLEGAL`, in every state of the units: R216's registers, nothing else. -/
def Obligations.IllegalWordRaisesIllegal : Prop :=
  ∀ (s : State) (hi : Reg) (more : List Event),
    s.inputs = .write 0x04 4 hi :: more → s.busy = false → s.err = false →
    (let op := hi.toNat / 2 ^ 24
     (∀ i : Instr, i.wf = true → encode i ≠ hi ++ s.cmdLo) ∨
       (0x03 ≤ op ∧ op ≤ 0x0F) ∨ (0x15 ≤ op ∧ op ≤ 0x1F) ∨ (0x23 ≤ op ∧ op ≤ 0x2F) ∨ (0x36 ≤ op ∧ op ≤ 0x3F) ∨
       0x44 ≤ op) →
    step s = .next (({ s with inputs := more } : State).faulted .illegal (hi ++ s.cmdLo))

/-! ## The host's side -/

/-- R64, R87: the write of `CMD_HI` runs the command of the word whose low half is `CMD_LO`. Where the command is still
running when the next event lands (log 7: `slowCommand`, then `proceed`) the host sees `BUSY` = 1 and nothing else
changed, and then what the write gives; a word that starts no command, and any word while `BUSY` = 1, does what the write
does; `proceed` without a command in progress does nothing. -/
def Obligations.StepRunsTheDecodedCommand : Prop :=
  ∀ (s : State) (more : List Event),
    (∀ (hi : Reg) (i : Instr), s.inputs = .write 0x04 4 hi :: more → s.busy = false →
      decode (hi ++ s.cmdLo) = .ok i → step s = exec i { s with inputs := more }) ∧
    (∀ (hi : Reg) (i : Instr), s.inputs = .slowCommand hi :: .proceed :: more → s.busy = false → s.held = none →
      decode (hi ++ s.cmdLo) = .ok i →
      ∃ h : Pending, step s = .next { s with inputs := .proceed :: more, busy := true, held := some h } ∧
        h.cmd = i ∧ h.cursor = .start ∧
        step { s with inputs := .proceed :: more, busy := true, held := some h } = exec i { s with inputs := more }) ∧
    (∀ hi : Reg, s.inputs = .slowCommand hi :: more →
      s.busy = true ∨ (∀ i : Instr, decode (hi ++ s.cmdLo) ≠ .ok i) →
      step s = step { s with inputs := .write 0x04 4 hi :: more }) ∧
    (s.inputs = .proceed :: more → s.held = none → step s = .next { s with inputs := more })

/-- R219: while `ERR` = 1 every command word but `CLR_ERR` and `SOFT_RESET` is dropped, legal or not. -/
def Obligations.WordsAreDroppedWhileErr : Prop :=
  ∀ (s : State) (hi : Reg) (more : List Event),
    s.inputs = .write 0x04 4 hi :: more → s.busy = false → s.err = true →
    hi ++ s.cmdLo ≠ 0x0200000000000000#64 → hi ++ s.cmdLo ≠ 0x0100000000000000#64 →
    step s = .next { s with inputs := more }

/-- R244: a `CMD_HI` write while `BUSY` = 1 is lost and sets `OVR`, unless the word is `SOFT_RESET`, which is
executed; `CMD_LO` may be written at any time. -/
def Obligations.CommandWriteWhileBusy : Prop :=
  ∀ (s : State) (more : List Event),
    (∀ hi : Reg, s.inputs = .write 0x04 4 hi :: more → s.busy = true →
      (hi ++ s.cmdLo ≠ 0x0100000000000000#64 → step s = .next { s with inputs := more, ovr := true }) ∧
      (hi ++ s.cmdLo = 0x0100000000000000#64 → step s = exec .softReset { s with inputs := more })) ∧
    ∀ lo : Reg, s.inputs = .write 0x00 4 lo :: more → step s = .next { s with inputs := more, cmdLo := lo }

/-- R63: an access of another width or alignment is not performed: a read returns 0, a write is ignored, no state
changes. -/
def Obligations.OddAccessesHaveNoEffect : Prop :=
  ∀ (s : State) (off width : Nat) (v : Reg) (more : List Event), width ≠ 4 ∨ off % 4 ≠ 0 →
    (s.inputs = .read off width :: more → step s = .next { s with inputs := more, rdata := 0#32 }) ∧
    (s.inputs = .write off width v :: more → step s = .next { s with inputs := more })

/-- R40: what each register of the 64-byte map reads, with no side effect but the value returned (`CMD_LO`, `CMD_HI` and the
offsets from 0x34 read 0), and what a write does: `CMD_LO` holds its value until overwritten, the write of `CMD_HI`
starts the command of the word `{CMD_HI, CMD_LO}`, the others ignore writes. -/
def Obligations.RegisterMapAccesses : Prop :=
  ∀ (s : State) (off : Nat) (more : List Event), off ≤ 0x3C →
    (s.inputs = .read off 4 :: more →
      ∃ v : Reg, step s = .next { s with inputs := more, rdata := v } ∧
        (off = 0x00 ∨ off = 0x04 ∨ off = 0x34 ∨ off = 0x38 ∨ off = 0x3C → v = 0#32) ∧
        (off = 0x08 → v = s.statusReg) ∧
        (off = 0x0C → v.toNat = (match s.errCode with
          | none => 0
          | some .config => 1
          | some .capacity => 2
          | some .consistency => 3
          | some .illegal => 4
          | some .sequence => 5)) ∧
        (off = 0x10 → v = s.errCmd.extractLsb' 0 32) ∧
        (off = 0x14 → v = s.errCmd.extractLsb' 32 32) ∧
        (off = 0x18 → v = s.errPos) ∧
        (off = 0x1C → v = s.res0) ∧
        (off = 0x20 → v = s.res1) ∧
        (off = 0x24 → v = s.cbCfgReg) ∧
        (off = 0x28 → v = s.tree0.cfgReg) ∧
        (off = 0x2C → v = s.tree1.cfgReg) ∧
        (off = 0x30 → v = 0x4A325431#32)) ∧
    ∀ v : Reg, s.inputs = .write off 4 v :: more →
      (off = 0x00 → step s = .next { s with inputs := more, cmdLo := v }) ∧
      (off = 0x04 → s.busy = false → ∀ i : Instr, decode (v ++ s.cmdLo) = .ok i →
        step s = exec i { s with inputs := more }) ∧
      (off ≠ 0x00 → off ≠ 0x04 → step s = .next { s with inputs := more })

/-- R41, R42: the layouts of `STATUS` (its codes those of R24 and R33), and of `CBCFG` and `TTCFG<t>` for values that fit the fields (R23, R30), and
their reset values. -/
def Obligations.RegisterViewLayouts : Prop :=
  State.reset.statusReg = 0#32 ∧ State.reset.cbCfgReg = 0#32 ∧ State.reset.tree0.cfgReg = 0#32 ∧
  State.reset.tree1.cfgReg = 0#32 ∧
  let modeNumber := fun mode : TreeMode => match mode with
    | .uninit => 0
    | .fresh => 1
    | .loaded => 2
    | .enc => 3
    | .dec => 4
  ∀ s : State,
    (s.statusReg.getLsbD 0 = s.busy ∧ s.statusReg.getLsbD 1 = s.err ∧ s.statusReg.getLsbD 2 = s.everErr ∧
      s.statusReg.getLsbD 3 = s.ovr ∧ (s.statusReg.extractLsb' 4 3).toNat = (match s.cbState with
        | .unconf => 0
        | .conf => 1
        | .ready => 2
        | .active => 3
        | .dirty => 4) ∧
      s.statusReg.getLsbD 7 = false ∧ (s.statusReg.extractLsb' 8 3).toNat = modeNumber s.tree0.mode ∧
      s.statusReg.getLsbD 11 = false ∧ (s.statusReg.extractLsb' 12 3).toNat = modeNumber s.tree1.mode ∧
      s.statusReg.extractLsb' 15 17 = 0#17) ∧
    (s.cbW < 128 → s.cbH < 128 →
      (s.cbCfgReg.extractLsb' 0 7).toNat = s.cbW ∧ s.cbCfgReg.getLsbD 7 = false ∧
      (s.cbCfgReg.extractLsb' 8 7).toNat = s.cbH ∧ s.cbCfgReg.getLsbD 15 = false ∧
      (s.cbCfgReg.extractLsb' 16 2).toNat = (match s.cbOrient with
        | .ll => 0
        | .hl => 1
        | .lh => 2
        | .hh => 3) ∧
      s.cbCfgReg.extractLsb' 18 14 = 0#14) ∧
    ∀ tr : TagTree, tr.w < 2048 → tr.h < 2048 →
      (tr.cfgReg.extractLsb' 0 11).toNat = tr.w ∧ tr.cfgReg.extractLsb' 11 5 = 0#5 ∧
      (tr.cfgReg.extractLsb' 16 11).toNat = tr.h ∧ tr.cfgReg.extractLsb' 27 5 = 0#5

/-! ## System commands, faults -/

/-- R101: `NOP` changes no state. -/
def Obligations.NopChangesNothing : Prop := ∀ s : State, exec .nop s = .next s

/-- R45, R102, R240: `SOFT_RESET` and the reset input put every piece of the block's state at its reset value, whatever
the block was doing. -/
def Obligations.ResetsGiveTheResetValues : Prop :=
  ∀ s : State, ∃ t : State, exec .softReset s = .next t ∧
    (∀ more, s.inputs = .reset :: more → step s = .next { t with inputs := more }) ∧
    t.res0 = 0#32 ∧ t.res1 = 0#32 ∧ t.cmdLo = 0#32 ∧
    t.busy = false ∧ t.err = false ∧ t.everErr = false ∧ t.ovr = false ∧
    t.errCode = none ∧ t.errCmd = 0#64 ∧ t.errPos = 0#32 ∧
    t.cbW = 0 ∧ t.cbH = 0 ∧ t.cbOrient = .ll ∧ t.cbState = .unconf ∧ t.window = none ∧
    t.tree0 = ⟨0, 0, .uninit, none⟩ ∧ t.tree1 = ⟨0, 0, .uninit, none⟩ ∧ t.held = none ∧
    t.cod = [] ∧ t.hdr = []

/-- The model's choice (logs 4, 5, 8, 10): what it keeps beside the block's state, the parameters, the answers and events
still to come and the value last read on the bus, no reset of the block changes. -/
def Obligations.ResetsLeaveTheEnvironment : Prop :=
  ∀ s : State, ∃ t : State, exec .softReset s = .next t ∧
    t.cfg = s.cfg ∧ t.encIn = s.encIn ∧ t.decIn = s.decIn ∧ t.hdrIn = s.hdrIn ∧ t.inputs = s.inputs ∧
    t.rdata = s.rdata ∧
    ∀ more, s.inputs = .reset :: more →
      ∃ u : State, step s = .next u ∧ u.cfg = s.cfg ∧ u.encIn = s.encIn ∧ u.decIn = s.decIn ∧ u.hdrIn = s.hdrIn ∧
        u.inputs = more ∧ u.rdata = s.rdata

/-- R103, R220: `CLR_ERR` clears `ERR`, `ERRCODE`, `ERRCMD`, `ERRPOS` and nothing else. -/
def Obligations.ClrErrEndsTheFaultState : Prop :=
  ∀ s : State, exec .clrErr s = .next { s with err := false, errCode := none, errCmd := 0#64, errPos := 0#32 }

/-- R211: `TT_INIT` and `CB_CFG` with a size out of range raise `CONFIG` and change nothing else; no other command
raises it. -/
def Obligations.BadGeometryRaisesConfig : Prop :=
  ∀ (s : State) (w h : Nat), s.err = false →
    (∀ t : TreeSel, w = 0 ∨ h = 0 ∨ s.cfg.ttMaxDim < w ∨ s.cfg.ttMaxDim < h →
      exec (.ttInit t w h) s = .next (s.faulted .config (encode (.ttInit t w h)))) ∧
    (∀ o : Orient, w = 0 ∨ h = 0 ∨ 64 < w ∨ 64 < h →
      exec (.cbCfg o w h) s = .next (s.faulted .config (encode (.cbCfg o w h)))) ∧
    ∀ (i : Instr) (u : State), (∀ t a b, i ≠ .ttInit t a b) → (∀ o a b, i ≠ .cbCfg o a b) → exec i s = .next u →
      u.err = true → u.errCode ≠ some .config

/-- R213: the operand checks that raise `CONSISTENCY`, each in a state that accepts the command. -/
def Obligations.BadOperandRaisesConsistency : Prop :=
  ∀ (s : State), s.err = false →
    (∀ (t : TreeSel) (x y v : Nat), (s.tree t).w ≤ x ∨ (s.tree t).h ≤ y ∨ v = 255 →
      ((s.tree t).mode = .fresh ∨ (s.tree t).mode = .loaded →
        exec (.ttSet t x y v) s = .next (s.faulted .consistency (encode (.ttSet t x y v)))) ∧
      ((s.tree t).mode = .fresh ∨ (s.tree t).mode = .loaded ∨ (s.tree t).mode = .enc →
        exec (.ttEnc t x y v) s = .next (s.faulted .consistency (encode (.ttEnc t x y v)))) ∧
      ((s.tree t).mode = .fresh ∨ (s.tree t).mode = .dec →
        exec (.ttDec t x y v) s = .next (s.faulted .consistency (encode (.ttDec t x y v))))) ∧
    (∀ (t : TreeSel) (i : Nat), (s.tree t).mode ≠ .uninit → nodeCount (s.tree t).w (s.tree t).h ≤ i →
      exec (.ttRd t i) s = .next (s.faulted .consistency (encode (.ttRd t i)))) ∧
    (∀ (x y : Nat) (neg : Bool) (mag : Magnitude), s.cbW ≤ x ∨ s.cbH ≤ y →
      (s.cbState = .ready →
        exec (.magWr x y neg mag) s = .next (s.faulted .consistency (encode (.magWr x y neg mag)))) ∧
      (s.cbState = .ready ∨ s.cbState = .active ∨ s.cbState = .dirty →
        exec (.magRd x y) s = .next (s.faulted .consistency (encode (.magRd x y)))) ∧
      (s.cbState = .ready ∨ s.cbState = .active →
        exec (.setSig x y neg) s = .next (s.faulted .consistency (encode (.setSig x y neg))))) ∧
    (∀ wx wy : Nat, s.cbW + 1 < wx ∨ s.cbH + 1 < wy →
      s.cbState = .ready ∨ s.cbState = .active ∨ s.cbState = .dirty →
        exec (.flgRd wx wy) s = .next (s.faulted .consistency (encode (.flgRd wx wy)))) ∧
    (∀ k : PassKind, s.cbState = .ready ∨ s.cbState = .active →
      exec (.t1EncPass k 31) s = .next (s.faulted .consistency (encode (.t1EncPass k 31))) ∧
      exec (.t1DecPass k 31) s = .next (s.faulted .consistency (encode (.t1DecPass k 31)))) ∧
    (∀ nbp : Nat, 31 < nbp → s.cbState = .ready →
      exec (.t1DecBlock nbp) s = .next (s.faulted .consistency (encode (.t1DecBlock nbp))))

/-- R215: a command in a unit state that does not accept it (R161, R120) raises `SEQUENCE` and changes nothing else,
whatever its operands (R218); so does `SET_SIG`, its range check passed, on a coefficient already significant (R169). -/
def Obligations.CommandOutOfStateRaisesSequence : Prop :=
  ∀ (s : State) (i : Instr), s.err = false →
    (i = .cbClear ∧ s.cbState = .unconf) ∨
    (((∃ x y neg mag, i = .magWr x y neg mag) ∨ i = .t1EncBlock ∨ ∃ nbp, i = .t1DecBlock nbp) ∧
      s.cbState ≠ .ready) ∨
    (((∃ x y, i = .magRd x y) ∨ ∃ x y, i = .flgRd x y) ∧ (s.cbState = .unconf ∨ s.cbState = .conf)) ∨
    (((∃ x y neg, i = .setSig x y neg) ∨ (∃ k p, i = .t1EncPass k p) ∨ ∃ k p, i = .t1DecPass k p) ∧
      s.cbState ≠ .ready ∧ s.cbState ≠ .active) ∨
    (∃ t x y v, i = .ttSet t x y v ∧ (s.tree t).mode ≠ .fresh ∧ (s.tree t).mode ≠ .loaded) ∨
    (∃ t x y v, i = .ttEnc t x y v ∧ ((s.tree t).mode = .uninit ∨ (s.tree t).mode = .dec)) ∨
    (∃ t x y v, i = .ttDec t x y v ∧ (s.tree t).mode ≠ .fresh ∧ (s.tree t).mode ≠ .dec) ∨
    (∃ t n, i = .ttRd t n ∧ (s.tree t).mode = .uninit) ∨
    (∃ x y neg win, i = .setSig x y neg ∧ (s.cbState = .ready ∨ s.cbState = .active) ∧ s.window = some win ∧
      x < s.cbW ∧ y < s.cbH ∧ isSig (win.flag (x + 1) (y + 1)) = true) →
    exec i s = .next (s.faulted .sequence (encode i))

/-- R217: a fault other than `CAPACITY` has no effect but the registers of R216, whatever the command. -/
def Obligations.OtherFaultsArePrecise : Prop :=
  ∀ (i : Instr) (s t : State), exec i s = .next t → s.err = false → t.err = true → t.errCode ≠ some .capacity →
    ∃ c, (c = .config ∨ c = .consistency ∨ c = .sequence) ∧ t = s.faulted c (encode i)

/-! ## Context ROM -/

/-- R142, R143, R144, R150: `CTX_SIG` writes to `RES0` the label of the neighbour counts and changes nothing else. -/
def Obligations.CtxSigGivesTheSignificanceLabel : Prop :=
  ∀ (o : Orient) (f : FlagWord) (s : State), s.err = false →
    ∃ l : Nat, exec (.ctxSig o f) s = .next { s with res0 := BitVec.ofNat 32 l } ∧
      (let b := fun n => (f.getLsbD n).toNat
       let h := b 1 + b 2
       let v := b 0 + b 3
       let d := b 4 + b 5 + b 6 + b 7
       let a := if o = .hl then v else h
       let c := if o = .hl then h else v
       (o ≠ .hh →
         (a = 2 → l = 8) ∧ (a = 1 ∧ 1 ≤ c → l = 7) ∧ (a = 1 ∧ c = 0 ∧ 1 ≤ d → l = 6) ∧ (a = 1 ∧ c = 0 ∧ d = 0 → l = 5) ∧
         (a = 0 ∧ c = 2 → l = 4) ∧ (a = 0 ∧ c = 1 → l = 3) ∧ (a = 0 ∧ c = 0 ∧ 2 ≤ d → l = 2) ∧
         (a = 0 ∧ c = 0 ∧ d = 1 → l = 1) ∧ (a = 0 ∧ c = 0 ∧ d = 0 → l = 0)) ∧
       (o = .hh →
         (3 ≤ d → l = 8) ∧ (d = 2 ∧ 1 ≤ h + v → l = 7) ∧ (d = 2 ∧ h + v = 0 → l = 6) ∧ (d = 1 ∧ 2 ≤ h + v → l = 5) ∧
         (d = 1 ∧ h + v = 1 → l = 4) ∧ (d = 1 ∧ h + v = 0 → l = 3) ∧ (d = 0 ∧ 2 ≤ h + v → l = 2) ∧
         (d = 0 ∧ h + v = 1 → l = 1) ∧ (d = 0 ∧ h + v = 0 → l = 0)))

/-- R146, R151: `CTX_REF` writes to `RES0` 16, 15 or 14 and changes nothing else. -/
def Obligations.CtxRefGivesTheRefinementLabel : Prop :=
  ∀ (f : FlagWord) (s : State), s.err = false →
    (f.getLsbD 14 = true → exec (.ctxRef f) s = .next { s with res0 := 16#32 }) ∧
    (f.getLsbD 14 = false → f.extractLsb' 0 8 ≠ 0#8 → exec (.ctxRef f) s = .next { s with res0 := 15#32 }) ∧
    (f.getLsbD 14 = false → f.extractLsb' 0 8 = 0#8 → exec (.ctxRef f) s = .next { s with res0 := 14#32 })

/-- R147, R148, R152: `CTX_SGN` writes the label to `RES0` and the XOR bit to `RES1`, from the clamped horizontal and
vertical contributions, and changes nothing else. -/
def Obligations.CtxSgnGivesTheSignLabelAndXor : Prop :=
  ∀ (f : FlagWord) (s : State), s.err = false →
    ∃ (H V : Int) (l : Nat) (x : Bool),
      exec (.ctxSgn f) s = .next { s with res0 := BitVec.ofNat 32 l, res1 := BitVec.ofNat 32 x.toNat } ∧
      (let c := fun (sig sgn : Nat) => if f.getLsbD sig then (if f.getLsbD sgn then (-1 : Int) else 1) else 0
       H = Int.sign (c 1 11 + c 2 10) ∧ V = Int.sign (c 0 8 + c 3 9)) ∧
      (H = 1 ∧ V = 1 → l = 13 ∧ x = false) ∧ (H = 1 ∧ V = 0 → l = 12 ∧ x = false) ∧
      (H = 1 ∧ V = -1 → l = 11 ∧ x = false) ∧ (H = 0 ∧ V = 1 → l = 10 ∧ x = false) ∧
      (H = 0 ∧ V = 0 → l = 9 ∧ x = false) ∧ (H = 0 ∧ V = -1 → l = 10 ∧ x = true) ∧
      (H = -1 ∧ V = 1 → l = 11 ∧ x = true) ∧ (H = -1 ∧ V = 0 → l = 12 ∧ x = true) ∧
      (H = -1 ∧ V = -1 → l = 13 ∧ x = true)

/-- R153: every ROM entry lies in its range, for every flag word and every orientation, and the labels 0 to 8 occur over
the 256 low bytes as often as R153 counts. -/
def Obligations.ContextTablesAreTotal : Prop :=
  (∀ (o : Orient) (f : FlagWord), sigLabel o f ≤ 8 ∧ (sigLabel o f = 0 ↔ f.extractLsb' 0 8 = 0#8)) ∧
  (∀ f : FlagWord, 14 ≤ refLabel f ∧ refLabel f ≤ 16) ∧
  (∀ f : FlagWord, 9 ≤ signLabel f ∧ signLabel f ≤ 13) ∧
  (∀ o : Orient, (List.range 9).map (fun l =>
      ((List.range 256).filter fun b => decide (sigLabel o (BitVec.ofNat 16 b) = l)).length) =
    if o = .hh then [1, 4, 11, 4, 16, 44, 6, 90, 80] else [1, 4, 11, 32, 16, 2, 30, 96, 64])

/-! ## Code-block window -/

/-- R162: `CB_CFG` sets geometry and orientation; the contents become unspecified; nothing else changes. -/
def Obligations.CbCfgSetsTheGeometry : Prop :=
  ∀ (o : Orient) (w h : Nat) (s : State), s.err = false → 1 ≤ w → w ≤ 64 → 1 ≤ h → h ≤ 64 →
    exec (.cbCfg o w h) s =
      .next { s with cbW := w, cbH := h, cbOrient := o, cbState := .conf, window := none }

/-- R163: `CB_CLEAR` makes every flag word and every magnitude 0 and the window `READY`; nothing else changes. -/
def Obligations.CbClearZeroesTheWindow : Prop :=
  ∀ s : State, s.err = false → s.cbState ≠ .unconf →
    ∃ win : Window, exec .cbClear s = .next { s with window := some win, cbState := .ready } ∧
      (∀ wx wy, win.flag wx wy = 0#16) ∧ ∀ x y, win.mag x y = 0#31

/-- R166: `MAG_WR` writes one magnitude and one `SGN` bit; every other bit of every word, and every register, stays. -/
def Obligations.MagWrStoresOneCoefficient : Prop :=
  ∀ (x y : Nat) (neg : Bool) (mag : Magnitude) (s : State) (win : Window),
    s.err = false → s.cbState = .ready → s.window = some win → s.cbW ≤ 64 → x < s.cbW → y < s.cbH →
    ∃ win' : Window, exec (.magWr x y neg mag) s = .next { s with window := some win' } ∧
      win'.mag x y = mag ∧ isNeg (win'.flag (x + 1) (y + 1)) = neg ∧
      win'.flag (x + 1) (y + 1) &&& 0x7FFF#16 = win.flag (x + 1) (y + 1) &&& 0x7FFF#16 ∧
      (∀ a b, a < 64 → (a, b) ≠ (x, y) → win'.mag a b = win.mag a b) ∧
      (∀ a b, a < 66 → (a, b) ≠ (x + 1, y + 1) → win'.flag a b = win.flag a b)

/-- R167: `MAG_RD` gives sign and magnitude in `RES0`; nothing else changes. -/
def Obligations.MagRdGivesSignAndMagnitude : Prop :=
  ∀ (x y : Nat) (s : State) (win : Window),
    s.err = false → s.cbState = .ready ∨ s.cbState = .active ∨ s.cbState = .dirty → s.window = some win →
    x < s.cbW → y < s.cbH →
    ∃ r : Reg, exec (.magRd x y) s = .next { s with res0 := r } ∧
      r.getLsbD 31 = isNeg (win.flag (x + 1) (y + 1)) ∧ r.extractLsb' 0 31 = win.mag x y

/-- R168: `FLG_RD` gives a flag word by window coordinates, border cells included; nothing else changes. -/
def Obligations.FlgRdGivesTheFlagWord : Prop :=
  ∀ (wx wy : Nat) (s : State) (win : Window),
    s.err = false → s.cbState = .ready ∨ s.cbState = .active ∨ s.cbState = .dirty → s.window = some win →
    wx ≤ s.cbW + 1 → wy ≤ s.cbH + 1 →
    exec (.flgRd wx wy) s = .next { s with res0 := (win.flag wx wy).setWidth 32 }

/-- R164, R169: `SET_SIG` sets `SIG` and `SGN` of its coefficient and the one bit (two, for a negative coefficient's
orthogonal neighbours) of each of the eight cells around it; every other bit, cell, magnitude and register stays. -/
def Obligations.SetSigMarksTheNeighbours : Prop :=
  ∀ (x y : Nat) (neg : Bool) (s : State) (win : Window),
    s.err = false → s.cbState = .ready ∨ s.cbState = .active → s.window = some win → s.cbW ≤ 64 →
    x < s.cbW → y < s.cbH → isSig (win.flag (x + 1) (y + 1)) = false →
    ∃ win' : Window,
      exec (.setSig x y neg) s = .next { s with window := some win', cbState := .active } ∧
      win'.flag (x + 1) (y + 1) =
        (if neg then win.flag (x + 1) (y + 1) ||| 0xA000#16
          else (win.flag (x + 1) (y + 1) ||| 0x2000#16) &&& 0x7FFF#16) ∧
      win'.flag (x + 2) (y + 1) = win.flag (x + 2) (y + 1) ||| (if neg then 0x0404#16 else 0x0004#16) ∧
      win'.flag x (y + 1) = win.flag x (y + 1) ||| (if neg then 0x0802#16 else 0x0002#16) ∧
      win'.flag (x + 1) (y + 2) = win.flag (x + 1) (y + 2) ||| (if neg then 0x0101#16 else 0x0001#16) ∧
      win'.flag (x + 1) y = win.flag (x + 1) y ||| (if neg then 0x0208#16 else 0x0008#16) ∧
      win'.flag (x + 2) (y + 2) = win.flag (x + 2) (y + 2) ||| 0x0020#16 ∧
      win'.flag x (y + 2) = win.flag x (y + 2) ||| 0x0010#16 ∧
      win'.flag (x + 2) y = win.flag (x + 2) y ||| 0x0080#16 ∧
      win'.flag x y = win.flag x y ||| 0x0040#16 ∧
      (∀ a b, a < 66 → ¬ (x ≤ a ∧ a ≤ x + 2 ∧ y ≤ b ∧ b ≤ y + 2) → win'.flag a b = win.flag a b) ∧
      (∀ a b, win'.mag a b = win.mag a b)

/-- R27 (c): no command but `CB_CLEAR`, `CB_CFG` and `SOFT_RESET` clears a `SIG` bit. -/
def Obligations.SignificanceIsNeverLost : Prop :=
  ∀ (i : Instr) (s t : State) (win : Window) (wx wy : Nat),
    i ≠ .cbClear → (∀ o w h, i ≠ .cbCfg o w h) → i ≠ .softReset →
    s.window = some win → isSig (win.flag wx wy) = true → exec i s = .next t →
    ∃ win', t.window = some win' ∧ isSig (win'.flag wx wy) = true

/-! ## Tag trees -/

/-- R112: `TT_INIT` gives a fresh tree of the size asked for; nothing else changes. -/
def Obligations.TtInitMakesAFreshTree : Prop :=
  ∀ (t : TreeSel) (w h : Nat) (s : State), s.err = false → 1 ≤ w → w ≤ s.cfg.ttMaxDim → 1 ≤ h → h ≤ s.cfg.ttMaxDim →
    ∃ m : Memory Node, exec (.ttInit t w h) s = .next (s.setTree t ⟨w, h, .fresh, some m⟩) ∧
      ∀ i, nodeAt m i = ⟨255, 0, false⟩

/-- R113: `TT_SET` stores the leaf's value and makes each ancestor the minimum of its children; every other node, every
floor and visited flag, and everything else stays. -/
def Obligations.TtSetLoadsOneLeaf : Prop :=
  ∀ (t : TreeSel) (x y v : Nat) (s : State) (m : Memory Node),
    s.err = false → (s.tree t).mode = .fresh ∨ (s.tree t).mode = .loaded → (s.tree t).nodes = some m →
    x < (s.tree t).w → y < (s.tree t).h → v ≤ 254 →
    ∃ m' : Memory Node,
      exec (.ttSet t x y v) s = .next (s.setTree t { s.tree t with mode := .loaded, nodes := some m' }) ∧
      (nodeAt m' (y * (s.tree t).w + x)).val = v ∧
      pathMinOk (levels (s.tree t).w (s.tree t).h) x y m' ∧
      (∀ i, i ∉ treePath (s.tree t).w (s.tree t).h x y → nodeAt m' i = nodeAt m i) ∧
      ∀ i, (nodeAt m' i).low = (nodeAt m i).low ∧ (nodeAt m' i).vis = (nodeAt m i).vis

/-- R115, R116, R118: `TT_ENC` completes whatever the tree holds: it walks the leaf's path from the root with floor 0, puts
the bits of each node on the header port (`encStep`), counts them in `RES1`, answers by R118 in `RES0`, changes only nodes
of the path (never their values) and the mode. -/
def Obligations.TtEncAnswersTheQuery : Prop :=
  ∀ (t : TreeSel) (x y thr : Nat) (s : State) (m : Memory Node),
    s.err = false → (s.tree t).mode = .fresh ∨ (s.tree t).mode = .loaded ∨ (s.tree t).mode = .enc →
    (s.tree t).nodes = some m → x < (s.tree t).w → y < (s.tree t).h → thr ≤ 254 →
    ∃ (m' : Memory Node) (bits : List Bool) (r : Reg) (f : Nat),
      exec (.ttEnc t x y thr) s =
        .next (({ s with
          hdr := s.hdr ++ bits.map .put
          res0 := r
          res1 := BitVec.ofNat 32 bits.length } : State).setTree t { s.tree t with mode := .enc, nodes := some m' }) ∧
      (let leaf := nodeAt m' (y * (s.tree t).w + x)
       (leaf.vis = true ∧ leaf.val ≤ thr → r = BitVec.ofNat 32 (256 + leaf.val % 256)) ∧
       (¬ (leaf.vis = true ∧ leaf.val ≤ thr) → r = BitVec.ofNat 32 (leaf.low % 256))) ∧
      walkVisit (encStep thr) (treePath (s.tree t).w (s.tree t).h x y) m 0 bits m' f ∧
      (∀ i, (nodeAt m' i).val = (nodeAt m i).val) ∧
      ∀ i, i ∉ treePath (s.tree t).w (s.tree t).h x y → nodeAt m' i = nodeAt m i

/-- R115, R117, R118: `TT_DEC` completes when the header port answers: it walks the leaf's path from the root with floor
0, takes the bits of each node (`decStep`) from the port, in order, counts them in `RES1`, answers by R118 in `RES0`,
changes only nodes of the path and the mode. -/
def Obligations.TtDecAnswersTheQuery : Prop :=
  ∀ (t : TreeSel) (x y thr : Nat) (s : State) (m : Memory Node),
    s.err = false → (s.tree t).mode = .fresh ∨ (s.tree t).mode = .dec →
    (s.tree t).nodes = some m → x < (s.tree t).w → y < (s.tree t).h → thr ≤ 254 → s.hdrIn.endless = true →
    ∃ (m' : Memory Node) (bits : List Bool) (r : Reg) (q : Answers Bool) (f : Nat),
      exec (.ttDec t x y thr) s =
        .next (({ s with
          hdr := s.hdr ++ bits.map .get
          hdrIn := q
          res0 := r
          res1 := BitVec.ofNat 32 bits.length } : State).setTree t { s.tree t with mode := .dec, nodes := some m' }) ∧
      (let leaf := nodeAt m' (y * (s.tree t).w + x)
       (leaf.vis = true ∧ leaf.val ≤ thr → r = BitVec.ofNat 32 (256 + leaf.val % 256)) ∧
       (¬ (leaf.vis = true ∧ leaf.val ≤ thr) → r = BitVec.ofNat 32 (leaf.low % 256))) ∧
      s.hdrIn.gives bits q ∧
      walkVisit (decStep thr) (treePath (s.tree t).w (s.tree t).h x y) m 0 bits m' f ∧
      ∀ i, i ∉ treePath (s.tree t).w (s.tree t).h x y → nodeAt m' i = nodeAt m i

/-- R119: `TT_RD` gives a node's word and its parent's index; nothing else changes. -/
def Obligations.TtRdGivesNodeAndParent : Prop :=
  ∀ (t : TreeSel) (i : Nat) (s : State) (m : Memory Node),
    s.err = false → (s.tree t).mode ≠ .uninit → (s.tree t).nodes = some m →
    i < nodeCount (s.tree t).w (s.tree t).h → (nodeAt m i).val < 256 → (nodeAt m i).low < 256 →
    ∃ a b : Reg, exec (.ttRd t i) s = .next { s with res0 := a, res1 := b } ∧
      (a.extractLsb' 0 8).toNat = (nodeAt m i).val ∧ (a.extractLsb' 8 8).toNat = (nodeAt m i).low ∧
      a.getLsbD 16 = (nodeAt m i).vis ∧ a.extractLsb' 17 15 = 0#15 ∧
      (∀ p, parentOf (s.tree t).w (s.tree t).h i = some p → b = BitVec.ofNat 32 p) ∧
      (parentOf (s.tree t).w (s.tree t).h i = none → b = 0xFFFFFFFF#32)

/-- R32, R114: the levels, from the leaves to the first one of a single node, the node count, the index of every node, its
parent (the root has none) and its children; the path of a leaf, root first. -/
def Obligations.ParentOfEveryNode : Prop :=
  (∀ w h : Nat, 1 ≤ w → 1 ≤ h →
    (∃ rest, levels w h = ⟨0, w, h⟩ :: rest) ∧
    (∃ (pre : List Level) (base : Nat), levels w h = pre ++ [⟨base, 1, 1⟩] ∧ (∀ lv ∈ pre, ¬ (lv.w = 1 ∧ lv.h = 1)) ∧
      nodeCount w h = base + 1) ∧
    (∀ x y, treePath w h x y =
      ((levels w h).zipIdx.map fun l => l.1.node (x / 2 ^ l.2) (y / 2 ^ l.2)).reverse) ∧
    (∀ i, i < nodeCount w h → (parentOf w h i = none ↔ i + 1 = nodeCount w h)) ∧
    (∀ (pre post : List Level) (lv up : Level) (i j : Nat), levels w h = pre ++ lv :: up :: post →
      up.w = (lv.w + 1) / 2 ∧ up.h = (lv.h + 1) / 2 ∧ up.base = lv.base + lv.w * lv.h ∧
      (i < lv.w → j < lv.h → parentOf w h (lv.node i j) = some (up.node (i / 2) (j / 2))) ∧
      ∀ n, n ∈ childrenOf lv i j ↔
        ∃ di dj, di ≤ 1 ∧ dj ≤ 1 ∧ 2 * i + di < lv.w ∧ 2 * j + dj < lv.h ∧ n = lv.node (2 * i + di) (2 * j + dj))) ∧
  (∀ (lv : Level) (i j : Nat), lv.node i j = lv.base + j * lv.w + i) ∧
  nodeCount 64 64 = 5461 ∧ (levels 64 64).length = 7

/-- R118, on a tree whose invariants hold (R34): a query resolves the leaf exactly when its value is at most the
threshold, and then answers the value; otherwise it answers a lower bound above the threshold. -/
def Obligations.TtEncResolvesExactlyUpToTheThreshold : Prop :=
  ∀ (t : TreeSel) (x y thr : Nat) (s : State) (m : Memory Node) (u : State),
    s.err = false → (s.tree t).mode = .fresh ∨ (s.tree t).mode = .loaded ∨ (s.tree t).mode = .enc →
    (s.tree t).ok s.cfg.ttMaxDim → (s.tree t).coherent → (s.tree t).nodes = some m →
    x < (s.tree t).w → y < (s.tree t).h → thr ≤ 254 → exec (.ttEnc t x y thr) s = .next u →
    (let v := (nodeAt m (y * (s.tree t).w + x)).val
     (v ≤ thr → u.res0 = BitVec.ofNat 32 (256 + v)) ∧
     (thr < v → ∃ low, thr < low ∧ low ≤ v ∧ u.res0 = BitVec.ofNat 32 low))

/-- R123: a query moves at most `T + 1` zeros and at most one 1 a level. -/
def Obligations.QueryBitsAreBounded : Prop :=
  ∀ (t : TreeSel) (x y thr : Nat) (s u : State),
    (exec (.ttEnc t x y thr) s = .next u →
      ∃ bits : List Bool, u.hdr = s.hdr ++ bits.map .put ∧ bits.count false ≤ thr + 1 ∧
        bits.count true ≤ (levels (s.tree t).w (s.tree t).h).length) ∧
    (exec (.ttDec t x y thr) s = .next u →
      ∃ bits : List Bool, u.hdr = s.hdr ++ bits.map .get ∧ bits.count false ≤ thr + 1 ∧
        bits.count true ≤ (levels (s.tree t).w (s.tree t).h).length)

/-- R34 (b): no query lowers a floor or clears a visited flag, of either tree. -/
def Obligations.FloorsNeverFall : Prop :=
  ∀ (i : Instr) (s u : State) (t : TreeSel) (m : Memory Node),
    (∀ t w h, i ≠ .ttInit t w h) → i ≠ .softReset → (s.tree t).nodes = some m → exec i s = .next u →
    ∃ m', (u.tree t).nodes = some m' ∧
      ∀ n, (nodeAt m n).low ≤ (nodeAt m' n).low ∧ ((nodeAt m n).vis = true → (nodeAt m' n).vis = true)

/-- R122: an encoder's query and a decoder's query fed its bits answer the same and leave trees that agree. -/
def Obligations.DecoderFollowsEncoder : Prop :=
  ∀ (te td : TreeSel) (x y thr : Nat) (e d e' : State) (bits more : List Bool),
    e.err = false → d.err = false →
    (e.tree te).mode = .fresh ∨ (e.tree te).mode = .loaded ∨ (e.tree te).mode = .enc →
    (d.tree td).mode = .fresh ∨ (d.tree td).mode = .dec →
    (e.tree te).ok e.cfg.ttMaxDim → (e.tree te).coherent → (d.tree td).coherent → (e.tree te).agrees (d.tree td) →
    x < (e.tree te).w → y < (e.tree te).h → thr ≤ 254 →
    exec (.ttEnc te x y thr) e = .next e' → e'.hdr = e.hdr ++ bits.map .put → d.hdrIn.pending = bits ++ more →
    ∃ d' : State, exec (.ttDec td x y thr) d = .next d' ∧
      d'.busy = d.busy ∧ d'.res0 = e'.res0 ∧ d'.res1 = e'.res1 ∧ d'.hdr = d.hdr ++ bits.map .get ∧
      d'.hdrIn.pending = more ∧ (e'.tree te).agrees (d'.tree td)

/-! ## Coding passes -/

/-- R181: the scan visits every coefficient once, stripe by stripe, column by column, top to bottom. -/
def Obligations.ScanVisitsEachCoefficientOnce : Prop :=
  ∀ w h : Nat,
    (∀ y0 x y, (y0, x, y) ∈ scan w h ↔ x < w ∧ y < h ∧ y0 = 4 * (y / 4)) ∧
    (scan w h).Pairwise fun a b =>
      a.1 < b.1 ∨ (a.1 = b.1 ∧ (a.2.1 < b.2.1 ∨ (a.2.1 = b.2.1 ∧ a.2.2 < b.2.2)))

/-- R191: an encoding pass completes when the coder takes every bit: `CB_STATE` is `ACTIVE`, the trace gains `Enc` events
and one `PassEnd`, no magnitude changes (R186), no result register is written, nothing else changes. Which coefficients
are coded, with which context and bit, and what becomes of every flag word, is `passVisit` (R183 to R185, R187 to R190). -/
def Obligations.EncPassCompletes : Prop :=
  ∀ (k : PassKind) (p : Nat) (s : State) (win : Window),
    s.err = false → s.cbState = .ready ∨ s.cbState = .active → s.window = some win → p ≤ 30 →
    s.encIn.neverFull = true →
    ∃ (win' : Window) (ev : List CodEvent) (q : Answers EncAnswer),
      exec (.t1EncPass k p) s = .next { s with
        cbState := .active, window := some win', cod := s.cod ++ ev ++ [.passEnd k p], encIn := q } ∧
      win'.mags = win.mags ∧ (∀ e ∈ ev, ∃ ctx b, e = .enc ctx b ∧ ctx ≤ 18) ∧
      s.encIn.gives (List.replicate ev.length .ok) q ∧
      (s.cbW ≤ 64 →
        passVisit ⟨.enc, s.cbW, s.cbH, s.cbOrient, s.cfg.runLength⟩ k p win (ev ++ [.passEnd k p]) none win')

/-- R192, R199: a decoding pass completes on any answers: no fault, `Dec` events and one `PassEnd`, nothing changed but
the window, the port and `CB_STATE`; the window and the contexts as `passVisit` has them, the bits the port's answers in
order. -/
def Obligations.DecPassCompletes : Prop :=
  ∀ (k : PassKind) (p : Nat) (s : State) (win : Window),
    s.err = false → s.cbState = .ready ∨ s.cbState = .active → s.window = some win → p ≤ 30 →
    s.decIn.endless = true →
    ∃ (win' : Window) (ev : List CodEvent) (q : Answers Bool),
      exec (.t1DecPass k p) s = .next { s with
        cbState := .active, window := some win', cod := s.cod ++ ev ++ [.passEnd k p], decIn := q } ∧
      (∀ e ∈ ev, ∃ ctx b, e = .dec ctx b ∧ ctx ≤ 18) ∧
      s.decIn.gives (decBits ev) q ∧
      (s.cbW ≤ 64 →
        passVisit ⟨.dec, s.cbW, s.cbH, s.cbOrient, s.cfg.runLength⟩ k p win (ev ++ [.passEnd k p]) none win')

/-- R193, R195: `T1_ENC_BLOCK` completes when the coder takes every bit: `RES0` is the number of bit-planes of the largest
magnitude, `RES1` the number of passes, the trace a `Reset` and the passes of R193 in order, each as `passVisit` has it. -/
def Obligations.EncBlockCompletes : Prop :=
  ∀ (s : State) (win : Window),
    s.err = false → s.cbState = .ready → s.window = some win → s.encIn.neverFull = true →
    ∃ (nbp : Nat) (win' : Window) (ev : List CodEvent) (q : Answers EncAnswer),
      exec .t1EncBlock s = .next { s with
        cbState := .active, window := some win', cod := s.cod ++ .reset :: ev, encIn := q,
        res0 := BitVec.ofNat 32 nbp, res1 := BitVec.ofNat 32 (if 0 < nbp then 3 * nbp - 2 else 0) } ∧
      nbp ≤ 31 ∧ win.planes s.cbW s.cbH nbp ∧ passEnds ev = blockPasses nbp ∧ win'.mags = win.mags ∧
      s.encIn.gives (List.replicate (encBits ev).length .ok) q ∧
      (s.cbW ≤ 64 →
        passesVisit ⟨.enc, s.cbW, s.cbH, s.cbOrient, s.cfg.runLength⟩ (blockPasses nbp) win ev none win')

/-- R194, R199: `T1_DEC_BLOCK` completes on any answers, with the operand in place of the computed number of planes. -/
def Obligations.DecBlockCompletes : Prop :=
  ∀ (nbp : Nat) (s : State) (win : Window),
    s.err = false → s.cbState = .ready → s.window = some win → nbp ≤ 31 → s.decIn.endless = true →
    ∃ (win' : Window) (ev : List CodEvent) (q : Answers Bool),
      exec (.t1DecBlock nbp) s = .next { s with
        cbState := .active, window := some win', cod := s.cod ++ .reset :: ev, decIn := q,
        res0 := BitVec.ofNat 32 nbp, res1 := BitVec.ofNat 32 (if 0 < nbp then 3 * nbp - 2 else 0) } ∧
      passEnds ev = blockPasses nbp ∧ s.decIn.gives (decBits ev) q ∧
      (s.cbW ≤ 64 →
        passesVisit ⟨.dec, s.cbW, s.cbH, s.cbOrient, s.cfg.runLength⟩ (blockPasses nbp) win ev none win')

/-- R199: once accepted with its operand in range, a decode never faults, whatever the port answers or fails to. -/
def Obligations.DecodeNeverFaults : Prop :=
  ∀ (s : State) (win : Window), s.err = false → s.window = some win →
    (∀ k p, s.cbState = .ready ∨ s.cbState = .active → p ≤ 30 →
      ∃ t, exec (.t1DecPass k p) s = .next t ∧ t.err = false) ∧
    (∀ nbp, s.cbState = .ready → nbp ≤ 31 → ∃ t, exec (.t1DecBlock nbp) s = .next t ∧ t.err = false)

/-- R187: the refinement pass codes, in scan order, exactly the coefficients with `SIG` = 1 and `VIS` = 0, each with the
context of its flag word and bit `p` of its magnitude, and sets their `REF`; no other flag bit changes. -/
def Obligations.RefinementCodesTheOldSignificant : Prop :=
  ∀ (p : Nat) (s : State) (win : Window),
    s.err = false → s.cbState = .ready ∨ s.cbState = .active → s.window = some win → s.cbW ≤ 64 → p ≤ 30 →
    s.encIn.neverFull = true →
    ∃ t win', exec (.t1EncPass .mrp p) s = .next t ∧ t.window = some win' ∧
      t.cod = s.cod ++ ((scan s.cbW s.cbH).filter (fun c =>
          isSig (win.coef c.2.1 c.2.2) && !isVis (win.coef c.2.1 c.2.2))).map (fun c =>
          CodEvent.enc (refLabel (win.coef c.2.1 c.2.2)) ((win.mag c.2.1 c.2.2).getLsbD p)) ++ [.passEnd .mrp p] ∧
      (∀ x y, x < s.cbW → y < s.cbH → win'.coef x y =
        if isSig (win.coef x y) && !isVis (win.coef x y) then win.coef x y ||| 0x4000#16 else win.coef x y) ∧
      ∀ wx wy, wx < 66 → inBlock s.cbW s.cbH wx wy = false → win'.flag wx wy = win.flag wx wy

/-- R190: after a cleanup pass every `VIS` bit of the code-block is 0, in both directions and for both values of
`CUP_RL`. -/
def Obligations.CleanupClearsEveryVisited : Prop :=
  ∀ (p : Nat) (s : State) (win : Window),
    s.err = false → s.cbState = .ready ∨ s.cbState = .active → s.window = some win → s.cbW ≤ 64 → p ≤ 30 →
    (s.encIn.neverFull = true → ∃ t win', exec (.t1EncPass .cup p) s = .next t ∧ t.window = some win' ∧
      ∀ x y, x < s.cbW → y < s.cbH → isVis (win'.coef x y) = false) ∧
    (s.decIn.endless = true → ∃ t win', exec (.t1DecPass .cup p) s = .next t ∧ t.window = some win' ∧
      ∀ x y, x < s.cbW → y < s.cbH → isVis (win'.coef x y) = false)

/-- R196, R212: what a `CAPACITY` fault leaves: `DIRTY`, no result written, magnitudes and trees untouched, no `PassEnd`
of the pass that stopped, and `ERRPOS` with the kind and plane of that pass (the operands of a pass command; of the block
command the pass after those that ended) and the coefficient whose call was refused, the port's last answer; the events
and flag words are those up to that call (`passVisit`). -/
def Obligations.CapacityFaultState : Prop :=
  ∀ (i : Instr) (s t : State) (win : Window), i = .t1EncBlock ∨ (∃ k p, i = .t1EncPass k p) →
    s.err = false → s.window = some win → exec i s = .next t → t.err = true → t.errCode = some .capacity →
    ∃ (k : PassKind) (p x y : Nat) (ev : List CodEvent) (win' : Window) (q : Answers EncAnswer),
      t = { s with
        err := true, everErr := true, errCode := some .capacity, errCmd := encode i,
        errPos := BitVec.ofNat 32
          (2 ^ 31 + (match k with | .spp => 0 | .mrp => 1 | .cup => 2) * 2 ^ 28 + p * 2 ^ 20 + y * 2 ^ 8 + x),
        cbState := .dirty, busy := false, held := none, window := some win', cod := s.cod ++ ev, encIn := q } ∧
      x < s.cbW ∧ y < s.cbH ∧ p ≤ 30 ∧ (k, p) ∉ passEnds ev ∧ win'.mags = win.mags ∧
      s.encIn.gives (List.replicate (encBits ev).length .ok ++ [.full]) q ∧
      (∀ k' p', i = .t1EncPass k' p' → k = k' ∧ p = p' ∧ passEnds ev = [] ∧
        (s.cbW ≤ 64 →
          passVisit ⟨.enc, s.cbW, s.cbH, s.cbOrient, s.cfg.runLength⟩ k p win ev (some (k, p, x, y)) win')) ∧
      (i = .t1EncBlock → ∃ (nbp : Nat) (rest : List (PassKind × Nat)) (ev' : List CodEvent),
        win.planes s.cbW s.cbH nbp ∧ blockPasses nbp = passEnds ev ++ (k, p) :: rest ∧ ev = .reset :: ev' ∧
        (s.cbW ≤ 64 →
          passesVisit ⟨.enc, s.cbW, s.cbH, s.cbOrient, s.cfg.runLength⟩ (blockPasses nbp) win ev'
            (some (k, p, x, y)) win'))

/-- R196, R212: the answer `full` raises `CAPACITY`, at whatever call of whatever encoding command it comes. On the first
call of a cleanup pass: nothing coded, nothing in the window changed. In general, where the port says `ok` a number of times
and then `full`, the command is compared with one whose port never says `full`: if that one makes no more calls, the `full`
is not met and the two end the same; if it makes more, `CAPACITY` is raised at the first call beyond, with the events before
that call recorded, none after, and the rest of the state as in CapacityFaultState. -/
def Obligations.FullAnswerRaisesCapacity : Prop :=
  (∀ (p : Nat) (s : State) (win : Window) (more : List EncAnswer),
    s.err = false → s.cbState = .ready ∨ s.cbState = .active → s.window = some win → p ≤ 30 →
    1 ≤ s.cbW → 1 ≤ s.cbH → win.coef 0 0 &&& 0x3000#16 = 0#16 → s.encIn.pending = .full :: more →
    exec (.t1EncPass .cup p) s = .next { s with
      err := true, everErr := true, errCode := some .capacity, errCmd := encode (.t1EncPass .cup p),
      errPos := BitVec.ofNat 32 (2 ^ 31 + 2 * 2 ^ 28 + p * 2 ^ 20), cbState := .dirty, busy := false, held := none,
      encIn := { s.encIn with pending := more } }) ∧
  ∀ (i : Instr) (l : List (PassKind × Nat)) (first : List CodEvent) (s r : State) (win : Window) (n : Nat)
    (more : List EncAnswer) (tr : List CodEvent),
    s.err = false → s.window = some win → s.startsPasses win i .enc l first →
    s.encIn.pending = List.replicate n .ok ++ .full :: more →
    exec i { s with encIn := ⟨[], some .ok⟩ } = .next r → r.cod = s.cod ++ tr →
    ((encBits tr).length ≤ n → exec i s =
      .next { r with encIn := { s.encIn with pending := s.encIn.pending.drop (encBits tr).length } }) ∧
    (n < (encBits tr).length →
      ∃ (k : PassKind) (p x y : Nat) (post : List (PassKind × Nat)) (ctx : Nat) (b : Bool) (ev rest : List CodEvent)
        (win' : Window),
        exec i s = .next { s with
          err := true, everErr := true, errCode := some .capacity, errCmd := encode i,
          errPos := BitVec.ofNat 32
            (2 ^ 31 + (match k with | .spp => 0 | .mrp => 1 | .cup => 2) * 2 ^ 28 + p * 2 ^ 20 + y * 2 ^ 8 + x),
          cbState := .dirty, busy := false, held := none, window := some win', cod := s.cod ++ first ++ ev,
          encIn := { s.encIn with pending := more } } ∧
        tr = first ++ ev ++ .enc ctx b :: rest ∧ (encBits ev).length = n ∧ l = passEnds ev ++ (k, p) :: post ∧
        x < s.cbW ∧ y < s.cbH ∧ win'.mags = win.mags ∧
        (s.cbW ≤ 64 →
          passesVisit ⟨.enc, s.cbW, s.cbH, s.cbOrient, s.cfg.runLength⟩ l win ev (some (k, p, x, y)) win'))

/-- One pass, encoded and decoded (R198 pass by pass): fed the encoder's bits, the decoder asks for the same contexts in
the same order and leaves the same flag words, but for signs of insignificant coefficients, whatever the magnitudes. -/
def Obligations.DecPassMirrorsEncPass : Prop :=
  ∀ (k : PassKind) (p : Nat) (e d e' : State) (we wd we' : Window) (ev : List CodEvent) (more : List Bool),
    e.err = false → d.err = false →
    e.cbState = .ready ∨ e.cbState = .active → d.cbState = .ready ∨ d.cbState = .active →
    e.window = some we → d.window = some wd → p ≤ 30 →
    e.cbW = d.cbW → e.cbH = d.cbH → e.cbW ≤ 64 → e.cbOrient = d.cbOrient → e.cfg.runLength = d.cfg.runLength →
    we.sameFlags wd e.cbW e.cbH → e.encIn.neverFull = true →
    exec (.t1EncPass k p) e = .next e' → e'.window = some we' → e'.cod = e.cod ++ ev →
    d.decIn.pending = encBits ev ++ more →
    ∃ d' wd', exec (.t1DecPass k p) d = .next d' ∧ d'.err = false ∧ d'.busy = d.busy ∧ d'.held = d.held ∧
      d'.cod = d.cod ++ decoded ev ∧ d'.decIn.pending = more ∧ d'.window = some wd' ∧
      we'.sameFlags wd' e.cbW e.cbH

/-- R198: the round trip of a code-block. A `READY` window decoded with the bits its encoder coded ends with the same
magnitudes and the same flag words, but for the `SGN` bit of coefficients of magnitude 0 that were loaded as negative zero;
the trace is the encoder's with `Dec` for `Enc`. (The owner bits of border cells are 0 in every `READY` window, R28, which
the clause on all flag words takes as its premise.) -/
def Obligations.BlockRoundTrip : Prop :=
  ∀ (e d e' : State) (we we' wd : Window) (ev : List CodEvent) (nbp : Nat) (more : List Bool),
    e.err = false → d.err = false → e.cbState = .ready → d.cbState = .ready →
    e.window = some we → d.window = some wd →
    e.cbW = d.cbW → e.cbH = d.cbH → e.cbW ≤ 64 → e.cbOrient = d.cbOrient → e.cfg.runLength = d.cfg.runLength →
    (∀ wx wy, wx ≤ e.cbW + 1 → wy ≤ e.cbH + 1 →
      we.flag wx wy &&& 0x7FFF#16 = 0#16 ∧ wd.flag wx wy &&& 0x7FFF#16 = 0#16) →
    (∀ x y, x < e.cbW → y < e.cbH → wd.mag x y = 0#31) →
    e.encIn.neverFull = true →
    exec .t1EncBlock e = .next e' → e'.window = some we' → e'.cod = e.cod ++ ev →
    nbp ≤ 31 → e'.res0 = BitVec.ofNat 32 nbp → d.decIn.pending = encBits ev ++ more →
    ∃ d' wd', exec (.t1DecBlock nbp) d = .next d' ∧ d'.err = false ∧ d'.busy = d.busy ∧ d'.held = d.held ∧
      d'.res0 = e'.res0 ∧ d'.res1 = e'.res1 ∧ d'.cod = d.cod ++ decoded ev ∧ d'.decIn.pending = more ∧
      d'.window = some wd' ∧
      (∀ x y, x < e.cbW → y < e.cbH →
        wd'.mag x y = we.mag x y ∧ (we.mag x y ≠ 0#31 → wd'.coef x y = we'.coef x y)) ∧
      we'.sameFlags wd' e.cbW e.cbH ∧
      (we.borderOk e.cbW e.cbH → wd.borderOk e.cbW e.cbH → ∀ wx wy, wx ≤ e.cbW + 1 → wy ≤ e.cbH + 1 →
        we'.flag wx wy = wd'.flag wx wy ∨
          ∃ x y, wx = x + 1 ∧ wy = y + 1 ∧ x < e.cbW ∧ y < e.cbH ∧ we.mag x y = 0#31 ∧
            (isNeg (we.coef x y) = true ∨ isNeg (wd.coef x y) = true))

/-! ## Holding -/

/-- R73: a call the port does not answer waits: `BUSY` is 1, no result is written, nothing completes. A `TT_DEC` whose
port stops answering is compared with one whose port goes on: given as many answers as that one takes it ends the same,
given fewer it waits at a node of the path, the nodes above it already left (R117; what the waiting node shows is log 16),
the mode unchanged; without a first answer a fresh tree's query waits at the
root. A command that runs passes ends, or waits at a coefficient, according to whether its calls outlast the answers, with
the events and the window up to there (`passVisit`). (The record of the held command is the model's, log 6.) -/
def Obligations.UnansweredQueryIsHeld : Prop :=
  (∀ (t : TreeSel) (x y thr : Nat) (s : State),
    s.err = false → (s.tree t).mode = .fresh → (s.tree t).coherent → (s.tree t).nodes.isSome = true →
    x < (s.tree t).w → y < (s.tree t).h → thr ≤ 254 →
    s.hdrIn = ⟨[], none⟩ →
    ∃ (u : State) (h : Pending), exec (.ttDec t x y thr) s = .next u ∧ u.busy = true ∧ u.held = some h ∧
      h.cmd = .ttDec t x y thr ∧ h.cursor = .path t (nodeCount (s.tree t).w (s.tree t).h - 1) ∧
      u.res0 = s.res0 ∧ u.res1 = s.res1 ∧ u.hdr = s.hdr ∧ (u.tree t).mode = .fresh) ∧
  (∀ (t : TreeSel) (x y thr : Nat) (s : State) (m : Memory Node) (answers bits : List Bool) (b : Bool) (r : State),
    s.err = false → (s.tree t).mode = .fresh ∨ (s.tree t).mode = .dec → (s.tree t).nodes = some m →
    x < (s.tree t).w → y < (s.tree t).h → thr ≤ 254 →
    exec (.ttDec t x y thr) { s with hdrIn := ⟨answers, some b⟩ } = .next r → r.hdr = s.hdr ++ bits.map .get →
    (bits.length ≤ answers.length →
      exec (.ttDec t x y thr) { s with hdrIn := ⟨answers, none⟩ } =
        .next { r with hdrIn := ⟨answers.drop bits.length, none⟩ }) ∧
    (answers.length < bits.length →
      ∃ (u : State) (h : Pending) (n : Nat) (m1 m' : Memory Node) (above below : List Nat) (got : List Bool)
        (f zeros : Nat),
        exec (.ttDec t x y thr) { s with hdrIn := ⟨answers, none⟩ } = .next u ∧
        u.busy = true ∧ u.held = some h ∧ h.cmd = .ttDec t x y thr ∧ h.cursor = .path t n ∧
        treePath (s.tree t).w (s.tree t).h x y = above ++ n :: below ∧
        walkVisit (decStep thr) above m 0 got m1 f ∧ answers = got ++ List.replicate zeros false ∧
        onlyNode m1 m' n { nodeAt m1 n with low := max f (nodeAt m1 n).low } ∧
        u.err = false ∧ u.res0 = s.res0 ∧ u.res1 = s.res1 ∧ u.hdr = s.hdr ++ answers.map .get ∧ u.hdrIn = ⟨[], none⟩ ∧
        u.tree t = { s.tree t with nodes := some m' } ∧
        ∀ i, i ∉ treePath (s.tree t).w (s.tree t).h x y → nodeAt m' i = nodeAt m i)) ∧
  ∀ (i : Instr) (mode : Mode) (l : List (PassKind × Nat)) (first : List CodEvent) (s : State) (win : Window),
    s.err = false → s.window = some win → s.cbW ≤ 64 → s.startsPasses win i mode l first →
    (mode = .enc → (∀ a ∈ s.encIn.pending, a = .ok) ∧ s.encIn.rest = none) → (mode = .dec → s.decIn.rest = none) →
    ∃ (u : State) (win' : Window) (ev : List CodEvent),
      exec i s = .next u ∧ u.err = false ∧ u.cbState = .active ∧ u.window = some win' ∧ u.cod = s.cod ++ first ++ ev ∧
      (mode = .enc → s.encIn.gives (List.replicate (encBits ev).length .ok) u.encIn) ∧
      (mode = .dec → s.decIn.gives (decBits ev) u.decIn) ∧
      ((u.busy = s.busy ∧ u.held = s.held ∧
          passesVisit ⟨mode, s.cbW, s.cbH, s.cbOrient, s.cfg.runLength⟩ l win ev none win') ∨
        ∃ (h : Pending) (k : PassKind) (p x y : Nat),
          u.busy = true ∧ u.held = some h ∧ h.cmd = i ∧ h.cursor = .scan k p (4 * (y / 4)) x y ∧
          u.res0 = s.res0 ∧ u.res1 = s.res1 ∧
          (mode = .enc → u.encIn.pending = []) ∧ (mode = .dec → u.decIn.pending = []) ∧
          passesVisit ⟨mode, s.cbW, s.cbH, s.cbOrient, s.cfg.runLength⟩ l win ev (some (k, p, x, y)) win')

/-- R73: what the host does to a held block, short of `SOFT_RESET` and reset, moves nothing but `CMD_LO`, `OVR` and the
bus. A word written to `CMD_HI` (`slowCommand`, log 7, is the same write) only sets `OVR`; time alone (`proceed`, log 7)
moves no command that waits at a port. -/
def Obligations.HeldBlockWaits : Prop :=
  ∀ (s : State) (more : List Event), s.busy = true →
    (∀ off width, s.inputs = .read off width :: more →
      ∃ v, step s = .next { s with inputs := more, rdata := v }) ∧
    (∀ off width v, s.inputs = .write off width v :: more → v ++ s.cmdLo ≠ 0x0100000000000000#64 →
      ∃ lo o, step s = .next { s with inputs := more, cmdLo := lo, ovr := o }) ∧
    (∀ v, s.inputs = .slowCommand v :: more → v ++ s.cmdLo ≠ 0x0100000000000000#64 →
      step s = .next { s with inputs := more, ovr := true }) ∧
    (∀ (i : Instr) (r : State), r.busy = false → r.held = none → r.err = false → exec i r = .next s →
      step { s with inputs := .proceed :: more } = .next { s with inputs := more }) ∧
    (s.inputs = [] → step s = .next s)

/-- R73: a held command whose answer arrives goes on as if the answer had been waiting when it started. -/
def Obligations.LateAnswerResumesTheCommand : Prop :=
  ∀ (i : Instr) (s t : State) (more : List Event),
    s.busy = false → s.held = none → s.err = false → exec i s = .next t → t.busy = true →
    (∀ b : Bool, step { t with inputs := .decAnswer b :: more } =
      exec i { s with decIn := { s.decIn with pending := s.decIn.pending ++ [b] }, inputs := more }) ∧
    (∀ b : Bool, step { t with inputs := .hdrAnswer b :: more } =
      exec i { s with hdrIn := { s.hdrIn with pending := s.hdrIn.pending ++ [b] }, inputs := more }) ∧
    (∀ a : EncAnswer, step { t with inputs := .encAnswer a :: more } =
      exec i { s with encIn := { s.encIn with pending := s.encIn.pending ++ [a] }, inputs := more })

/-! ## Invariants -/

/-- The state after reset has every invariant below. -/
def Obligations.ResetHasTheInvariants : Prop :=
  State.reset.LifeCycle ∧ State.reset.memWf = true ∧ State.reset.flagsOk ∧ State.reset.treesOk

/-- R24, R33, R36, R45: the life-cycle states say what they claim, in every state a step reaches from one where they
do. -/
def Obligations.StepKeepsTheLifeCycle : Prop :=
  ∀ s t : State, s.LifeCycle → step s = .next t → t.LifeCycle

/-- R45, R241, R248: no step stops: what is unspecified is never read, and every word has an outcome. -/
def Obligations.StepAlwaysGoesOn : Prop :=
  ∀ s : State, s.LifeCycle → ∃ t, step s = .next t

/-- The memories keep their canonical form (log 1). -/
def Obligations.StepKeepsMemoriesCanonical : Prop :=
  ∀ s t : State, s.memWf = true → step s = .next t → t.memWf = true

/-- R24, R27 (a), (b), (d), R28: the flag-word invariants hold after every step, what `READY` says of the window among
them, held and aborted passes included. -/
def Obligations.StepKeepsFlagSymmetry : Prop :=
  ∀ s t : State, s.LifeCycle → s.flagsOk → step s = .next t → t.flagsOk

/-- R34: the node invariants of both trees hold after every step; on a tree where a `TT_DEC` waits those of mode `DEC`
(R117; log 16). -/
def Obligations.StepKeepsTreeInvariants : Prop :=
  ∀ s t : State, s.LifeCycle → s.treesOk → step s = .next t → t.treesOk
end

