-- ==== Sys2Proof/Laws/Memory.lean ====
section
/-! SUPPORT. The laws of the block's memories: a read after a write, and the canonical form. -/

namespace Sys2Proof.Machine

variable {α : Type} [DecidableEq α] {fill : α}

@[simp] theorem Memory.read_nil {β : Type} (f : β) (a : Nat) : Memory.read f [] a = f := rfl

theorem Memory.read_erase_other {β : Type} (f : β) (m : Memory β) {a b : Nat} (h : b ≠ a) :
    Memory.read f (Memory.erase m a) b = Memory.read f m b := by
  induction m with
  | nil => rfl
  | cons c rest ih =>
    obtain ⟨k, v⟩ := c
    simp only [Memory.erase, List.filter_cons] at ih ⊢
    by_cases hk : k = a
    · subst hk; simpa [Memory.read, h] using ih
    · by_cases hb : b = k
      · simp [hk, Memory.read, hb]
      · simpa [hk, Memory.read, hb] using ih

theorem Memory.read_erase_same {β : Type} (f : β) (m : Memory β) (a : Nat) :
    Memory.read f (Memory.erase m a) a = f := by
  induction m with
  | nil => rfl
  | cons c rest ih =>
    obtain ⟨k, v⟩ := c
    simp only [Memory.erase, List.filter_cons] at ih ⊢
    by_cases hk : k = a
    · simpa [hk] using ih
    · simpa [hk, Memory.read, Ne.symm hk] using ih

theorem Memory.read_insert_same {β : Type} (f : β) (m : Memory β) (a : Nat) (v : β) (h : ∀ c ∈ m, c.1 ≠ a) :
    Memory.read f (Memory.insert a v m) a = v := by
  induction m with
  | nil => simp [Memory.insert, Memory.read]
  | cons c rest ih =>
    obtain ⟨k, w⟩ := c
    have hk : k ≠ a := h (k, w) (by simp)
    have hr := ih fun c hc => h c (by simp [hc])
    by_cases hlt : a < k
    · simp [Memory.insert, hlt, Memory.read]
    · simp [Memory.insert, hlt, Memory.read, Ne.symm hk, hr]

theorem Memory.read_insert_other {β : Type} (f : β) (m : Memory β) {a b : Nat} (v : β) (h : b ≠ a) :
    Memory.read f (Memory.insert a v m) b = Memory.read f m b := by
  induction m with
  | nil => simp [Memory.insert, Memory.read, h]
  | cons c rest ih =>
    obtain ⟨k, w⟩ := c
    by_cases hlt : a < k
    · simp [Memory.insert, hlt, Memory.read, h]
    · by_cases hb : b = k
      · simp [Memory.insert, hlt, Memory.read, hb]
      · simp [Memory.insert, hlt, Memory.read, hb, ih]

theorem Memory.erase_ne {β : Type} (m : Memory β) (a : Nat) : ∀ c ∈ Memory.erase m a, c.1 ≠ a := by
  intro c hc
  simpa using (List.mem_filter.mp hc).2

/-- A read gives the value last written there. -/
@[simp] theorem Memory.read_write_same (m : Memory α) (a : Nat) (v : α) :
    Memory.read fill (Memory.write fill m a v) a = v := by
  unfold Memory.write
  split
  · next h => rw [Memory.read_erase_same, h]
  · exact Memory.read_insert_same fill _ a v (Memory.erase_ne m a)

/-- A write leaves every other cell alone. -/
theorem Memory.read_write_other (m : Memory α) {a b : Nat} (v : α) (h : b ≠ a) :
    Memory.read fill (Memory.write fill m a v) b = Memory.read fill m b := by
  unfold Memory.write
  split
  · exact Memory.read_erase_other fill m h
  · rw [Memory.read_insert_other fill _ v h, Memory.read_erase_other fill m h]

/-- Everything a read after a write can be. -/
theorem Memory.read_write (m : Memory α) (a b : Nat) (v : α) :
    Memory.read fill (Memory.write fill m a v) b = if b = a then v else Memory.read fill m b := by
  split
  · next h => rw [h, Memory.read_write_same]
  · next h => exact Memory.read_write_other m v h

@[simp] theorem Memory.wf_nil : Memory.wf fill [] = true := rfl

theorem Memory.wf_cons (a : Nat) (v : α) (m : Memory α) :
    Memory.wf fill ((a, v) :: m) = true ↔ v ≠ fill ∧ (∀ c ∈ m, a < c.1) ∧ Memory.wf fill m = true := by
  simp [Memory.wf, and_assoc]

theorem Memory.erase_wf (m : Memory α) (a : Nat) (h : Memory.wf fill m = true) :
    Memory.wf fill (Memory.erase m a) = true := by
  induction m with
  | nil => rfl
  | cons c rest ih =>
    obtain ⟨k, v⟩ := c
    obtain ⟨hv, hlt, hr⟩ := (Memory.wf_cons k v rest).mp h
    by_cases hk : k = a
    · simpa [Memory.erase, hk] using ih hr
    · have : Memory.erase ((k, v) :: rest) a = (k, v) :: Memory.erase rest a := by simp [Memory.erase, hk]
      rw [this, Memory.wf_cons]
      exact ⟨hv, fun c hc => hlt c (List.mem_of_mem_filter hc), ih hr⟩

theorem Memory.mem_insert {β : Type} (m : Memory β) (a : Nat) (v : β) (c : Nat × β) :
    c ∈ Memory.insert a v m → c = (a, v) ∨ c ∈ m := by
  induction m with
  | nil => simp [Memory.insert]
  | cons d rest ih =>
    obtain ⟨k, w⟩ := d
    simp only [Memory.insert]
    split
    · simp
    · simp only [List.mem_cons]
      rintro (h | h)
      · exact .inr (.inl h)
      · rcases ih h with h | h
        · exact .inl h
        · exact .inr (.inr h)

theorem Memory.insert_wf (m : Memory α) (a : Nat) (v : α) (hv : v ≠ fill) (hne : ∀ c ∈ m, c.1 ≠ a)
    (h : Memory.wf fill m = true) : Memory.wf fill (Memory.insert a v m) = true := by
  induction m with
  | nil => simpa [Memory.insert, Memory.wf_cons] using hv
  | cons d rest ih =>
    obtain ⟨k, w⟩ := d
    obtain ⟨hw, hlt, hr⟩ := (Memory.wf_cons k w rest).mp h
    simp only [Memory.insert]
    split
    · next hak =>
      rw [Memory.wf_cons]
      refine ⟨hv, ?_, h⟩
      intro c hc
      rcases List.mem_cons.mp hc with rfl | hc
      · exact hak
      · exact lt_trans hak (hlt c hc)
    · next hak =>
      rw [Memory.wf_cons]
      refine ⟨hw, ?_, ih (fun c hc => hne c (by simp [hc])) hr⟩
      intro c hc
      rcases Memory.mem_insert rest a v c hc with rfl | hc
      · have := hne (k, w) (by simp); simp only [ne_eq] at this ⊢; omega
      · exact hlt c hc

/-- A write keeps the canonical form. -/
theorem Memory.write_wf (m : Memory α) (a : Nat) (v : α) (h : Memory.wf fill m = true) :
    Memory.wf fill (Memory.write fill m a v) = true := by
  unfold Memory.write
  split
  · exact Memory.erase_wf m a h
  · next hv => exact Memory.insert_wf _ a v hv (Memory.erase_ne m a) (Memory.erase_wf m a h)

end Sys2Proof.Machine
end

