-- ==== Sys2Proof/Laws/State.lean ====
section
/-! SUPPORT. One lemma per field per update of State, each true by rfl, so that no later proof unfolds a record update. -/

namespace Sys2Proof.Machine

/-! `State.setRes0` -/

@[simp] theorem State.setRes0_cfg (s : State) (a : Reg) : (s.setRes0 a).cfg = s.cfg := rfl
@[simp] theorem State.setRes0_res0 (s : State) (a : Reg) : (s.setRes0 a).res0 = a := rfl
@[simp] theorem State.setRes0_res1 (s : State) (a : Reg) : (s.setRes0 a).res1 = s.res1 := rfl
@[simp] theorem State.setRes0_cmdLo (s : State) (a : Reg) : (s.setRes0 a).cmdLo = s.cmdLo := rfl
@[simp] theorem State.setRes0_busy (s : State) (a : Reg) : (s.setRes0 a).busy = s.busy := rfl
@[simp] theorem State.setRes0_err (s : State) (a : Reg) : (s.setRes0 a).err = s.err := rfl
@[simp] theorem State.setRes0_everErr (s : State) (a : Reg) : (s.setRes0 a).everErr = s.everErr := rfl
@[simp] theorem State.setRes0_ovr (s : State) (a : Reg) : (s.setRes0 a).ovr = s.ovr := rfl
@[simp] theorem State.setRes0_errCode (s : State) (a : Reg) : (s.setRes0 a).errCode = s.errCode := rfl
@[simp] theorem State.setRes0_errCmd (s : State) (a : Reg) : (s.setRes0 a).errCmd = s.errCmd := rfl
@[simp] theorem State.setRes0_errPos (s : State) (a : Reg) : (s.setRes0 a).errPos = s.errPos := rfl
@[simp] theorem State.setRes0_cbW (s : State) (a : Reg) : (s.setRes0 a).cbW = s.cbW := rfl
@[simp] theorem State.setRes0_cbH (s : State) (a : Reg) : (s.setRes0 a).cbH = s.cbH := rfl
@[simp] theorem State.setRes0_cbOrient (s : State) (a : Reg) : (s.setRes0 a).cbOrient = s.cbOrient := rfl
@[simp] theorem State.setRes0_cbState (s : State) (a : Reg) : (s.setRes0 a).cbState = s.cbState := rfl
@[simp] theorem State.setRes0_window (s : State) (a : Reg) : (s.setRes0 a).window = s.window := rfl
@[simp] theorem State.setRes0_tree0 (s : State) (a : Reg) : (s.setRes0 a).tree0 = s.tree0 := rfl
@[simp] theorem State.setRes0_tree1 (s : State) (a : Reg) : (s.setRes0 a).tree1 = s.tree1 := rfl
@[simp] theorem State.setRes0_held (s : State) (a : Reg) : (s.setRes0 a).held = s.held := rfl
@[simp] theorem State.setRes0_cod (s : State) (a : Reg) : (s.setRes0 a).cod = s.cod := rfl
@[simp] theorem State.setRes0_hdr (s : State) (a : Reg) : (s.setRes0 a).hdr = s.hdr := rfl
@[simp] theorem State.setRes0_encIn (s : State) (a : Reg) : (s.setRes0 a).encIn = s.encIn := rfl
@[simp] theorem State.setRes0_decIn (s : State) (a : Reg) : (s.setRes0 a).decIn = s.decIn := rfl
@[simp] theorem State.setRes0_hdrIn (s : State) (a : Reg) : (s.setRes0 a).hdrIn = s.hdrIn := rfl
@[simp] theorem State.setRes0_inputs (s : State) (a : Reg) : (s.setRes0 a).inputs = s.inputs := rfl
@[simp] theorem State.setRes0_rdata (s : State) (a : Reg) : (s.setRes0 a).rdata = s.rdata := rfl

/-! `State.setRes` -/

@[simp] theorem State.setRes_cfg (s : State) (a b : Reg) : (s.setRes a b).cfg = s.cfg := rfl
@[simp] theorem State.setRes_res0 (s : State) (a b : Reg) : (s.setRes a b).res0 = a := rfl
@[simp] theorem State.setRes_res1 (s : State) (a b : Reg) : (s.setRes a b).res1 = b := rfl
@[simp] theorem State.setRes_cmdLo (s : State) (a b : Reg) : (s.setRes a b).cmdLo = s.cmdLo := rfl
@[simp] theorem State.setRes_busy (s : State) (a b : Reg) : (s.setRes a b).busy = s.busy := rfl
@[simp] theorem State.setRes_err (s : State) (a b : Reg) : (s.setRes a b).err = s.err := rfl
@[simp] theorem State.setRes_everErr (s : State) (a b : Reg) : (s.setRes a b).everErr = s.everErr := rfl
@[simp] theorem State.setRes_ovr (s : State) (a b : Reg) : (s.setRes a b).ovr = s.ovr := rfl
@[simp] theorem State.setRes_errCode (s : State) (a b : Reg) : (s.setRes a b).errCode = s.errCode := rfl
@[simp] theorem State.setRes_errCmd (s : State) (a b : Reg) : (s.setRes a b).errCmd = s.errCmd := rfl
@[simp] theorem State.setRes_errPos (s : State) (a b : Reg) : (s.setRes a b).errPos = s.errPos := rfl
@[simp] theorem State.setRes_cbW (s : State) (a b : Reg) : (s.setRes a b).cbW = s.cbW := rfl
@[simp] theorem State.setRes_cbH (s : State) (a b : Reg) : (s.setRes a b).cbH = s.cbH := rfl
@[simp] theorem State.setRes_cbOrient (s : State) (a b : Reg) : (s.setRes a b).cbOrient = s.cbOrient := rfl
@[simp] theorem State.setRes_cbState (s : State) (a b : Reg) : (s.setRes a b).cbState = s.cbState := rfl
@[simp] theorem State.setRes_window (s : State) (a b : Reg) : (s.setRes a b).window = s.window := rfl
@[simp] theorem State.setRes_tree0 (s : State) (a b : Reg) : (s.setRes a b).tree0 = s.tree0 := rfl
@[simp] theorem State.setRes_tree1 (s : State) (a b : Reg) : (s.setRes a b).tree1 = s.tree1 := rfl
@[simp] theorem State.setRes_held (s : State) (a b : Reg) : (s.setRes a b).held = s.held := rfl
@[simp] theorem State.setRes_cod (s : State) (a b : Reg) : (s.setRes a b).cod = s.cod := rfl
@[simp] theorem State.setRes_hdr (s : State) (a b : Reg) : (s.setRes a b).hdr = s.hdr := rfl
@[simp] theorem State.setRes_encIn (s : State) (a b : Reg) : (s.setRes a b).encIn = s.encIn := rfl
@[simp] theorem State.setRes_decIn (s : State) (a b : Reg) : (s.setRes a b).decIn = s.decIn := rfl
@[simp] theorem State.setRes_hdrIn (s : State) (a b : Reg) : (s.setRes a b).hdrIn = s.hdrIn := rfl
@[simp] theorem State.setRes_inputs (s : State) (a b : Reg) : (s.setRes a b).inputs = s.inputs := rfl
@[simp] theorem State.setRes_rdata (s : State) (a b : Reg) : (s.setRes a b).rdata = s.rdata := rfl

/-! `State.raise` -/

@[simp] theorem State.raise_cfg (s : State) (c : ErrCode) (w : Word) (pos : Reg) : (s.raise c w pos).cfg = s.cfg := rfl
@[simp] theorem State.raise_res0 (s : State) (c : ErrCode) (w : Word) (pos : Reg) : (s.raise c w pos).res0 = s.res0 := rfl
@[simp] theorem State.raise_res1 (s : State) (c : ErrCode) (w : Word) (pos : Reg) : (s.raise c w pos).res1 = s.res1 := rfl
@[simp] theorem State.raise_cmdLo (s : State) (c : ErrCode) (w : Word) (pos : Reg) : (s.raise c w pos).cmdLo = s.cmdLo := rfl
@[simp] theorem State.raise_busy (s : State) (c : ErrCode) (w : Word) (pos : Reg) : (s.raise c w pos).busy = false := rfl
@[simp] theorem State.raise_err (s : State) (c : ErrCode) (w : Word) (pos : Reg) : (s.raise c w pos).err = true := rfl
@[simp] theorem State.raise_everErr (s : State) (c : ErrCode) (w : Word) (pos : Reg) : (s.raise c w pos).everErr = true := rfl
@[simp] theorem State.raise_ovr (s : State) (c : ErrCode) (w : Word) (pos : Reg) : (s.raise c w pos).ovr = s.ovr := rfl
@[simp] theorem State.raise_errCode (s : State) (c : ErrCode) (w : Word) (pos : Reg) : (s.raise c w pos).errCode = some c := rfl
@[simp] theorem State.raise_errCmd (s : State) (c : ErrCode) (w : Word) (pos : Reg) : (s.raise c w pos).errCmd = w := rfl
@[simp] theorem State.raise_errPos (s : State) (c : ErrCode) (w : Word) (pos : Reg) : (s.raise c w pos).errPos = pos := rfl
@[simp] theorem State.raise_cbW (s : State) (c : ErrCode) (w : Word) (pos : Reg) : (s.raise c w pos).cbW = s.cbW := rfl
@[simp] theorem State.raise_cbH (s : State) (c : ErrCode) (w : Word) (pos : Reg) : (s.raise c w pos).cbH = s.cbH := rfl
@[simp] theorem State.raise_cbOrient (s : State) (c : ErrCode) (w : Word) (pos : Reg) : (s.raise c w pos).cbOrient = s.cbOrient := rfl
@[simp] theorem State.raise_cbState (s : State) (c : ErrCode) (w : Word) (pos : Reg) : (s.raise c w pos).cbState = if c = .capacity then .dirty else s.cbState := rfl
@[simp] theorem State.raise_window (s : State) (c : ErrCode) (w : Word) (pos : Reg) : (s.raise c w pos).window = s.window := rfl
@[simp] theorem State.raise_tree0 (s : State) (c : ErrCode) (w : Word) (pos : Reg) : (s.raise c w pos).tree0 = s.tree0 := rfl
@[simp] theorem State.raise_tree1 (s : State) (c : ErrCode) (w : Word) (pos : Reg) : (s.raise c w pos).tree1 = s.tree1 := rfl
@[simp] theorem State.raise_held (s : State) (c : ErrCode) (w : Word) (pos : Reg) : (s.raise c w pos).held = none := rfl
@[simp] theorem State.raise_cod (s : State) (c : ErrCode) (w : Word) (pos : Reg) : (s.raise c w pos).cod = s.cod := rfl
@[simp] theorem State.raise_hdr (s : State) (c : ErrCode) (w : Word) (pos : Reg) : (s.raise c w pos).hdr = s.hdr := rfl
@[simp] theorem State.raise_encIn (s : State) (c : ErrCode) (w : Word) (pos : Reg) : (s.raise c w pos).encIn = s.encIn := rfl
@[simp] theorem State.raise_decIn (s : State) (c : ErrCode) (w : Word) (pos : Reg) : (s.raise c w pos).decIn = s.decIn := rfl
@[simp] theorem State.raise_hdrIn (s : State) (c : ErrCode) (w : Word) (pos : Reg) : (s.raise c w pos).hdrIn = s.hdrIn := rfl
@[simp] theorem State.raise_inputs (s : State) (c : ErrCode) (w : Word) (pos : Reg) : (s.raise c w pos).inputs = s.inputs := rfl
@[simp] theorem State.raise_rdata (s : State) (c : ErrCode) (w : Word) (pos : Reg) : (s.raise c w pos).rdata = s.rdata := rfl

/-! `State.clearError` -/

@[simp] theorem State.clearError_cfg (s : State) : s.clearError.cfg = s.cfg := rfl
@[simp] theorem State.clearError_res0 (s : State) : s.clearError.res0 = s.res0 := rfl
@[simp] theorem State.clearError_res1 (s : State) : s.clearError.res1 = s.res1 := rfl
@[simp] theorem State.clearError_cmdLo (s : State) : s.clearError.cmdLo = s.cmdLo := rfl
@[simp] theorem State.clearError_busy (s : State) : s.clearError.busy = s.busy := rfl
@[simp] theorem State.clearError_err (s : State) : s.clearError.err = false := rfl
@[simp] theorem State.clearError_everErr (s : State) : s.clearError.everErr = s.everErr := rfl
@[simp] theorem State.clearError_ovr (s : State) : s.clearError.ovr = s.ovr := rfl
@[simp] theorem State.clearError_errCode (s : State) : s.clearError.errCode = none := rfl
@[simp] theorem State.clearError_errCmd (s : State) : s.clearError.errCmd = 0#64 := rfl
@[simp] theorem State.clearError_errPos (s : State) : s.clearError.errPos = 0#32 := rfl
@[simp] theorem State.clearError_cbW (s : State) : s.clearError.cbW = s.cbW := rfl
@[simp] theorem State.clearError_cbH (s : State) : s.clearError.cbH = s.cbH := rfl
@[simp] theorem State.clearError_cbOrient (s : State) : s.clearError.cbOrient = s.cbOrient := rfl
@[simp] theorem State.clearError_cbState (s : State) : s.clearError.cbState = s.cbState := rfl
@[simp] theorem State.clearError_window (s : State) : s.clearError.window = s.window := rfl
@[simp] theorem State.clearError_tree0 (s : State) : s.clearError.tree0 = s.tree0 := rfl
@[simp] theorem State.clearError_tree1 (s : State) : s.clearError.tree1 = s.tree1 := rfl
@[simp] theorem State.clearError_held (s : State) : s.clearError.held = s.held := rfl
@[simp] theorem State.clearError_cod (s : State) : s.clearError.cod = s.cod := rfl
@[simp] theorem State.clearError_hdr (s : State) : s.clearError.hdr = s.hdr := rfl
@[simp] theorem State.clearError_encIn (s : State) : s.clearError.encIn = s.encIn := rfl
@[simp] theorem State.clearError_decIn (s : State) : s.clearError.decIn = s.decIn := rfl
@[simp] theorem State.clearError_hdrIn (s : State) : s.clearError.hdrIn = s.hdrIn := rfl
@[simp] theorem State.clearError_inputs (s : State) : s.clearError.inputs = s.inputs := rfl
@[simp] theorem State.clearError_rdata (s : State) : s.clearError.rdata = s.rdata := rfl

/-! `State.withCoding` -/

@[simp] theorem State.withCoding_cfg (s : State) (c : Coding) : (s.withCoding c).cfg = s.cfg := rfl
@[simp] theorem State.withCoding_res0 (s : State) (c : Coding) : (s.withCoding c).res0 = s.res0 := rfl
@[simp] theorem State.withCoding_res1 (s : State) (c : Coding) : (s.withCoding c).res1 = s.res1 := rfl
@[simp] theorem State.withCoding_cmdLo (s : State) (c : Coding) : (s.withCoding c).cmdLo = s.cmdLo := rfl
@[simp] theorem State.withCoding_busy (s : State) (c : Coding) : (s.withCoding c).busy = s.busy := rfl
@[simp] theorem State.withCoding_err (s : State) (c : Coding) : (s.withCoding c).err = s.err := rfl
@[simp] theorem State.withCoding_everErr (s : State) (c : Coding) : (s.withCoding c).everErr = s.everErr := rfl
@[simp] theorem State.withCoding_ovr (s : State) (c : Coding) : (s.withCoding c).ovr = s.ovr := rfl
@[simp] theorem State.withCoding_errCode (s : State) (c : Coding) : (s.withCoding c).errCode = s.errCode := rfl
@[simp] theorem State.withCoding_errCmd (s : State) (c : Coding) : (s.withCoding c).errCmd = s.errCmd := rfl
@[simp] theorem State.withCoding_errPos (s : State) (c : Coding) : (s.withCoding c).errPos = s.errPos := rfl
@[simp] theorem State.withCoding_cbW (s : State) (c : Coding) : (s.withCoding c).cbW = s.cbW := rfl
@[simp] theorem State.withCoding_cbH (s : State) (c : Coding) : (s.withCoding c).cbH = s.cbH := rfl
@[simp] theorem State.withCoding_cbOrient (s : State) (c : Coding) : (s.withCoding c).cbOrient = s.cbOrient := rfl
@[simp] theorem State.withCoding_cbState (s : State) (c : Coding) : (s.withCoding c).cbState = .active := rfl
@[simp] theorem State.withCoding_window (s : State) (c : Coding) : (s.withCoding c).window = some c.win := rfl
@[simp] theorem State.withCoding_tree0 (s : State) (c : Coding) : (s.withCoding c).tree0 = s.tree0 := rfl
@[simp] theorem State.withCoding_tree1 (s : State) (c : Coding) : (s.withCoding c).tree1 = s.tree1 := rfl
@[simp] theorem State.withCoding_held (s : State) (c : Coding) : (s.withCoding c).held = s.held := rfl
@[simp] theorem State.withCoding_cod (s : State) (c : Coding) : (s.withCoding c).cod = c.cod := rfl
@[simp] theorem State.withCoding_hdr (s : State) (c : Coding) : (s.withCoding c).hdr = s.hdr := rfl
@[simp] theorem State.withCoding_encIn (s : State) (c : Coding) : (s.withCoding c).encIn = c.encIn := rfl
@[simp] theorem State.withCoding_decIn (s : State) (c : Coding) : (s.withCoding c).decIn = c.decIn := rfl
@[simp] theorem State.withCoding_hdrIn (s : State) (c : Coding) : (s.withCoding c).hdrIn = s.hdrIn := rfl
@[simp] theorem State.withCoding_inputs (s : State) (c : Coding) : (s.withCoding c).inputs = s.inputs := rfl
@[simp] theorem State.withCoding_rdata (s : State) (c : Coding) : (s.withCoding c).rdata = s.rdata := rfl

/-! `State.rewind` -/

@[simp] theorem State.rewind_cfg (s : State) (h : Pending) : (s.rewind h).cfg = s.cfg := rfl
@[simp] theorem State.rewind_res0 (s : State) (h : Pending) : (s.rewind h).res0 = s.res0 := rfl
@[simp] theorem State.rewind_res1 (s : State) (h : Pending) : (s.rewind h).res1 = s.res1 := rfl
@[simp] theorem State.rewind_cmdLo (s : State) (h : Pending) : (s.rewind h).cmdLo = s.cmdLo := rfl
@[simp] theorem State.rewind_busy (s : State) (h : Pending) : (s.rewind h).busy = false := rfl
@[simp] theorem State.rewind_err (s : State) (h : Pending) : (s.rewind h).err = s.err := rfl
@[simp] theorem State.rewind_everErr (s : State) (h : Pending) : (s.rewind h).everErr = s.everErr := rfl
@[simp] theorem State.rewind_ovr (s : State) (h : Pending) : (s.rewind h).ovr = s.ovr := rfl
@[simp] theorem State.rewind_errCode (s : State) (h : Pending) : (s.rewind h).errCode = s.errCode := rfl
@[simp] theorem State.rewind_errCmd (s : State) (h : Pending) : (s.rewind h).errCmd = s.errCmd := rfl
@[simp] theorem State.rewind_errPos (s : State) (h : Pending) : (s.rewind h).errPos = s.errPos := rfl
@[simp] theorem State.rewind_cbW (s : State) (h : Pending) : (s.rewind h).cbW = s.cbW := rfl
@[simp] theorem State.rewind_cbH (s : State) (h : Pending) : (s.rewind h).cbH = s.cbH := rfl
@[simp] theorem State.rewind_cbOrient (s : State) (h : Pending) : (s.rewind h).cbOrient = s.cbOrient := rfl
@[simp] theorem State.rewind_cbState (s : State) (h : Pending) : (s.rewind h).cbState = h.cbState := rfl
@[simp] theorem State.rewind_window (s : State) (h : Pending) : (s.rewind h).window = h.window := rfl
@[simp] theorem State.rewind_tree0 (s : State) (h : Pending) : (s.rewind h).tree0 = h.tree0 := rfl
@[simp] theorem State.rewind_tree1 (s : State) (h : Pending) : (s.rewind h).tree1 = h.tree1 := rfl
@[simp] theorem State.rewind_held (s : State) (h : Pending) : (s.rewind h).held = none := rfl
@[simp] theorem State.rewind_cod (s : State) (h : Pending) : (s.rewind h).cod = h.cod := rfl
@[simp] theorem State.rewind_hdr (s : State) (h : Pending) : (s.rewind h).hdr = h.hdr := rfl
@[simp] theorem State.rewind_encIn (s : State) (h : Pending) : (s.rewind h).encIn = h.encIn := rfl
@[simp] theorem State.rewind_decIn (s : State) (h : Pending) : (s.rewind h).decIn = h.decIn := rfl
@[simp] theorem State.rewind_hdrIn (s : State) (h : Pending) : (s.rewind h).hdrIn = h.hdrIn := rfl
@[simp] theorem State.rewind_inputs (s : State) (h : Pending) : (s.rewind h).inputs = s.inputs := rfl
@[simp] theorem State.rewind_rdata (s : State) (h : Pending) : (s.rewind h).rdata = s.rdata := rfl

/-! `State.offerEnc` -/

@[simp] theorem State.offerEnc_cfg (s : State) (a : EncAnswer) : (s.offerEnc a).cfg = s.cfg := rfl
@[simp] theorem State.offerEnc_res0 (s : State) (a : EncAnswer) : (s.offerEnc a).res0 = s.res0 := rfl
@[simp] theorem State.offerEnc_res1 (s : State) (a : EncAnswer) : (s.offerEnc a).res1 = s.res1 := rfl
@[simp] theorem State.offerEnc_cmdLo (s : State) (a : EncAnswer) : (s.offerEnc a).cmdLo = s.cmdLo := rfl
@[simp] theorem State.offerEnc_busy (s : State) (a : EncAnswer) : (s.offerEnc a).busy = s.busy := rfl
@[simp] theorem State.offerEnc_err (s : State) (a : EncAnswer) : (s.offerEnc a).err = s.err := rfl
@[simp] theorem State.offerEnc_everErr (s : State) (a : EncAnswer) : (s.offerEnc a).everErr = s.everErr := rfl
@[simp] theorem State.offerEnc_ovr (s : State) (a : EncAnswer) : (s.offerEnc a).ovr = s.ovr := rfl
@[simp] theorem State.offerEnc_errCode (s : State) (a : EncAnswer) : (s.offerEnc a).errCode = s.errCode := rfl
@[simp] theorem State.offerEnc_errCmd (s : State) (a : EncAnswer) : (s.offerEnc a).errCmd = s.errCmd := rfl
@[simp] theorem State.offerEnc_errPos (s : State) (a : EncAnswer) : (s.offerEnc a).errPos = s.errPos := rfl
@[simp] theorem State.offerEnc_cbW (s : State) (a : EncAnswer) : (s.offerEnc a).cbW = s.cbW := rfl
@[simp] theorem State.offerEnc_cbH (s : State) (a : EncAnswer) : (s.offerEnc a).cbH = s.cbH := rfl
@[simp] theorem State.offerEnc_cbOrient (s : State) (a : EncAnswer) : (s.offerEnc a).cbOrient = s.cbOrient := rfl
@[simp] theorem State.offerEnc_cbState (s : State) (a : EncAnswer) : (s.offerEnc a).cbState = s.cbState := rfl
@[simp] theorem State.offerEnc_window (s : State) (a : EncAnswer) : (s.offerEnc a).window = s.window := rfl
@[simp] theorem State.offerEnc_tree0 (s : State) (a : EncAnswer) : (s.offerEnc a).tree0 = s.tree0 := rfl
@[simp] theorem State.offerEnc_tree1 (s : State) (a : EncAnswer) : (s.offerEnc a).tree1 = s.tree1 := rfl
@[simp] theorem State.offerEnc_held (s : State) (a : EncAnswer) : (s.offerEnc a).held = s.held.map fun h => { h with encIn := h.encIn.push a } := rfl
@[simp] theorem State.offerEnc_cod (s : State) (a : EncAnswer) : (s.offerEnc a).cod = s.cod := rfl
@[simp] theorem State.offerEnc_hdr (s : State) (a : EncAnswer) : (s.offerEnc a).hdr = s.hdr := rfl
@[simp] theorem State.offerEnc_encIn (s : State) (a : EncAnswer) : (s.offerEnc a).encIn = s.encIn.push a := rfl
@[simp] theorem State.offerEnc_decIn (s : State) (a : EncAnswer) : (s.offerEnc a).decIn = s.decIn := rfl
@[simp] theorem State.offerEnc_hdrIn (s : State) (a : EncAnswer) : (s.offerEnc a).hdrIn = s.hdrIn := rfl
@[simp] theorem State.offerEnc_inputs (s : State) (a : EncAnswer) : (s.offerEnc a).inputs = s.inputs := rfl
@[simp] theorem State.offerEnc_rdata (s : State) (a : EncAnswer) : (s.offerEnc a).rdata = s.rdata := rfl

/-! `State.offerDec` -/

@[simp] theorem State.offerDec_cfg (s : State) (b : Bool) : (s.offerDec b).cfg = s.cfg := rfl
@[simp] theorem State.offerDec_res0 (s : State) (b : Bool) : (s.offerDec b).res0 = s.res0 := rfl
@[simp] theorem State.offerDec_res1 (s : State) (b : Bool) : (s.offerDec b).res1 = s.res1 := rfl
@[simp] theorem State.offerDec_cmdLo (s : State) (b : Bool) : (s.offerDec b).cmdLo = s.cmdLo := rfl
@[simp] theorem State.offerDec_busy (s : State) (b : Bool) : (s.offerDec b).busy = s.busy := rfl
@[simp] theorem State.offerDec_err (s : State) (b : Bool) : (s.offerDec b).err = s.err := rfl
@[simp] theorem State.offerDec_everErr (s : State) (b : Bool) : (s.offerDec b).everErr = s.everErr := rfl
@[simp] theorem State.offerDec_ovr (s : State) (b : Bool) : (s.offerDec b).ovr = s.ovr := rfl
@[simp] theorem State.offerDec_errCode (s : State) (b : Bool) : (s.offerDec b).errCode = s.errCode := rfl
@[simp] theorem State.offerDec_errCmd (s : State) (b : Bool) : (s.offerDec b).errCmd = s.errCmd := rfl
@[simp] theorem State.offerDec_errPos (s : State) (b : Bool) : (s.offerDec b).errPos = s.errPos := rfl
@[simp] theorem State.offerDec_cbW (s : State) (b : Bool) : (s.offerDec b).cbW = s.cbW := rfl
@[simp] theorem State.offerDec_cbH (s : State) (b : Bool) : (s.offerDec b).cbH = s.cbH := rfl
@[simp] theorem State.offerDec_cbOrient (s : State) (b : Bool) : (s.offerDec b).cbOrient = s.cbOrient := rfl
@[simp] theorem State.offerDec_cbState (s : State) (b : Bool) : (s.offerDec b).cbState = s.cbState := rfl
@[simp] theorem State.offerDec_window (s : State) (b : Bool) : (s.offerDec b).window = s.window := rfl
@[simp] theorem State.offerDec_tree0 (s : State) (b : Bool) : (s.offerDec b).tree0 = s.tree0 := rfl
@[simp] theorem State.offerDec_tree1 (s : State) (b : Bool) : (s.offerDec b).tree1 = s.tree1 := rfl
@[simp] theorem State.offerDec_held (s : State) (b : Bool) : (s.offerDec b).held = s.held.map fun h => { h with decIn := h.decIn.push b } := rfl
@[simp] theorem State.offerDec_cod (s : State) (b : Bool) : (s.offerDec b).cod = s.cod := rfl
@[simp] theorem State.offerDec_hdr (s : State) (b : Bool) : (s.offerDec b).hdr = s.hdr := rfl
@[simp] theorem State.offerDec_encIn (s : State) (b : Bool) : (s.offerDec b).encIn = s.encIn := rfl
@[simp] theorem State.offerDec_decIn (s : State) (b : Bool) : (s.offerDec b).decIn = s.decIn.push b := rfl
@[simp] theorem State.offerDec_hdrIn (s : State) (b : Bool) : (s.offerDec b).hdrIn = s.hdrIn := rfl
@[simp] theorem State.offerDec_inputs (s : State) (b : Bool) : (s.offerDec b).inputs = s.inputs := rfl
@[simp] theorem State.offerDec_rdata (s : State) (b : Bool) : (s.offerDec b).rdata = s.rdata := rfl

/-! `State.offerHdr` -/

@[simp] theorem State.offerHdr_cfg (s : State) (b : Bool) : (s.offerHdr b).cfg = s.cfg := rfl
@[simp] theorem State.offerHdr_res0 (s : State) (b : Bool) : (s.offerHdr b).res0 = s.res0 := rfl
@[simp] theorem State.offerHdr_res1 (s : State) (b : Bool) : (s.offerHdr b).res1 = s.res1 := rfl
@[simp] theorem State.offerHdr_cmdLo (s : State) (b : Bool) : (s.offerHdr b).cmdLo = s.cmdLo := rfl
@[simp] theorem State.offerHdr_busy (s : State) (b : Bool) : (s.offerHdr b).busy = s.busy := rfl
@[simp] theorem State.offerHdr_err (s : State) (b : Bool) : (s.offerHdr b).err = s.err := rfl
@[simp] theorem State.offerHdr_everErr (s : State) (b : Bool) : (s.offerHdr b).everErr = s.everErr := rfl
@[simp] theorem State.offerHdr_ovr (s : State) (b : Bool) : (s.offerHdr b).ovr = s.ovr := rfl
@[simp] theorem State.offerHdr_errCode (s : State) (b : Bool) : (s.offerHdr b).errCode = s.errCode := rfl
@[simp] theorem State.offerHdr_errCmd (s : State) (b : Bool) : (s.offerHdr b).errCmd = s.errCmd := rfl
@[simp] theorem State.offerHdr_errPos (s : State) (b : Bool) : (s.offerHdr b).errPos = s.errPos := rfl
@[simp] theorem State.offerHdr_cbW (s : State) (b : Bool) : (s.offerHdr b).cbW = s.cbW := rfl
@[simp] theorem State.offerHdr_cbH (s : State) (b : Bool) : (s.offerHdr b).cbH = s.cbH := rfl
@[simp] theorem State.offerHdr_cbOrient (s : State) (b : Bool) : (s.offerHdr b).cbOrient = s.cbOrient := rfl
@[simp] theorem State.offerHdr_cbState (s : State) (b : Bool) : (s.offerHdr b).cbState = s.cbState := rfl
@[simp] theorem State.offerHdr_window (s : State) (b : Bool) : (s.offerHdr b).window = s.window := rfl
@[simp] theorem State.offerHdr_tree0 (s : State) (b : Bool) : (s.offerHdr b).tree0 = s.tree0 := rfl
@[simp] theorem State.offerHdr_tree1 (s : State) (b : Bool) : (s.offerHdr b).tree1 = s.tree1 := rfl
@[simp] theorem State.offerHdr_held (s : State) (b : Bool) : (s.offerHdr b).held = s.held.map fun h => { h with hdrIn := h.hdrIn.push b } := rfl
@[simp] theorem State.offerHdr_cod (s : State) (b : Bool) : (s.offerHdr b).cod = s.cod := rfl
@[simp] theorem State.offerHdr_hdr (s : State) (b : Bool) : (s.offerHdr b).hdr = s.hdr := rfl
@[simp] theorem State.offerHdr_encIn (s : State) (b : Bool) : (s.offerHdr b).encIn = s.encIn := rfl
@[simp] theorem State.offerHdr_decIn (s : State) (b : Bool) : (s.offerHdr b).decIn = s.decIn := rfl
@[simp] theorem State.offerHdr_hdrIn (s : State) (b : Bool) : (s.offerHdr b).hdrIn = s.hdrIn.push b := rfl
@[simp] theorem State.offerHdr_inputs (s : State) (b : Bool) : (s.offerHdr b).inputs = s.inputs := rfl
@[simp] theorem State.offerHdr_rdata (s : State) (b : Bool) : (s.offerHdr b).rdata = s.rdata := rfl

/-! `State.hold` -/

@[simp] theorem State.hold_cfg (s : State) (i : Instr) (cur : Cursor) (now : State) : (s.hold i cur now).cfg = now.cfg := rfl
@[simp] theorem State.hold_res0 (s : State) (i : Instr) (cur : Cursor) (now : State) : (s.hold i cur now).res0 = now.res0 := rfl
@[simp] theorem State.hold_res1 (s : State) (i : Instr) (cur : Cursor) (now : State) : (s.hold i cur now).res1 = now.res1 := rfl
@[simp] theorem State.hold_cmdLo (s : State) (i : Instr) (cur : Cursor) (now : State) : (s.hold i cur now).cmdLo = now.cmdLo := rfl
@[simp] theorem State.hold_busy (s : State) (i : Instr) (cur : Cursor) (now : State) : (s.hold i cur now).busy = true := rfl
@[simp] theorem State.hold_err (s : State) (i : Instr) (cur : Cursor) (now : State) : (s.hold i cur now).err = now.err := rfl
@[simp] theorem State.hold_everErr (s : State) (i : Instr) (cur : Cursor) (now : State) : (s.hold i cur now).everErr = now.everErr := rfl
@[simp] theorem State.hold_ovr (s : State) (i : Instr) (cur : Cursor) (now : State) : (s.hold i cur now).ovr = now.ovr := rfl
@[simp] theorem State.hold_errCode (s : State) (i : Instr) (cur : Cursor) (now : State) : (s.hold i cur now).errCode = now.errCode := rfl
@[simp] theorem State.hold_errCmd (s : State) (i : Instr) (cur : Cursor) (now : State) : (s.hold i cur now).errCmd = now.errCmd := rfl
@[simp] theorem State.hold_errPos (s : State) (i : Instr) (cur : Cursor) (now : State) : (s.hold i cur now).errPos = now.errPos := rfl
@[simp] theorem State.hold_cbW (s : State) (i : Instr) (cur : Cursor) (now : State) : (s.hold i cur now).cbW = now.cbW := rfl
@[simp] theorem State.hold_cbH (s : State) (i : Instr) (cur : Cursor) (now : State) : (s.hold i cur now).cbH = now.cbH := rfl
@[simp] theorem State.hold_cbOrient (s : State) (i : Instr) (cur : Cursor) (now : State) : (s.hold i cur now).cbOrient = now.cbOrient := rfl
@[simp] theorem State.hold_cbState (s : State) (i : Instr) (cur : Cursor) (now : State) : (s.hold i cur now).cbState = now.cbState := rfl
@[simp] theorem State.hold_window (s : State) (i : Instr) (cur : Cursor) (now : State) : (s.hold i cur now).window = now.window := rfl
@[simp] theorem State.hold_tree0 (s : State) (i : Instr) (cur : Cursor) (now : State) : (s.hold i cur now).tree0 = now.tree0 := rfl
@[simp] theorem State.hold_tree1 (s : State) (i : Instr) (cur : Cursor) (now : State) : (s.hold i cur now).tree1 = now.tree1 := rfl
@[simp] theorem State.hold_held (s : State) (i : Instr) (cur : Cursor) (now : State) : (s.hold i cur now).held = some ⟨i, cur, s.cbState, s.window, s.tree0, s.tree1, s.cod, s.hdr, s.encIn, s.decIn, s.hdrIn⟩ := rfl
@[simp] theorem State.hold_cod (s : State) (i : Instr) (cur : Cursor) (now : State) : (s.hold i cur now).cod = now.cod := rfl
@[simp] theorem State.hold_hdr (s : State) (i : Instr) (cur : Cursor) (now : State) : (s.hold i cur now).hdr = now.hdr := rfl
@[simp] theorem State.hold_encIn (s : State) (i : Instr) (cur : Cursor) (now : State) : (s.hold i cur now).encIn = now.encIn := rfl
@[simp] theorem State.hold_decIn (s : State) (i : Instr) (cur : Cursor) (now : State) : (s.hold i cur now).decIn = now.decIn := rfl
@[simp] theorem State.hold_hdrIn (s : State) (i : Instr) (cur : Cursor) (now : State) : (s.hold i cur now).hdrIn = now.hdrIn := rfl
@[simp] theorem State.hold_inputs (s : State) (i : Instr) (cur : Cursor) (now : State) : (s.hold i cur now).inputs = now.inputs := rfl
@[simp] theorem State.hold_rdata (s : State) (i : Instr) (cur : Cursor) (now : State) : (s.hold i cur now).rdata = now.rdata := rfl

/-! `State.blockReset` -/

@[simp] theorem State.blockReset_cfg (s : State) : s.blockReset.cfg = s.cfg := rfl
@[simp] theorem State.blockReset_res0 (s : State) : s.blockReset.res0 = 0#32 := rfl
@[simp] theorem State.blockReset_res1 (s : State) : s.blockReset.res1 = 0#32 := rfl
@[simp] theorem State.blockReset_cmdLo (s : State) : s.blockReset.cmdLo = 0#32 := rfl
@[simp] theorem State.blockReset_busy (s : State) : s.blockReset.busy = false := rfl
@[simp] theorem State.blockReset_err (s : State) : s.blockReset.err = false := rfl
@[simp] theorem State.blockReset_everErr (s : State) : s.blockReset.everErr = false := rfl
@[simp] theorem State.blockReset_ovr (s : State) : s.blockReset.ovr = false := rfl
@[simp] theorem State.blockReset_errCode (s : State) : s.blockReset.errCode = none := rfl
@[simp] theorem State.blockReset_errCmd (s : State) : s.blockReset.errCmd = 0#64 := rfl
@[simp] theorem State.blockReset_errPos (s : State) : s.blockReset.errPos = 0#32 := rfl
@[simp] theorem State.blockReset_cbW (s : State) : s.blockReset.cbW = 0 := rfl
@[simp] theorem State.blockReset_cbH (s : State) : s.blockReset.cbH = 0 := rfl
@[simp] theorem State.blockReset_cbOrient (s : State) : s.blockReset.cbOrient = .ll := rfl
@[simp] theorem State.blockReset_cbState (s : State) : s.blockReset.cbState = .unconf := rfl
@[simp] theorem State.blockReset_window (s : State) : s.blockReset.window = none := rfl
@[simp] theorem State.blockReset_tree0 (s : State) : s.blockReset.tree0 = TagTree.uninit := rfl
@[simp] theorem State.blockReset_tree1 (s : State) : s.blockReset.tree1 = TagTree.uninit := rfl
@[simp] theorem State.blockReset_held (s : State) : s.blockReset.held = none := rfl
@[simp] theorem State.blockReset_cod (s : State) : s.blockReset.cod = [] := rfl
@[simp] theorem State.blockReset_hdr (s : State) : s.blockReset.hdr = [] := rfl
@[simp] theorem State.blockReset_encIn (s : State) : s.blockReset.encIn = s.encIn := rfl
@[simp] theorem State.blockReset_decIn (s : State) : s.blockReset.decIn = s.decIn := rfl
@[simp] theorem State.blockReset_hdrIn (s : State) : s.blockReset.hdrIn = s.hdrIn := rfl
@[simp] theorem State.blockReset_inputs (s : State) : s.blockReset.inputs = s.inputs := rfl
@[simp] theorem State.blockReset_rdata (s : State) : s.blockReset.rdata = s.rdata := rfl

/-! `State.setTree` -/

@[simp] theorem State.setTree_cfg (s : State) (t : TreeSel) (tr : TagTree) : (s.setTree t tr).cfg = s.cfg := by cases t <;> rfl
@[simp] theorem State.setTree_res0 (s : State) (t : TreeSel) (tr : TagTree) : (s.setTree t tr).res0 = s.res0 := by cases t <;> rfl
@[simp] theorem State.setTree_res1 (s : State) (t : TreeSel) (tr : TagTree) : (s.setTree t tr).res1 = s.res1 := by cases t <;> rfl
@[simp] theorem State.setTree_cmdLo (s : State) (t : TreeSel) (tr : TagTree) : (s.setTree t tr).cmdLo = s.cmdLo := by cases t <;> rfl
@[simp] theorem State.setTree_busy (s : State) (t : TreeSel) (tr : TagTree) : (s.setTree t tr).busy = s.busy := by cases t <;> rfl
@[simp] theorem State.setTree_err (s : State) (t : TreeSel) (tr : TagTree) : (s.setTree t tr).err = s.err := by cases t <;> rfl
@[simp] theorem State.setTree_everErr (s : State) (t : TreeSel) (tr : TagTree) : (s.setTree t tr).everErr = s.everErr := by cases t <;> rfl
@[simp] theorem State.setTree_ovr (s : State) (t : TreeSel) (tr : TagTree) : (s.setTree t tr).ovr = s.ovr := by cases t <;> rfl
@[simp] theorem State.setTree_errCode (s : State) (t : TreeSel) (tr : TagTree) : (s.setTree t tr).errCode = s.errCode := by cases t <;> rfl
@[simp] theorem State.setTree_errCmd (s : State) (t : TreeSel) (tr : TagTree) : (s.setTree t tr).errCmd = s.errCmd := by cases t <;> rfl
@[simp] theorem State.setTree_errPos (s : State) (t : TreeSel) (tr : TagTree) : (s.setTree t tr).errPos = s.errPos := by cases t <;> rfl
@[simp] theorem State.setTree_cbW (s : State) (t : TreeSel) (tr : TagTree) : (s.setTree t tr).cbW = s.cbW := by cases t <;> rfl
@[simp] theorem State.setTree_cbH (s : State) (t : TreeSel) (tr : TagTree) : (s.setTree t tr).cbH = s.cbH := by cases t <;> rfl
@[simp] theorem State.setTree_cbOrient (s : State) (t : TreeSel) (tr : TagTree) : (s.setTree t tr).cbOrient = s.cbOrient := by cases t <;> rfl
@[simp] theorem State.setTree_cbState (s : State) (t : TreeSel) (tr : TagTree) : (s.setTree t tr).cbState = s.cbState := by cases t <;> rfl
@[simp] theorem State.setTree_window (s : State) (t : TreeSel) (tr : TagTree) : (s.setTree t tr).window = s.window := by cases t <;> rfl
@[simp] theorem State.setTree_held (s : State) (t : TreeSel) (tr : TagTree) : (s.setTree t tr).held = s.held := by cases t <;> rfl
@[simp] theorem State.setTree_cod (s : State) (t : TreeSel) (tr : TagTree) : (s.setTree t tr).cod = s.cod := by cases t <;> rfl
@[simp] theorem State.setTree_hdr (s : State) (t : TreeSel) (tr : TagTree) : (s.setTree t tr).hdr = s.hdr := by cases t <;> rfl
@[simp] theorem State.setTree_encIn (s : State) (t : TreeSel) (tr : TagTree) : (s.setTree t tr).encIn = s.encIn := by cases t <;> rfl
@[simp] theorem State.setTree_decIn (s : State) (t : TreeSel) (tr : TagTree) : (s.setTree t tr).decIn = s.decIn := by cases t <;> rfl
@[simp] theorem State.setTree_hdrIn (s : State) (t : TreeSel) (tr : TagTree) : (s.setTree t tr).hdrIn = s.hdrIn := by cases t <;> rfl
@[simp] theorem State.setTree_inputs (s : State) (t : TreeSel) (tr : TagTree) : (s.setTree t tr).inputs = s.inputs := by cases t <;> rfl
@[simp] theorem State.setTree_rdata (s : State) (t : TreeSel) (tr : TagTree) : (s.setTree t tr).rdata = s.rdata := by cases t <;> rfl
@[simp] theorem State.setTree_incl_tree0 (s : State) (tr : TagTree) : (s.setTree .incl tr).tree0 = tr := rfl
@[simp] theorem State.setTree_incl_tree1 (s : State) (tr : TagTree) : (s.setTree .incl tr).tree1 = s.tree1 := rfl
@[simp] theorem State.setTree_zbp_tree0 (s : State) (tr : TagTree) : (s.setTree .zbp tr).tree0 = s.tree0 := rfl
@[simp] theorem State.setTree_zbp_tree1 (s : State) (tr : TagTree) : (s.setTree .zbp tr).tree1 = tr := rfl
@[simp] theorem State.tree_incl (s : State) : s.tree .incl = s.tree0 := rfl
@[simp] theorem State.tree_zbp (s : State) : s.tree .zbp = s.tree1 := rfl

/-- Reading a tree after replacing one. -/
theorem State.tree_setTree (s : State) (t u : TreeSel) (tr : TagTree) :
    (s.setTree t tr).tree u = if u = t then tr else s.tree u := by
  cases t <;> cases u <;> rfl

/-- Going back from a hold gives the start again, but for what the host may have changed meanwhile. -/
theorem State.rewind_hold (s now : State) (i : Instr) (cur : Cursor) (h : Pending)
    (hh : (s.hold i cur now).held = some h) :
    (s.hold i cur now).rewind h =
      { now with
        busy := false, held := none, cbState := s.cbState, window := s.window, tree0 := s.tree0, tree1 := s.tree1,
        cod := s.cod, hdr := s.hdr, encIn := s.encIn, decIn := s.decIn, hdrIn := s.hdrIn } := by
  simp only [State.hold_held, Option.some.injEq] at hh
  subst hh
  rfl

end Sys2Proof.Machine
end

