-- ==== Sys2Proof/Laws/Ops.lean ====
section
/-! SUPPORT. What each shared operation can do, said once: dispatch, the window cells, the runs of the ports, the loops. -/

namespace Sys2Proof.Machine

/-! Dispatch (R87) -/

/-- Everything dispatch can do: drop, `SEQUENCE`, the fault of the operand check, or the effect. -/
theorem State.dispatch_cases (s : State) (i : Instr) (accepted : Bool) (check : Option ErrCode) (effect : Result) :
    (s.err = true ∧ s.dispatch i accepted check effect = .next s) ∨
    (s.err = false ∧ accepted = false ∧
      s.dispatch i accepted check effect = .next (s.raise .sequence (encode i) 0#32)) ∨
    (∃ c, s.err = false ∧ accepted = true ∧ check = some c ∧
      s.dispatch i accepted check effect = .next (s.raise c (encode i) 0#32)) ∨
    (s.err = false ∧ accepted = true ∧ check = none ∧ s.dispatch i accepted check effect = effect) := by
  unfold State.dispatch
  cases he : s.err <;> cases accepted <;> cases check <;> simp

theorem State.dispatch_dropped (s : State) (i : Instr) (accepted : Bool) (check : Option ErrCode) (effect : Result)
    (h : s.err = true) : s.dispatch i accepted check effect = .next s := by
  simp [State.dispatch, h]

theorem State.dispatch_sequence (s : State) (i : Instr) (check : Option ErrCode) (effect : Result)
    (h : s.err = false) : s.dispatch i false check effect = .next (s.raise .sequence (encode i) 0#32) := by
  simp [State.dispatch, h]

theorem State.dispatch_check (s : State) (i : Instr) (c : ErrCode) (effect : Result) (h : s.err = false) :
    s.dispatch i true (some c) effect = .next (s.raise c (encode i) 0#32) := by
  simp [State.dispatch, h]

theorem State.dispatch_effect (s : State) (i : Instr) (effect : Result) (h : s.err = false) :
    s.dispatch i true none effect = effect := by
  simp [State.dispatch, h]

@[simp] theorem unlessOk_true (c : ErrCode) : unlessOk true c = none := rfl
@[simp] theorem unlessOk_false (c : ErrCode) : unlessOk false c = some c := rfl

theorem unlessOk_cases (ok : Bool) (c : ErrCode) :
    (ok = true ∧ unlessOk ok c = none) ∨ (ok = false ∧ unlessOk ok c = some c) := by
  cases ok <;> simp

theorem State.withWindow_some (s : State) (f : Window → Result) (win : Window) (h : s.window = some win) :
    s.withWindow f = f win := by
  simp [State.withWindow, h]

theorem State.withWindow_none (s : State) (f : Window → Result) (h : s.window = none) :
    s.withWindow f = .fault .windowUnspecified := by
  simp [State.withWindow, h]

theorem TagTree.withNodes_some (tr : TagTree) (f : Memory Node → Result) (m : Memory Node) (h : tr.nodes = some m) :
    tr.withNodes f = f m := by
  simp [TagTree.withNodes, h]

theorem TagTree.withNodes_none (tr : TagTree) (f : Memory Node → Result) (h : tr.nodes = none) :
    tr.withNodes f = .fault .treeUnspecified := by
  simp [TagTree.withNodes, h]

/-! Window cells (R25, R29) -/

theorem flagAddr_inj {a b c d : Nat} (h1 : a < 66) (h2 : c < 66) : flagAddr a b = flagAddr c d ↔ a = c ∧ b = d := by
  unfold flagAddr; omega

theorem magAddr_inj {a b c d : Nat} (h1 : a < 64) (h2 : c < 64) : magAddr a b = magAddr c d ↔ a = c ∧ b = d := by
  unfold magAddr; omega

/-- A flag word after one is written. -/
theorem Window.flag_putFlag (win : Window) (wx wy : Nat) (f : FlagWord) (a b : Nat) :
    (win.putFlag wx wy f).flag a b = if flagAddr a b = flagAddr wx wy then f else win.flag a b :=
  Memory.read_write _ _ _ _

@[simp] theorem Window.flag_putFlag_same (win : Window) (wx wy : Nat) (f : FlagWord) :
    (win.putFlag wx wy f).flag wx wy = f := by
  rw [Window.flag_putFlag, if_pos rfl]

@[simp] theorem Window.mag_putFlag (win : Window) (wx wy : Nat) (f : FlagWord) (a b : Nat) :
    (win.putFlag wx wy f).mag a b = win.mag a b := rfl

@[simp] theorem Window.mags_putFlag (win : Window) (wx wy : Nat) (f : FlagWord) :
    (win.putFlag wx wy f).mags = win.mags := rfl

@[simp] theorem Window.mags_orFlag (win : Window) (wx wy : Nat) (m : FlagWord) :
    (win.orFlag wx wy m).mags = win.mags := rfl

@[simp] theorem Window.mags_putBit (win : Window) (wx wy : Nat) (m : FlagWord) (b : Bool) :
    (win.putBit wx wy m b).mags = win.mags := rfl

/-- A flag word after bits of one are set. -/
theorem Window.flag_orFlag (win : Window) (wx wy : Nat) (m : FlagWord) (a b : Nat) :
    (win.orFlag wx wy m).flag a b =
      if flagAddr a b = flagAddr wx wy then win.flag wx wy ||| m else win.flag a b :=
  Window.flag_putFlag _ _ _ _ _ _

/-- A flag word after a bit of one is written. -/
theorem Window.flag_putBit (win : Window) (wx wy : Nat) (m : FlagWord) (v : Bool) (a b : Nat) :
    (win.putBit wx wy m v).flag a b =
      if flagAddr a b = flagAddr wx wy then putMask (win.flag wx wy) m v else win.flag a b :=
  Window.flag_putFlag _ _ _ _ _ _

/-- A magnitude after one is written. -/
theorem Window.mag_putMag (win : Window) (x y : Nat) (v : Magnitude) (a b : Nat) :
    (win.putMag x y v).mag a b = if magAddr a b = magAddr x y then v else win.mag a b :=
  Memory.read_write _ _ _ _

@[simp] theorem Window.flag_putMag (win : Window) (x y : Nat) (v : Magnitude) (a b : Nat) :
    (win.putMag x y v).flag a b = win.flag a b := rfl

@[simp] theorem Window.flag_orMag (win : Window) (x y p a b : Nat) : (win.orMag x y p).flag a b = win.flag a b := rfl

/-- The tracker writes no magnitude (R164). -/
@[simp] theorem Window.mags_setSig (win : Window) (x y : Nat) (neg : Bool) : (win.setSig x y neg).mags = win.mags := rfl

@[simp] theorem Window.flag_cleared (wx wy : Nat) : Window.cleared.flag wx wy = 0#16 := rfl
@[simp] theorem Window.mag_cleared (x y : Nat) : Window.cleared.mag x y = 0#31 := rfl

/-- A tag-tree node after one is written. -/
theorem nodeAt_putNode (m : Memory Node) (a b : Nat) (n : Node) :
    nodeAt (putNode m a n) b = if b = a then n else nodeAt m b :=
  Memory.read_write _ _ _ _

@[simp] theorem nodeAt_nil (i : Nat) : nodeAt [] i = Node.fresh := rfl

/-! Ports -/

theorem Answers.pop_endless {α : Type} (q : Answers α) (h : q.rest.isSome = true) :
    ∃ a more, q.pop = some (a, more) ∧ more.rest = q.rest := by
  unfold Answers.pop
  cases hp : q.pending with
  | cons a more => exact ⟨a, _, rfl, rfl⟩
  | nil =>
    obtain ⟨a, ha⟩ := Option.isSome_iff_exists.mp h
    exact ⟨a, q, by simp [ha], rfl⟩

/-! Runs -/

@[simp] theorem Res.bind_done {σ α β : Type} (a : α) (s : σ) (f : α → σ → Res σ β) :
    (Res.done a s).bind f = f a s := rfl
@[simp] theorem Res.bind_full {σ α β : Type} (cur : Cursor) (s : σ) (f : α → σ → Res σ β) :
    (Res.full cur s : Res σ α).bind f = .full cur s := rfl
@[simp] theorem Res.bind_hold {σ α β : Type} (cur : Cursor) (s : σ) (f : α → σ → Res σ β) :
    (Res.hold cur s : Res σ α).bind f = .hold cur s := rfl

/-- Where a run ended, whether it is over or not. -/
def Res.state {σ α : Type} : Res σ α → σ
  | .done _ s => s
  | .full _ s => s
  | .hold _ s => s

/-- A run that went to its end. -/
def Res.isDone {σ α : Type} : Res σ α → Bool
  | .done _ _ => true
  | .full _ _ => false
  | .hold _ _ => false

/-- What holds of every state a run may stop in holds of where it stops. -/
theorem Res.bind_state {σ α β : Type} {P : σ → Prop} (r : Res σ α) (f : α → σ → Res σ β)
    (h : P r.state) (hf : ∀ a s, r = .done a s → P (f a s).state) : P (r.bind f).state := by
  cases r with
  | done a s => exact hf a s rfl
  | full cur s => exact h
  | hold cur s => exact h

/-- An invariant every pass of the body keeps, wherever it stops, holds where the loop stops. -/
theorem forEach_state {σ ι : Type} {P : σ → Prop} (l : List ι) (body : ι → σ → Res σ Unit) (s : σ) (h : P s)
    (hb : ∀ i ∈ l, ∀ s, P s → P (body i s).state) : P (forEach l body s).state := by
  induction l generalizing s with
  | nil => exact h
  | cons i rest ih =>
    refine Res.bind_state (P := P) (body i s) _ (hb i (by simp) s h) ?_
    intro a s' hs'
    have := hb i (by simp) s h
    rw [hs'] at this
    exact ih s' this fun j hj => hb j (by simp [hj])

/-- A loop whose body goes to its end from every state with an invariant goes to its end. -/
theorem forEach_done {σ ι : Type} {P : σ → Prop} (l : List ι) (body : ι → σ → Res σ Unit) (s : σ) (h : P s)
    (hb : ∀ i ∈ l, ∀ s, P s → ∃ s', body i s = .done () s' ∧ P s') : ∃ s', forEach l body s = .done () s' ∧ P s' := by
  induction l generalizing s with
  | nil => exact ⟨s, rfl, h⟩
  | cons i rest ih =>
    obtain ⟨s1, h1, hp1⟩ := hb i (by simp) s h
    obtain ⟨s2, h2, hp2⟩ := ih s1 hp1 fun j hj => hb j (by simp [hj])
    exact ⟨s2, by simp [forEach, h1, h2], hp2⟩

theorem forEach_append {σ ι : Type} (a b : List ι) (body : ι → σ → Res σ Unit) (s : σ) :
    forEach (a ++ b) body s = (forEach a body s).bind fun _ s' => forEach b body s' := by
  induction a generalizing s with
  | nil => rfl
  | cons i rest ih =>
    simp only [List.cons_append, forEach]
    cases body i s <;> simp [ih]

/-! One coder call (R183) -/

/-- Everything a coder call can do. -/
theorem codeBit_cases (m : Mode) (cur : Cursor) (ctx : Nat) (v : Bool) (c : Coding) :
    (m = .enc ∧ ∃ more, c.encIn.pop = some (.ok, more) ∧
      codeBit m cur ctx v c = .done v { c with encIn := more, cod := c.cod ++ [.enc ctx v] }) ∨
    (m = .enc ∧ ∃ more, c.encIn.pop = some (.full, more) ∧
      codeBit m cur ctx v c = .full cur { c with encIn := more }) ∨
    (m = .enc ∧ c.encIn.pop = none ∧ codeBit m cur ctx v c = .hold cur c) ∨
    (m = .dec ∧ ∃ b more, c.decIn.pop = some (b, more) ∧
      codeBit m cur ctx v c = .done b { c with decIn := more, cod := c.cod ++ [.dec ctx b] }) ∨
    (m = .dec ∧ c.decIn.pop = none ∧ codeBit m cur ctx v c = .hold cur c) := by
  cases m with
  | enc =>
    simp only [codeBit]
    cases hp : c.encIn.pop with
    | none => simp
    | some r =>
      obtain ⟨a, more⟩ := r
      cases a <;> simp [Coding.emit]
  | dec =>
    simp only [codeBit]
    cases hp : c.decIn.pop with
    | none => simp
    | some r =>
      obtain ⟨b, more⟩ := r
      simp [Coding.emit]

/-- A coder call leaves the window alone. -/
theorem codeBit_win (m : Mode) (cur : Cursor) (ctx : Nat) (v : Bool) (c : Coding) :
    (codeBit m cur ctx v c).state.win = c.win := by
  rcases codeBit_cases m cur ctx v c with ⟨_, _, _, h⟩ | ⟨_, _, _, h⟩ | ⟨_, _, h⟩ | ⟨_, _, _, _, h⟩ | ⟨_, _, h⟩ <;>
    rw [h] <;> rfl

/-- On encode the bit that comes back is the bit given. -/
theorem codeBit_enc_bit (cur : Cursor) (ctx : Nat) (v b : Bool) (c c' : Coding)
    (h : codeBit .enc cur ctx v c = .done b c') : b = v := by
  rcases codeBit_cases .enc cur ctx v c with ⟨_, _, _, h'⟩ | ⟨_, _, _, h'⟩ | ⟨_, _, h'⟩ | ⟨hm, _⟩ | ⟨hm, _⟩
  · rw [h'] at h; cases h; rfl
  · rw [h'] at h; cases h
  · rw [h'] at h; cases h
  · cases hm
  · cases hm

/-! Passes over one cell: everything they do to the window -/

@[simp] theorem storeBit_enc (g : PassCtx) (x y p : Nat) (b : Bool) (c : Coding) (h : g.mode = .enc) :
    storeBit g x y p b c = c := by
  simp [storeBit, h]

@[simp] theorem storeBit_cod (g : PassCtx) (x y p : Nat) (b : Bool) (c : Coding) :
    (storeBit g x y p b c).cod = c.cod := by
  unfold storeBit; split <;> rfl

theorem storeBit_flag (g : PassCtx) (x y p : Nat) (b : Bool) (c : Coding) (wx wy : Nat) :
    (storeBit g x y p b c).win.flag wx wy = c.win.flag wx wy := by
  unfold storeBit; split <;> rfl

/-- A pass command ends in exactly one of three ways. -/
theorem State.finish_cases (s : State) (i : Instr) (results : State → State) (r : Res Coding Unit) :
    (∃ c, r = .done () c ∧ s.finish i results r = .next (results (s.withCoding c))) ∨
    (∃ cur c, r = .full cur c ∧
      s.finish i results r = .next ((s.withCoding c).raise .capacity (encode i) (errPosOf cur))) ∨
    (∃ cur c, r = .hold cur c ∧ s.finish i results r = .next (s.hold i cur (s.withCoding c))) := by
  cases r with
  | done a c => exact .inl ⟨c, rfl, rfl⟩
  | full cur c => exact .inr (.inl ⟨cur, c, rfl, rfl⟩)
  | hold cur c => exact .inr (.inr ⟨cur, c, rfl, rfl⟩)

end Sys2Proof.Machine
end

