-- ==== Sys2Proof/Laws/Passes.lean ====
section
/-! SUPPORT. The pass commands keep to what `passVisit` says of a pass (Sys2Proof/Safety.lean): one lemma per step of
spec/44_tier1_passes.md, up to whole passes and whole blocks. -/

namespace Sys2Proof.Machine

/-! Port answers -/

theorem Answers.gives_nil {α : Type} (q : Answers α) : q.gives [] q := ⟨rfl, .inl rfl⟩

theorem Answers.gives_pop {α : Type} {q r : Answers α} {a : α} (h : q.pop = some (a, r)) : q.gives [a] r := by
  unfold Answers.pop at h
  split at h
  · next a' more hp =>
    cases h
    exact ⟨rfl, .inl (by simpa using hp)⟩
  · next hp =>
    simp only [Option.map_eq_some_iff, Prod.mk.injEq] at h
    obtain ⟨a', ha, rfl, rfl⟩ := h
    exact ⟨rfl, .inr ⟨hp, 1, a', ha, by simp [hp]⟩⟩

theorem Answers.gives_append {α : Type} {q r t : Answers α} {l l' : List α} (h : q.gives l r) (h' : r.gives l' t) :
    q.gives (l ++ l') t := by
  obtain ⟨e1, h1⟩ := h
  obtain ⟨e2, h2⟩ := h'
  refine ⟨e2.trans e1, ?_⟩
  rcases h1 with h1 | ⟨p1, n1, a1, q1, l1⟩
  · rcases h2 with h2 | ⟨p2, n2, a2, q2, l2⟩
    · exact .inl (by rw [h1, h2, List.append_assoc])
    · exact .inr ⟨p2, n2, a2, by rw [← e1, q2], by rw [h1, l2, List.append_assoc]⟩
  · rcases h2 with h2 | ⟨p2, n2, a2, q2, l2⟩
    · rw [p1] at h2
      obtain ⟨hl, ht⟩ := List.append_eq_nil_iff.mp h2.symm
      exact .inr ⟨ht, n1, a1, q1, by simp [l1, hl]⟩
    · rw [e1, q1] at q2
      cases q2
      exact .inr ⟨p2, n1 + n2, a1, q1, by rw [l1, l2, p1, List.nil_append, List.append_assoc, List.replicate_add]⟩

/-! Runs -/

@[simp] theorem encBits_append (a b : List CodEvent) : encBits (a ++ b) = encBits a ++ encBits b := by
  induction a with
  | nil => rfl
  | cons e rest ih => cases e <;> simp [encBits, ih]

@[simp] theorem decBits_append (a b : List CodEvent) : decBits (a ++ b) = decBits a ++ decBits b := by
  induction a with
  | nil => rfl
  | cons e rest ih => cases e <;> simp [decBits, ih]

/-- What a run did outside the window: its events, and the answers it took. -/
structure Ran (m : Mode) (c c' : Coding) (ev : List CodEvent) : Prop where
  cod : c'.cod = c.cod ++ ev
  enc : m = .enc → c.encIn.gives (List.replicate (encBits ev).length .ok) c'.encIn ∧ c'.decIn = c.decIn
  dec : m = .dec → c.decIn.gives (decBits ev) c'.decIn ∧ c'.encIn = c.encIn

/-- A run without events: the trace and both ports stay. -/
theorem Ran.still {m : Mode} {c c' : Coding} (h1 : c'.cod = c.cod) (h2 : c'.encIn = c.encIn) (h3 : c'.decIn = c.decIn) :
    Ran m c c' [] :=
  ⟨by simpa using h1, fun _ => ⟨h2 ▸ Answers.gives_nil _, h3⟩, fun _ => ⟨h3 ▸ Answers.gives_nil _, h2⟩⟩

theorem Ran.append {m : Mode} {a b c : Coding} {ev ev' : List CodEvent} (h : Ran m a b ev) (h' : Ran m b c ev') :
    Ran m a c (ev ++ ev') where
  cod := by rw [h'.cod, h.cod, List.append_assoc]
  enc hm := by
    obtain ⟨g1, d1⟩ := h.enc hm
    obtain ⟨g2, d2⟩ := h'.enc hm
    refine ⟨?_, d2.trans d1⟩
    rw [encBits_append, List.length_append, List.replicate_add]
    exact Answers.gives_append g1 g2
  dec hm := by
    obtain ⟨g1, d1⟩ := h.dec hm
    obtain ⟨g2, d2⟩ := h'.dec hm
    refine ⟨?_, d2.trans d1⟩
    rw [decBits_append]
    exact Answers.gives_append g1 g2

/-- The scan cursor of a coder call (R22). -/
def cursorOf (spot : Spot) : Cursor := .scan spot.1 spot.2.1 (4 * (spot.2.2.2 / 4)) spot.2.2.1 spot.2.2.2

/-- Where and how a run that `R` describes may end: at its end, at a call refused (R196), at a call without an answer
(R73). -/
def Follows (m : Mode) (R : Visit) (c : Coding) : Res Coding Unit → Prop
  | .done _ c' => ∃ ev, Ran m c c' ev ∧ R c.win ev none c'.win
  | .full cur c' => ∃ ev spot c1, Ran m c c1 ev ∧ m = .enc ∧ c1.encIn.pop = some (.full, c'.encIn) ∧
      c' = { c1 with encIn := c'.encIn } ∧ cur = cursorOf spot ∧ R c.win ev (some spot) c'.win
  | .hold cur c' => ∃ ev spot, Ran m c c' ev ∧ (m = .enc → c'.encIn.pop = none) ∧ (m = .dec → c'.decIn.pop = none) ∧
      cur = cursorOf spot ∧ R c.win ev (some spot) c'.win

theorem Follows.mono {m : Mode} {R S : Visit} {c : Coding} {r : Res Coding Unit} (h : Follows m R c r)
    (hs : ∀ ev stop d, R c.win ev stop d → S c.win ev stop d) : Follows m S c r := by
  cases r with
  | done a c' =>
    obtain ⟨ev, h1, h2⟩ := h
    exact ⟨ev, h1, hs _ _ _ h2⟩
  | full cur c' =>
    obtain ⟨ev, spot, c1, h1, h2, h3, h4, h5, h6⟩ := h
    exact ⟨ev, spot, c1, h1, h2, h3, h4, h5, hs _ _ _ h6⟩
  | hold cur c' =>
    obtain ⟨ev, spot, h1, h2, h3, h4, h5⟩ := h
    exact ⟨ev, spot, h1, h2, h3, h4, hs _ _ _ h5⟩

/-- Nothing done. -/
theorem Follows.nothing (m : Mode) (c : Coding) : Follows m .nothing c (.done () c) :=
  ⟨[], Ran.still rfl rfl rfl, rfl, rfl, rfl⟩

/-- A write into the window. -/
theorem Follows.write {m : Mode} {R : Window → Window → Prop} {c c' : Coding} (h1 : c'.cod = c.cod)
    (h2 : c'.encIn = c.encIn) (h3 : c'.decIn = c.decIn) (h : R c.win c'.win) : Follows m (.write R) c (.done () c') :=
  ⟨[], Ran.still h1 h2 h3, rfl, rfl, h⟩

/-- One part, then the next. -/
theorem Follows.andThen {m : Mode} {R S : Visit} {c : Coding} {r : Res Coding Unit} {f : Unit → Coding → Res Coding Unit}
    (h : Follows m R c r) (hf : ∀ c', r = .done () c' → Follows m S c' (f () c')) :
    Follows m (R.andThen S) c (r.bind f) := by
  cases r with
  | done a c' =>
    obtain ⟨ev, h1, h2⟩ := h
    have h3 := hf c' rfl
    simp only [Res.bind_done]
    cases hr : f a c' with
    | done a' c2 =>
      rw [hr] at h3
      obtain ⟨ev', g1, g2⟩ := h3
      exact ⟨ev ++ ev', h1.append g1, .inr ⟨_, ev, ev', h2, g2, rfl⟩⟩
    | full cur c2 =>
      rw [hr] at h3
      obtain ⟨ev', spot, c1, g1, g2, g3, g4, g5, g6⟩ := h3
      exact ⟨ev ++ ev', spot, c1, h1.append g1, g2, g3, g4, g5, .inr ⟨_, ev, ev', h2, g6, rfl⟩⟩
    | hold cur c2 =>
      rw [hr] at h3
      obtain ⟨ev', spot, g1, g2, g3, g4, g5⟩ := h3
      exact ⟨ev ++ ev', spot, h1.append g1, g2, g3, g4, .inr ⟨_, ev, ev', h2, g5, rfl⟩⟩
  | full cur c' =>
    obtain ⟨ev, spot, c1, h1, h2, h3, h4, h5, h6⟩ := h
    exact ⟨ev, spot, c1, h1, h2, h3, h4, h5, .inl ⟨nofun, h6⟩⟩
  | hold cur c' =>
    obtain ⟨ev, spot, h1, h2, h3, h4, h5⟩ := h
    exact ⟨ev, spot, h1, h2, h3, h4, .inl ⟨nofun, h5⟩⟩

/-- A loop. -/
theorem Follows.each {m : Mode} {ι : Type} {R : ι → Visit} {body : ι → Coding → Res Coding Unit} (l : List ι)
    (h : ∀ i ∈ l, ∀ c, Follows m (R i) c (body i c)) (c : Coding) :
    Follows m (Visit.each l R) c (forEach l body c) := by
  induction l generalizing c with
  | nil => exact Follows.nothing m c
  | cons i rest ih =>
    exact Follows.andThen (h i (by simp) c) fun c' _ => ih (fun j hj => h j (by simp [hj])) c'

/-- A coder call and what comes after it, whatever the bit (R183). -/
theorem Follows.code {m : Mode} {S : Bool → Visit} {spot : Spot} {cur : Cursor} {ctx : Nat} {v : Bool} {c : Coding}
    {f : Bool → Coding → Res Coding Unit} (hcur : cur = cursorOf spot)
    (hf : ∀ b c1, c1.win = c.win → (m = .enc → b = v) → Follows m (S b) c1 (f b c1)) :
    Follows m (fun a ev stop d => ∃ b, (m = .enc → b = v) ∧ (coderCall m spot ctx b).andThen (S b) a ev stop d) c
      ((codeBit m cur ctx v c).bind f) := by
  rcases codeBit_cases m cur ctx v c with ⟨rfl, q, hq, h⟩ | ⟨rfl, q, hq, h⟩ | ⟨rfl, hq, h⟩ | ⟨rfl, b, q, hq, h⟩ | ⟨rfl, hq, h⟩
  · rw [h, Res.bind_done]
    have key : Follows .enc ((coderCall .enc spot ctx v).andThen (S v)) c
        ((Res.done () { c with encIn := q, cod := c.cod ++ [.enc ctx v] }).bind fun _ c1 => f v c1) := by
      refine Follows.andThen ⟨[.enc ctx v], ⟨rfl, fun _ => ⟨Answers.gives_pop hq, rfl⟩, nofun⟩, rfl, .inl ⟨rfl, rfl⟩⟩ fun c' hc' => ?_
      cases hc'
      exact hf v _ rfl fun _ => rfl
    exact key.mono fun ev stop d hd => ⟨v, fun _ => rfl, hd⟩
  · rw [h, Res.bind_full]
    exact ⟨[], spot, c, Ran.still rfl rfl rfl, rfl, hq, rfl, hcur, v, fun _ => rfl, .inl ⟨nofun, rfl, .inr ⟨rfl, rfl⟩⟩⟩
  · rw [h, Res.bind_hold]
    exact ⟨[], spot, Ran.still rfl rfl rfl, fun _ => hq, nofun, hcur, v, fun _ => rfl, .inl ⟨nofun, rfl, .inr ⟨rfl, rfl⟩⟩⟩
  · rw [h, Res.bind_done]
    have key : Follows .dec ((coderCall .dec spot ctx b).andThen (S b)) c
        ((Res.done () { c with decIn := q, cod := c.cod ++ [.dec ctx b] }).bind fun _ c1 => f b c1) := by
      refine Follows.andThen ⟨[.dec ctx b], ⟨rfl, nofun, fun _ => ⟨Answers.gives_pop hq, rfl⟩⟩, rfl, .inl ⟨rfl, rfl⟩⟩ fun c' hc' => ?_
      cases hc'
      exact hf b _ rfl nofun
    exact key.mono fun ev stop d hd => ⟨b, nofun, hd⟩
  · rw [h, Res.bind_hold]
    exact ⟨[], spot, Ran.still rfl rfl rfl, nofun, fun _ => hq, hcur, v, nofun, .inl ⟨nofun, rfl, .inr ⟨rfl, rfl⟩⟩⟩

/-! Writes into the window -/

@[simp] theorem Window.flag_orFlag_same (win : Window) (wx wy : Nat) (m : FlagWord) :
    (win.orFlag wx wy m).flag wx wy = win.flag wx wy ||| m := by
  rw [Window.flag_orFlag, if_pos rfl]

theorem Window.flag_orFlag_other (win : Window) (wx wy : Nat) (m : FlagWord) (a b : Nat)
    (h : flagAddr a b ≠ flagAddr wx wy) : (win.orFlag wx wy m).flag a b = win.flag a b := by
  rw [Window.flag_orFlag, if_neg h]

@[simp] theorem Window.flag_putBit_same (win : Window) (wx wy : Nat) (m : FlagWord) (v : Bool) :
    (win.putBit wx wy m v).flag wx wy = putMask (win.flag wx wy) m v := by
  rw [Window.flag_putBit, if_pos rfl]

theorem Window.flag_putBit_other (win : Window) (wx wy : Nat) (m : FlagWord) (v : Bool) (a b : Nat)
    (h : flagAddr a b ≠ flagAddr wx wy) : (win.putBit wx wy m v).flag a b = win.flag a b := by
  rw [Window.flag_putBit, if_neg h]

/-- Everything the significance tracker does (R164). -/
theorem Window.setSig_marked (win : Window) (x y : Nat) (neg : Bool) (hx : x < 64) :
    win.marked (win.setSig x y neg) x y neg := by
  refine ⟨?_, ?_, ?_, ?_, ?_, ?_, ?_, ?_, ?_, Window.mags_setSig .., fun wx wy hw hn => ?_⟩
  all_goals
    simp (disch := (unfold flagAddr; omega)) only [Window.setSig, Nat.add_sub_cancel, Window.flag_orFlag_same,
      Window.flag_orFlag_other, Window.flag_putBit_same, Window.flag_putBit_other]
  · cases neg <;> simp [putMask, flagSig, flagSgn, BitVec.or_assoc]
  all_goals cases neg <;> rfl

/-- What one flag-word write does. -/
theorem Window.putBit_onlyFlag (win : Window) (x y : Nat) (m : FlagWord) (v : Bool) (hx : x < 64) :
    win.onlyFlag (win.putBit (x + 1) (y + 1) m v) x y (putMask (win.flag (x + 1) (y + 1)) m v) := by
  refine ⟨Window.flag_putBit_same .., rfl, fun wx wy hw hn => ?_⟩
  refine Window.flag_putBit_other _ _ _ _ _ _ _ fun h => hn ?_
  obtain ⟨rfl, rfl⟩ := (flagAddr_inj hw (by omega)).mp h
  rfl

/-- What one magnitude write does. -/
theorem Window.putMag_onlyMag (win : Window) (x y : Nat) (v : Magnitude) (hx : x < 64) :
    win.onlyMag (win.putMag x y v) x y v := by
  refine ⟨by rw [Window.mag_putMag, if_pos rfl], rfl, fun i j hi hn => ?_⟩
  rw [Window.mag_putMag, if_neg]
  intro h
  obtain ⟨rfl, rfl⟩ := (magAddr_inj hi hx).mp h
  exact hn rfl

/-! The steps of a pass -/

theorem Res.bind_assoc {σ α β γ : Type} (r : Res σ α) (f : α → σ → Res σ β) (g : β → σ → Res σ γ) :
    (r.bind f).bind g = r.bind fun a s => (f a s).bind g := by
  cases r <;> rfl

/-- `VIS <- vis`. -/
theorem Follows.vis (m : Mode) (x y : Nat) (vis : Bool) (c : Coding) (hx : x < 64) :
    Follows m (visWritten x y vis) c (.done () (c.putOwner x y flagVis vis)) := by
  refine Follows.write rfl rfl rfl ?_
  have := c.win.putBit_onlyFlag x y flagVis vis hx
  cases vis <;> exact this

/-- A stored 1 (R186). -/
theorem Follows.one (g : PassCtx) (x y p : Nat) (c : Coding) (hx : x < 64) :
    Follows g.mode (oneStored g.mode x y p) c (.done () (storeBit g x y p true c)) := by
  cases hm : g.mode with
  | enc =>
    rw [storeBit_enc g x y p true c hm]
    exact Follows.write rfl rfl rfl ⟨fun _ => rfl, nofun⟩
  | dec =>
    have : storeBit g x y p true c = c.mapWin fun win => win.orMag x y p := by simp [storeBit, hm]
    rw [this]
    refine Follows.write rfl rfl rfl ⟨nofun, fun _ => ?_⟩
    have hp : (1#31 <<< p) = BitVec.ofNat 31 (2 ^ p) := by
      apply BitVec.eq_of_toNat_eq
      simp [BitVec.toNat_shiftLeft, Nat.shiftLeft_eq]
    rw [hp]
    exact Window.putMag_onlyMag _ _ _ _ hx

theorem storeBit_false (g : PassCtx) (x y p : Nat) (c : Coding) : storeBit g x y p false c = c := by
  simp [storeBit]

/-- A decoded or coded bit that may be stored. -/
theorem Follows.bit (g : PassCtx) (x y p : Nat) (b : Bool) (c : Coding) (hx : x < 64) :
    Follows g.mode (if b then oneStored g.mode x y p else .nothing) c (.done () (storeBit g x y p b c)) := by
  cases b with
  | true => exact Follows.one g x y p c hx
  | false => rw [storeBit_false]; exact Follows.nothing g.mode c

/-- `SignStep` (R184). -/
theorem signStep_follows (g : PassCtx) (cur : Cursor) (spot : Spot) (x y : Nat) (c : Coding) (hcur : cur = cursorOf spot)
    (hx : x < 64) : Follows g.mode (signVisit g.mode spot x y) c (signStep g cur x y c) := by
  refine (Follows.code (S := fun b => .write fun a d => a.marked d x y (b ^^ signXor (c.win.coef x y))) hcur
    fun b c1 _ _ => Follows.write (c' := c1.mapWin fun win => win.setSig x y (b ^^ signXor (c.win.coef x y)))
      rfl rfl rfl (Window.setSig_marked _ _ _ _ hx)).mono ?_
  rintro ev stop d ⟨b, hb, h⟩
  refine ⟨b ^^ signXor (c.win.coef x y), fun hm => ?_, ?_⟩
  · rw [hb hm, Bool.xor_assoc, Bool.xor_self, Bool.xor_false]; rfl
  · have : (b ^^ signXor (c.win.coef x y) ^^ signXor (c.win.flag (x + 1) (y + 1))) = b := by
      show (b ^^ signXor (c.win.coef x y) ^^ signXor (c.win.coef x y)) = b
      rw [Bool.xor_assoc, Bool.xor_self, Bool.xor_false]
    rw [this]
    exact h

/-- The significance step, the sign step, `VIS` (R183 to R185, R188). -/
theorem sigThenSign_follows (g : PassCtx) (cur : Cursor) (spot : Spot) (x y p : Nat) (vis : Bool) (c : Coding)
    (hcur : cur = cursorOf spot) (hx : x < 64) :
    Follows g.mode (sigVisit g.mode g.orient spot x y p vis) c (sigThenSign g cur x y p vis c) := by
  unfold sigThenSign sigStep
  rw [Res.bind_assoc]
  refine Follows.code hcur fun b c1 h1 _ => ?_
  refine Follows.andThen ?_ fun c2 _ => Follows.vis _ _ _ _ _ hx
  cases b with
  | true =>
    exact Follows.andThen (Follows.one g x y p c1 hx)
      (f := fun _ c2 => signStep g cur x y c2) fun c2 _ => signStep_follows g cur spot x y c2 hcur hx
  | false =>
    rw [storeBit_false]
    exact Follows.nothing g.mode c1

/-- A cell of the significance propagation pass (R185). -/
theorem sppCell_follows (g : PassCtx) (p x y : Nat) (c : Coding) (hx : x < 64) :
    Follows g.mode (sppVisit g p x y) c (sppCell g p (4 * (y / 4)) x y c) := by
  unfold sppCell
  by_cases h : isSig (c.win.coef x y) = false ∧ isVis (c.win.coef x y) = false ∧ c.win.coef x y &&& 0x00FF#16 ≠ 0#16
  · have hv : sppVisit g p x y c.win = sigVisit g.mode g.orient (.spp, p, x, y) x y p true c.win := if_pos h
    rw [if_pos (by simpa [hasSigNeighbour, and_assoc] using h)]
    exact (sigThenSign_follows g _ (.spp, p, x, y) x y p true c rfl hx).mono fun ev stop d hd => hv ▸ hd
  · have hv : sppVisit g p x y c.win = Visit.nothing c.win := if_neg h
    rw [if_neg (by simpa [hasSigNeighbour, and_assoc] using h)]
    exact (Follows.nothing g.mode c).mono fun ev stop d hd => hv ▸ hd

/-- A cell of the magnitude refinement pass (R187). -/
theorem mrpCell_follows (g : PassCtx) (p x y : Nat) (c : Coding) (hx : x < 64) :
    Follows g.mode (mrpVisit g p x y) c (mrpCell g p (4 * (y / 4)) x y c) := by
  unfold mrpCell
  by_cases h : isSig (c.win.coef x y) = true ∧ isVis (c.win.coef x y) = false
  · rw [if_pos (by simpa using h)]
    refine (Follows.code (S := fun b => Visit.andThen (if b then oneStored g.mode x y p else .nothing)
      (.write fun a d => a.onlyFlag d x y (c.win.coef x y ||| 0x4000#16))) (spot := (.mrp, p, x, y)) rfl
        fun b c1 h1 _ => ?_).mono fun ev stop d hd => (if_pos h).mpr hd
    refine Follows.andThen (Follows.bit g x y p b c1 hx) (r := .done () (storeBit g x y p b c1))
      (f := fun _ c2 => .done () (c2.putOwner x y flagRef true)) fun c2 h2 => ?_
    cases h2
    refine Follows.write rfl rfl rfl ?_
    have := (storeBit g x y p b c1).win.putBit_onlyFlag x y flagRef true hx
    rw [storeBit_flag, h1] at this
    exact this
  · rw [if_neg (by simpa using h)]
    exact (Follows.nothing g.mode c).mono fun ev stop d hd => (if_neg h).mpr hd

/-- A cell of the cleanup pass (R188, R190). -/
theorem cupCell_follows (g : PassCtx) (p x y : Nat) (c : Coding) (hx : x < 64) :
    Follows g.mode (cupVisit g p x y) c (cupCell g p (4 * (y / 4)) x y c) := by
  unfold cupCell
  by_cases h : isSig (c.win.coef x y) = false ∧ isVis (c.win.coef x y) = false
  · have hv : cupVisit g p x y c.win = sigVisit g.mode g.orient (.cup, p, x, y) x y p false c.win := if_pos h
    rw [if_pos (by simpa using h)]
    exact (sigThenSign_follows g _ (.cup, p, x, y) x y p false c rfl hx).mono fun ev stop d hd => hv ▸ hd
  · have hv : cupVisit g p x y c.win = visWritten x y false c.win := if_neg h
    rw [if_neg (by simpa using h)]
    exact (Follows.vis g.mode x y false c hx).mono fun ev stop d hd => hv ▸ hd

/-! Columns -/

/-- The rows of a column from the `n`-th on. -/
theorem eachRow_follows (g : PassCtx) (h k n : Nat) (R : Nat → Visit) (body : Nat → Nat → Coding → Res Coding Unit)
    (hb : ∀ y c, Follows g.mode (R y) c (body (4 * (y / 4)) y c)) (c : Coding) :
    Follows g.mode (eachRow h (4 * k) n R) c (forEach ((rowsOf h (4 * k)).drop n) (body (4 * k)) c) := by
  have hl : (rowsOf h (4 * k)).drop n = (List.range (min 4 (h - 4 * k) - n)).map fun r => 4 * k + n + r := by
    unfold rowsOf
    apply List.ext_getElem
    · simp
    · intro i h1 h2
      simp
      omega
  rw [hl]
  refine Follows.each _ (fun y hy c => ?_) c
  obtain ⟨r, hr, rfl⟩ := List.mem_map.mp hy
  have hr' := List.mem_range.mp hr
  have := hb (4 * k + n + r) c
  rwa [show 4 * ((4 * k + n + r) / 4) = 4 * k by omega] at this

/-- The search of R189 finds the first row with a 1. -/
theorem runOf_firstOne (win : Window) (p y0 x : Nat) :
    runOf win p y0 x ≤ 4 ∧ firstOne win p y0 x (runOf win p y0 x) := by
  have h0 : win.mag x (y0 + 0) = win.mag x y0 := rfl
  unfold runOf firstOne magBit
  split
  · next h => exact ⟨by omega, fun i hi => absurd hi (by omega), fun _ => h⟩
  · next a =>
    split
    · next h =>
      refine ⟨by omega, fun i hi => ?_, fun _ => h⟩
      obtain rfl : i = 0 := by omega
      simpa using a
    · next b =>
      split
      · next h =>
        refine ⟨by omega, fun i hi => ?_, fun _ => h⟩
        obtain rfl | rfl : i = 0 ∨ i = 1 := by omega
        · simpa using a
        · simpa using b
      · next d =>
        split
        · next h =>
          refine ⟨by omega, fun i hi => ?_, fun _ => h⟩
          obtain rfl | rfl | rfl : i = 0 ∨ i = 1 ∨ i = 2 := by omega
          · simpa using a
          · simpa using b
          · simpa using d
        · next e =>
          refine ⟨by omega, fun i hi => ?_, fun hh => absurd hh (by omega)⟩
          obtain rfl | rfl | rfl | rfl : i = 0 ∨ i = 1 ∨ i = 2 ∨ i = 3 := by omega
          · simpa using a
          · simpa using b
          · simpa using d
          · simpa using e

/-- A call that is not answered says nothing of its bit. -/
theorem coderCall_stopped {m : Mode} {spot s : Spot} {ctx : Nat} {b : Bool} (b' : Bool) {a d : Window}
    {ev : List CodEvent} (h : coderCall m spot ctx b a ev (some s) d) : coderCall m spot ctx b' a ev (some s) d := by
  obtain ⟨h1, h2 | h2⟩ := h
  · exact absurd h2.1 nofun
  · exact ⟨h1, .inr h2⟩

/-- The end of a run-length column (R189). -/
theorem runEnd_follows (g : PassCtx) (p k x r : Nat) (c : Coding) (hx : x < 64) (hr : r ≤ 3) :
    Follows g.mode
      ((oneStored g.mode x (4 * k + r) p).andThen <| (signVisit g.mode (.cup, p, x, 4 * k + r) x (4 * k + r)).andThen <|
        (visWritten x (4 * k + r) false).andThen <| eachRow g.h (4 * k) (r + 1) (cupVisit g p x)) c
      (runEnd g p (4 * k) x r c) := by
  refine Follows.andThen (Follows.one g x (4 * k + r) p c hx) (f := fun _ c => (signStep g _ x (4 * k + r) c).bind _)
    fun c1 _ => ?_
  refine Follows.andThen (signStep_follows g _ _ x _ c1 ?_ hx) fun c2 _ => ?_
  · simp only [cursorOf]
    congr 1
    omega
  · exact Follows.andThen (Follows.vis g.mode x (4 * k + r) false c2 hx)
      (f := fun _ c => forEach ((rowsOf g.h (4 * k)).drop (r + 1)) (fun y' => cupCell g p (4 * k) x y') c)
      fun c3 _ => eachRow_follows g g.h k (r + 1) _ (fun y0 y => cupCell g p y0 x y)
        (fun y c => cupCell_follows g p x y c hx) c3

/-- A run-length column (R189). -/
theorem runColumn_follows (g : PassCtx) (p k x : Nat) (c : Coding) (hx : x < 64) :
    Follows g.mode (runVisit g p (4 * k) x) c (runColumn g p (4 * k) x c) := by
  have hc : Cursor.scan .cup p (4 * k) x (4 * k) = cursorOf (.cup, p, x, 4 * k) := by
    simp only [cursorOf]
    congr 1
    omega
  obtain ⟨h4, hf⟩ := runOf_firstOne c.win p (4 * k) x
  unfold runColumn
  simp only
  generalize runOf c.win p (4 * k) x = rl at h4 hf
  let E : Nat → Visit := fun r =>
    (oneStored g.mode x (4 * k + r) p).andThen <| (signVisit g.mode (.cup, p, x, 4 * k + r) x (4 * k + r)).andThen <|
        (visWritten x (4 * k + r) false).andThen <| eachRow g.h (4 * k) (r + 1) (cupVisit g p x)
  let L : Bool → Visit := fun hi a ev stop d => ∃ lo : Bool, (g.mode = .enc → lo = decide (rl % 2 = 1)) ∧
    (coderCall g.mode (.cup, p, x, 4 * k) 17 lo).andThen (E (2 * hi.toNat + lo.toNat)) a ev stop d
  let H : Visit := fun a ev stop d => ∃ hi : Bool, (g.mode = .enc → hi = decide (rl / 2 = 1)) ∧
    (coderCall g.mode (.cup, p, x, 4 * k) 17 hi).andThen (L hi) a ev stop d
  refine (Follows.code (S := fun found => if found then H else .nothing) hc fun found c1 h1 _ => ?_).mono
    fun ev stop d hd => ?_
  · cases found with
    | false => exact Follows.nothing g.mode c1
    | true =>
      refine Follows.code hc fun hi c2 h2 _ => ?_
      refine Follows.code hc fun lo c3 h3 _ => ?_
      refine runEnd_follows g p k x _ c3 hx ?_
      cases hi <;> cases lo <;> decide
  · obtain ⟨found, hfound, ⟨hs, h⟩ | ⟨b1, e1, e2, h, h', rfl⟩⟩ := hd
    · obtain ⟨s, rfl⟩ := Option.ne_none_iff_exists'.mp hs
      exact ⟨rl, h4, fun _ => hf, .inl ⟨hs, coderCall_stopped _ h⟩⟩
    · cases found with
      | false =>
        refine ⟨4, by omega, fun hm => ?_, .inr ⟨b1, e1, e2, h, h', rfl⟩⟩
        have := hfound hm
        obtain rfl : rl = 4 := by simpa using this
        exact hf
      | true =>
        have hrl : g.mode = .enc → rl < 4 := fun hm => by
          have : rl ≠ 4 := by simpa using hfound hm
          omega
        obtain ⟨hi, hhi, ⟨hs, g1⟩ | ⟨b2, e3, e4, g1, g2, rfl⟩⟩ := h'
        · obtain ⟨s, rfl⟩ := Option.ne_none_iff_exists'.mp hs
          refine ⟨if rl < 4 then rl else 0, by split <;> omega, fun hm => ?_, .inr ⟨b1, e1, e2, ?_, ?_, rfl⟩⟩
          · rw [if_pos (hrl hm)]
            exact hf
          · rw [decide_eq_true (by split <;> omega)]
            exact h
          · rw [if_neg (by split <;> omega)]
            exact .inl ⟨hs, coderCall_stopped _ g1⟩
        · obtain ⟨lo, hlo, k1⟩ := g2
          have hsplit : ∃ r, r < 4 ∧ decide (2 ≤ r) = hi ∧ (g.mode = .enc → r = rl) ∧
              (coderCall g.mode (.cup, p, x, 4 * k) 17 (decide (r % 2 = 1))).andThen (E r) b2 e4 stop d := by
            rcases k1 with ⟨hs, g3⟩ | ⟨b3, e5, e6, g3, g4, rfl⟩
            · obtain ⟨s, rfl⟩ := Option.ne_none_iff_exists'.mp hs
              by_cases hm : g.mode = .enc
              · refine ⟨rl, hrl hm, ?_, fun _ => rfl, .inl ⟨hs, coderCall_stopped _ g3⟩⟩
                rw [hhi hm]
                have := hrl hm
                exact decide_eq_decide.mpr (by omega)
              · exact ⟨2 * hi.toNat, by cases hi <;> decide, by cases hi <;> decide, fun h => absurd h hm,
                  .inl ⟨hs, coderCall_stopped _ g3⟩⟩
            · refine ⟨2 * hi.toNat + lo.toNat, by cases hi <;> cases lo <;> decide, by cases hi <;> cases lo <;> decide,
                fun hm => ?_, .inr ⟨b3, e5, e6, ?_, g4, rfl⟩⟩
              · have h1 := hrl hm
                have h2 := hhi hm
                have h3 := hlo hm
                cases hi <;> cases lo <;> simp at h2 h3 ⊢ <;> omega
              · have : decide ((2 * hi.toNat + lo.toNat) % 2 = 1) = lo := by cases hi <;> cases lo <;> decide
                rw [this]
                exact g3
          obtain ⟨r, hr4, hr2, hre, k2⟩ := hsplit
          refine ⟨r, by omega, fun hm => hre hm ▸ hf, .inr ⟨b1, e1, e3 ++ e4, ?_, ?_, by simp⟩⟩
          · rw [decide_eq_true hr4]
            exact h
          · rw [if_neg (by omega), hr2]
            exact .inr ⟨b2, e3, e4, g1, k2, rfl⟩

/-- A column of the cleanup pass (R188, R189). -/
theorem cupColumn_follows (g : PassCtx) (p k x : Nat) (c : Coding) (hx : x < 64) :
    Follows g.mode (cupColumnVisit g p (4 * k) x) c (cupColumn g p (4 * k) x c) := by
  have hq : quietColumn g c.win (4 * k) x = true ↔ runReady g c.win (4 * k) x := by
    unfold quietColumn runReady
    simp only [Bool.and_eq_true, decide_eq_true_eq, List.all_eq_true, and_assoc]
    refine and_congr_right fun _ => and_congr_right fun _ => ⟨fun h r hr => h r (by simp; omega), fun h r hr => h r ?_⟩
    simp at hr
    omega
  unfold cupColumn
  by_cases h : runReady g c.win (4 * k) x
  · rw [if_pos (hq.mpr h)]
    exact (runColumn_follows g p k x c hx).mono fun ev stop d hd => ⟨fun _ => hd, fun hn => absurd h hn⟩
  · rw [if_neg (fun h' => h (hq.mp h'))]
    exact (eachRow_follows g g.h k 0 _ (fun y0 y => cupCell g p y0 x y) (fun y c => cupCell_follows g p x y c hx) c).mono
      fun ev stop d hd => ⟨fun hp => absurd hp h, fun _ => hd⟩

/-! Passes and blocks -/

theorem forEach_map {σ ι κ : Type} (l : List ι) (f : ι → κ) (body : κ → σ → Res σ Unit) (s : σ) :
    forEach (l.map f) body s = forEach l (fun i => body (f i)) s := by
  induction l generalizing s with
  | nil => rfl
  | cons i rest ih =>
    simp only [List.map_cons, forEach]
    cases body (f i) s <;> simp [ih]

theorem forEach_flatMap {σ ι κ : Type} (l : List ι) (f : ι → List κ) (body : κ → σ → Res σ Unit) (s : σ) :
    forEach (l.flatMap f) body s = forEach l (fun i => forEach (f i) body) s := by
  induction l generalizing s with
  | nil => rfl
  | cons i rest ih =>
    rw [List.flatMap_cons, forEach_append]
    simp only [forEach]
    cases forEach (f i) body s <;> simp [ih]

/-- A pass (R185, R187 to R189). -/
theorem codingPass_follows (g : PassCtx) (k : PassKind) (p : Nat) (c : Coding) (hw : g.w ≤ 64) :
    Follows g.mode (passVisit g k p) c (codingPass g k p c) := by
  unfold codingPass passVisit
  refine Follows.andThen ?_ fun c' _ => ⟨[.passEnd k p], ⟨rfl, fun _ => ⟨Answers.gives_nil _, rfl⟩,
    fun _ => ⟨Answers.gives_nil _, rfl⟩⟩, rfl, rfl, rfl⟩
  have hcol : ∀ R : Nat → Nat → Visit,
      (∀ i x c, x < 64 → Follows g.mode (R (4 * i) x) c (passColumn g k p (4 * i) x c)) →
      Follows g.mode (eachColumn g.w g.h R) c (forEach (columns g.w g.h) (fun col => passColumn g k p col.1 col.2) c) := by
    intro R hR
    unfold columns stripes
    rw [forEach_flatMap, forEach_map]
    refine Follows.each _ (fun i _ c => ?_) c
    rw [forEach_map]
    exact Follows.each _ (fun x hx c => hR i x c (by have := List.mem_range.mp hx; omega)) c
  cases k with
  | spp =>
    exact hcol _ fun i x c hx => eachRow_follows g g.h i 0 _ (fun y0 y => sppCell g p y0 x y)
      (fun y c => sppCell_follows g p x y c hx) c
  | mrp =>
    exact hcol _ fun i x c hx => eachRow_follows g g.h i 0 _ (fun y0 y => mrpCell g p y0 x y)
      (fun y c => mrpCell_follows g p x y c hx) c
  | cup => exact hcol _ fun i x c hx => cupColumn_follows g p i x c hx

/-- The loops of R193 are the passes of `blockPasses`, in order. -/
theorem codingBlock_passes (g : PassCtx) (nbp : Nat) (c : Coding) :
    codingBlock g nbp c = forEach (blockPasses nbp) (fun kp => codingPass g kp.1 kp.2) (c.emit .reset) := by
  unfold codingBlock
  rw [show (fun p => forEach (planePasses nbp p) fun k => codingPass g k p) =
    fun p => forEach ((planePasses nbp p).map fun k => (k, p)) fun kp => codingPass g kp.1 kp.2 by
      funext p s; rw [forEach_map]]
  rw [← forEach_flatMap]
  congr 1
  cases nbp with
  | zero => rfl
  | succ n =>
    have h : ∀ l : List Nat, (∀ p ∈ l, p < n) →
        l.flatMap (fun p => (planePasses (n + 1) p).map fun k => (k, p)) =
          l.flatMap fun p => [(.spp, p), (.mrp, p), (.cup, p)] := fun l hl => by
      refine List.flatMap_congr fun p hp => ?_
      have := hl p hp
      rw [planePasses, if_neg (by omega)]
      rfl
    have ht : planePasses (n + 1) n = [.cup] := if_pos rfl
    rw [List.range_succ, List.reverse_append, List.flatMap_append, h (List.range n).reverse
      fun p hp => by simpa using hp]
    simp only [List.reverse_cons, List.reverse_nil, List.nil_append, List.flatMap_cons, List.flatMap_nil, ht,
      List.append_nil, List.map_cons, List.map_nil, List.singleton_append, blockPasses]

/-- A block after its `Reset` (R193, R194). -/
theorem codingBlock_follows (g : PassCtx) (nbp : Nat) (c : Coding) (hw : g.w ≤ 64) :
    Follows g.mode (passesVisit g (blockPasses nbp)) (c.emit .reset) (codingBlock g nbp c) := by
  rw [codingBlock_passes]
  exact Follows.each _ (fun kp _ c => codingPass_follows g kp.1 kp.2 c hw) _

end Sys2Proof.Machine
end

