-- ==== Sys2Proof/Laws/PerInstr.lean ====
section
/-! SUPPORT. One law for each command, about its encoding: its word matches its row of spec/opcode_table.json, that is,
the opcode is the row's and every bit the format leaves unused is 0 (spec/30_encoding.md R81, R83, R88). -/

namespace Sys2Proof.Laws

/-- Two numbers side by side in a bit vector. -/
theorem append_ofNat (m n a b : Nat) (hb : b < 2 ^ n) (ha : a < 2 ^ m) :
    BitVec.ofNat m a ++ BitVec.ofNat n b = BitVec.ofNat (m + n) (a * 2 ^ n + b) := by
  apply BitVec.eq_of_toNat_eq
  rw [BitVec.toNat_append, ← Nat.shiftLeft_add_eq_or_of_lt (BitVec.ofNat n b).isLt, Nat.shiftLeft_eq]
  simp only [BitVec.toNat_ofNat, Nat.mod_eq_of_lt ha, Nat.mod_eq_of_lt hb]
  have h1 : (a + 1) * 2 ^ n ≤ 2 ^ m * 2 ^ n := Nat.mul_le_mul_right _ ha
  rw [Nat.mod_eq_of_lt]
  rw [pow_add]
  calc a * 2 ^ n + b < a * 2 ^ n + 2 ^ n := by omega
    _ = (a + 1) * 2 ^ n := by ring
    _ ≤ _ := h1

/-- A command word is its five fields side by side (R80). -/
theorem assemble_eq_fields {op s x y imm : Nat} (hop : op < 256) (hs : s < 4) (hx : x < 2048) (hy : y < 2048)
    (hi : imm < 4294967296) :
    assemble op s x y imm =
      BitVec.ofNat 8 op ++ (BitVec.ofNat 2 s ++ (BitVec.ofNat 11 x ++ (BitVec.ofNat 11 y ++ BitVec.ofNat 32 imm))) := by
  rw [append_ofNat 11 32 y imm (by omega) (by omega), append_ofNat 11 (11 + 32) x _ (by omega) (by omega),
    append_ofNat 2 (11 + (11 + 32)) s _ (by omega) (by omega), append_ofNat 8 _ op _ (by omega) (by omega)]
  exact congrArg (BitVec.ofNat 64) (by ring)

/-- Masking side by side. -/
theorem and_append_eq {m n : Nat} {a b c : BitVec m} {d e f : BitVec n} (h : a &&& b = c) (k : d &&& e = f) :
    (a ++ d) &&& (b ++ e) = c ++ f := by rw [BitVec.and_append, h, k]

/-- A word matches a row when, under the row's mask, only the opcode is left. The mask is given field by field. -/
theorem assemble_matches {op s x y imm : Nat} (ms : BitVec 2) (mx my : BitVec 11) (mi : BitVec 32)
    (hop : op < 256) (hs : s < 4) (hx : x < 2048) (hy : y < 2048) (hi : imm < 4294967296)
    (zs : BitVec.ofNat 2 s &&& ms = 0#2) (zx : BitVec.ofNat 11 x &&& mx = 0#11) (zy : BitVec.ofNat 11 y &&& my = 0#11)
    (zi : BitVec.ofNat 32 imm &&& mi = 0#32) :
    assemble op s x y imm &&& (0xFF#8 ++ (ms ++ (mx ++ (my ++ mi)))) =
      BitVec.ofNat 8 op ++ (0#2 ++ (0#11 ++ (0#11 ++ 0#32))) := by
  rw [assemble_eq_fields hop hs hx hy hi]
  exact and_append_eq BitVec.and_allOnes (and_append_eq zs (and_append_eq zx (and_append_eq zy zi)))

/-- A number below 2^k has no bit from k up. -/
theorem low_bits {n v k : Nat} (h : v < 2 ^ k) : BitVec.ofNat n v &&& ~~~BitVec.ofNat n (2 ^ k - 1) = 0#n := by
  apply BitVec.eq_of_getLsbD_eq
  intro i hi
  simp only [BitVec.getLsbD_and, BitVec.getLsbD_not, BitVec.getLsbD_ofNat, hi, decide_true, Bool.true_and,
    Nat.testBit_two_pow_sub_one]
  by_cases hk : i < k
  · simp [hk]
  · have : v.testBit i = false := Nat.testBit_lt_two_pow (lt_of_lt_of_le h (Nat.pow_le_pow_right (by omega) (by omega)))
    simp [this]

theorem code_lt_two (t : TreeSel) : t.code < 2 := by cases t <;> decide
theorem orient_code_lt (o : Orient) : o.code < 4 := by cases o <;> decide
theorem kind_code_lt (k : PassKind) : k.code < 3 := by cases k <;> decide

/-- A tree selector leaves bit 55 of the word 0. -/
theorem code_bit (t : TreeSel) : BitVec.ofNat 2 t.code &&& 2#2 = 0#2 := by cases t <;> decide

/-- Match value and mask of the row of a command, from spec/opcode_table.json. -/
def tableRow : Instr → Word × Word
  | .nop => (0x0000000000000000#64, 0xFFFFFFFFFFFFFFFF#64)
  | .softReset => (0x0100000000000000#64, 0xFFFFFFFFFFFFFFFF#64)
  | .clrErr => (0x0200000000000000#64, 0xFFFFFFFFFFFFFFFF#64)
  | .ttInit _ _ _ => (0x1000000000000000#64, 0xFF800000FFFFFFFF#64)
  | .ttSet _ _ _ _ => (0x1100000000000000#64, 0xFF800000FFFFFF00#64)
  | .ttEnc _ _ _ _ => (0x1200000000000000#64, 0xFF800000FFFFFF00#64)
  | .ttDec _ _ _ _ => (0x1300000000000000#64, 0xFF800000FFFFFF00#64)
  | .ttRd _ _ => (0x1400000000000000#64, 0xFFBFFFFF00000000#64)
  | .ctxSig _ _ => (0x2000000000000000#64, 0xFF3FFFFFFFFF0000#64)
  | .ctxRef _ => (0x2100000000000000#64, 0xFFFFFFFFFFFF0000#64)
  | .ctxSgn _ => (0x2200000000000000#64, 0xFFFFFFFFFFFF0000#64)
  | .cbCfg _ _ _ => (0x3000000000000000#64, 0xFF000000FFFFFFFF#64)
  | .cbClear => (0x3100000000000000#64, 0xFFFFFFFFFFFFFFFF#64)
  | .magWr _ _ _ _ => (0x3200000000000000#64, 0xFFC0000000000000#64)
  | .magRd _ _ => (0x3300000000000000#64, 0xFFC00000FFFFFFFF#64)
  | .flgRd _ _ => (0x3400000000000000#64, 0xFFC00000FFFFFFFF#64)
  | .setSig _ _ _ => (0x3500000000000000#64, 0xFFC00000FFFFFFFE#64)
  | .t1EncPass _ _ => (0x4000000000000000#64, 0xFF3FFFFFFFFFFFE0#64)
  | .t1DecPass _ _ => (0x4100000000000000#64, 0xFF3FFFFFFFFFFFE0#64)
  | .t1EncBlock => (0x4200000000000000#64, 0xFFFFFFFFFFFFFFFF#64)
  | .t1DecBlock _ => (0x4300000000000000#64, 0xFFFFFFFFFFFFFFC0#64)

/-- The word of a command whose operands fit matches the row of the command. -/
def MatchesTable.Statement (i : Instr) : Prop := i.wf = true → encode i &&& (tableRow i).2 = (tableRow i).1

theorem MatchesTable.nop : MatchesTable.Statement .nop := by unfold Statement; decide
theorem MatchesTable.softReset : MatchesTable.Statement .softReset := by unfold Statement; decide
theorem MatchesTable.clrErr : MatchesTable.Statement .clrErr := by unfold Statement; decide
theorem MatchesTable.cbClear : MatchesTable.Statement .cbClear := by unfold Statement; decide
theorem MatchesTable.t1EncBlock : MatchesTable.Statement .t1EncBlock := by unfold Statement; decide

theorem MatchesTable.ttInit (t : TreeSel) (w h : Nat) : MatchesTable.Statement (.ttInit t w h) := by
  intro hw
  simp only [Instr.wf, fitsCoord, Bool.and_eq_true, decide_eq_true_eq] at hw
  have ht := code_lt_two t
  exact assemble_matches 2#2 0#11 0#11 0xFFFFFFFF#32 (by omega) (by omega) (by omega) (by omega) (by omega)
    (code_bit t) (by simp) (by simp) (by decide)

/-- The three commands of format `TV`. -/
theorem matches_tv (op : Nat) (hop : op < 256) (t : TreeSel) (x y v : Nat) (hx : x < 2048) (hy : y < 2048)
    (hv : v < 256) :
    assemble op t.code x y v &&& 0xFF800000FFFFFF00#64 =
      BitVec.ofNat 8 op ++ (0#2 ++ (0#11 ++ (0#11 ++ 0#32))) := by
  have ht := code_lt_two t
  exact assemble_matches 2#2 0#11 0#11 0xFFFFFF00#32 hop (by omega) hx hy (by omega)
    (code_bit t) (by simp) (by simp) (low_bits (k := 8) hv)

theorem MatchesTable.ttSet (t : TreeSel) (x y v : Nat) : MatchesTable.Statement (.ttSet t x y v) := by
  intro hw
  simp only [Instr.wf, fitsCoord, Bool.and_eq_true, decide_eq_true_eq] at hw
  exact matches_tv 0x11 (by omega) t x y v hw.1.1 hw.1.2 hw.2

theorem MatchesTable.ttEnc (t : TreeSel) (x y thr : Nat) : MatchesTable.Statement (.ttEnc t x y thr) := by
  intro hw
  simp only [Instr.wf, fitsCoord, Bool.and_eq_true, decide_eq_true_eq] at hw
  exact matches_tv 0x12 (by omega) t x y thr hw.1.1 hw.1.2 hw.2

theorem MatchesTable.ttDec (t : TreeSel) (x y thr : Nat) : MatchesTable.Statement (.ttDec t x y thr) := by
  intro hw
  simp only [Instr.wf, fitsCoord, Bool.and_eq_true, decide_eq_true_eq] at hw
  exact matches_tv 0x13 (by omega) t x y thr hw.1.1 hw.1.2 hw.2

theorem MatchesTable.ttRd (t : TreeSel) (node : Nat) : MatchesTable.Statement (.ttRd t node) := by
  intro hw
  simp only [Instr.wf, decide_eq_true_eq] at hw
  have ht := code_lt_two t
  exact assemble_matches 2#2 0x7FF#11 0x7FF#11 0#32 (by omega) (by omega) (by omega) (by omega) hw
    (code_bit t) (by decide) (by decide) (by simp)

/-- A flag word leaves the upper half of `imm` 0 (formats `FO`, `FW`). -/
theorem flag_bits (f : FlagWord) : BitVec.ofNat 32 f.toNat &&& 0xFFFF0000#32 = 0#32 := low_bits (k := 16) f.isLt

theorem MatchesTable.ctxSig (o : Orient) (f : FlagWord) : MatchesTable.Statement (.ctxSig o f) := by
  intro _
  have ho := orient_code_lt o
  have hf := f.isLt
  exact assemble_matches 0#2 0x7FF#11 0x7FF#11 0xFFFF0000#32 (by omega) ho (by omega) (by omega) (by omega)
    (by simp) (by decide) (by decide) (flag_bits f)

theorem MatchesTable.ctxRef (f : FlagWord) : MatchesTable.Statement (.ctxRef f) := by
  intro _
  have hf := f.isLt
  exact assemble_matches 3#2 0x7FF#11 0x7FF#11 0xFFFF0000#32 (by omega) (by omega) (by omega) (by omega) (by omega)
    (by decide) (by decide) (by decide) (flag_bits f)

theorem MatchesTable.ctxSgn (f : FlagWord) : MatchesTable.Statement (.ctxSgn f) := by
  intro _
  have hf := f.isLt
  exact assemble_matches 3#2 0x7FF#11 0x7FF#11 0xFFFF0000#32 (by omega) (by omega) (by omega) (by omega) (by omega)
    (by decide) (by decide) (by decide) (flag_bits f)

theorem MatchesTable.cbCfg (o : Orient) (w h : Nat) : MatchesTable.Statement (.cbCfg o w h) := by
  intro hw
  simp only [Instr.wf, fitsCoord, Bool.and_eq_true, decide_eq_true_eq] at hw
  exact assemble_matches 0#2 0#11 0#11 0xFFFFFFFF#32 (by omega) (orient_code_lt o) hw.1 hw.2 (by omega)
    (by simp) (by simp) (by simp) (by decide)

theorem MatchesTable.magWr (x y : Nat) (neg : Bool) (mag : Magnitude) :
    MatchesTable.Statement (.magWr x y neg mag) := by
  intro hw
  simp only [Instr.wf, fitsCoord, Bool.and_eq_true, decide_eq_true_eq] at hw
  have hm := mag.isLt
  have hn : neg.toNat ≤ 1 := Bool.toNat_le neg
  exact assemble_matches 3#2 0#11 0#11 0#32 (by omega) (by omega) hw.1 hw.2 (by omega)
    (by decide) (by simp) (by simp) (by simp)

theorem MatchesTable.magRd (x y : Nat) : MatchesTable.Statement (.magRd x y) := by
  intro hw
  simp only [Instr.wf, fitsCoord, Bool.and_eq_true, decide_eq_true_eq] at hw
  exact assemble_matches 3#2 0#11 0#11 0xFFFFFFFF#32 (by omega) (by omega) hw.1 hw.2 (by omega)
    (by decide) (by simp) (by simp) (by decide)

theorem MatchesTable.flgRd (wx wy : Nat) : MatchesTable.Statement (.flgRd wx wy) := by
  intro hw
  simp only [Instr.wf, fitsCoord, Bool.and_eq_true, decide_eq_true_eq] at hw
  exact assemble_matches 3#2 0#11 0#11 0xFFFFFFFF#32 (by omega) (by omega) hw.1 hw.2 (by omega)
    (by decide) (by simp) (by simp) (by decide)

theorem MatchesTable.setSig (x y : Nat) (neg : Bool) : MatchesTable.Statement (.setSig x y neg) := by
  intro hw
  simp only [Instr.wf, fitsCoord, Bool.and_eq_true, decide_eq_true_eq] at hw
  have hn : neg.toNat ≤ 1 := Bool.toNat_le neg
  exact assemble_matches 3#2 0#11 0#11 0xFFFFFFFE#32 (by omega) (by omega) hw.1 hw.2 (by omega)
    (by decide) (by simp) (by simp) (by cases neg <;> decide)

theorem MatchesTable.t1EncPass (k : PassKind) (p : Nat) : MatchesTable.Statement (.t1EncPass k p) := by
  intro hw
  simp only [Instr.wf, decide_eq_true_eq] at hw
  have hk := kind_code_lt k
  exact assemble_matches 0#2 0x7FF#11 0x7FF#11 0xFFFFFFE0#32 (by omega) (by omega) (by omega) (by omega) (by omega)
    (by simp) (by decide) (by decide) (low_bits (k := 5) hw)

theorem MatchesTable.t1DecPass (k : PassKind) (p : Nat) : MatchesTable.Statement (.t1DecPass k p) := by
  intro hw
  simp only [Instr.wf, decide_eq_true_eq] at hw
  have hk := kind_code_lt k
  exact assemble_matches 0#2 0x7FF#11 0x7FF#11 0xFFFFFFE0#32 (by omega) (by omega) (by omega) (by omega) (by omega)
    (by simp) (by decide) (by decide) (low_bits (k := 5) hw)

theorem MatchesTable.t1DecBlock (nbp : Nat) : MatchesTable.Statement (.t1DecBlock nbp) := by
  intro hw
  simp only [Instr.wf, decide_eq_true_eq] at hw
  exact assemble_matches 3#2 0x7FF#11 0x7FF#11 0xFFFFFFC0#32 (by omega) (by omega) (by omega) (by omega) (by omega)
    (by decide) (by decide) (by decide) (low_bits (k := 6) hw)

end Sys2Proof.Laws
end

