-- ==== Sys2Proof/Laws/Step.lean ====
section
/-! SUPPORT. What a query, a fault entry and a step can do, said once. -/

namespace Sys2Proof.Machine

/-- The four precise faults, field by field (R216, R217). -/
theorem State.raise_eq_faulted (s : State) (c : ErrCode) (w : Word) (h : c ≠ .capacity) :
    s.raise c w 0#32 = s.faulted c w := by
  cases c with
  | capacity => exact absurd rfl h
  | config => rfl
  | consistency => rfl
  | illegal => rfl
  | sequence => rfl

/-- The contents of the memories after reset are in canonical form: there are none. -/
theorem State.reset_memWf : State.reset.memWf = true := by decide

/-- Everything the minimum of R113 says. -/
theorem minVal_isMinOf (m : Memory Node) (l : List Nat) : isMinOf m l (minVal m l) := by
  have h : ∀ (l : List Nat) (v : Nat), v ≤ 255 →
      l.foldl (fun acc i => min acc (nodeAt m i).val) v ≤ v ∧
      (∀ n ∈ l, l.foldl (fun acc i => min acc (nodeAt m i).val) v ≤ (nodeAt m n).val) ∧
      (l.foldl (fun acc i => min acc (nodeAt m i).val) v = v ∨
        ∃ n ∈ l, (nodeAt m n).val = l.foldl (fun acc i => min acc (nodeAt m i).val) v) := by
    intro l
    induction l with
    | nil => exact fun v _ => ⟨Nat.le_refl v, nofun, .inl rfl⟩
    | cons i rest ih =>
      intro v hv
      obtain ⟨h1, h2, h3⟩ := ih (min v (nodeAt m i).val) (by omega)
      simp only [List.foldl_cons]
      refine ⟨by omega, ?_, ?_⟩
      · intro n hn
        rcases List.mem_cons.mp hn with rfl | hn
        · omega
        · exact h2 n hn
      · rcases h3 with h3 | ⟨n, hn, h3⟩
        · by_cases hc : v ≤ (nodeAt m i).val
          · exact .inl (by omega)
          · exact .inr ⟨i, by simp, by omega⟩
        · exact .inr ⟨n, by simp [hn], h3⟩
  obtain ⟨h1, h2, h3⟩ := h l 255 (Nat.le_refl _)
  exact ⟨h1, h2, h3⟩

/-- No step of a walk is refused by a port: `HdrPut` cannot fail (R71). -/
theorem decNode_not_full (t : TreeSel) (n left : Nat) (k : Walk) (cur : Cursor) (k' : Walk) :
    decNode t n left k ≠ .full cur k' := by
  induction left generalizing k with
  | zero => exact fun h => by cases h
  | succ left ih =>
    unfold decNode
    dsimp only
    split
    · split
      · exact fun h => by cases h
      · split
        · exact fun h => by cases h
        · exact ih _
    · exact fun h => by cases h

theorem visitNode_not_full (decoding : Bool) (t : TreeSel) (thr n : Nat) (k : Walk) (cur : Cursor) (k' : Walk) :
    visitNode decoding t thr n k ≠ .full cur k' := by
  unfold visitNode nodeStep
  cases decoding with
  | false => exact fun h => by cases h
  | true =>
    simp only [if_true]
    cases hd : decNode t n (thr + 1 - (enterNode n k).floor) (enterNode n k) with
    | done a k1 => exact fun h => by cases h
    | full cur1 k1 => exact absurd hd (decNode_not_full _ _ _ _ _ _)
    | hold cur1 k1 => exact fun h => by cases h

theorem forEach_not_full {σ ι : Type} (body : ι → σ → Res σ Unit) (hb : ∀ i s cur s', body i s ≠ .full cur s')
    (l : List ι) (s : σ) (cur : Cursor) (s' : σ) : forEach l body s ≠ .full cur s' := by
  induction l generalizing s with
  | nil => exact fun h => by cases h
  | cons i rest ih =>
    unfold forEach
    cases hi : body i s with
    | done a s1 => exact ih s1
    | full cur1 s1 => exact absurd hi (hb _ _ _ _)
    | hold cur1 s1 => exact fun h => by cases h

theorem walk_not_full (decoding : Bool) (t : TreeSel) (w h x y thr : Nat) (k : Walk) (cur : Cursor) (k' : Walk) :
    walk decoding t w h x y thr k ≠ .full cur k' :=
  forEach_not_full _ (fun _ _ _ _ => visitNode_not_full _ _ _ _ _ _ _) _ _ _ _

/-- Everything a query can do on a tree with contents: the walk completes, with its results, or waits (R118, R73). -/
theorem State.query_cases (s : State) (i : Instr) (decoding : Bool) (t : TreeSel) (mode : TreeMode) (x y thr : Nat)
    (m : Memory Node) (hm : (s.tree t).nodes = some m) :
    (∃ k, walk decoding t (s.tree t).w (s.tree t).h x y thr ⟨m, s.hdr, s.hdrIn, 0, 0⟩ = .done () k ∧
      s.query i decoding t mode x y thr =
        .next ((s.afterWalk t mode k).setRes
          (queryResult (nodeAt k.nodes (Level.node ⟨0, (s.tree t).w, (s.tree t).h⟩ x y)) thr) (BitVec.ofNat 32 k.nbits))) ∨
    (∃ cur k, walk decoding t (s.tree t).w (s.tree t).h x y thr ⟨m, s.hdr, s.hdrIn, 0, 0⟩ = .hold cur k ∧
      s.query i decoding t mode x y thr = .next (s.hold i cur (s.afterWalk t (s.tree t).mode k))) := by
  unfold State.query
  rw [TagTree.withNodes_some _ _ m hm]
  cases hw : walk decoding t (s.tree t).w (s.tree t).h x y thr ⟨m, s.hdr, s.hdrIn, 0, 0⟩ with
  | done a k => exact .inl ⟨k, rfl, rfl⟩
  | full cur k => exact absurd hw (walk_not_full _ _ _ _ _ _ _ _ _ _)
  | hold cur k => exact .inr ⟨cur, k, rfl, rfl⟩

/-- Everything a step can do: an event settles, or a command runs whole. -/
theorem step_cases (s : State) :
    (∃ t, nextAction s = .settle t ∧ step s = .next t) ∨ (∃ i t, nextAction s = .run i t ∧ step s = exec i t) := by
  unfold step
  cases nextAction s with
  | settle t => exact .inl ⟨t, rfl, rfl⟩
  | run i t => exact .inr ⟨i, t, rfl, rfl⟩

/-- With no event left the block stays as it is. -/
theorem nextAction_idle (s : State) (h : s.inputs = []) : nextAction s = .settle s := by
  unfold nextAction
  rw [h]

theorem nextAction_event (s : State) (e : Event) (more : List Event) (h : s.inputs = e :: more) :
    nextAction s = hostEvent e { s with inputs := more } := by
  unfold nextAction
  rw [h]

/-- Everything an answer, or `proceed`, can do: a held command runs again from where it started, or nothing happens. -/
theorem State.resume_cases (s : State) :
    (s.held = none ∧ s.resume = .settle s) ∨ (∃ h, s.held = some h ∧ s.resume = .run h.cmd (s.rewind h)) := by
  unfold State.resume
  cases hs : s.held with
  | none => exact .inl ⟨rfl, rfl⟩
  | some h => exact .inr ⟨h, rfl, rfl⟩

end Sys2Proof.Machine
end

