-- ==== Sys2Proof/Laws/TagTree.lean ====
section
/-! SUPPORT. The queries keep to what `walkVisit` says of a walk (Sys2Proof/Safety.lean): one lemma per part of
spec/41_tagtree.md R115 to R117. -/

namespace Sys2Proof.Machine

/-! One node -/

theorem putNode_onlyNode (m : Memory Node) (n : Nat) (nd : Node) : onlyNode m (putNode m n nd) n nd :=
  ⟨by rw [nodeAt_putNode, if_pos rfl], fun i hi => by rw [nodeAt_putNode, if_neg hi]⟩

theorem onlyNode.trans {a b c : Memory Node} {n : Nat} {nd nd' : Node} (h : onlyNode a b n nd) (h' : onlyNode b c n nd') :
    onlyNode a c n nd' :=
  ⟨h'.1, fun i hi => (h'.2 i hi).trans (h.2 i hi)⟩

/-- Everything entering a node does (R115). -/
theorem enterNode_spec (n : Nat) (k : Walk) :
    (enterNode n k).floor = max k.floor (nodeAt k.nodes n).low ∧
    onlyNode k.nodes (enterNode n k).nodes n
      { nodeAt k.nodes n with low := max k.floor (nodeAt k.nodes n).low } ∧
    (enterNode n k).hdr = k.hdr ∧ (enterNode n k).hdrIn = k.hdrIn ∧ (enterNode n k).nbits = k.nbits := by
  unfold enterNode
  by_cases h : (nodeAt k.nodes n).low < k.floor
  · simp only [if_pos h]
    rw [Nat.max_eq_left (by omega)]
    exact ⟨rfl, putNode_onlyNode _ _ _, trivial, trivial, trivial⟩
  · simp only [if_neg h]
    rw [Nat.max_eq_right (by omega)]
    exact ⟨rfl, ⟨rfl, fun _ _ => rfl⟩, trivial, trivial, trivial⟩

/-- Everything leaving a node does (R115). -/
theorem leaveNode_spec (n : Nat) (k : Walk) :
    (leaveNode n k).floor = k.floor ∧
    onlyNode k.nodes (leaveNode n k).nodes n { nodeAt k.nodes n with low := k.floor } ∧
    (leaveNode n k).hdr = k.hdr ∧ (leaveNode n k).hdrIn = k.hdrIn ∧ (leaveNode n k).nbits = k.nbits :=
  ⟨rfl, putNode_onlyNode _ _ _, rfl, rfl, rfl⟩

/-- Everything the loop of `TT_ENC` does at a node (R116). -/
theorem encNode_spec (thr n left : Nat) (k : Walk) (hl : left = thr + 1 - k.floor) :
    ∃ bits : List Bool, (encNode n left k).hdr = k.hdr ++ bits.map .put ∧
      (encNode n left k).nbits = k.nbits + bits.length ∧ (encNode n left k).hdrIn = k.hdrIn ∧
      (thr < k.floor → bits = [] ∧ encNode n left k = k) ∧
      (k.floor ≤ thr → thr < (nodeAt k.nodes n).val →
        bits = List.replicate (thr + 1 - k.floor) false ∧ (encNode n left k).floor = thr + 1 ∧
          (encNode n left k).nodes = k.nodes) ∧
      (k.floor ≤ thr → (nodeAt k.nodes n).val ≤ thr →
        bits = List.replicate ((nodeAt k.nodes n).val - k.floor) false ++ (if (nodeAt k.nodes n).vis then [] else [true]) ∧
          (encNode n left k).floor = max k.floor (nodeAt k.nodes n).val ∧
          onlyNode k.nodes (encNode n left k).nodes n { nodeAt k.nodes n with vis := true }) := by
  induction left generalizing k with
  | zero =>
    exact ⟨[], by simp [encNode], rfl, rfl, fun _ => ⟨rfl, rfl⟩, fun h => absurd h (by omega), fun h => absurd h (by omega)⟩
  | succ left ih =>
    have hf : k.floor ≤ thr := by omega
    by_cases hv : (nodeAt k.nodes n).val ≤ k.floor
    · have h0 : (nodeAt k.nodes n).val - k.floor = 0 := by omega
      have hm : max k.floor (nodeAt k.nodes n).val = k.floor := by omega
      cases hvis : (nodeAt k.nodes n).vis with
      | true =>
        have he : encNode n (left + 1) k = k := by simp [encNode, hv, hvis]
        rw [he, h0, hm]
        exact ⟨[], by simp, rfl, rfl, fun h => absurd h (by omega), fun _ h => absurd h (by omega),
          fun _ _ => ⟨rfl, rfl, by rw [← hvis], fun _ _ => rfl⟩⟩
      | false =>
        have he : encNode n (left + 1) k = { k with
            nodes := putNode k.nodes n { nodeAt k.nodes n with vis := true }
            hdr := k.hdr ++ [HdrEvent.put true]
            nbits := k.nbits + 1 } := by simp [encNode, hv, hvis]
        rw [he, h0, hm]
        exact ⟨[true], by simp, rfl, rfl, fun h => absurd h (by omega), fun _ h => absurd h (by omega),
          fun _ _ => ⟨rfl, rfl, putNode_onlyNode _ _ _⟩⟩
    · have he : encNode n (left + 1) k = encNode n left
          { k with hdr := k.hdr ++ [HdrEvent.put false], nbits := k.nbits + 1, floor := k.floor + 1 } := by
        simp [encNode, hv]
      rw [he]
      obtain ⟨bits, h1, h2, h3, h4, h5, h6⟩ := ih
        { k with hdr := k.hdr ++ [HdrEvent.put false], nbits := k.nbits + 1, floor := k.floor + 1 } (by simp; omega)
      dsimp only at h1 h2 h3 h4 h5 h6
      refine ⟨false :: bits, by simp [h1], by rw [h2, List.length_cons]; omega, h3, fun h => absurd h (by omega),
        fun _ hlt => ?_, fun _ hle => ?_⟩
      · by_cases hq : k.floor + 1 ≤ thr
        · obtain ⟨g1, g2, g3⟩ := h5 hq hlt
          refine ⟨?_, g2, g3⟩
          rw [g1, show thr + 1 - k.floor = (thr + 1 - (k.floor + 1)) + 1 by omega, List.replicate_succ]
        · obtain ⟨g1, g2⟩ := h4 (by omega)
          rw [g2, g1, show thr + 1 - k.floor = 1 by omega]
          exact ⟨rfl, by show k.floor + 1 = thr + 1; omega, rfl⟩
      · obtain ⟨g1, g2, g3⟩ := h6 (by omega) hle
        refine ⟨?_, by rw [g2]; omega, g3⟩
        rw [g1, show (nodeAt k.nodes n).val - k.floor = ((nodeAt k.nodes n).val - (k.floor + 1)) + 1 by omega,
          List.replicate_succ, List.cons_append]

/-- How the loop of `TT_DEC` may end at a node (R117, R73). -/
def DecNodeEnds (t : TreeSel) (thr n : Nat) (k : Walk) : Res Walk Unit → Prop
  | .done _ k' => ∃ (zeros : Nat) (bits : List Bool), k'.floor = k.floor + zeros ∧
      (∀ i, i < zeros → k.floor + i ≤ thr ∧ k.floor + i < (nodeAt k.nodes n).val) ∧
      k'.hdr = k.hdr ++ bits.map .get ∧ k'.nbits = k.nbits + bits.length ∧ k.hdrIn.gives bits k'.hdrIn ∧
      ((bits = List.replicate zeros false ∧ (thr < k'.floor ∨ (nodeAt k.nodes n).val ≤ k'.floor) ∧ k'.nodes = k.nodes) ∨
        (bits = List.replicate zeros false ++ [true] ∧ k'.floor ≤ thr ∧ k'.floor < (nodeAt k.nodes n).val ∧
          onlyNode k.nodes k'.nodes n { nodeAt k.nodes n with val := k'.floor, vis := true }))
  | .full _ _ => False
  | .hold cur k' => cur = .path t n ∧ ∃ zeros : Nat, k'.nodes = k.nodes ∧
      k'.hdr = k.hdr ++ (List.replicate zeros false).map .get ∧ k.hdrIn.gives (List.replicate zeros false) k'.hdrIn ∧
      k'.hdrIn.pop = none

theorem decNode_spec (t : TreeSel) (thr n left : Nat) (k : Walk) (hl : left = thr + 1 - k.floor) :
    DecNodeEnds t thr n k (decNode t n left k) := by
  induction left generalizing k with
  | zero =>
    exact ⟨0, [], rfl, fun i hi => absurd hi (by omega), by simp, rfl, Answers.gives_nil _, .inl ⟨rfl, .inl (by omega), rfl⟩⟩
  | succ left ih =>
    by_cases hv : k.floor < (nodeAt k.nodes n).val
    · cases hp : k.hdrIn.pop with
      | none =>
        have he : decNode t n (left + 1) k = .hold (.path t n) k := by simp [decNode, hv, hp]
        rw [he]
        exact ⟨rfl, 0, rfl, by simp, Answers.gives_nil _, hp⟩
      | some r =>
        obtain ⟨b, more⟩ := r
        cases b with
        | true =>
          have he : decNode t n (left + 1) k = .done () { k with
              hdrIn := more, hdr := k.hdr ++ [HdrEvent.get true], nbits := k.nbits + 1
              nodes := putNode k.nodes n { nodeAt k.nodes n with val := k.floor, vis := true } } := by
            simp [decNode, hv, hp]
          rw [he]
          exact ⟨0, [true], rfl, fun i hi => absurd hi (by omega), rfl, rfl, Answers.gives_pop hp,
            .inr ⟨rfl, by show k.floor ≤ thr; omega, hv, putNode_onlyNode _ _ _⟩⟩
        | false =>
          let k1 : Walk := { k with
            hdrIn := more, hdr := k.hdr ++ [HdrEvent.get false], nbits := k.nbits + 1, floor := k.floor + 1 }
          have he : decNode t n (left + 1) k = decNode t n left k1 := by simp [decNode, hv, hp, k1]
          rw [he]
          have h := ih k1 (by show left = thr + 1 - (k.floor + 1); omega)
          have hg : k.hdrIn.gives [false] k1.hdrIn := Answers.gives_pop hp
          cases hr : decNode t n left k1 with
          | done a k' =>
            rw [hr] at h
            obtain ⟨zeros, bits, h1, h2, h3, h4, h5, h6⟩ := h
            have hf : k'.floor = k.floor + (zeros + 1) := by rw [h1]; show k.floor + 1 + zeros = _; omega
            refine ⟨zeros + 1, false :: bits, hf, fun i hi => ?_, by rw [h3]; simp [k1],
              by rw [h4]; show k.nbits + 1 + bits.length = _; rw [List.length_cons]; omega,
              Answers.gives_append hg h5, ?_⟩
            · cases i with
              | zero => exact ⟨by omega, hv⟩
              | succ i =>
                have := h2 i (by omega)
                have e : k1.floor + i = k.floor + (i + 1) := by show k.floor + 1 + i = _; omega
                rwa [e] at this
            · rcases h6 with ⟨g1, g2, g3⟩ | ⟨g1, g2, g3, g4⟩
              · exact .inl ⟨by rw [g1, List.replicate_succ], g2, g3⟩
              · exact .inr ⟨by rw [g1, List.replicate_succ, List.cons_append], g2, g3, g4⟩
          | full cur k' => rw [hr] at h; exact h
          | hold cur k' =>
            rw [hr] at h
            obtain ⟨h0, zeros, h1, h2, h3, h4⟩ := h
            exact ⟨h0, zeros + 1, h1, by rw [h2]; simp [k1, List.replicate_succ],
              by rw [List.replicate_succ]; exact Answers.gives_append hg h3, h4⟩
    · have he : decNode t n (left + 1) k = .done () k := by simp [decNode, hv]
      rw [he]
      exact ⟨0, [], rfl, fun i hi => absurd hi (by omega), by simp, rfl, Answers.gives_nil _,
        .inl ⟨rfl, .inr (by omega), rfl⟩⟩

/-- What the ports see of a walk: the bits put or taken, in order, and their number. -/
def Walk.moved (decoding : Bool) (k k' : Walk) (bits : List Bool) : Prop :=
  k'.hdr = k.hdr ++ bits.map (if decoding then HdrEvent.get else HdrEvent.put) ∧ k'.nbits = k.nbits + bits.length ∧
    k.hdrIn.gives (if decoding then bits else []) k'.hdrIn

theorem Walk.moved.append {decoding : Bool} {a b c : Walk} {l l' : List Bool} (h : a.moved decoding b l)
    (h' : b.moved decoding c l') : a.moved decoding c (l ++ l') := by
  obtain ⟨h1, h2, h3⟩ := h
  obtain ⟨g1, g2, g3⟩ := h'
  refine ⟨by rw [g1, h1]; simp, by rw [g2, h2, List.length_append]; omega, ?_⟩
  cases decoding with
  | true => exact Answers.gives_append h3 g3
  | false => exact Answers.gives_append h3 g3

/-- A visit of a node of `TT_ENC` (R115, R116). -/
theorem visitNode_enc (t : TreeSel) (thr n : Nat) (k : Walk) :
    ∃ (k' : Walk) (bits : List Bool), visitNode false t thr n k = .done () k' ∧ k.moved false k' bits ∧
      ∃ nd, encStep thr (nodeAt k.nodes n) k.floor bits nd k'.floor ∧ onlyNode k.nodes k'.nodes n nd := by
  obtain ⟨e1, e2, e3, e4, e5⟩ := enterNode_spec n k
  generalize hk : enterNode n k = k0 at e1 e2 e3 e4 e5
  obtain ⟨bits, h1, h2, h3, h4, h5, h6⟩ := encNode_spec thr n (thr + 1 - k0.floor) k0 rfl
  generalize hn : encNode n (thr + 1 - k0.floor) k0 = k1 at h1 h2 h3 h4 h5 h6
  obtain ⟨l1, l2, l3, l4, l5⟩ := leaveNode_spec n k1
  have hv : visitNode false t thr n k = .done () (leaveNode n k1) := by
    unfold visitNode nodeStep
    simp [hk, hn]
  have hval : (nodeAt k0.nodes n).val = (nodeAt k.nodes n).val := by rw [e2.1]
  have hvis : (nodeAt k0.nodes n).vis = (nodeAt k.nodes n).vis := by rw [e2.1]
  refine ⟨_, bits, hv, ⟨by rw [l3, h1, e3]; rfl, by rw [l5, h2, e5], ?_⟩, { nodeAt k1.nodes n with low := k1.floor }, ?_, ?_⟩
  · rw [l4, h3, e4]
    exact Answers.gives_nil _
  · rw [hval, hvis] at h6
    rw [hval] at h5
    rw [e1] at h4 h5 h6
    rw [l1]
    refine ⟨fun h => ?_, fun h h' => ?_, fun h h' => ?_⟩
    · obtain ⟨g1, rfl⟩ := h4 h
      rw [e2.1, e1]
      exact ⟨g1, rfl, rfl⟩
    · obtain ⟨g1, g2, g3⟩ := h5 h h'
      rw [g3, e2.1, g2]
      exact ⟨g1, rfl, rfl⟩
    · obtain ⟨g1, g2, g3⟩ := h6 h h'
      rw [g3.1, e2.1, g2]
      exact ⟨g1, rfl, rfl⟩
  · have hmid : onlyNode k.nodes k1.nodes n (nodeAt k1.nodes n) := by
      refine ⟨rfl, fun i hi => ?_⟩
      rcases Nat.lt_or_ge thr k0.floor with h | h
      · rw [(h4 h).2]
        exact e2.2 i hi
      · rcases Nat.lt_or_ge thr (nodeAt k0.nodes n).val with h' | h'
        · rw [(h5 h h').2.2]
          exact e2.2 i hi
        · rw [(h6 h h').2.2.2 i hi]
          exact e2.2 i hi
    exact hmid.trans l2

/-- How a visit of a node of `TT_DEC` may end (R115, R117, R73; log 16). -/
theorem visitNode_dec (t : TreeSel) (thr n : Nat) (k : Walk) :
    (∃ (k' : Walk) (bits : List Bool), visitNode true t thr n k = .done () k' ∧ k.moved true k' bits ∧
      ∃ nd, decStep thr (nodeAt k.nodes n) k.floor bits nd k'.floor ∧ onlyNode k.nodes k'.nodes n nd) ∨
    ∃ (k' : Walk) (zeros : Nat), visitNode true t thr n k = .hold (.path t n) k' ∧
      k'.hdr = k.hdr ++ (List.replicate zeros false).map .get ∧ k.hdrIn.gives (List.replicate zeros false) k'.hdrIn ∧
      k'.hdrIn.pop = none ∧
      onlyNode k.nodes k'.nodes n { nodeAt k.nodes n with low := max k.floor (nodeAt k.nodes n).low } := by
  obtain ⟨e1, e2, e3, e4, e5⟩ := enterNode_spec n k
  generalize hk : enterNode n k = k0 at e1 e2 e3 e4 e5
  have h := decNode_spec t thr n (thr + 1 - k0.floor) k0 rfl
  have hv : visitNode true t thr n k = (decNode t n (thr + 1 - k0.floor) k0).bind fun _ k' => .done () (leaveNode n k') := by
    unfold visitNode nodeStep
    simp [hk]
  rw [hv]
  have hval : (nodeAt k0.nodes n).val = (nodeAt k.nodes n).val := by rw [e2.1]
  cases hr : decNode t n (thr + 1 - k0.floor) k0 with
  | done a k1 =>
    rw [hr] at h
    obtain ⟨zeros, bits, h1, h2, h3, h4, h5, h6⟩ := h
    obtain ⟨l1, l2, l3, l4, l5⟩ := leaveNode_spec n k1
    refine .inl ⟨_, bits, rfl, ⟨by rw [l3, h3, e3]; rfl, by rw [l5, h4, e5], ?_⟩,
      { nodeAt k1.nodes n with low := k1.floor }, ⟨zeros, ?_, ?_, ?_⟩, ?_⟩
    · rw [l4, ← e4]
      exact h5
    · rw [l1, h1, e1]
    · rw [e1, hval] at h2
      exact h2
    · rw [l1]
      rw [hval] at h6
      rcases h6 with ⟨g1, g2, g3⟩ | ⟨g1, g2, g3, g4⟩
      · refine .inl ⟨g1, g2, ?_⟩
        rw [g3, e2.1]
      · refine .inr ⟨g1, g2, g3, ?_⟩
        rw [g4.1]
    · rcases h6 with ⟨_, _, g3⟩ | ⟨_, _, _, g4⟩
      · rw [g3] at l2 ⊢
        exact e2.trans l2
      · exact (e2.trans g4).trans (g4.1 ▸ l2)
  | full cur k1 => rw [hr] at h; exact h.elim
  | hold cur k1 =>
    rw [hr] at h
    obtain ⟨rfl, zeros, h1, h2, h3, h4⟩ := h
    refine .inr ⟨k1, zeros, rfl, by rw [h2, e3], by rw [← e4]; exact h3, h4, ?_⟩
    rw [h1]
    exact e2

/-! The walk -/

/-- The walk of `TT_ENC` along any list of nodes (R115, R116). -/
theorem walk_enc (t : TreeSel) (thr : Nat) (path : List Nat) (k : Walk) :
    ∃ (k' : Walk) (bits : List Bool), forEach path (visitNode false t thr) k = .done () k' ∧ k.moved false k' bits ∧
      walkVisit (encStep thr) path k.nodes k.floor bits k'.nodes k'.floor := by
  induction path generalizing k with
  | nil => exact ⟨k, [], rfl, ⟨by simp, rfl, Answers.gives_nil _⟩, rfl, rfl, rfl⟩
  | cons n rest ih =>
    obtain ⟨k1, b1, h1, h2, nd, h3, h4⟩ := visitNode_enc t thr n k
    obtain ⟨k2, b2, g1, g2, g3⟩ := ih k1
    exact ⟨k2, b1 ++ b2, by simp [forEach, h1, g1], h2.append g2, nd, k1.floor, k1.nodes, b1, b2, h3, h4, g3, rfl⟩

/-- How the walk of `TT_DEC` along a list of nodes may end: at its end, or waiting at one of them (R115, R117, R73). -/
theorem walk_dec (t : TreeSel) (thr : Nat) (path : List Nat) (k : Walk) :
    (∃ (k' : Walk) (bits : List Bool), forEach path (visitNode true t thr) k = .done () k' ∧ k.moved true k' bits ∧
      walkVisit (decStep thr) path k.nodes k.floor bits k'.nodes k'.floor) ∨
    ∃ (k' k1 : Walk) (n zeros : Nat) (above below : List Nat) (got : List Bool),
      forEach path (visitNode true t thr) k = .hold (.path t n) k' ∧ path = above ++ n :: below ∧
      walkVisit (decStep thr) above k.nodes k.floor got k1.nodes k1.floor ∧
      k'.hdr = k.hdr ++ (got ++ List.replicate zeros false).map .get ∧
      k.hdrIn.gives (got ++ List.replicate zeros false) k'.hdrIn ∧ k'.hdrIn.pop = none ∧
      onlyNode k1.nodes k'.nodes n { nodeAt k1.nodes n with low := max k1.floor (nodeAt k1.nodes n).low } := by
  induction path generalizing k with
  | nil => exact .inl ⟨k, [], rfl, ⟨by simp, rfl, Answers.gives_nil _⟩, rfl, rfl, rfl⟩
  | cons n rest ih =>
    rcases visitNode_dec t thr n k with ⟨k1, b1, h1, h2, nd, h3, h4⟩ | ⟨k', zeros, h1, h2, h3, h4, h5⟩
    · rcases ih k1 with ⟨k2, b2, g1, g2, g3⟩ | ⟨k', k2, n', zeros, above, below, got, g1, g2, g3, g4, g5, g6, g7⟩
      · exact .inl ⟨k2, b1 ++ b2, by simp [forEach, h1, g1], h2.append g2, nd, k1.floor, k1.nodes, b1, b2, h3, h4, g3, rfl⟩
      · refine .inr ⟨k', k2, n', zeros, n :: above, below, b1 ++ got, by simp [forEach, h1, g1], by rw [g2]; rfl,
          ⟨nd, k1.floor, k1.nodes, b1, got, h3, h4, g3, rfl⟩, ?_, ?_, g6, g7⟩
        · rw [g4, h2.1]
          simp
        · rw [List.append_assoc]
          exact Answers.gives_append h2.2.2 g5
    · exact .inr ⟨k', k, n, zeros, [], rest, [], by simp [forEach, h1], rfl, ⟨rfl, rfl, rfl⟩, by simpa using h2,
        by simpa using h3, h4, h5⟩

end Sys2Proof.Machine
end

