-- ==== Sys2Proof/Tests/Slice0.lean ====
section
/-! SUPPORT. Tests of the model, by evaluation in the kernel: the checks of WellFormed, decoding of words written from
the spec's encoding, the printed ROM tables, one step of each command against spec/95_test_vectors.md or an example of
the command's rule, and a witness for the hypotheses of each obligation that has some. -/

namespace Sys2Proof.Tests

open Sys2Proof Sys2Proof.Machine

/-! Small states -/

/-- The block after reset, on ports that answer `ok`, 1 and 1 for ever. -/
def idle : State := { State.reset with encIn := ⟨[], some .ok⟩, decIn := ⟨[], some true⟩, hdrIn := ⟨[], some true⟩ }

/-- A window of `w` by `h` in a life-cycle state. -/
def block (st : CbState) (o : Orient) (w h : Nat) (win : Window) : State :=
  { idle with cbState := st, cbW := w, cbH := h, cbOrient := o, window := some win }

/-- A tree 0. -/
def planted (w h : Nat) (mode : TreeMode) (m : Memory Node) : State := { idle with tree0 := ⟨w, h, mode, some m⟩ }

/-- The values loaded in the 2 by 2 tree of the source's scenario: 3, 1, 4, 1 and the root's 1. -/
def loaded : Memory Node := [(0, ⟨3, 0, false⟩), (1, ⟨1, 0, false⟩), (2, ⟨4, 0, false⟩), (3, ⟨1, 0, false⟩), (4, ⟨1, 0, false⟩)]

/-- A next state with a property. -/
def reached (r : Result) (p : State → Bool) : Bool :=
  match r with
  | .next t => p t
  | .fault _ => false
  | .refused _ => false

theorem of_reached {r : Result} {p : State → Bool} (h : reached r p = true) : ∃ t, r = .next t ∧ p t = true := by
  cases r with
  | next t => exact ⟨t, rfl, h⟩
  | fault f => cases h
  | refused f => cases h

/-- One step that delivers the command word `w`. -/
def sent (w : Nat) (s : State) (p : State → Bool) : Bool := reached (step (s.withFetchWord 64 w)) p

/-- The flag words of the window, row by row, each row as one hexadecimal number. -/
def flagRows (t : State) : List Nat :=
  match t.window with
  | none => []
  | some win => (List.range (t.cbH + 2)).map fun wy =>
      (List.range (t.cbW + 2)).foldl (fun acc wx => acc * 65536 + (win.flag wx wy).toNat) 0

/-- The magnitude of one coefficient. -/
def magAt (t : State) (x y : Nat) : Nat := match t.window with
  | none => 0
  | some win => (win.mag x y).toNat

/-- The nodes of a tree: value, floor, visited. -/
def nodesOf (tr : TagTree) : List (Nat × Nat × Bool) :=
  match tr.nodes with
  | none => []
  | some m => (List.range (nodeCount tr.w tr.h)).map fun i => ((nodeAt m i).val, (nodeAt m i).low, (nodeAt m i).vis)

/-! WellFormed: an ill-formed term for each check -/

theorem test_wf_coordinates :
    (Instr.ttInit .incl 2048 1).wf = false ∧ (Instr.ttInit .incl 1 2048).wf = false ∧
    (Instr.ttSet .incl 2048 0 0).wf = false ∧ (Instr.ttSet .incl 0 2048 0).wf = false ∧
    (Instr.ttEnc .incl 2048 0 0).wf = false ∧ (Instr.ttEnc .incl 0 2048 0).wf = false ∧
    (Instr.ttDec .incl 2048 0 0).wf = false ∧ (Instr.ttDec .incl 0 2048 0).wf = false ∧
    (Instr.cbCfg .ll 2048 1).wf = false ∧ (Instr.cbCfg .ll 1 2048).wf = false ∧
    (Instr.magWr 2048 0 false 0#31).wf = false ∧ (Instr.magWr 0 2048 false 0#31).wf = false ∧
    (Instr.magRd 2048 0).wf = false ∧ (Instr.magRd 0 2048).wf = false ∧
    (Instr.flgRd 2048 0).wf = false ∧ (Instr.flgRd 0 2048).wf = false ∧
    (Instr.setSig 2048 0 false).wf = false ∧ (Instr.setSig 0 2048 false).wf = false := by decide

theorem test_wf_immediates :
    (Instr.ttSet .incl 0 0 256).wf = false ∧ (Instr.ttEnc .incl 0 0 256).wf = false ∧
    (Instr.ttDec .incl 0 0 256).wf = false ∧ (Instr.ttRd .incl 4294967296).wf = false ∧
    (Instr.t1EncPass .spp 32).wf = false ∧ (Instr.t1DecPass .spp 32).wf = false ∧
    (Instr.t1DecBlock 64).wf = false := by decide

theorem test_wf_accepts_the_largest_fields :
    (Instr.ttEnc .zbp 2047 2047 255).wf = true ∧ (Instr.ttRd .zbp 4294967295).wf = true ∧
    (Instr.t1EncPass .cup 31).wf = true ∧ (Instr.t1DecBlock 63).wf = true := by decide

/-! Decoding: each word is put together from the fields of R80 to R82 and R88 (R89, V-ENC1) -/

theorem test_decode_system :
    decode 0x0000000000000000#64 = .ok .nop ∧ decode 0x0100000000000000#64 = .ok .softReset ∧
    decode 0x0200000000000000#64 = .ok .clrErr := by decide

-- op 0x10 to 0x14; bit 54 is the tree, bits 53:43 the column, 42:32 the row.
theorem test_decode_tree :
    decode 0x1040100200000000#64 = .ok (.ttInit .zbp 2 2) ∧ decode 0x1100080100000001#64 = .ok (.ttSet .incl 1 1 1) ∧
    decode 0x12402802000000FE#64 = .ok (.ttEnc .zbp 5 2 254) ∧ decode 0x1340080100000001#64 = .ok (.ttDec .zbp 1 1 1) ∧
    decode 0x1400000000000004#64 = .ok (.ttRd .incl 4) ∧ decode 0x137FFFFF000000FF#64 = .ok (.ttDec .zbp 2047 2047 255) := by
  decide

theorem test_decode_rom :
    decode 0x20C00000000000B1#64 = .ok (.ctxSig .hh 0xB1#16) ∧ decode 0x2040000000000101#64 = .ok (.ctxSig .hl 0x101#16) ∧
    decode 0x2100000000002004#64 = .ok (.ctxRef 0x2004#16) ∧ decode 0x2200000000000C06#64 = .ok (.ctxSgn 0xC06#16) := by
  decide

theorem test_decode_window :
    decode 0x3040180500000000#64 = .ok (.cbCfg .hl 3 5) ∧ decode 0x30C2004000000000#64 = .ok (.cbCfg .hh 64 64) ∧
    decode 0x3100000000000000#64 = .ok .cbClear ∧ decode 0x3200080080000003#64 = .ok (.magWr 1 0 true 3#31) ∧
    decode 0x3300000000000000#64 = .ok (.magRd 0 0) ∧ decode 0x3402084100000000#64 = .ok (.flgRd 65 65) ∧
    decode 0x3501F83F00000001#64 = .ok (.setSig 63 63 true) := by decide

theorem test_decode_passes :
    decode 0x4080000000000002#64 = .ok (.t1EncPass .cup 2) ∧ decode 0x4140000000000005#64 = .ok (.t1DecPass .mrp 5) ∧
    decode 0x4200000000000000#64 = .ok .t1EncBlock ∧ decode 0x4300000000000003#64 = .ok (.t1DecBlock 3) := by decide

/-- V-ENC2, and the reserved tree selector of V-FLT1: no command. -/
theorem test_decode_illegal :
    ∀ w ∈ [0x0300000000000000, 0xFF00000000000000, 0x0000000000000001, 0x1080100200000000, 0x40C0000000000001,
      0x2140000000002000, 0x3500000000000002, 0x1100000000000100, 0x4300000000000040, 0x3100080000000000,
      0x1180000000000000], decodeTableWord 64 w = none := by decide

/-- V-ENC1 and R89 the other way round. -/
theorem test_encode :
    encode (.ttEnc .zbp 5 2 254) = 0x12402802000000FE#64 ∧ encode (.cbCfg .hl 3 5) = 0x3040180500000000#64 ∧
    encode (.magWr 1 1 true 3#31) = 0x3200080180000003#64 ∧ encode (.t1EncPass .cup 2) = 0x4080000000000002#64 ∧
    encode (.ctxSig .hl 0x101#16) = 0x2040000000000101#64 ∧ encode (.t1DecBlock 3) = 0x4300000000000003#64 := by decide

/-! The printed ROM tables (R145, R149), one row of sixteen entries as one hexadecimal number -/

def romRows (f : Nat → Nat) : List Nat :=
  (List.range 16).map fun r => (List.range 16).foldl (fun acc c => acc * 16 + f (r * 16 + c)) 0

theorem test_rom_significance_ll :
    romRows (fun b => sigLabel .ll (BitVec.ofNat 16 b)) =
     [0x0357578834777788, 0x1367678834777788, 0x1367678834777788, 0x2367678834777788,
      0x1367678834777788, 0x2367678834777788, 0x2367678834777788, 0x2367678834777788,
      0x1367678834777788, 0x2367678834777788, 0x2367678834777788, 0x2367678834777788,
      0x2367678834777788, 0x2367678834777788, 0x2367678834777788, 0x2367678834777788] := by decide

theorem test_rom_significance_hl :
    romRows (fun b => sigLabel .hl (BitVec.ofNat 16 b)) =
     [0x0537374758787878, 0x1637374768787878, 0x1637374768787878, 0x2637374768787878,
      0x1637374768787878, 0x2637374768787878, 0x2637374768787878, 0x2637374768787878,
      0x1637374768787878, 0x2637374768787878, 0x2637374768787878, 0x2637374768787878,
      0x2637374768787878, 0x2637374768787878, 0x2637374768787878, 0x2637374768787878] := by decide

theorem test_rom_significance_lh :
    romRows (fun b => sigLabel .lh (BitVec.ofNat 16 b)) =
     [0x0357578834777788, 0x1367678834777788, 0x1367678834777788, 0x2367678834777788,
      0x1367678834777788, 0x2367678834777788, 0x2367678834777788, 0x2367678834777788,
      0x1367678834777788, 0x2367678834777788, 0x2367678834777788, 0x2367678834777788,
      0x2367678834777788, 0x2367678834777788, 0x2367678834777788, 0x2367678834777788] := by decide

theorem test_rom_significance_hh :
    romRows (fun b => sigLabel .hh (BitVec.ofNat 16 b)) =
     [0x0112122212222222, 0x3445455545555555, 0x3445455545555555, 0x6777777777777777,
      0x3445455545555555, 0x6777777777777777, 0x6777777777777777, 0x8888888888888888,
      0x3445455545555555, 0x6777777777777777, 0x6777777777777777, 0x8888888888888888,
      0x6777777777777777, 0x8888888888888888, 0x8888888888888888, 0x8888888888888888] := by decide

/-- The flag word of entry `16 * lo + hi` of the sign tables, the bits that do not enter all 1. -/
def signEntry (b : Nat) : FlagWord := BitVec.ofNat 16 (b / 16 + b % 16 * 256 + 0xF0F0)

theorem test_rom_sign_label :
    romRows (fun b => signLabel (signEntry b)) =
     [0x9999999999999999, 0xAAAAAAAAAAAAAAAA, 0xCCCCCCCCCCCCCCCC, 0xDBDBDBDBBDBDBDBD,
      0xCCCCCCCCCCCCCCCC, 0xDBDBBDBDDBDBBDBD, 0xCCCC99999999CCCC, 0xDBDBAAAAAAAABDBD,
      0xAAAAAAAAAAAAAAAA, 0xA99AA99AA99AA99A, 0xDDBBDDBBBBDDBBDD, 0xDCCBDCCBBCCDBCCD,
      0xDDBBBBDDDDBBBBDD, 0xDCCBBCCDDCCBBCCD, 0xDDBBAAAAAAAABBDD, 0xDCCBA99AA99ABCCD] := by decide

theorem test_rom_sign_xor :
    romRows (fun b => (signXor (signEntry b)).toNat) =
     [0x0000000000000000, 0x0101010101010101, 0x0000000011111111, 0x0000000011111111,
      0x0000111100001111, 0x0000111100001111, 0x0000000000001111, 0x0000010101011111,
      0x0011001100110011, 0x0001000100010001, 0x0000000011111111, 0x0000000011111111,
      0x0000111100001111, 0x0000111100001111, 0x0000001100111111, 0x0000000100011111] := by decide

/-! One step of each command -/

/-- R101: the results of an earlier command stay. -/
theorem test_nop : sent 0x0000000000000000 { idle with res0 := 7#32 } (fun t => t.res0 = 7#32 && !t.err) = true := by
  decide

/-- P5, last line: `SOFT_RESET` after a fault; `STATUS`, `CBCFG` read 0. -/
theorem test_soft_reset :
    sent 0x0100000000000000 { block .dirty .hl 3 5 Window.cleared with err := true, everErr := true, ovr := true }
      (fun t => t.statusReg = 0#32 && t.cbCfgReg = 0#32 && t.window.isNone) = true := by decide

/-- V-FLT2: after the `CONFIG` fault `CLR_ERR` leaves `STATUS` = 4, `ERRCODE` = `ERRCMD` = 0. -/
theorem test_clr_err :
    sent 0x0200000000000000
      { idle with err := true, everErr := true, errCode := some .config, errCmd := 0x3000000400000000#64 }
      (fun t => t.statusReg = 4#32 && t.errCodeReg = 0#32 && t.errCmd = 0#64) = true := by decide

/-- V-FLT2: an illegal word while `ERR` = 1 is dropped. -/
theorem test_illegal_while_err :
    sent 0x0300000000000000 { idle with err := true, errCode := some .config }
      (fun t => t.errCode = some .config && t.errCmd = 0#64) = true := by decide

/-- V-ENC2: an unassigned opcode. -/
theorem test_illegal :
    sent 0x0300000000000000 idle (fun t => t.errCodeReg = 4#32 && t.errCmd = 0x0300000000000000#64) = true := by decide

/-- V-TT1: `TT_INIT 0, 6, 3`: 27 nodes, all 255, 0, 0. -/
theorem test_tt_init :
    sent 0x1000300300000000 idle
      (fun t => t.tree0.mode = .fresh && nodesOf t.tree0 = List.replicate 27 (255, 0, false)) = true := by decide

/-- V-TT1: the parents of the 6 by 3 tree. -/
theorem test_tt_parents :
    (List.range 26).map (parentOf 6 3) =
      [18, 18, 19, 19, 20, 20, 18, 18, 19, 19, 20, 20, 21, 21, 22, 22, 23, 23, 24, 24, 25, 24, 24, 25, 26, 26].map some ∧
    parentOf 6 3 26 = none := by decide

/-- V-FLT1: `TT_INIT 1, 65, 64` with `TT_MAXDIM` = 64. -/
theorem test_tt_init_too_wide :
    sent 0x1042084000000000 idle (fun t => t.errCodeReg = 1#32 && t.tree1.mode = .uninit) = true := by decide

/-- R113: `TT_SET 0, 1, 0, 5` on 3, 1, 4, 1 keeps the minimum; then `TT_SET 0, 1, 1, 7` raises it. -/
theorem test_tt_set :
    sent 0x1100080000000005 (planted 2 2 .loaded loaded)
      (fun t => (nodesOf t.tree0).map (·.1) = [3, 5, 4, 1, 1]) = true := by decide

theorem test_tt_set_raises_the_minimum :
    sent 0x1100080100000007
      (planted 2 2 .loaded [(0, ⟨3, 0, false⟩), (1, ⟨5, 0, false⟩), (2, ⟨4, 0, false⟩), (3, ⟨1, 0, false⟩), (4, ⟨1, 0, false⟩)])
      (fun t => (nodesOf t.tree0).map (·.1) = [3, 5, 4, 7, 3]) = true := by decide

/-- P3: `TT_ENC 0, 1, 1, 1` on the fresh scenario tree: `0 1 1`, value 1 done (both thresholds in one query). -/
theorem test_tt_enc :
    sent 0x1200080100000001 (planted 2 2 .loaded loaded)
      (fun t => t.hdr = [.put false, .put true, .put true] && t.res0 = 0x101#32 && t.res1 = 3#32) = true := by decide

/-- V-TT3: `TT_ENC 0, 0, 0, 2` emits `0 1 0 0`, value 3 not done. -/
theorem test_tt_enc_not_done :
    sent 0x1200000000000002 (planted 2 2 .loaded loaded)
      (fun t => t.hdr = [.put false, .put true, .put false, .put false] && t.res0 = 3#32 && t.res1 = 4#32 &&
        t.tree0.mode = .enc) = true := by decide

/-- V-TT7: `TT_DEC 0, 0, 0, 3` with answers `0 0 1 0 1`. -/
theorem test_tt_dec :
    sent 0x1300000000000003 { planted 2 2 .fresh [] with hdrIn := ⟨[false, false, true, false, true], none⟩ }
      (fun t => t.res0 = 0x103#32 && (nodesOf t.tree0).map (·.1) = [3, 255, 255, 255, 2] && t.hdrIn.pending = []) =
      true := by decide

/-- V-TT7: `TT_DEC 0, 1, 1, 2` with answers all 0. -/
theorem test_tt_dec_zeros :
    sent 0x1300080100000002 { planted 2 2 .fresh [] with hdrIn := ⟨[], some false⟩ }
      (fun t => t.res0 = 3#32 && t.res1 = 3#32 &&
        nodesOf t.tree0 = [(255, 0, false), (255, 0, false), (255, 0, false), (255, 3, false), (255, 3, false)]) =
      true := by decide

/-- R119: `TT_RD 0, 4` of a reported root, `TT_RD 0, 0` of a leaf. -/
theorem test_tt_rd_root :
    sent 0x1400000000000004 (planted 2 2 .enc [(0, ⟨3, 0, false⟩), (4, ⟨1, 1, true⟩)])
      (fun t => t.res0 = 0x10101#32 && t.res1 = 0xFFFFFFFF#32) = true := by decide

theorem test_tt_rd_leaf :
    sent 0x1400000000000000 (planted 2 2 .enc [(0, ⟨3, 0, false⟩), (4, ⟨1, 1, true⟩)])
      (fun t => t.res0 = 3#32 && t.res1 = 4#32) = true := by decide

/-- V-CTX1. -/
theorem test_ctx_sig :
    sent 0x2040000000000101 idle (fun t => t.res0 = 5#32) = true ∧
    sent 0x2000000000000041 idle (fun t => t.res0 = 3#32) = true := by decide

/-- V-CTX2. -/
theorem test_ctx_ref :
    sent 0x2100000000002004 idle (fun t => t.res0 = 15#32) = true ∧
    sent 0x2100000000006000 idle (fun t => t.res0 = 16#32) = true := by decide

/-- V-CTX3. -/
theorem test_ctx_sgn :
    sent 0x2200000000000C06 idle (fun t => t.res0 = 12#32 && t.res1 = 1#32) = true ∧
    sent 0x2200000000000103 idle (fun t => t.res0 = 11#32 && t.res1 = 0#32) = true := by decide

/-- V-WIN1: `CB_CFG HL, 3, 5`. -/
theorem test_cb_cfg :
    sent 0x3040180500000000 idle (fun t => t.cbCfgReg = 0x10503#32 && t.statusReg = 0x10#32) = true := by decide

/-- V-FLT1: `CB_CFG LL, 65, 1`. -/
theorem test_cb_cfg_too_wide :
    sent 0x3002080100000000 idle (fun t => t.errCodeReg = 1#32 && t.cbCfgReg = 0#32) = true := by decide

/-- V-WIN1: `CB_CLEAR` after `CB_CFG`; V-FLT1: after reset. -/
theorem test_cb_clear :
    sent 0x3100000000000000 { idle with cbW := 3, cbH := 5, cbState := .conf }
      (fun t => t.statusReg = 0x20#32 && flagRows t = List.replicate 7 0) = true ∧
    sent 0x3100000000000000 idle (fun t => t.errCodeReg = 5#32) = true := by decide

/-- V-WIN1: `MAG_WR 1, 1, -3`. -/
theorem test_mag_wr :
    sent 0x3200080180000003 (block .ready .hl 3 5 Window.cleared)
      (fun t => magAt t 1 1 = 3 && flagRows t = [0, 0, 0x80000000 * 0x10000, 0, 0, 0, 0]) = true := by decide

/-- V-FLT1: `MAG_WR` in `CONF`. -/
theorem test_mag_wr_too_early :
    sent 0x3200000000000001 { idle with cbW := 2, cbH := 2, cbState := .conf } (fun t => t.errCodeReg = 5#32) = true := by
  decide

/-- R167: `MAG_RD 1, 1` of -3. -/
theorem test_mag_rd :
    sent 0x3300080100000000 (block .ready .hl 3 5 ⟨[(134, 0x8000#16)], [(65, 3#31)]⟩)
      (fun t => t.res0 = 0x80000003#32) = true := by decide

/-- V-FLT1: `MAG_RD 200, 0` after reset: the state comes before the operand. -/
theorem test_mag_rd_too_early : sent 0x3306400000000000 idle (fun t => t.errCodeReg = 5#32) = true := by decide

/-- V-WIN4: the border corner of the largest window; cell (65, 65) is at 65 * 66 + 65. -/
theorem test_flg_rd_corner :
    sent 0x3402084100000000 (block .active .hh 64 64 ⟨[(4355, 0x20#16)], []⟩) (fun t => t.res0 = 0x20#32) = true := by
  decide

/-- V-FLT1: `FLG_RD 4, 0` of a 2 by 2 window. -/
theorem test_flg_rd_outside :
    sent 0x3400200000000000 (block .ready .ll 2 2 Window.cleared) (fun t => t.errCodeReg = 3#32) = true := by decide

/-- V-WIN3: `SET_SIG 1, 1, 1` in a cleared 3 by 3 window. -/
theorem test_set_sig :
    sent 0x3500080100000001 (block .ready .ll 3 3 Window.cleared)
      (fun t => flagRows t = [0, 0x00000040020800800000, 0x00000802A00004040000, 0x00000010010100200000, 0] &&
        t.cbState = .active) = true := by decide

/-- V-FLT1: `SET_SIG 0, 0, 1` on a significant coefficient; cell (1, 1) is at 67. -/
theorem test_set_sig_twice :
    sent 0x3500000000000001 (block .active .ll 2 2 ⟨[(67, 0x2000#16)], []⟩)
      (fun t => t.errCodeReg = 5#32 && flagRows t = [0, 0x0000200000000000, 0, 0]) = true := by decide

/-- V-T1B, first row: a run-length column of four, magnitude 1 (negative) at row 2; with the window it leaves. -/
theorem test_t1_enc_pass_run :
    sent 0x4080000000000000 (block .ready .hh 1 4 ⟨[(199, 0x8000#16)], [(128, 1#31)]⟩)
      (fun t => t.cod = [.enc 18 true, .enc 17 true, .enc 17 false, .enc 9 true, .enc 1 false, .passEnd .cup 0] &&
        flagRows t = [0, 0, 0x004002080080, 0x0802A0000404, 0x001001010020, 0]) = true := by decide

/-- V-T1A, `SPP, 1`: a coefficient coded right after its neighbour became significant. -/
theorem test_t1_enc_pass_spp :
    sent 0x4000000000000001
      (block .active .ll 3 1
        ⟨[(0, 0x40#16), (1, 0x8#16), (2, 0x80#16), (66, 0x2#16), (67, 0x2000#16), (68, 0x4#16), (132, 0x10#16),
          (133, 0x1#16), (134, 0x20#16)], [(0, 3#31), (1, 2#31)]⟩)
      (fun t => t.cod = [.enc 5 true, .enc 12 false, .enc 5 false, .passEnd .spp 1] &&
        flagRows t = [0x00400048008800800000, 0x00022002300410040000, 0x00100011002100200000]) =
      true := by decide

/-- R192: `T1_DEC_PASS CUP, 2` on a cleared 1 by 1 window with answers 1, 0. -/
theorem test_t1_dec_pass :
    sent 0x4180000000000002 { block .ready .ll 1 1 Window.cleared with decIn := ⟨[true, false], none⟩ }
      (fun t => t.cod = [.dec 0 true, .dec 9 false, .passEnd .cup 2] && magAt t 0 0 = 4 &&
        flagRows t = [0x004000080080, 0x000220000004, 0x001000010020]) = true := by decide

/-- V-T1B, first row, decoded. -/
theorem test_t1_dec_pass_run :
    sent 0x4180000000000000
      { block .ready .hh 1 4 Window.cleared with decIn := ⟨[true, true, false, true, false], none⟩ }
      (fun t => magAt t 0 2 = 1 && flagRows t = [0, 0, 0x004002080080, 0x0802A0000404, 0x001001010020, 0] && !t.busy) =
      true := by decide

/-- The window of P4: (1,0) = -3, (0,1) = 2, (2,2) = 1, (0,4) = -1 in 3 by 5. -/
def p4Window : Window :=
  ⟨[(68, 0x8000#16), (331, 0x8000#16)], [(1, 3#31), (64, 2#31), (130, 1#31), (256, 1#31)]⟩

/-- P4: results, number of coded bits and window after `T1_ENC_BLOCK`. -/
theorem test_t1_enc_block :
    sent 0x4200000000000000 (block .ready .hl 3 5 p4Window)
      (fun t => t.res0 = 2#32 && t.res1 = 4#32 && (encBits t.cod).length = 35 &&
        flagRows t = [0x00000040020800800000, 0x0040080AE08004040000, 0x00026010014500280080, 0x00100001002220000004,
          0x00400208009000010020, 0x0802A000040400000000, 0x00100101002000000000]) = true := by decide

/-- P5: the coder refuses the fifth bit. -/
theorem test_t1_enc_block_full :
    sent 0x4200000000000000 { block .ready .hl 3 5 p4Window with encIn := ⟨[.ok, .ok, .ok, .ok, .full], some .ok⟩ }
      (fun t => t.statusReg = 0x46#32 && t.errPos = 0xA0100200#32 && t.errCmd = 0x4200000000000000#64 && t.res0 = 0#32 &&
        t.cod = [.reset, .enc 18 true, .enc 17 false, .enc 17 true, .enc 9 false] &&
        flagRows t = [0, 0x00400008808000000000, 0x00022000000400000000, 0x00100001002000000000, 0,
          0x00008000000000000000, 0]) = true := by decide

/-- P2: the scenario's block decoded. -/
theorem test_t1_dec_block :
    sent 0x4300000000000003 { block .ready .ll 1 1 Window.cleared with decIn := ⟨[true, false, false, true], none⟩ }
      (fun t => t.res0 = 3#32 && t.res1 = 7#32 && magAt t 0 0 = 5 &&
        flagRows t = [0x004000080080, 0x000260000004, 0x001000010020] &&
        t.cod = [.reset, .dec 0 true, .dec 9 false, .passEnd .cup 2, .passEnd .spp 1, .dec 14 false, .passEnd .mrp 1,
          .passEnd .cup 1, .passEnd .spp 0, .dec 16 true, .passEnd .mrp 0, .passEnd .cup 0]) = true := by decide

/-- R73: with no answer the block decode waits at its first coefficient: `BUSY` = 1, no result. -/
theorem test_t1_dec_block_held :
    sent 0x4300000000000003 { block .ready .ll 1 1 Window.cleared with decIn := ⟨[], none⟩ }
      (fun t => t.busy && t.res0 = 0#32 && t.cod = [.reset] &&
        decide (t.held.map Pending.cursor = some (.scan .cup 2 0 0 0))) = true := by decide

/-! Witnesses: states and operands that meet the hypotheses of the obligations, clause by clause -/

theorem witness_DecodeOfEncodeIsTheCommand : (Instr.magWr 2047 2047 true 0x7FFFFFFF#31).wf = true := by decide

theorem witness_DecodedWordIsItsEncoding : decode 0x137FFFFF000000FF#64 = .ok (.ttDec .zbp 2047 2047 255) := by decide

/-- The host about to write `hi` to `CMD_HI`. -/
def writing (hi : Reg) (s : State) : State := { s with inputs := [.write 0x04 4 hi] }

/-- The last clause of the hypothesis at both ends of each range of opcodes. -/
theorem witness_IllegalWordRaisesIllegal (hi : Reg) :
    (writing hi idle).inputs = .write 0x04 4 hi :: [] ∧ (writing hi idle).busy = false ∧ (writing hi idle).err = false ∧
    ∀ byte ∈ [0x03, 0x0F, 0x15, 0x1F, 0x23, 0x2F, 0x36, 0x3F, 0x44, 0xFF],
      let op := (BitVec.ofNat 32 (byte * 2 ^ 24)).toNat / 2 ^ 24
      (0x03 ≤ op ∧ op ≤ 0x0F) ∨ (0x15 ≤ op ∧ op ≤ 0x1F) ∨ (0x23 ≤ op ∧ op ≤ 0x2F) ∨ (0x36 ≤ op ∧ op ≤ 0x3F) ∨
        0x44 ≤ op := ⟨rfl, rfl, rfl, by decide⟩

/-- Its first clause: `TT_INIT` with the reserved tree selector 2 is the encoding of no command. -/
theorem witness_IllegalWordRaisesIllegal_reserved (i : Instr) (h : i.wf = true) : encode i ≠ 0x1080100200000000#64 := by
  intro he
  have hm : Laws.MatchesTable.Statement i := by
    cases i with
    | nop => exact Laws.MatchesTable.nop
    | softReset => exact Laws.MatchesTable.softReset
    | clrErr => exact Laws.MatchesTable.clrErr
    | ttInit t a b => exact Laws.MatchesTable.ttInit t a b
    | ttSet t x y v => exact Laws.MatchesTable.ttSet t x y v
    | ttEnc t x y thr => exact Laws.MatchesTable.ttEnc t x y thr
    | ttDec t x y thr => exact Laws.MatchesTable.ttDec t x y thr
    | ttRd t n => exact Laws.MatchesTable.ttRd t n
    | ctxSig o f => exact Laws.MatchesTable.ctxSig o f
    | ctxRef f => exact Laws.MatchesTable.ctxRef f
    | ctxSgn f => exact Laws.MatchesTable.ctxSgn f
    | cbCfg o a b => exact Laws.MatchesTable.cbCfg o a b
    | cbClear => exact Laws.MatchesTable.cbClear
    | magWr x y n m => exact Laws.MatchesTable.magWr x y n m
    | magRd x y => exact Laws.MatchesTable.magRd x y
    | flgRd x y => exact Laws.MatchesTable.flgRd x y
    | setSig x y n => exact Laws.MatchesTable.setSig x y n
    | t1EncPass k p => exact Laws.MatchesTable.t1EncPass k p
    | t1DecPass k p => exact Laws.MatchesTable.t1DecPass k p
    | t1EncBlock => exact Laws.MatchesTable.t1EncBlock
    | t1DecBlock n => exact Laws.MatchesTable.t1DecBlock n
  have hw := hm h
  rw [he] at hw
  cases i <;> revert hw <;> simp only [Laws.tableRow] <;> decide

/-- Each clause: the write, the slow command, a slow command while `BUSY` = 1, an illegal slow word, `proceed` alone. -/
theorem witness_StepRunsTheDecodedCommand :
    ((writing 0x31000000#32 idle).inputs = .write 0x04 4 0x31000000#32 :: [] ∧
      (writing 0x31000000#32 idle).busy = false ∧
      decode (0x31000000#32 ++ (writing 0x31000000#32 idle).cmdLo) = .ok .cbClear) ∧
    (let s := { idle with inputs := [.slowCommand 0x31000000#32, .proceed] }
     s.inputs = .slowCommand 0x31000000#32 :: .proceed :: [] ∧ s.busy = false ∧ s.held = none ∧
       decode (0x31000000#32 ++ s.cmdLo) = .ok .cbClear) ∧
    (let s := { idle with busy := true, inputs := [.slowCommand 0x31000000#32] }
     s.inputs = .slowCommand 0x31000000#32 :: [] ∧ s.busy = true) ∧
    ((∀ i : Instr, decode (0x03000000#32 ++ idle.cmdLo) ≠ .ok i) ∧
      ({ idle with inputs := [.slowCommand 0x03000000#32] } : State).inputs = .slowCommand 0x03000000#32 :: []) ∧
    (({ idle with inputs := [.proceed] } : State).inputs = .proceed :: [] ∧ idle.held = none) :=
  ⟨by decide, by decide, by decide, ⟨fun i h => (by cases h), rfl⟩, rfl, rfl⟩

/-- A legal word, and an illegal one. -/
theorem witness_WordsAreDroppedWhileErr :
    (let s := writing 0x31000000#32 { idle with err := true, errCode := some .config }
     s.inputs = .write 0x04 4 0x31000000#32 :: [] ∧ s.busy = false ∧ s.err = true ∧
       0x31000000#32 ++ s.cmdLo ≠ 0x0200000000000000#64 ∧ 0x31000000#32 ++ s.cmdLo ≠ 0x0100000000000000#64) ∧
    (let s := writing 0x02000001#32 { idle with err := true, errCode := some .config }
     s.inputs = .write 0x04 4 0x02000001#32 :: [] ∧ s.busy = false ∧ s.err = true ∧
       0x02000001#32 ++ s.cmdLo ≠ 0x0200000000000000#64 ∧ 0x02000001#32 ++ s.cmdLo ≠ 0x0100000000000000#64) := by
  decide

theorem witness_CommandWriteWhileBusy :
    (let s := writing 0x31000000#32 { idle with busy := true }
     s.inputs = .write 0x04 4 0x31000000#32 :: [] ∧ s.busy = true ∧ 0x31000000#32 ++ s.cmdLo ≠ 0x0100000000000000#64) ∧
    (let s := writing 0x01000000#32 { idle with busy := true }
     s.inputs = .write 0x04 4 0x01000000#32 :: [] ∧ s.busy = true ∧ 0x01000000#32 ++ s.cmdLo = 0x0100000000000000#64) ∧
    ({ idle with busy := true, inputs := [.write 0x00 4 7#32] } : State).inputs = .write 0x00 4 7#32 :: [] := by decide

theorem witness_OddAccessesHaveNoEffect :
    ((2 ≠ 4 ∨ 0x08 % 4 ≠ 0) ∧ ({ idle with inputs := [.read 0x08 2] } : State).inputs = .read 0x08 2 :: []) ∧
    ((4 ≠ 4 ∨ 0x05 % 4 ≠ 0) ∧ ({ idle with inputs := [.write 0x05 4 1#32] } : State).inputs = .write 0x05 4 1#32 :: []) := by
  decide

theorem witness_RegisterMapAccesses :
    (0x3C ≤ 0x3C ∧ ∀ off ∈ [0x00, 0x04, 0x08, 0x0C, 0x10, 0x14, 0x18, 0x1C, 0x20, 0x24, 0x28, 0x2C, 0x30, 0x34, 0x38, 0x3C],
      ({ idle with inputs := [.read off 4] } : State).inputs = .read off 4 :: []) ∧
    ({ idle with inputs := [.write 0x00 4 7#32] } : State).inputs = .write 0x00 4 7#32 :: [] ∧
    ((writing 0x31000000#32 idle).busy = false ∧ decode (0x31000000#32 ++ (writing 0x31000000#32 idle).cmdLo) = .ok .cbClear) ∧
    ({ idle with inputs := [.write 0x3C 4 7#32] } : State).inputs = .write 0x3C 4 7#32 :: [] := by decide

theorem witness_RegisterViewLayouts :
    ({ idle with cbW := 127, cbH := 127 } : State).cbW < 128 ∧ ({ idle with cbW := 127, cbH := 127 } : State).cbH < 128 ∧
    (⟨2047, 2047, .fresh, some []⟩ : TagTree).w < 2048 ∧ (⟨2047, 2047, .fresh, some []⟩ : TagTree).h < 2048 := by decide

/-- ResetsGiveTheResetValues, ResetsLeaveTheEnvironment. -/
theorem witness_ResetsGiveTheResetValues :
    ({ idle with busy := true, inputs := [.reset] } : State).inputs = .reset :: [] := by decide

/-- Sizes at the bounds, and a command that faults otherwise. -/
theorem witness_BadGeometryRaisesConfig :
    idle.err = false ∧ ((0 : Nat) = 0 ∨ (1 : Nat) = 0 ∨ idle.cfg.ttMaxDim < 0 ∨ idle.cfg.ttMaxDim < 1) ∧
    ((65 : Nat) = 0 ∨ (64 : Nat) = 0 ∨ idle.cfg.ttMaxDim < 65 ∨ idle.cfg.ttMaxDim < 64) ∧
    ((64 : Nat) = 0 ∨ (65 : Nat) = 0 ∨ 64 < 64 ∨ 64 < 65) ∧
    ∃ u, exec .cbClear idle = .next u ∧ u.err = true := ⟨rfl, by decide, by decide, by decide, of_reached (p := State.err) (by decide)⟩

/-- Operands just outside their ranges. -/
theorem witness_BadOperandRaisesConsistency :
    (let s := planted 2 2 .fresh []
     s.err = false ∧ (s.tree .incl).mode = .fresh ∧ (s.tree .incl).w ≤ 2 ∧ (s.tree .incl).h ≤ 2 ∧
       nodeCount (s.tree .incl).w (s.tree .incl).h ≤ 5 ∧ (s.tree .incl).mode ≠ .uninit) ∧
    (planted 2 2 .loaded loaded).tree0.mode = .loaded ∧ (planted 2 2 .enc loaded).tree0.mode = .enc ∧
    (planted 2 2 .dec []).tree0.mode = .dec ∧
    (let s := block .ready .ll 2 3 Window.cleared
     s.err = false ∧ s.cbState = .ready ∧ s.cbW ≤ 2 ∧ s.cbH ≤ 3 ∧ s.cbW + 1 < 4 ∧ s.cbH + 1 < 5 ∧ 31 < 32) ∧
    (block .active .ll 2 3 Window.cleared).cbState = .active ∧ (block .dirty .ll 2 3 Window.cleared).cbState = .dirty := by
  decide

theorem witness_CommandOutOfStateRaisesSequence :
    idle.err = false ∧ idle.cbState = .unconf ∧ idle.cbState ≠ .ready ∧ idle.cbState ≠ .active ∧
    (block .conf .ll 2 2 Window.cleared).cbState = .conf ∧ (block .active .ll 2 2 Window.cleared).cbState ≠ .ready ∧
    (block .dirty .ll 2 2 Window.cleared).cbState ≠ .active ∧
    (idle.tree .zbp).mode = .uninit ∧ ((planted 2 2 .enc loaded).tree .incl).mode ≠ .fresh ∧
    ((planted 2 2 .enc loaded).tree .incl).mode ≠ .loaded ∧ ((planted 2 2 .dec []).tree .incl).mode = .dec ∧
    ((planted 2 2 .loaded loaded).tree .incl).mode ≠ .dec ∧
    (let win : Window := ⟨[(67, 0x2000#16)], []⟩
     (block .active .ll 2 2 win).window = some win ∧ 0 < (block .active .ll 2 2 win).cbW ∧
       isSig (win.flag 1 1) = true) := by decide

theorem witness_OtherFaultsArePrecise :
    ∃ t, exec .cbClear idle = .next t ∧ (!idle.err && t.err && decide (t.errCode ≠ some .capacity)) = true :=
  of_reached (p := fun t => !idle.err && t.err && decide (t.errCode ≠ some .capacity)) (by decide)

/-- CtxSigGivesTheSignificanceLabel, CtxRefGivesTheRefinementLabel (each clause), CtxSgnGivesTheSignLabelAndXor. -/
theorem witness_ContextCommands :
    idle.err = false ∧ (Orient.ll ≠ .hh) ∧ (0x4000#16 : FlagWord).getLsbD 14 = true ∧
    ((0x00FF#16 : FlagWord).getLsbD 14 = false ∧ (0x00FF#16 : FlagWord).extractLsb' 0 8 ≠ 0#8) ∧
    ((0xBF00#16 : FlagWord).getLsbD 14 = false ∧ (0xBF00#16 : FlagWord).extractLsb' 0 8 = 0#8) := by decide

/-- Sizes at both bounds. -/
theorem witness_CbCfgSetsTheGeometry : idle.err = false ∧ 1 ≤ 1 ∧ 1 ≤ 64 ∧ 64 ≤ 64 := by decide

theorem witness_CbClearZeroesTheWindow :
    (block .dirty .ll 2 2 Window.cleared).err = false ∧ (block .dirty .ll 2 2 Window.cleared).cbState ≠ .unconf := by decide

/-- MagWrStoresOneCoefficient, SetSigMarksTheNeighbours: the last coefficient of the largest window. -/
theorem witness_WindowWrites :
    let s := block .ready .hh 64 64 Window.cleared
    s.err = false ∧ s.cbState = .ready ∧ s.window = some Window.cleared ∧ s.cbW ≤ 64 ∧ 63 < s.cbW ∧ 63 < s.cbH ∧
      isSig (Window.cleared.flag 64 64) = false ∧ (block .active .hh 64 64 Window.cleared).cbState = .active := by decide

/-- MagRdGivesSignAndMagnitude, FlgRdGivesTheFlagWord: each state that allows a read, the last coefficient and the border
corner. -/
theorem witness_WindowReads :
    ∀ st ∈ [CbState.ready, .active, .dirty],
      let s := block st .ll 3 5 Window.cleared
      s.err = false ∧ (s.cbState = .ready ∨ s.cbState = .active ∨ s.cbState = .dirty) ∧
        s.window = some Window.cleared ∧ 2 < s.cbW ∧ 4 < s.cbH ∧ 4 ≤ s.cbW + 1 ∧ 6 ≤ s.cbH + 1 := by decide

theorem witness_SignificanceIsNeverLost :
    (block .ready .ll 1 1 ⟨[(67, 0x2000#16)], []⟩).window = some ⟨[(67, 0x2000#16)], []⟩ ∧
    isSig (Window.flag ⟨[(67, 0x2000#16)], []⟩ 1 1) = true ∧
    ∃ t, exec (.magWr 0 0 true 1#31) (block .ready .ll 1 1 ⟨[(67, 0x2000#16)], []⟩) = .next t ∧ (!t.err) = true :=
  ⟨rfl, by decide, of_reached (p := fun t => !t.err) (by decide)⟩

/-- Sizes at both bounds of `TT_INIT`. -/
theorem witness_TtInitMakesAFreshTree : idle.err = false ∧ 1 ≤ 1 ∧ 1 ≤ idle.cfg.ttMaxDim ∧ 64 ≤ idle.cfg.ttMaxDim := by
  decide

/-- TtSetLoadsOneLeaf, TtEncAnswersTheQuery, TtRdGivesNodeAndParent, TtDecAnswersTheQuery: the last leaf, the largest
value or threshold, the last node. -/
theorem witness_TreeCommands :
    (let s := planted 3 2 .loaded loaded
     s.err = false ∧ (s.tree .incl).mode = .loaded ∧ (s.tree .incl).nodes = some loaded ∧ 2 < (s.tree .incl).w ∧
       1 < (s.tree .incl).h ∧ 254 ≤ 254 ∧ (s.tree .incl).mode ≠ .uninit ∧
       8 < nodeCount (s.tree .incl).w (s.tree .incl).h ∧ (nodeAt loaded 8).val < 256 ∧ (nodeAt loaded 8).low < 256) ∧
    (let s := planted 3 2 .dec []
     s.err = false ∧ (s.tree .incl).mode = .dec ∧ (s.tree .incl).nodes = some [] ∧ s.hdrIn.endless = true) := by decide

theorem witness_ParentOfEveryNode :
    1 ≤ 3 ∧ 1 ≤ 2 ∧ 0 < nodeCount 3 2 ∧ levels 3 2 = [] ++ ⟨0, 3, 2⟩ :: ⟨6, 2, 1⟩ :: [⟨8, 1, 1⟩] ∧ 2 < 3 ∧ 1 < 2 := by
  decide

/-- A fresh tree of two leaves satisfies the invariants. -/
theorem fresh_ok : (⟨2, 1, .fresh, some []⟩ : TagTree).ok 64 :=
  ⟨nofun, fun _ => by decide, by
    intro m hm i
    cases hm
    exact ⟨Nat.le_refl 255, Nat.zero_le _⟩⟩

theorem fresh_coherent : (⟨2, 1, .fresh, some []⟩ : TagTree).coherent := by
  intro m hm
  cases hm
  refine ⟨fun i => rfl, fun _ => ?_, nofun⟩
  refine ⟨fun i j hi hj => ?_, trivial⟩
  have hi' : i < 1 := hi
  have hj' : j < 1 := hj
  obtain rfl : i = 0 := by omega
  obtain rfl : j = 0 := by omega
  exact ⟨by decide, by decide, .inl rfl⟩

theorem fresh_agrees : (⟨2, 1, .fresh, some []⟩ : TagTree).agrees ⟨2, 1, .fresh, some []⟩ :=
  ⟨rfl, rfl, [], [], rfl, rfl, fun _ => ⟨rfl, rfl, fun _ => rfl⟩⟩

theorem witness_TtEncResolvesExactlyUpToTheThreshold :
    let s := planted 2 1 .fresh []
    s.err = false ∧ (s.tree .incl).mode = .fresh ∧ (s.tree .incl).ok s.cfg.ttMaxDim ∧ (s.tree .incl).coherent ∧
      (s.tree .incl).nodes = some [] ∧ 1 < (s.tree .incl).w ∧ 0 < (s.tree .incl).h ∧
      ∃ u, exec (.ttEnc .incl 1 0 3) s = .next u ∧ (!u.err) = true :=
  ⟨rfl, rfl, fresh_ok, fresh_coherent, rfl, by decide, by decide, of_reached (p := fun t => !t.err) (by decide)⟩

theorem witness_QueryBitsAreBounded :
    (∃ u, exec (.ttEnc .incl 1 1 254) (planted 2 2 .loaded loaded) = .next u ∧ decide (u.hdr.length = 3) = true) ∧
    ∃ u, exec (.ttDec .incl 1 1 254) (planted 2 2 .fresh []) = .next u ∧ decide (u.hdr.length = 2) = true :=
  ⟨of_reached (p := fun u => decide (u.hdr.length = 3)) (by decide),
    of_reached (p := fun u => decide (u.hdr.length = 2)) (by decide)⟩

theorem witness_FloorsNeverFall :
    ((planted 2 2 .loaded loaded).tree .incl).nodes = some loaded ∧
    ∃ u, exec (.ttEnc .incl 1 1 0) (planted 2 2 .loaded loaded) = .next u ∧ (!u.err) = true :=
  ⟨rfl, of_reached (p := fun t => !t.err) (by decide)⟩

/-- One query of a fresh tree on both sides: three zeros from the encoder, given to the decoder. -/
theorem witness_DecoderFollowsEncoder :
    let e := planted 2 1 .fresh []
    let d := { planted 2 1 .fresh [] with hdrIn := (⟨[false, false, false, true], none⟩ : Answers Bool) }
    e.err = false ∧ d.err = false ∧ (e.tree .incl).mode = .fresh ∧ (d.tree .incl).mode = .fresh ∧
      (e.tree .incl).ok e.cfg.ttMaxDim ∧ (e.tree .incl).coherent ∧ (d.tree .incl).coherent ∧
      (e.tree .incl).agrees (d.tree .incl) ∧ 1 < (e.tree .incl).w ∧ 0 < (e.tree .incl).h ∧ 2 ≤ 254 ∧
      (∃ e', exec (.ttEnc .incl 1 0 2) e = .next e' ∧
        decide (e'.hdr = e.hdr ++ [false, false, false].map HdrEvent.put) = true) ∧
      d.hdrIn.pending = [false, false, false] ++ [true] :=
  ⟨rfl, rfl, rfl, rfl, fresh_ok, fresh_coherent, fresh_coherent, fresh_agrees, by decide, by decide, by decide,
    of_reached (p := fun e' => decide (e'.hdr = idle.hdr ++ [false, false, false].map HdrEvent.put)) (by decide), rfl⟩

/-- EncPassCompletes, DecPassCompletes, DecodeNeverFaults, RefinementCodesTheOldSignificant, CleanupClearsEveryVisited:
both accepting states, the top plane, ports that answer. -/
theorem witness_Passes :
    ∀ st ∈ [CbState.ready, .active],
      let s := block st .hl 3 5 p4Window
      s.err = false ∧ (s.cbState = .ready ∨ s.cbState = .active) ∧ s.window = some p4Window ∧ s.cbW ≤ 64 ∧ 30 ≤ 30 ∧
        s.encIn.neverFull = true ∧ s.decIn.endless = true := by decide

/-- EncBlockCompletes, DecBlockCompletes, DecodeNeverFaults. -/
theorem witness_Blocks :
    let s := block .ready .hl 3 5 p4Window
    s.err = false ∧ s.cbState = .ready ∧ s.window = some p4Window ∧ s.encIn.neverFull = true ∧ 31 ≤ 31 ∧
      s.decIn.endless = true := by decide

theorem witness_CapacityFaultState :
    let s := { block .ready .hl 3 5 p4Window with encIn := (⟨[.ok, .full], some .ok⟩ : Answers EncAnswer) }
    s.err = false ∧ s.window = some p4Window ∧
      (∃ t, exec .t1EncBlock s = .next t ∧ (t.err && decide (t.errCode = some .capacity)) = true) ∧
      ∃ t, exec (.t1EncPass .cup 1) s = .next t ∧ (t.err && decide (t.errCode = some .capacity)) = true :=
  ⟨rfl, rfl, of_reached (p := fun t => t.err && decide (t.errCode = some .capacity)) (by decide),
    of_reached (p := fun t => t.err && decide (t.errCode = some .capacity)) (by decide)⟩

theorem five_planes : (⟨[], [(0, 5#31)]⟩ : Window).planes 1 1 3 := by
  refine ⟨fun x y hx hy => ?_, fun _ => ⟨0, 0, by decide⟩⟩
  obtain rfl : x = 0 := by omega
  obtain rfl : y = 0 := by omega
  decide

/-- What `T1_ENC_BLOCK` sends for the 1 by 1 block of magnitude 5 (P1). -/
def p1Trace : List CodEvent :=
  [.reset, .enc 0 true, .enc 9 false, .passEnd .cup 2, .passEnd .spp 1, .enc 14 false, .passEnd .mrp 1, .passEnd .cup 1,
    .passEnd .spp 0, .enc 16 true, .passEnd .mrp 0, .passEnd .cup 0]

theorem witness_FullAnswerRaisesCapacity :
    let s := { block .active .hl 3 5 p4Window with encIn := (⟨[.full], some .ok⟩ : Answers EncAnswer) }
    s.err = false ∧ (s.cbState = .ready ∨ s.cbState = .active) ∧ s.window = some p4Window ∧ 30 ≤ 30 ∧ 1 ≤ s.cbW ∧
      1 ≤ s.cbH ∧ p4Window.coef 0 0 &&& 0x3000#16 = 0#16 ∧ s.encIn.pending = .full :: [] := by decide

/-- A coder that takes `n` bits and refuses the next. -/
def okThenFull (n : Nat) : Answers EncAnswer := ⟨List.replicate n .ok ++ .full :: [], none⟩

/-- Its second clause: a pass that makes two calls, with the `full` as the second answer and as the third. -/
theorem witness_FullAnswerRaisesCapacity_later :
    let win : Window := ⟨[], [(0, 5#31)]⟩
    let s := fun n => { block .ready .ll 1 1 win with encIn := okThenFull n }
    (∀ n, (s n).err = false ∧ (s n).window = some win ∧ (s n).startsPasses win (.t1EncPass .cup 2) .enc [(.cup, 2)] [] ∧
      (s n).encIn.pending = List.replicate n .ok ++ .full :: [] ∧
      ∃ r, exec (.t1EncPass .cup 2) { s n with encIn := ⟨[], some .ok⟩ } = .next r ∧
        decide (r.cod = (s n).cod ++ [.enc 0 true, .enc 9 false, .passEnd .cup 2]) = true) ∧
    (encBits [.enc 0 true, .enc 9 false, .passEnd .cup 2]).length ≤ 2 ∧
    1 < (encBits [.enc 0 true, .enc 9 false, .passEnd .cup 2]).length :=
  ⟨fun _ => ⟨rfl, rfl, .inl ⟨.cup, 2, .inl rfl, by decide, rfl, rfl, .inl ⟨rfl, rfl⟩⟩, rfl,
    of_reached (r := exec (.t1EncPass .cup 2) { block .ready .ll 1 1 ⟨[], [(0, 5#31)]⟩ with encIn := ⟨[], some .ok⟩ })
      (p := fun r => decide (r.cod = [] ++ [.enc 0 true, .enc 9 false, .passEnd .cup 2])) (by decide)⟩,
    by decide, by decide⟩

/-- The same of the block command, which makes four calls. -/
theorem witness_FullAnswerRaisesCapacity_block :
    let win : Window := ⟨[], [(0, 5#31)]⟩
    let s := fun n => { block .ready .ll 1 1 win with encIn := okThenFull n }
    (∀ n, (s n).startsPasses win .t1EncBlock .enc (blockPasses 3) [.reset] ∧
      ∃ r, exec .t1EncBlock { s n with encIn := ⟨[], some .ok⟩ } = .next r ∧
        decide (r.cod = (s n).cod ++ p1Trace) = true) ∧
    (encBits p1Trace).length ≤ 4 ∧ 3 < (encBits p1Trace).length :=
  ⟨fun _ => ⟨.inr ⟨3, rfl, by decide, rfl, rfl, .inl ⟨rfl, rfl, five_planes⟩⟩,
    of_reached (r := exec .t1EncBlock { block .ready .ll 1 1 ⟨[], [(0, 5#31)]⟩ with encIn := ⟨[], some .ok⟩ })
      (p := fun r => decide (r.cod = [] ++ p1Trace)) (by decide)⟩, by decide, by decide⟩

theorem five_flag (wx wy : Nat) : (⟨[], [(0, 5#31)]⟩ : Window).flag wx wy &&& 0x7FFF#16 = 0#16 := by
  have : (⟨[], [(0, 5#31)]⟩ : Window).flag wx wy = 0#16 := rfl
  rw [this]
  decide

theorem five_borderOk : (⟨[], [(0, 5#31)]⟩ : Window).borderOk 1 1 := fun wx wy _ _ _ => by
  have : (⟨[], [(0, 5#31)]⟩ : Window).flag wx wy = 0#16 := rfl
  rw [this]
  decide

theorem cleared_borderOk (w h : Nat) : Window.cleared.borderOk w h := fun wx wy _ _ _ => by
  rw [Window.flag_cleared]
  decide

theorem cleared_sameFlags (w h : Nat) : (⟨[], [(0, 5#31)]⟩ : Window).sameFlags Window.cleared w h :=
  fun _ _ _ _ => ⟨rfl, fun _ => rfl⟩

/-- A cleanup pass over the 1 by 1 block of magnitude 5, and its decode. -/
theorem witness_DecPassMirrorsEncPass :
    let we : Window := ⟨[], [(0, 5#31)]⟩
    let e := block .ready .ll 1 1 we
    let d := { block .ready .ll 1 1 Window.cleared with decIn := (⟨[true, false, true], none⟩ : Answers Bool) }
    e.err = false ∧ d.err = false ∧ e.cbState = .ready ∧ d.cbState = .ready ∧ e.window = some we ∧
      d.window = some Window.cleared ∧ 2 ≤ 30 ∧ e.cbW = d.cbW ∧ e.cbH = d.cbH ∧ e.cbW ≤ 64 ∧ e.cbOrient = d.cbOrient ∧
      e.cfg.runLength = d.cfg.runLength ∧ we.sameFlags Window.cleared e.cbW e.cbH ∧ e.encIn.neverFull = true ∧
      (∃ e', exec (.t1EncPass .cup 2) e = .next e' ∧
        (e'.window.isSome && decide (e'.cod = e.cod ++ [.enc 0 true, .enc 9 false, .passEnd .cup 2])) = true) ∧
      d.decIn.pending = encBits [.enc 0 true, .enc 9 false, .passEnd .cup 2] ++ [true] :=
  ⟨rfl, rfl, rfl, rfl, rfl, rfl, by decide, rfl, rfl, by decide, rfl, rfl, cleared_sameFlags 1 1, rfl,
    of_reached (p := fun e' =>
      e'.window.isSome && decide (e'.cod = [] ++ [.enc 0 true, .enc 9 false, .passEnd .cup 2])) (by decide), rfl⟩

theorem witness_BlockRoundTrip :
    let we : Window := ⟨[], [(0, 5#31)]⟩
    let e := block .ready .ll 1 1 we
    let d := { block .ready .ll 1 1 Window.cleared with decIn := (⟨[true, false, false, true], none⟩ : Answers Bool) }
    e.err = false ∧ d.err = false ∧ e.cbState = .ready ∧ d.cbState = .ready ∧ e.window = some we ∧
      d.window = some Window.cleared ∧ e.cbW = d.cbW ∧ e.cbH = d.cbH ∧ e.cbW ≤ 64 ∧ e.cbOrient = d.cbOrient ∧
      e.cfg.runLength = d.cfg.runLength ∧
      (∀ wx wy, we.flag wx wy &&& 0x7FFF#16 = 0#16 ∧ Window.cleared.flag wx wy &&& 0x7FFF#16 = 0#16) ∧
      (∀ x y, Window.cleared.mag x y = 0#31) ∧ e.encIn.neverFull = true ∧
      (∃ e', exec .t1EncBlock e = .next e' ∧
        (e'.window.isSome && decide (e'.cod = e.cod ++ p1Trace) && decide (e'.res0 = BitVec.ofNat 32 3)) = true) ∧
      3 ≤ 31 ∧ d.decIn.pending = encBits p1Trace ++ [] ∧ we.borderOk e.cbW e.cbH ∧
      Window.cleared.borderOk e.cbW e.cbH :=
  ⟨rfl, rfl, rfl, rfl, rfl, rfl, rfl, rfl, by decide, rfl, rfl, fun wx wy => ⟨five_flag wx wy, by rw [Window.flag_cleared]; decide⟩,
    Window.mag_cleared, rfl,
    of_reached (p := fun e' =>
      e'.window.isSome && decide (e'.cod = [] ++ p1Trace) && decide (e'.res0 = BitVec.ofNat 32 3)) (by decide),
    by decide, rfl, five_borderOk, cleared_borderOk 1 1⟩

theorem witness_UnansweredQueryIsHeld :
    let s := { planted 2 1 .fresh [] with hdrIn := (⟨[], none⟩ : Answers Bool) }
    s.err = false ∧ (s.tree .incl).mode = .fresh ∧ (s.tree .incl).coherent ∧ (s.tree .incl).nodes.isSome = true ∧
      1 < (s.tree .incl).w ∧ 0 < (s.tree .incl).h ∧ 254 ≤ 254 ∧ s.hdrIn = ⟨[], none⟩ :=
  ⟨rfl, rfl, fresh_coherent, rfl, by decide, by decide, by decide, rfl⟩

/-- Its second clause: a query that takes two answers, with two and with one to be had. -/
theorem witness_UnansweredQueryIsHeld_below :
    let s := planted 2 1 .fresh []
    s.err = false ∧ (s.tree .incl).mode = .fresh ∧ (s.tree .incl).nodes = some [] ∧ 1 < (s.tree .incl).w ∧
      0 < (s.tree .incl).h ∧ 3 ≤ 254 ∧ [true, true].length ≤ [true, true].length ∧
      [true].length < [true, true].length ∧
      (∃ r, exec (.ttDec .incl 1 0 3) { s with hdrIn := ⟨[true, true], some true⟩ } = .next r ∧
        decide (r.hdr = s.hdr ++ [true, true].map HdrEvent.get) = true) ∧
      ∃ r, exec (.ttDec .incl 1 0 3) { s with hdrIn := ⟨[true], some true⟩ } = .next r ∧
        decide (r.hdr = s.hdr ++ [true, true].map HdrEvent.get) = true :=
  ⟨rfl, rfl, rfl, by decide, by decide, by decide, by decide, by decide,
    of_reached (p := fun r => decide (r.hdr = [] ++ [true, true].map HdrEvent.get)) (by decide),
    of_reached (p := fun r => decide (r.hdr = [] ++ [true, true].map HdrEvent.get)) (by decide)⟩

/-- Its third clause: each of the four commands, on ports that answer once, and run out. -/
theorem witness_UnansweredQueryIsHeld_passes :
    let win : Window := ⟨[], [(0, 5#31)]⟩
    let s := { block .ready .ll 1 1 win with
      encIn := (⟨[.ok], none⟩ : Answers EncAnswer), decIn := (⟨[true], none⟩ : Answers Bool) }
    s.err = false ∧ s.window = some win ∧ s.cbW ≤ 64 ∧
      s.startsPasses win (.t1EncPass .cup 30) .enc [(.cup, 30)] [] ∧
      s.startsPasses win (.t1DecPass .cup 30) .dec [(.cup, 30)] [] ∧
      s.startsPasses win .t1EncBlock .enc (blockPasses 3) [.reset] ∧
      s.startsPasses win (.t1DecBlock 31) .dec (blockPasses 31) [.reset] ∧
      (∀ a ∈ s.encIn.pending, a = .ok) ∧ s.encIn.rest = none ∧ s.decIn.rest = none :=
  ⟨rfl, rfl, by decide, .inl ⟨.cup, 30, .inl rfl, by decide, rfl, rfl, .inl ⟨rfl, rfl⟩⟩,
    .inl ⟨.cup, 30, .inl rfl, by decide, rfl, rfl, .inr ⟨rfl, rfl⟩⟩,
    .inr ⟨3, rfl, by decide, rfl, rfl, .inl ⟨rfl, rfl, five_planes⟩⟩,
    .inr ⟨31, rfl, by decide, rfl, rfl, .inr ⟨rfl, rfl⟩⟩, by decide, rfl, rfl⟩

/-- R117's corner case: the query waits below the root with the root already reported and the mode still `FRESH`. -/
theorem test_tt_dec_waits_below_the_root :
    reached (exec (.ttDec .incl 1 1 3) { planted 2 2 .fresh [] with hdrIn := (⟨[true], none⟩ : Answers Bool) })
      (fun t => t.busy && decide (t.tree0.mode = .fresh) && decide (t.tree0.nodes = some [(4, ⟨0, 0, true⟩)])) = true := by
  decide

theorem witness_HeldBlockWaits :
    (let s := { idle with busy := true, inputs := [.write 0x04 4 0x31000000#32] }
     s.busy = true ∧ s.inputs = .write 0x04 4 0x31000000#32 :: [] ∧
       0x31000000#32 ++ s.cmdLo ≠ 0x0100000000000000#64 ∧ ({ idle with busy := true } : State).inputs = [] ∧
       ({ idle with busy := true, inputs := [.read 0x08 4] } : State).inputs = .read 0x08 4 :: [] ∧
       ({ idle with busy := true, inputs := [.slowCommand 0x31000000#32] } : State).inputs =
         .slowCommand 0x31000000#32 :: []) ∧
    (let r := { planted 2 1 .fresh [] with hdrIn := (⟨[], none⟩ : Answers Bool) }
     r.busy = false ∧ r.held = none ∧ r.err = false ∧
       ∃ s, exec (.ttDec .incl 1 0 3) r = .next s ∧ s.busy = true) :=
  ⟨by decide, rfl, rfl, rfl, of_reached (p := State.busy) (by decide)⟩

theorem witness_LateAnswerResumesTheCommand :
    let s := { planted 2 1 .fresh [] with hdrIn := (⟨[], none⟩ : Answers Bool) }
    s.busy = false ∧ s.held = none ∧ s.err = false ∧
      ∃ t, exec (.ttDec .incl 1 0 3) s = .next t ∧ t.busy = true :=
  ⟨rfl, rfl, rfl, of_reached (p := State.busy) (by decide)⟩

/-! A state after a fault, with a fresh tree and a window just cleared: it has every invariant, and steps -/

/-- A 1 by 1 window just cleared, a fresh tree of two leaves, the fault of an illegal word standing, one read to come. -/
def settled : State :=
  { planted 2 1 .fresh [] with
    cbW := 1, cbH := 1, cbState := .ready, window := some Window.cleared
    err := true, everErr := true, errCode := some .illegal, errCmd := 0x0300000000000000#64
    inputs := [.read 0x08 4] }

theorem settled_held (h : Pending) : settled.held ≠ some h := by
  have : settled.held = none := rfl
  rw [this]
  simp

theorem uninit_ok : TagTree.uninit.ok 64 := ⟨fun _ => rfl, fun h => absurd rfl h, fun m h => by cases h⟩

theorem settled_lifeCycle : settled.LifeCycle where
  cfgOk := by decide
  windowNow := ⟨rfl, nofun, fun _ => by decide⟩
  tree0Now := fresh_ok
  tree1Now := uninit_ok
  busyHeld := rfl
  errCode := rfl
  everErr := fun _ => rfl
  noErrorLeft := fun h => by cases h
  windowThen := fun h hh => absurd hh (settled_held h)
  tree0Then := fun h hh => absurd hh (settled_held h)
  tree1Then := fun h hh => absurd hh (settled_held h)

theorem cleared_flagsOk : Machine.flagsOk .ready 1 1 (some Window.cleared) := by
  intro v hv
  cases hv
  have hs : ∀ wx wy, Window.cleared.sigIn 1 1 wx wy = false := fun wx wy => by
    simp [Window.sigIn, isSig]
  have hn : ∀ wx wy, Window.cleared.negIn 1 1 wx wy = false := fun wx wy => by simp [Window.negIn, hs]
  have hc : ∀ x y, Window.cleared.coef x y = 0#16 := fun x y => Window.flag_cleared _ _
  refine ⟨fun x y _ _ => ⟨?_, ?_, fun h => ?_⟩, fun wx wy _ _ _ => ?_, fun _ wx wy _ _ => ?_⟩
  · simp only [Window.sigBitsOk, hs, Window.flag_cleared]
    decide
  · simp only [Window.sgnBitsOk, hn, Window.flag_cleared]
    decide
  · rw [hc] at h
    exact absurd h (by decide)
  · rw [Window.flag_cleared]
    decide
  · rw [Window.flag_cleared]
    decide

/-- StepKeepsTheLifeCycle, StepAlwaysGoesOn, StepKeepsMemoriesCanonical, StepKeepsFlagSymmetry,
StepKeepsTreeInvariants. -/
theorem witness_StepInvariants :
    settled.LifeCycle ∧ settled.memWf = true ∧ settled.flagsOk ∧ settled.treesOk ∧
      ∃ t, step settled = .next t ∧ decide (t.rdata = 0x126#32) = true :=
  ⟨settled_lifeCycle, by decide, ⟨cleared_flagsOk, fun h hh => absurd hh (settled_held h)⟩,
    ⟨fun t => ⟨fun _ => (by cases t with
      | incl => exact fresh_coherent
      | zbp => exact fun m hm => (by cases hm)), fun ⟨h, _, hh, _⟩ => absurd hh (settled_held h)⟩,
      fun h hh => absurd hh (settled_held h)⟩,
    of_reached (p := fun t => decide (t.rdata = 0x126#32)) (by decide)⟩

end Sys2Proof.Tests
end

section
/-! PROOFS. The family of spec/10_state.md: the resets (R45, R102, R240), the register map (R40), the layouts of the
register views (R41, R42) and the geometry of a tag tree (R32, R114). First the laws about the model's functions, in the
order of the definitions they speak of; then the statements they settle. -/

namespace Sys2Proof.Machine

/-! ## The levels of a tag tree (R32) -/

/-- The level above `lv`: it halves each side rounding up and starts where `lv` ends (R32). -/
def Level.above (lv : Level) : Level := ⟨lv.base + lv.w * lv.h, (lv.w + 1) / 2, (lv.h + 1) / 2⟩

/-- A list of levels up to a root: each but the last has more than one node and is followed by the level above it
(`isPyramid_levels`: those of a tree are one). -/
inductive IsPyramid : List Level → Prop
  | root (base : Nat) : IsPyramid [⟨base, 1, 1⟩]
  | level {lv : Level} {rest : List Level} (many : ¬ (lv.w = 1 ∧ lv.h = 1)) (up : IsPyramid (lv.above :: rest)) :
      IsPyramid (lv :: lv.above :: rest)

theorem levelsFrom_eq_cons (n base w h : Nat) : ∃ rest, levelsFrom n base w h = ⟨base, w, h⟩ :: rest := by
  cases n with
  | zero => exact ⟨[], rfl⟩
  | succ n =>
    unfold levelsFrom
    split
    · exact ⟨[], rfl⟩
    · exact ⟨_, rfl⟩

/-- The bound on the number of levels is never what ends the list: each level but the root is followed by a
smaller one. -/
theorem isPyramid_levelsFrom (n base w h : Nat) (hw : 1 ≤ w) (hh : 1 ≤ h) (hn : w + h ≤ n + 2) :
    IsPyramid (levelsFrom n base w h) := by
  induction n generalizing base w h with
  | zero =>
    obtain ⟨rfl, rfl⟩ : w = 1 ∧ h = 1 := by omega
    exact .root base
  | succ n ih =>
    unfold levelsFrom
    split
    case isTrue one =>
      obtain ⟨rfl, rfl⟩ := one
      exact .root base
    case isFalse many =>
      have up := ih (base + w * h) ((w + 1) / 2) ((h + 1) / 2) (by omega) (by omega) (by omega)
      obtain ⟨rest, hrest⟩ := levelsFrom_eq_cons n (base + w * h) ((w + 1) / 2) ((h + 1) / 2)
      rw [hrest] at up ⊢
      exact .level (lv := ⟨base, w, h⟩) many up

theorem levels_eq_cons (w h : Nat) : ∃ rest, levels w h = ⟨0, w, h⟩ :: rest := levelsFrom_eq_cons (w + h) 0 w h

theorem isPyramid_levels {w h : Nat} (hw : 1 ≤ w) (hh : 1 ≤ h) : IsPyramid (levels w h) :=
  isPyramid_levelsFrom (w + h) 0 w h hw hh (by omega)

namespace IsPyramid

theorem tail {lv up : Level} {rest : List Level} (h : IsPyramid (lv :: up :: rest)) : IsPyramid (up :: rest) := by
  cases h with
  | level _ hup => exact hup

/-- The levels from any one up are a pyramid again. -/
theorem suffix {pre post : List Level} {lv : Level} (h : IsPyramid (pre ++ lv :: post)) : IsPyramid (lv :: post) := by
  induction pre with
  | nil => exact h
  | cons a pre ih =>
    rw [List.cons_append] at h
    generalize hl : pre ++ lv :: post = l at h ih
    cases h with
    | root base => simp at hl
    | level many up => exact ih up

theorem up_eq_above {pre post : List Level} {lv up : Level} (h : IsPyramid (pre ++ lv :: up :: post)) :
    up = lv.above := by
  cases h.suffix with
  | level => rfl

/-- A pyramid ends with its first level of one node, whose index gives the node count (R32). -/
theorem eq_append_root {l : List Level} (h : IsPyramid l) :
    ∃ (pre : List Level) (base : Nat), l = pre ++ [⟨base, 1, 1⟩] ∧ (∀ lv ∈ pre, ¬ (lv.w = 1 ∧ lv.h = 1)) ∧
      nodeCountOf l = base + 1 := by
  induction h with
  | root base => exact ⟨[], base, rfl, nofun, rfl⟩
  | @level lv rest many up ih =>
    obtain ⟨pre, base, hl, hpre, hcount⟩ := ih
    refine ⟨lv :: pre, base, by rw [hl]; rfl, ?_, hcount⟩
    exact List.forall_mem_cons.mpr ⟨many, hpre⟩

/-- No level starts before the one the list starts with. -/
theorem base_le {lv l : Level} {rest : List Level} (h : IsPyramid (lv :: rest)) (hl : l ∈ lv :: rest) :
    lv.base ≤ l.base := by
  induction rest generalizing lv with
  | nil =>
    obtain rfl := List.mem_singleton.mp hl
    exact Nat.le_refl _
  | cons up rest ih =>
    cases h with
    | level many hup =>
      rcases List.mem_cons.mp hl with rfl | hl
      · exact Nat.le_refl _
      · exact Nat.le_trans (Nat.le_add_right _ _) (ih hup hl)

theorem base_lt_nodeCountOf {lv : Level} {rest : List Level} (h : IsPyramid (lv :: rest)) :
    lv.base < nodeCountOf (lv :: rest) := by
  obtain ⟨pre, base, hl, -, hcount⟩ := h.eq_append_root
  have hroot : (⟨base, 1, 1⟩ : Level) ∈ lv :: rest := by simp [hl]
  have hle : lv.base ≤ base := h.base_le hroot
  omega

end IsPyramid

/-! ## Parents, children, paths (R32, R114) -/

namespace Level

theorem node_lt_above_base {lv : Level} {i j : Nat} (hi : i < lv.w) (hj : j < lv.h) :
    lv.node i j < lv.above.base := by
  have hrow : (j + 1) * lv.w ≤ lv.h * lv.w := Nat.mul_le_mul_right _ hj
  rw [Nat.add_mul, Nat.mul_comm lv.h] at hrow
  simp only [node, above]
  omega

theorem node_column {lv : Level} {i j : Nat} (hi : i < lv.w) : (lv.node i j - lv.base) % lv.w = i := by
  rw [node, Nat.add_assoc, Nat.add_sub_cancel_left, Nat.mul_add_mod', Nat.mod_eq_of_lt hi]

theorem node_row {lv : Level} {i j : Nat} (hi : i < lv.w) : (lv.node i j - lv.base) / lv.w = j := by
  rw [node, Nat.add_assoc, Nat.add_sub_cancel_left, Nat.mul_comm, Nat.mul_add_div (by omega), Nat.div_eq_of_lt hi,
    Nat.add_zero]

end Level

/-- The parent of a node of any level but the root's: the levels before it are passed over, since
they end before it starts. -/
theorem parentIn_node {pre post : List Level} {lv up : Level} {i j : Nat} (h : IsPyramid (pre ++ lv :: up :: post))
    (hi : i < lv.w) (hj : j < lv.h) :
    parentIn (pre ++ lv :: up :: post) (lv.node i j) = some (up.node (i / 2) (j / 2)) := by
  induction pre with
  | nil =>
    obtain rfl : up = lv.above := h.up_eq_above
    rw [List.nil_append, parentIn, if_pos (Level.node_lt_above_base hi hj), Level.node_column hi, Level.node_row hi]
  | cons a pre ih =>
    obtain ⟨b, rest, hl⟩ := List.exists_cons_of_ne_nil (l := pre ++ lv :: up :: post) (by simp)
    rw [List.cons_append, hl] at h ⊢
    have hle : b.base ≤ lv.base := h.tail.base_le (by simp [← hl])
    have hskip : ¬ lv.node i j < b.base := by simp only [Level.node]; omega
    rw [parentIn, if_neg hskip, ← hl]
    exact ih (hl ▸ h.tail)

/-- Among the nodes from the first level on, only the last one, the root, has no parent. -/
theorem parentIn_eq_none_iff {lv : Level} {rest : List Level} (h : IsPyramid (lv :: rest)) {i : Nat}
    (hlow : lv.base ≤ i) (hi : i < nodeCountOf (lv :: rest)) :
    parentIn (lv :: rest) i = none ↔ i + 1 = nodeCountOf (lv :: rest) := by
  induction rest generalizing lv with
  | nil =>
    simp only [nodeCountOf] at hi ⊢
    simp only [parentIn, true_iff]
    omega
  | cons up rest ih =>
    cases h with
    | level many hup =>
      have hroot := hup.base_lt_nodeCountOf
      simp only [parentIn, nodeCountOf] at hi ⊢
      split
      case isTrue hlt => simp only [reduceCtorEq, false_iff]; omega
      case isFalse hge => exact ih hup (Nat.le_of_not_lt hge) hi

/-- Only the last node of a tree, its root, has no parent (R32). -/
theorem parentOf_eq_none_iff {w h i : Nat} (hw : 1 ≤ w) (hh : 1 ≤ h) (hi : i < nodeCount w h) :
    parentOf w h i = none ↔ i + 1 = nodeCount w h := by
  have hpyr : IsPyramid (levels w h) := isPyramid_levels hw hh
  obtain ⟨rest, hrest⟩ := levels_eq_cons w h
  rw [nodeCount, hrest] at hi
  rw [parentOf, nodeCount, hrest]
  exact parentIn_eq_none_iff (hrest ▸ hpyr) (Nat.zero_le i) hi

/-- The parent of a node is the one of half its coordinates, one level up (R32). -/
theorem parentOf_node {w h i j : Nat} {pre post : List Level} {lv up : Level} (hw : 1 ≤ w) (hh : 1 ≤ h)
    (hl : levels w h = pre ++ lv :: up :: post) (hi : i < lv.w) (hj : j < lv.h) :
    parentOf w h (lv.node i j) = some (up.node (i / 2) (j / 2)) := by
  rw [parentOf, hl]
  exact parentIn_node (hl ▸ isPyramid_levels hw hh) hi hj

theorem mem_childrenOf {lv : Level} {i j n : Nat} :
    n ∈ childrenOf lv i j ↔
      ∃ di dj, di ≤ 1 ∧ dj ≤ 1 ∧ 2 * i + di < lv.w ∧ 2 * j + dj < lv.h ∧ n = lv.node (2 * i + di) (2 * j + dj) := by
  have hcorner : ∀ di dj : Nat, (di, dj) ∈ ([(0, 0), (1, 0), (0, 1), (1, 1)] : List (Nat × Nat)) ↔ di ≤ 1 ∧ dj ≤ 1 := by
    intro di dj
    simp only [List.mem_cons, List.not_mem_nil, Prod.mk.injEq, or_false]
    omega
  simp only [childrenOf, List.mem_map, List.mem_filter, decide_eq_true_eq, Prod.exists, hcorner]
  constructor
  · rintro ⟨di, dj, ⟨⟨hdi, hdj⟩, hx, hy⟩, rfl⟩
    exact ⟨di, dj, hdi, hdj, hx, hy, rfl⟩
  · rintro ⟨di, dj, hdi, hdj, hx, hy, rfl⟩
    exact ⟨di, dj, ⟨⟨hdi, hdj⟩, hx, hy⟩, rfl⟩

/-- From level `k` up, the path of leaf `(x, y)` has one node `(x >> k, y >> k)` a level (R114). -/
theorem pathUp_eq_map_zipIdx (l : List Level) (k x y : Nat) :
    pathUp l (x / 2 ^ k) (y / 2 ^ k) = (l.zipIdx k).map fun p => p.1.node (x / 2 ^ p.2) (y / 2 ^ p.2) := by
  induction l generalizing k with
  | nil => rfl
  | cons lv rest ih =>
    rw [pathUp, List.zipIdx_cons, List.map_cons, Nat.div_div_eq_div_mul, Nat.div_div_eq_div_mul, ← pow_succ, ih]

theorem treePath_eq (w h x y : Nat) :
    treePath w h x y = ((levels w h).zipIdx.map fun l => l.1.node (x / 2 ^ l.2) (y / 2 ^ l.2)).reverse := by
  have hpath := pathUp_eq_map_zipIdx (levels w h) 0 x y
  rw [pow_zero, Nat.div_one, Nat.div_one] at hpath
  rw [treePath, hpath]

/-! ## Fields of a register view (R41, R42) -/

theorem getLsbD_ofNat_eq {n i : Nat} {b : Bool} (hi : i < 32) (h : n / 2 ^ i % 2 = b.toNat) :
    (BitVec.ofNat 32 n).getLsbD i = b := by
  rw [BitVec.getLsbD_ofNat, Nat.testBit_eq_decide_div_mod_eq, h, decide_eq_true hi, Bool.true_and]
  cases b <;> rfl

theorem getLsbD_ofNat_eq_false {n i : Nat} (hi : i < 32) (h : n / 2 ^ i % 2 = 0) :
    (BitVec.ofNat 32 n).getLsbD i = false :=
  getLsbD_ofNat_eq hi h

theorem extractLsb'_ofNat_toNat {n lo len : Nat} (hfit : lo + len ≤ 32) :
    ((BitVec.ofNat 32 n).extractLsb' lo len).toNat = n / 2 ^ lo % 2 ^ len := by
  have hsplit : 2 ^ 32 = 2 ^ lo * 2 ^ (32 - lo) := by rw [← pow_add, Nat.add_sub_cancel' (by omega)]
  have hlen : 2 ^ len ∣ 2 ^ (32 - lo) := Nat.pow_dvd_pow 2 (by omega)
  rw [BitVec.extractLsb'_toNat, BitVec.toNat_ofNat, Nat.shiftRight_eq_div_pow, hsplit, Nat.mod_mul_right_div_self,
    Nat.mod_mod_of_dvd _ hlen]

theorem extractLsb'_ofNat_eq_zero {n lo len : Nat} (hfit : lo + len ≤ 32) (h : n / 2 ^ lo % 2 ^ len = 0) :
    (BitVec.ofNat 32 n).extractLsb' lo len = 0#len := by
  apply BitVec.eq_of_toNat_eq
  rw [extractLsb'_ofNat_toNat hfit, h, BitVec.toNat_ofNat, Nat.zero_mod]

theorem CbState.code_le (c : CbState) : c.code ≤ 4 := by cases c <;> decide
theorem TreeMode.code_le (m : TreeMode) : m.code ≤ 4 := by cases m <;> decide

/-! `STATUS` (R41) -/

/-- The number `STATUS` holds, with the bounds of its parts: all its layout needs. -/
theorem State.statusReg_parts (s : State) :
    ∃ n, s.statusReg = BitVec.ofNat 32 n ∧
      n = s.busy.toNat + s.err.toNat * 2 + s.everErr.toNat * 4 + s.ovr.toNat * 8 + s.cbState.code * 16
        + s.tree0.mode.code * 256 + s.tree1.mode.code * 4096 ∧
      s.busy.toNat ≤ 1 ∧ s.err.toNat ≤ 1 ∧ s.everErr.toNat ≤ 1 ∧ s.ovr.toNat ≤ 1 ∧
      s.cbState.code ≤ 4 ∧ s.tree0.mode.code ≤ 4 ∧ s.tree1.mode.code ≤ 4 :=
  ⟨_, rfl, rfl, Bool.toNat_le _, Bool.toNat_le _, Bool.toNat_le _, Bool.toNat_le _, CbState.code_le _,
    TreeMode.code_le _, TreeMode.code_le _⟩

theorem State.statusReg_flags (s : State) :
    s.statusReg.getLsbD 0 = s.busy ∧ s.statusReg.getLsbD 1 = s.err ∧ s.statusReg.getLsbD 2 = s.everErr ∧
      s.statusReg.getLsbD 3 = s.ovr := by
  obtain ⟨n, hreg, hn, hb, he, hev, ho, hc, h0, h1⟩ := s.statusReg_parts
  rw [hreg]
  refine ⟨getLsbD_ofNat_eq ?_ ?_, getLsbD_ofNat_eq ?_ ?_, getLsbD_ofNat_eq ?_ ?_, getLsbD_ofNat_eq ?_ ?_⟩ <;> omega

theorem State.statusReg_codes (s : State) :
    (s.statusReg.extractLsb' 4 3).toNat = s.cbState.code ∧
      (s.statusReg.extractLsb' 8 3).toNat = s.tree0.mode.code ∧
      (s.statusReg.extractLsb' 12 3).toNat = s.tree1.mode.code := by
  obtain ⟨n, hreg, hn, hb, he, hev, ho, hc, h0, h1⟩ := s.statusReg_parts
  rw [hreg, extractLsb'_ofNat_toNat (by decide), extractLsb'_ofNat_toNat (by decide),
    extractLsb'_ofNat_toNat (by decide)]
  omega

theorem State.statusReg_zeros (s : State) :
    s.statusReg.getLsbD 7 = false ∧ s.statusReg.getLsbD 11 = false ∧ s.statusReg.extractLsb' 15 17 = 0#17 := by
  obtain ⟨n, hreg, hn, hb, he, hev, ho, hc, h0, h1⟩ := s.statusReg_parts
  rw [hreg]
  refine ⟨getLsbD_ofNat_eq_false ?_ ?_, getLsbD_ofNat_eq_false ?_ ?_, extractLsb'_ofNat_eq_zero ?_ ?_⟩ <;> omega

/-! `CBCFG`, `TTCFG<t>` (R42) -/

theorem State.cbCfgReg_fields (s : State) (hw : s.cbW < 128) (hh : s.cbH < 128) :
    (s.cbCfgReg.extractLsb' 0 7).toNat = s.cbW ∧ (s.cbCfgReg.extractLsb' 8 7).toNat = s.cbH ∧
      (s.cbCfgReg.extractLsb' 16 2).toNat = s.cbOrient.code := by
  have ho : s.cbOrient.code < 4 := Laws.orient_code_lt _
  rw [State.cbCfgReg, extractLsb'_ofNat_toNat (by decide), extractLsb'_ofNat_toNat (by decide),
    extractLsb'_ofNat_toNat (by decide)]
  omega

theorem State.cbCfgReg_zeros (s : State) :
    s.cbCfgReg.getLsbD 7 = false ∧ s.cbCfgReg.getLsbD 15 = false ∧ s.cbCfgReg.extractLsb' 18 14 = 0#14 := by
  have ho : s.cbOrient.code < 4 := Laws.orient_code_lt _
  rw [State.cbCfgReg]
  refine ⟨getLsbD_ofNat_eq_false ?_ ?_, getLsbD_ofNat_eq_false ?_ ?_, extractLsb'_ofNat_eq_zero ?_ ?_⟩ <;> omega

theorem TagTree.cfgReg_fields (tr : TagTree) (hw : tr.w < 2048) (hh : tr.h < 2048) :
    (tr.cfgReg.extractLsb' 0 11).toNat = tr.w ∧ (tr.cfgReg.extractLsb' 16 11).toNat = tr.h := by
  rw [TagTree.cfgReg, extractLsb'_ofNat_toNat (by decide), extractLsb'_ofNat_toNat (by decide)]
  omega

theorem TagTree.cfgReg_zeros (tr : TagTree) :
    tr.cfgReg.extractLsb' 11 5 = 0#5 ∧ tr.cfgReg.extractLsb' 27 5 = 0#5 := by
  rw [TagTree.cfgReg]
  refine ⟨extractLsb'_ofNat_eq_zero ?_ ?_, extractLsb'_ofNat_eq_zero ?_ ?_⟩ <;> omega

/-! ## Register accesses (R40, R63, R64) -/

/-- The codes of `ERRCODE` fit the register (R210). -/
theorem ErrCode.toNat_ofNat_code (c : ErrCode) : (BitVec.ofNat 32 c.code).toNat = c.code := by cases c <;> rfl

theorem State.errCodeReg_none {s : State} (h : s.errCode = none) : s.errCodeReg = 0#32 := by
  rw [State.errCodeReg, h]

theorem State.errCodeReg_some {s : State} {c : ErrCode} (h : s.errCode = some c) : s.errCodeReg.toNat = c.code := by
  rw [State.errCodeReg, h]
  exact c.toNat_ofNat_code

@[simp] theorem State.busWrite_cmdLo (s : State) (v : Reg) : s.busWrite 0x00 4 v = .settle { s with cmdLo := v } := rfl
@[simp] theorem State.busWrite_cmdHi (s : State) (v : Reg) : s.busWrite 0x04 4 v = s.writeCmdHi v := rfl

/-- Beside `CMD_LO` and `CMD_HI` every write is ignored (R40). -/
theorem State.busWrite_ignored (s : State) {off : Nat} (width : Nat) (v : Reg) (hlo : off ≠ 0x00) (hhi : off ≠ 0x04) :
    s.busWrite off width v = .settle s := by
  unfold State.busWrite
  split
  · split
    · exact absurd rfl hlo
    · exact absurd rfl hhi
    · rfl
  · rfl

/-- The write of `CMD_HI` of an idle block starts the command of the word (R64, R87). -/
theorem State.writeCmdHi_ok {s : State} {hi : Reg} {i : Instr} (hbusy : s.busy = false)
    (hdec : decode (commandWord hi s.cmdLo) = .ok i) : s.writeCmdHi hi = .run i s := by
  simp [State.writeCmdHi, hbusy, hdec]

/-! ## One step (R64, R67) -/

theorem step_of_settle {s t : State} (h : nextAction s = .settle t) : step s = .next t := by
  rw [step, h]

theorem step_of_run {s t : State} {i : Instr} (h : nextAction s = .run i t) : step s = exec i t := by
  rw [step, h]

theorem step_read {s : State} {off width : Nat} {more : List Event} (h : s.inputs = .read off width :: more) :
    step s = .next { s with inputs := more, rdata := s.busRead off width } :=
  step_of_settle (nextAction_event s _ more h)

theorem nextAction_write {s : State} {off width : Nat} {v : Reg} {more : List Event}
    (h : s.inputs = .write off width v :: more) :
    nextAction s = ({ s with inputs := more } : State).busWrite off width v :=
  nextAction_event s _ more h

theorem step_resetInput {s : State} {more : List Event} (h : s.inputs = .reset :: more) :
    step s = .next { s.blockReset with inputs := more } :=
  step_of_settle (nextAction_event s _ more h)

theorem exec_softReset (s : State) : exec .softReset s = .next s.blockReset := rfl

/-! ## The statements -/

/-- Settles O35: the levels are a pyramid (`isPyramid_levels`), and each clause is a fact about pyramids. -/
theorem parentOfEveryNode : Obligations.ParentOfEveryNode := by
  refine ⟨fun w h hw hh => ?_, fun _ _ _ => rfl, by decide, by decide⟩
  have hpyr : IsPyramid (levels w h) := isPyramid_levels hw hh
  refine ⟨levels_eq_cons w h, hpyr.eq_append_root, treePath_eq w h, fun i hi => parentOf_eq_none_iff hw hh hi, ?_⟩
  intro pre post lv up i j hl
  obtain rfl : up = lv.above := (hl ▸ hpyr).up_eq_above
  exact ⟨rfl, rfl, rfl, fun hi hj => parentOf_node hw hh hl hi hj, fun n => mem_childrenOf⟩

/-- Settles O9: a read returns the register's content, and a write goes to `CMD_LO`, `CMD_HI` or nowhere. -/
theorem registerMapAccesses : Obligations.RegisterMapAccesses := by
  intro s off more _
  refine ⟨fun hread => ⟨s.busRead off 4, step_read hread, ?_⟩, fun v hwrite => ⟨?cmdLo, ?cmdHi, ?other⟩⟩
  · refine ⟨?zeros, ?_, ?errCode, ?_, ?_, ?_, ?_, ?_, ?_, ?_, ?_, ?_⟩
    case zeros => rintro (rfl | rfl | rfl | rfl | rfl) <;> rfl
    case errCode =>
      rintro rfl
      change s.errCodeReg.toNat = _
      cases hc : s.errCode with
      | none => rw [State.errCodeReg_none hc]; rfl
      | some c => rw [State.errCodeReg_some hc]; cases c <;> rfl
    all_goals rintro rfl; rfl
  case cmdLo =>
    rintro rfl
    exact step_of_settle ((nextAction_write hwrite).trans (State.busWrite_cmdLo _ v))
  case cmdHi =>
    rintro rfl hbusy i hdec
    exact step_of_run ((nextAction_write hwrite).trans
      ((State.busWrite_cmdHi _ v).trans (State.writeCmdHi_ok hbusy hdec)))
  case other =>
    intro hlo hhi
    exact step_of_settle ((nextAction_write hwrite).trans (State.busWrite_ignored _ 4 v hlo hhi))

/-- Settles O10: the fields and the zero bits of each register, and the numbers of the codes. -/
theorem registerViewLayouts : Obligations.RegisterViewLayouts := by
  refine ⟨rfl, rfl, rfl, rfl, fun s => ⟨?status, fun hw hh => ?cbCfg, fun tr hw hh => ?ttCfg⟩⟩
  case status =>
    obtain ⟨hbusy, herr, hever, hovr⟩ := s.statusReg_flags
    obtain ⟨hstate, hmode0, hmode1⟩ := s.statusReg_codes
    obtain ⟨h7, h11, h15⟩ := s.statusReg_zeros
    refine ⟨hbusy, herr, hever, hovr, hstate.trans ?_, h7, hmode0.trans ?_, h11, hmode1.trans ?_, h15⟩
    · cases s.cbState <;> rfl
    · cases s.tree0.mode <;> rfl
    · cases s.tree1.mode <;> rfl
  case cbCfg =>
    obtain ⟨hcbW, hcbH, horient⟩ := s.cbCfgReg_fields hw hh
    obtain ⟨h7, h15, h18⟩ := s.cbCfgReg_zeros
    refine ⟨hcbW, h7, hcbH, h15, horient.trans ?_, h18⟩
    cases s.cbOrient <;> rfl
  case ttCfg =>
    obtain ⟨htrW, htrH⟩ := tr.cfgReg_fields hw hh
    obtain ⟨h11, h27⟩ := tr.cfgReg_zeros
    exact ⟨htrW, h11, htrH, h27⟩

/-- Settles O12: both resets give `State.blockReset`, whose fields are the reset values. -/
theorem resetsGiveTheResetValues : Obligations.ResetsGiveTheResetValues := by
  intro s
  refine ⟨s.blockReset, exec_softReset s, fun more hreset => step_resetInput hreset, ?_⟩
  simp [TagTree.uninit]

end Sys2Proof.Machine
end

section
/-! PROOFS. The family of spec/20_memory.md: accesses of another width or alignment than R63 defines. -/

namespace Sys2Proof.Machine

/-- A read of another width or alignment returns 0 (R63). -/
theorem State.busRead_odd (s : State) {off width : Nat} (hodd : width ≠ 4 ∨ off % 4 ≠ 0) :
    s.busRead off width = 0#32 :=
  if_neg (not_and_or.mpr hodd)

/-- A write of another width is ignored (R63). -/
theorem State.busWrite_width_ne (s : State) (off : Nat) {width : Nat} (v : Reg) (hwidth : width ≠ 4) :
    s.busWrite off width v = .settle s :=
  if_neg hwidth

/-- A write of another width or alignment is ignored: a misaligned offset is neither that of `CMD_LO` nor that of
`CMD_HI` (R63). -/
theorem State.busWrite_odd (s : State) {off width : Nat} (v : Reg) (hodd : width ≠ 4 ∨ off % 4 ≠ 0) :
    s.busWrite off width v = .settle s := by
  rcases hodd with hwidth | halign
  · exact s.busWrite_width_ne off v hwidth
  · exact s.busWrite_ignored width v (by omega) (by omega)

/-- Settles O8: an odd read returns 0 (`busRead_odd`), an odd write settles at once (`busWrite_odd`). -/
theorem oddAccessesHaveNoEffect : Obligations.OddAccessesHaveNoEffect := by
  intro s off width v more hodd
  refine ⟨fun hread => ?_, fun hwrite => ?_⟩
  · rw [step_read hread, s.busRead_odd hodd]
  · exact step_of_settle ((nextAction_write hwrite).trans (State.busWrite_odd _ v hodd))

end Sys2Proof.Machine
end

section
/-! PROOFS. The family of spec/30_encoding.md: a word is the encoding of the command it decodes to (R81, R83, R88), so
the encoding of no command, and a word with an unlisted opcode (R85), raises `ILLEGAL` (R214). -/

namespace Sys2Proof

/-! ## The fields of a word (R80) -/

theorem slice_lt (w : Word) (lo n : Nat) : slice w lo n < 2 ^ n := Nat.mod_lt _ (by positivity)

/-- A word is its five fields put together. -/
theorem assemble_fields (w : Word) : assemble (fieldOp w) (fieldS w) (fieldX w) (fieldY w) (fieldImm w) = w := by
  have hw := w.isLt
  apply BitVec.eq_of_toNat_eq
  simp only [assemble, fieldOp, fieldS, fieldX, fieldY, fieldImm, slice, BitVec.toNat_ofNat]
  omega

/-- The opcode is the top byte of `CMD_HI`. -/
theorem fieldOp_commandWord (hi lo : Reg) : fieldOp (commandWord hi lo) = hi.toNat / 2 ^ 24 := by
  have hhi := hi.isLt
  have hlo := lo.isLt
  rw [fieldOp, slice, commandWord, BitVec.toNat_append, ← Nat.shiftLeft_add_eq_or_of_lt hlo, Nat.shiftLeft_eq]
  omega

/-- Words with the same opcode and the same operand fields are the same. -/
theorem assemble_congr {op s s' x x' y y' imm imm' : Nat} (hs : s = s') (hx : x = x') (hy : y = y')
    (himm : imm = imm') : assemble op s x y imm = assemble op s' x' y' imm' := by
  subst hs hx hy himm
  rfl

/-! ## What the parts of the decoder accept (R82, R83) -/

theorem whenZero_eq_ok {unused : Nat} {r : Except DecodeError Instr} {i : Instr} :
    whenZero unused r = .ok i ↔ unused = 0 ∧ r = .ok i := by
  by_cases h : unused = 0 <;> simp [whenZero, h]

theorem withTree_eq_ok {s : Nat} {mk : TreeSel → Instr} {i : Instr} (h : withTree s mk = .ok i) :
    ∃ t : TreeSel, t.code = s ∧ mk t = i := by
  unfold withTree treeOf at h
  match s with
  | 0 => exact ⟨.incl, rfl, Except.ok.inj h⟩
  | 1 => exact ⟨.zbp, rfl, Except.ok.inj h⟩
  | _ + 2 => cases h

theorem withKind_eq_ok {s : Nat} {mk : PassKind → Instr} {i : Instr} (h : withKind s mk = .ok i) :
    ∃ k : PassKind, k.code = s ∧ mk k = i := by
  unfold withKind kindOf at h
  match s with
  | 0 => exact ⟨.spp, rfl, Except.ok.inj h⟩
  | 1 => exact ⟨.mrp, rfl, Except.ok.inj h⟩
  | 2 => exact ⟨.cup, rfl, Except.ok.inj h⟩
  | _ + 3 => cases h

theorem orientOf_code {s : Nat} (hs : s < 4) : (orientOf s).code = s := by
  interval_cases s <;> rfl

theorem fitsCoord_iff {n : Nat} : fitsCoord n = true ↔ n < 2048 := decide_eq_true_iff

/-! ## The decoder inverts the encoder (R87, R88) -/

/-- A command the decoder reads from four fields fits them, and its word is that of these fields: the bits that do not
enter the command are 0. -/
theorem decodeFields_eq_ok {op s x y imm : Nat} {i : Instr} (hs : s < 4) (hx : x < 2048) (hy : y < 2048)
    (himm : imm < 4294967296) (h : decodeFields op s x y imm = .ok i) :
    i.wf = true ∧ encode i = assemble op s x y imm := by
  have hxy : (fitsCoord x && fitsCoord y) = true := by simp [fitsCoord_iff, hx, hy]
  unfold decodeFields at h
  split at h
  case h_22 => cases h
  all_goals obtain ⟨hzero, h⟩ := whenZero_eq_ok.mp h
  -- no operand
  case h_1 | h_2 | h_3 | h_13 | h_20 =>
    cases h
    exact ⟨rfl, assemble_congr (by omega) (by omega) (by omega) (by omega)⟩
  -- `TT_INIT`
  case h_4 =>
    obtain ⟨t, rfl, rfl⟩ := withTree_eq_ok h
    exact ⟨hxy, assemble_congr rfl rfl rfl hzero.symm⟩
  -- `TT_SET`, `TT_ENC`, `TT_DEC`
  case h_5 | h_6 | h_7 =>
    obtain ⟨t, rfl, rfl⟩ := withTree_eq_ok h
    exact ⟨by simp [Instr.wf, hxy, Nat.mod_lt], assemble_congr rfl rfl rfl (by omega)⟩
  -- `TT_RD`
  case h_8 =>
    obtain ⟨t, rfl, rfl⟩ := withTree_eq_ok h
    exact ⟨decide_eq_true himm, assemble_congr rfl (by omega) (by omega) rfl⟩
  -- `CTX_SIG`
  case h_9 =>
    cases h
    exact ⟨rfl, assemble_congr (orientOf_code hs) (by omega) (by omega) (by rw [BitVec.toNat_ofNat]; omega)⟩
  -- `CTX_REF`, `CTX_SGN`
  case h_10 | h_11 =>
    cases h
    exact ⟨rfl, assemble_congr (by omega) (by omega) (by omega) (by rw [BitVec.toNat_ofNat]; omega)⟩
  -- `CB_CFG`
  case h_12 =>
    cases h
    exact ⟨hxy, assemble_congr (orientOf_code hs) rfl rfl hzero.symm⟩
  -- `MAG_WR`: the sign is bit 31 of `imm`, the magnitude the bits below
  case h_14 =>
    cases h
    refine ⟨hxy, assemble_congr hzero.symm rfl rfl ?_⟩
    rw [BitVec.toNat_ofNat]
    obtain hneg | hneg : imm / 2147483648 = 0 ∨ imm / 2147483648 = 1 := by omega
    all_goals simp [hneg]; omega
  -- `MAG_RD`, `FLG_RD`
  case h_15 | h_16 =>
    cases h
    exact ⟨hxy, assemble_congr (by omega) rfl rfl (by omega)⟩
  -- `SET_SIG`: the sign is bit 0 of `imm`
  case h_17 =>
    cases h
    refine ⟨hxy, assemble_congr (by omega) rfl rfl ?_⟩
    obtain rfl | rfl : imm = 0 ∨ imm = 1 := by omega
    all_goals rfl
  -- `T1_ENC_PASS`, `T1_DEC_PASS`
  case h_18 | h_19 =>
    obtain ⟨k, rfl, rfl⟩ := withKind_eq_ok h
    exact ⟨decide_eq_true (Nat.mod_lt _ (by decide)), assemble_congr rfl (by omega) (by omega) (by omega)⟩
  -- `T1_DEC_BLOCK`
  case h_21 =>
    cases h
    exact ⟨decide_eq_true (Nat.mod_lt _ (by decide)),
      assemble_congr (by omega) (by omega) (by omega) (by omega)⟩

/-- The command a word decodes to fits its fields and has that word (R87). -/
theorem decode_eq_ok {w : Word} {i : Instr} (h : decode w = .ok i) : i.wf = true ∧ encode i = w := by
  obtain ⟨hwf, henc⟩ := decodeFields_eq_ok (slice_lt w 54 2) (slice_lt w 43 11) (slice_lt w 32 11) (slice_lt w 0 32) h
  exact ⟨hwf, henc.trans (assemble_fields w)⟩

/-- An opcode between those of R88 or above them. -/
def UnlistedOpcode (op : Nat) : Prop :=
  (0x03 ≤ op ∧ op ≤ 0x0F) ∨ (0x15 ≤ op ∧ op ≤ 0x1F) ∨ (0x23 ≤ op ∧ op ≤ 0x2F) ∨ (0x36 ≤ op ∧ op ≤ 0x3F) ∨ 0x44 ≤ op

/-- With an unlisted opcode the other fields do not matter (R85). -/
theorem decodeFields_unlisted {op : Nat} (s x y imm : Nat) (h : UnlistedOpcode op) :
    decodeFields op s x y imm = .error (.unknownOpcode op) := by
  unfold UnlistedOpcode at h
  unfold decodeFields
  split
  case h_22 => rfl
  all_goals omega

theorem decode_unlisted {w : Word} (h : UnlistedOpcode (fieldOp w)) :
    decode w = .error (.unknownOpcode (fieldOp w)) :=
  decodeFields_unlisted _ _ _ _ h

/-- The words R85 and R83 call illegal decode to no command. -/
theorem decode_illegal {hi lo : Reg}
    (h : (∀ i : Instr, i.wf = true → encode i ≠ hi ++ lo) ∨ UnlistedOpcode (hi.toNat / 2 ^ 24)) :
    ∃ e, decode (commandWord hi lo) = .error e := by
  rcases h with hnone | hop
  · cases hdec : decode (commandWord hi lo) with
    | error e => exact ⟨e, rfl⟩
    | ok i =>
      obtain ⟨hwf, henc⟩ := decode_eq_ok hdec
      exact absurd henc (hnone i hwf)
  · rw [← fieldOp_commandWord hi lo] at hop
    exact ⟨_, decode_unlisted hop⟩

end Sys2Proof

namespace Sys2Proof.Machine

/-- The write of `CMD_HI` of an idle block with `ERR` = 0 raises `ILLEGAL` for a word that is no command (R214, R216). -/
theorem State.writeCmdHi_error {s : State} {hi : Reg} {e : DecodeError} (hbusy : s.busy = false) (herr : s.err = false)
    (hdec : decode (commandWord hi s.cmdLo) = .error e) :
    s.writeCmdHi hi = .settle (s.faulted .illegal (commandWord hi s.cmdLo)) := by
  rw [← State.raise_eq_faulted s .illegal _ nofun]
  simp [State.writeCmdHi, hbusy, herr, hdec]

/-- Settles O4: the word decodes to no command (`decode_illegal`), whatever the units hold, so its write settles in the
fault (`writeCmdHi_error`). -/
theorem illegalWordRaisesIllegal : Obligations.IllegalWordRaisesIllegal := by
  intro s hi more hwrite hbusy herr hillegal
  obtain ⟨e, hdec⟩ := decode_illegal hillegal
  exact step_of_settle ((nextAction_write hwrite).trans
    ((State.busWrite_cmdHi _ hi).trans (State.writeCmdHi_error hbusy herr hdec)))

end Sys2Proof.Machine
end

section
/-! PROOFS. The family of spec/42_context_rom.md: the labels of the ROM by the rows of its tables (R143, R144, R146,
R148), its ranges and counts (R153), and the commands that look it up (R150 to R152). First the laws about the model's
functions, in the order of the definitions they speak of; then the statements they settle. -/

namespace Sys2Proof.Machine

/-! ## The neighbour bits of a flag word (R26, R142) -/

theorem lowByte_eq_zero_iff (f : FlagWord) : f.extractLsb' 0 8 = 0#8 ↔ ∀ i < 8, f.getLsbD i = false := by
  constructor
  · intro h i hi
    simpa [hi] using congrArg (BitVec.getLsbD · i) h
  · intro h
    refine BitVec.eq_of_getLsbD_eq fun i hi => ?_
    simpa [hi] using h i hi

/-- The mask of `SIG_NB` leaves `flag[7:0]`. -/
theorem hasSigNeighbour_iff (f : FlagWord) : hasSigNeighbour f = true ↔ f.extractLsb' 0 8 ≠ 0#8 := by
  have hmask : f.toNat &&& 255 = f.toNat % 256 := Nat.and_two_pow_sub_one_eq_mod f.toNat 8
  simp [hasSigNeighbour, ← BitVec.toNat_inj, hmask]

theorem countH_le (f : FlagWord) : countH f ≤ 2 := Nat.add_le_add (Bool.toNat_le _) (Bool.toNat_le _)
theorem countV_le (f : FlagWord) : countV f ≤ 2 := Nat.add_le_add (Bool.toNat_le _) (Bool.toNat_le _)

/-- The three counts are 0 exactly when no neighbour bit is set. -/
theorem counts_eq_zero_iff (f : FlagWord) :
    (countH f = 0 ∧ countV f = 0 ∧ countD f = 0) ↔ f.extractLsb' 0 8 = 0#8 := by
  simp only [lowByte_eq_zero_iff, countH, countV, countD, Nat.add_eq_zero_iff, Bool.toNat_eq_zero]
  constructor
  · rintro ⟨⟨h1, h2⟩, ⟨h0, h3⟩, ⟨⟨h4, h5⟩, h6⟩, h7⟩ i hi
    interval_cases i <;> assumption
  · intro h
    simp only [h, Nat.reduceLT, and_self]

/-! ## The significance label (R143, R144) -/

/-- The rows of R143. -/
theorem labelLine_rows (a c d : Nat) :
    (a = 2 → labelLine a c d = 8) ∧ (a = 1 ∧ 1 ≤ c → labelLine a c d = 7) ∧
      (a = 1 ∧ c = 0 ∧ 1 ≤ d → labelLine a c d = 6) ∧ (a = 1 ∧ c = 0 ∧ d = 0 → labelLine a c d = 5) ∧
      (a = 0 ∧ c = 2 → labelLine a c d = 4) ∧ (a = 0 ∧ c = 1 → labelLine a c d = 3) ∧
      (a = 0 ∧ c = 0 ∧ 2 ≤ d → labelLine a c d = 2) ∧ (a = 0 ∧ c = 0 ∧ d = 1 → labelLine a c d = 1) ∧
      (a = 0 ∧ c = 0 ∧ d = 0 → labelLine a c d = 0) := by
  unfold labelLine
  split_ifs <;> omega

/-- The rows of R144. -/
theorem labelDiag_rows (d hv : Nat) :
    (3 ≤ d → labelDiag d hv = 8) ∧ (d = 2 ∧ 1 ≤ hv → labelDiag d hv = 7) ∧
      (d = 2 ∧ hv = 0 → labelDiag d hv = 6) ∧ (d = 1 ∧ 2 ≤ hv → labelDiag d hv = 5) ∧
      (d = 1 ∧ hv = 1 → labelDiag d hv = 4) ∧ (d = 1 ∧ hv = 0 → labelDiag d hv = 3) ∧
      (d = 0 ∧ 2 ≤ hv → labelDiag d hv = 2) ∧ (d = 0 ∧ hv = 1 → labelDiag d hv = 1) ∧
      (d = 0 ∧ hv = 0 → labelDiag d hv = 0) := by
  unfold labelDiag
  split_ifs <;> omega

theorem labelLine_le (a c d : Nat) : labelLine a c d ≤ 8 := by
  unfold labelLine
  split_ifs <;> omega

theorem labelDiag_le (d hv : Nat) : labelDiag d hv ≤ 8 := by
  unfold labelDiag
  split_ifs <;> omega

/-- Of counts that can occur, only the last row of R143 gives 0. -/
theorem labelLine_eq_zero_iff {a c d : Nat} (ha : a ≤ 2) (hc : c ≤ 2) :
    labelLine a c d = 0 ↔ a = 0 ∧ c = 0 ∧ d = 0 := by
  constructor
  · intro h
    unfold labelLine at h
    split_ifs at h
    omega
  · rintro ⟨rfl, rfl, rfl⟩
    rfl

theorem labelDiag_eq_zero_iff {d hv : Nat} : labelDiag d hv = 0 ↔ d = 0 ∧ hv = 0 := by
  constructor
  · intro h
    unfold labelDiag at h
    split_ifs at h
    omega
  · rintro ⟨rfl, rfl⟩
    rfl

/-- `LL` and `LH` read R143 with `(h, v)`, `HL` with `(v, h)`. -/
theorem sigLabel_of_ne_hh {o : Orient} (f : FlagWord) (ho : o ≠ .hh) :
    sigLabel o f = labelLine (if o = .hl then countV f else countH f) (if o = .hl then countH f else countV f)
      (countD f) := by
  cases o with
  | ll => rfl
  | lh => rfl
  | hl => rfl
  | hh => exact absurd rfl ho

theorem sigLabel_hh (f : FlagWord) : sigLabel .hh f = labelDiag (countD f) (countH f + countV f) := rfl

theorem sigLabel_le (o : Orient) (f : FlagWord) : sigLabel o f ≤ 8 := by
  cases o with
  | ll => exact labelLine_le _ _ _
  | lh => exact labelLine_le _ _ _
  | hl => exact labelLine_le _ _ _
  | hh => exact labelDiag_le _ _

/-- The label is 0 exactly when no neighbour bit is set (R145). -/
theorem sigLabel_eq_zero_iff (o : Orient) (f : FlagWord) : sigLabel o f = 0 ↔ f.extractLsb' 0 8 = 0#8 := by
  have hH := countH_le f
  have hV := countV_le f
  rw [← counts_eq_zero_iff]
  by_cases ho : o = .hh
  · rw [ho, sigLabel_hh, labelDiag_eq_zero_iff]
    omega
  · rw [sigLabel_of_ne_hh f ho]
    split_ifs
    · rw [labelLine_eq_zero_iff hV hH, and_left_comm]
    · rw [labelLine_eq_zero_iff hH hV]

/-- How many of the 256 low bytes have the label `l`. -/
def labelCount (o : Orient) (l : Nat) : Nat :=
  ((List.range 256).filter fun b => decide (sigLabel o (BitVec.ofNat 16 b) = l)).length

theorem map_labelCount_ll : (List.range 9).map (labelCount .ll) = [1, 4, 11, 32, 16, 2, 30, 96, 64] := by decide
theorem map_labelCount_hl : (List.range 9).map (labelCount .hl) = [1, 4, 11, 32, 16, 2, 30, 96, 64] := by decide
theorem map_labelCount_hh : (List.range 9).map (labelCount .hh) = [1, 4, 11, 4, 16, 44, 6, 90, 80] := by decide

/-- The counts of R153; `LH` has the table of `LL`. -/
theorem map_labelCount (o : Orient) :
    (List.range 9).map (labelCount o) =
      if o = .hh then [1, 4, 11, 4, 16, 44, 6, 90, 80] else [1, 4, 11, 32, 16, 2, 30, 96, 64] := by
  cases o with
  | ll => exact map_labelCount_ll
  | lh => exact map_labelCount_ll
  | hl => exact map_labelCount_hl
  | hh => exact map_labelCount_hh

/-! ## The refinement label (R146) -/

theorem refLabel_of_refined {f : FlagWord} (href : f.getLsbD 14 = true) : refLabel f = 16 := if_pos href

theorem refLabel_of_neighbour {f : FlagWord} (href : f.getLsbD 14 = false) (hnb : f.extractLsb' 0 8 ≠ 0#8) :
    refLabel f = 15 :=
  (if_neg (Bool.eq_false_iff.mp href)).trans (if_pos ((hasSigNeighbour_iff f).mpr hnb))

theorem refLabel_of_no_neighbour {f : FlagWord} (href : f.getLsbD 14 = false) (hnb : f.extractLsb' 0 8 = 0#8) :
    refLabel f = 14 :=
  (if_neg (Bool.eq_false_iff.mp href)).trans (if_neg fun h => (hasSigNeighbour_iff f).mp h hnb)

theorem refLabel_range (f : FlagWord) : 14 ≤ refLabel f ∧ refLabel f ≤ 16 := by
  unfold refLabel
  split_ifs <;> decide

/-! ## The sign label and the XOR bit (R147, R148) -/

theorem clampSign_eq_sign (a : Int) : clampSign a = a.sign := by
  unfold clampSign
  rcases lt_trichotomy a 0 with h | rfl | h
  · rw [if_pos h, Int.sign_eq_neg_one_of_neg h]
  · rfl
  · rw [if_neg h.not_gt, if_neg h.ne', Int.sign_eq_one_of_pos h]

theorem signH_eq_sign (f : FlagWord) :
    signH f = (contribution (f.getLsbD 1) (f.getLsbD 11) + contribution (f.getLsbD 2) (f.getLsbD 10)).sign :=
  clampSign_eq_sign _

theorem signV_eq_sign (f : FlagWord) :
    signV f = (contribution (f.getLsbD 0) (f.getLsbD 8) + contribution (f.getLsbD 3) (f.getLsbD 9)).sign :=
  clampSign_eq_sign _

/-- One row of R148: the label and the XOR bit are functions of `(H, V)`. -/
theorem sign_row {f : FlagWord} {H V : Int} {l : Nat} {x : Bool} (hl : labelOfSigns H V = l)
    (hx : decide (H < 0 ∨ (H = 0 ∧ V < 0)) = x) :
    signH f = H ∧ signV f = V → signLabel f = l ∧ signXor f = x := by
  rintro ⟨rfl, rfl⟩
  exact ⟨hl, hx⟩

theorem signLabel_range (f : FlagWord) : 9 ≤ signLabel f ∧ signLabel f ≤ 13 := by
  unfold signLabel labelOfSigns
  split_ifs <;> decide

/-! ## The commands (R150 to R152) -/

theorem exec_ctxSig (o : Orient) (f : FlagWord) {s : State} (herr : s.err = false) :
    exec (.ctxSig o f) s = .next { s with res0 := BitVec.ofNat 32 (sigLabel o f) } :=
  s.dispatch_effect _ _ herr

theorem exec_ctxRef (f : FlagWord) {s : State} (herr : s.err = false) :
    exec (.ctxRef f) s = .next { s with res0 := BitVec.ofNat 32 (refLabel f) } :=
  s.dispatch_effect _ _ herr

theorem exec_ctxSgn (f : FlagWord) {s : State} (herr : s.err = false) :
    exec (.ctxSgn f) s =
      .next { s with res0 := BitVec.ofNat 32 (signLabel f), res1 := BitVec.ofNat 32 (signXor f).toNat } :=
  s.dispatch_effect _ _ herr

/-! ## The statements -/

/-- Settles O19: the label is that of the rows of R143 (`labelLine_rows`) or, for `HH`, of R144 (`labelDiag_rows`). -/
theorem ctxSigGivesTheSignificanceLabel : Obligations.CtxSigGivesTheSignificanceLabel := by
  intro o f s herr
  refine ⟨sigLabel o f, exec_ctxSig o f herr, fun ho => ?line, ?diag⟩
  case line =>
    rw [sigLabel_of_ne_hh f ho]
    exact labelLine_rows _ _ _
  case diag =>
    rintro rfl
    exact labelDiag_rows _ _

/-- Settles O21: `H` and `V` are the clamped sums, and each row is one value of them. -/
theorem ctxSgnGivesTheSignLabelAndXor : Obligations.CtxSgnGivesTheSignLabelAndXor := by
  intro f s herr
  refine ⟨signH f, signV f, signLabel f, signXor f, exec_ctxSgn f herr, ⟨signH_eq_sign f, signV_eq_sign f⟩, ?_⟩
  exact ⟨sign_row rfl rfl, sign_row rfl rfl, sign_row rfl rfl, sign_row rfl rfl, sign_row rfl rfl, sign_row rfl rfl,
    sign_row rfl rfl, sign_row rfl rfl, sign_row rfl rfl⟩

/-- Settles O22: the ranges of the three labels, and the counts over the low bytes. -/
theorem contextTablesAreTotal : Obligations.ContextTablesAreTotal :=
  ⟨fun o f => ⟨sigLabel_le o f, sigLabel_eq_zero_iff o f⟩, refLabel_range, signLabel_range, map_labelCount⟩

/-- Settles O20: each clause is one entry of `REFCTX`. -/
theorem ctxRefGivesTheRefinementLabel : Obligations.CtxRefGivesTheRefinementLabel := by
  intro f s herr
  rw [exec_ctxRef f herr]
  refine ⟨fun href => ?_, fun href hnb => ?_, fun href hnb => ?_⟩
  · rw [refLabel_of_refined href]
  · rw [refLabel_of_neighbour href hnb]
  · rw [refLabel_of_no_neighbour href hnb]

end Sys2Proof.Machine
end

section
/-! PROOFS. The family of spec/43_codeblock_window.md: `SET_SIG` and the significance tracker (R164, R169). First the laws
about the model's functions, in the order of the definitions they speak of; then the statement they settle. -/

namespace Sys2Proof.Machine

theorem CbState.acceptsPass_of_ready_or_active {c : CbState} (h : c = .ready ∨ c = .active) : c.acceptsPass = true := by
  rcases h with rfl | rfl <;> rfl

theorem checkCoef_of_lt {s : State} {x y : Nat} (hx : x < s.cbW) (hy : y < s.cbH) : checkCoef s x y = none := by
  rw [checkCoef, decide_eq_true ⟨hx, hy⟩, unlessOk_true]

/-- The tracker writes no magnitude (R164). -/
@[simp] theorem Window.mag_setSig (win : Window) (x y : Nat) (neg : Bool) (a b : Nat) :
    (win.setSig x y neg).mag a b = win.mag a b := rfl

/-- `SET_SIG` past its checks is the tracker (R169). -/
theorem exec_setSig {x y : Nat} (neg : Bool) {s : State} {win : Window} (herr : s.err = false)
    (hacc : s.cbState = .ready ∨ s.cbState = .active) (hwin : s.window = some win) (hx : x < s.cbW) (hy : y < s.cbH)
    (hsig : isSig (win.coef x y) = false) :
    exec (.setSig x y neg) s = .next { s with window := some (win.setSig x y neg), cbState := .active } := by
  show execSetSig x y neg s = _
  rw [execSetSig, CbState.acceptsPass_of_ready_or_active hacc, checkCoef_of_lt hx hy, s.dispatch_effect _ _ herr,
    s.withWindow_some _ _ hwin, if_neg (Bool.eq_false_iff.mp hsig)]

/-- Settles O28: the command is the tracker (`exec_setSig`), whose writes are those of R164 (`Window.setSig_marked`) and
which writes no magnitude. -/
theorem setSigMarksTheNeighbours : Obligations.SetSigMarksTheNeighbours := by
  intro x y neg s win herr hacc hwin hw hx hy hsig
  obtain ⟨own, east, west, south, north, southEast, southWest, northEast, northWest, -, frame⟩ :=
    win.setSig_marked x y neg (Nat.lt_of_lt_of_le hx hw)
  exact ⟨win.setSig x y neg, exec_setSig neg herr hacc hwin hx hy hsig, own, east, west, south, north, southEast,
    southWest, northEast, northWest, frame, win.mag_setSig x y neg⟩

end Sys2Proof.Machine
end

section
/-! PROOFS. The family of spec/44_tier1_passes.md, the decoder: no decoding run stops at a call answered `full` (R199).
First the runs, in the order of the definitions they speak of; then the commands; then the statement. -/

namespace Sys2Proof.Machine

/-! ## Runs no call refuses -/

/-- The run does not stop at a coder call answered `full`. -/
def Res.NotFull {σ α : Type} (r : Res σ α) : Prop := ∀ cur s, r ≠ .full cur s

theorem Res.done_notFull {σ α : Type} (a : α) (s : σ) : (Res.done a s).NotFull := nofun

theorem Res.NotFull.bind {σ α β : Type} {r : Res σ α} {f : α → σ → Res σ β} (h : r.NotFull)
    (hf : ∀ a s, (f a s).NotFull) : (r.bind f).NotFull := by
  cases r with
  | done a s => exact hf a s
  | full cur s => exact absurd rfl (h cur s)
  | hold cur s => exact nofun

theorem forEach_notFull {σ ι : Type} {body : ι → σ → Res σ Unit} (hb : ∀ i s, (body i s).NotFull) (l : List ι) (s : σ) :
    (forEach l body s).NotFull :=
  forEach_not_full body hb l s

/-- Only `CoderEncode` answers `full` (R70). -/
theorem codeBit_dec_notFull (cur : Cursor) (ctx : Nat) (v : Bool) (c : Coding) :
    (codeBit .dec cur ctx v c).NotFull := by
  intro cur' c' hfull
  rcases codeBit_cases .dec cur ctx v c with ⟨hm, _⟩ | ⟨hm, _⟩ | ⟨hm, _⟩ | ⟨_, _, _, _, h⟩ | ⟨_, _, h⟩
  · cases hm
  · cases hm
  · cases hm
  · cases h.symm.trans hfull
  · cases h.symm.trans hfull

section
variable {g : PassCtx} (hg : g.mode = .dec)
include hg

theorem codeBit_notFull (cur : Cursor) (ctx : Nat) (v : Bool) (c : Coding) : (codeBit g.mode cur ctx v c).NotFull := by
  rw [hg]
  exact codeBit_dec_notFull cur ctx v c

theorem sigStep_notFull (cur : Cursor) (x y p : Nat) (c : Coding) : (sigStep g cur x y p c).NotFull :=
  (codeBit_notFull hg _ _ _ _).bind fun _ _ => Res.done_notFull _ _

theorem signStep_notFull (cur : Cursor) (x y : Nat) (c : Coding) : (signStep g cur x y c).NotFull :=
  (codeBit_notFull hg _ _ _ _).bind fun _ _ => Res.done_notFull _ _

theorem sigThenSign_notFull (cur : Cursor) (x y p : Nat) (vis : Bool) (c : Coding) :
    (sigThenSign g cur x y p vis c).NotFull := by
  refine (sigStep_notFull hg _ _ _ _ _).bind fun b c1 => Res.NotFull.bind ?_ fun _ _ => Res.done_notFull _ _
  cases b with
  | true => exact signStep_notFull hg _ _ _ _
  | false => exact Res.done_notFull _ _

theorem sppCell_notFull (p y0 x y : Nat) (c : Coding) : (sppCell g p y0 x y c).NotFull := by
  unfold sppCell
  dsimp only
  split
  · exact sigThenSign_notFull hg _ _ _ _ _ _
  · exact Res.done_notFull _ _

theorem mrpCell_notFull (p y0 x y : Nat) (c : Coding) : (mrpCell g p y0 x y c).NotFull := by
  unfold mrpCell
  dsimp only
  split
  · exact (codeBit_notFull hg _ _ _ _).bind fun _ _ => Res.done_notFull _ _
  · exact Res.done_notFull _ _

theorem cupCell_notFull (p y0 x y : Nat) (c : Coding) : (cupCell g p y0 x y c).NotFull := by
  unfold cupCell
  dsimp only
  split
  · exact sigThenSign_notFull hg _ _ _ _ _ _
  · exact Res.done_notFull _ _

theorem runEnd_notFull (p y0 x rlen : Nat) (c : Coding) : (runEnd g p y0 x rlen c).NotFull :=
  (signStep_notFull hg _ _ _ _).bind fun _ _ => forEach_notFull (fun y => cupCell_notFull hg p y0 x y) _ _

theorem runColumn_notFull (p y0 x : Nat) (c : Coding) : (runColumn g p y0 x c).NotFull := by
  refine (codeBit_notFull hg _ _ _ _).bind fun found c1 => ?_
  cases found with
  | true =>
    exact (codeBit_notFull hg _ _ _ _).bind fun hi _ => (codeBit_notFull hg _ _ _ _).bind fun lo _ =>
      runEnd_notFull hg _ _ _ _ _
  | false => exact Res.done_notFull _ _

theorem cupColumn_notFull (p y0 x : Nat) (c : Coding) : (cupColumn g p y0 x c).NotFull := by
  unfold cupColumn
  split
  · exact runColumn_notFull hg _ _ _ _
  · exact forEach_notFull (cupCell_notFull hg p y0 x) _ _

theorem passColumn_notFull (k : PassKind) (p y0 x : Nat) (c : Coding) : (passColumn g k p y0 x c).NotFull := by
  cases k with
  | spp => exact forEach_notFull (sppCell_notFull hg p y0 x) _ _
  | mrp => exact forEach_notFull (mrpCell_notFull hg p y0 x) _ _
  | cup => exact cupColumn_notFull hg p y0 x c

theorem codingPass_notFull (k : PassKind) (p : Nat) (c : Coding) : (codingPass g k p c).NotFull :=
  (forEach_notFull (fun col : Nat × Nat => passColumn_notFull hg k p col.1 col.2) _ _).bind fun _ _ =>
    Res.done_notFull _ _

theorem codingBlock_notFull (nbp : Nat) (c : Coding) : (codingBlock g nbp c).NotFull :=
  forEach_notFull (fun p => forEach_notFull (fun k => codingPass_notFull hg k p) _) _ _

end

/-! ## The commands past their checks (R191 to R194) -/

theorem checkPlane_of_le {p : Nat} (hp : p ≤ 30) : checkPlane p = none := by
  rw [checkPlane, decide_eq_true (show p < magW from Nat.lt_succ_of_le hp), unlessOk_true]

theorem checkPlanes_of_le {nbp : Nat} (hn : nbp ≤ 31) : checkPlanes nbp = none := by
  rw [checkPlanes, decide_eq_true (show nbp ≤ magW from hn), unlessOk_true]

theorem exec_t1DecPass (k : PassKind) {p : Nat} {s : State} {win : Window} (herr : s.err = false)
    (hacc : s.cbState = .ready ∨ s.cbState = .active) (hwin : s.window = some win) (hp : p ≤ 30) :
    exec (.t1DecPass k p) s = s.finish (.t1DecPass k p) id (codingPass (s.passCtx .dec) k p (s.coding win)) := by
  show s.onePass (.t1DecPass k p) .dec k p = _
  rw [State.onePass, CbState.acceptsPass_of_ready_or_active hacc, checkPlane_of_le hp, s.dispatch_effect _ _ herr,
    s.withWindow_some _ _ hwin]

theorem exec_t1EncBlock {s : State} {win : Window} (herr : s.err = false) (hready : s.cbState = .ready)
    (hwin : s.window = some win) :
    exec .t1EncBlock s = s.finish .t1EncBlock (fun t => t.blockResults (planesOf win s.cbW s.cbH))
      (codingBlock (s.passCtx .enc) (planesOf win s.cbW s.cbH) (s.coding win)) := by
  show execT1EncBlock s = _
  rw [execT1EncBlock, hready, CbState.acceptsLoad, s.dispatch_effect _ _ herr, s.withWindow_some _ _ hwin]

theorem exec_t1DecBlock {nbp : Nat} {s : State} {win : Window} (herr : s.err = false) (hready : s.cbState = .ready)
    (hwin : s.window = some win) (hn : nbp ≤ 31) :
    exec (.t1DecBlock nbp) s = s.finish (.t1DecBlock nbp) (fun t => t.blockResults nbp)
      (codingBlock (s.passCtx .dec) nbp (s.coding win)) := by
  show execT1DecBlock nbp s = _
  rw [execT1DecBlock, hready, CbState.acceptsLoad, checkPlanes_of_le hn, s.dispatch_effect _ _ herr,
    s.withWindow_some _ _ hwin]

/-- A pass command that no call refuses completes or waits, neither of which is a fault (R73, R199). -/
theorem State.finish_err_of_notFull {s : State} (i : Instr) {results : State → State} {r : Res Coding Unit}
    (hr : r.NotFull) (hres : ∀ t, (results t).err = t.err) : ∃ t, s.finish i results r = .next t ∧ t.err = s.err := by
  rcases s.finish_cases i results r with ⟨c, _, h⟩ | ⟨cur, c, hfull, _⟩ | ⟨cur, c, _, h⟩
  · exact ⟨_, h, hres _⟩
  · exact absurd hfull (hr cur c)
  · exact ⟨_, h, rfl⟩

/-- Settles O45: a decoding run meets no `full` (`codingPass_notFull`, `codingBlock_notFull`). -/
theorem decodeNeverFaults : Obligations.DecodeNeverFaults := by
  intro s win herr hwin
  refine ⟨fun k p hacc hp => ?pass, fun nbp hready hn => ?block⟩
  case pass =>
    rw [exec_t1DecPass k herr hacc hwin hp, ← herr]
    exact State.finish_err_of_notFull _ (codingPass_notFull rfl k p _) fun _ => rfl
  case block =>
    rw [exec_t1DecBlock herr hready hwin hn, ← herr]
    exact State.finish_err_of_notFull _ (codingBlock_notFull rfl nbp _) fun _ => rfl

end Sys2Proof.Machine
end

section
/-! PROOFS. The family of spec/44_tier1_passes.md, the round trip of a code-block (R198). First flag words and windows;
then two runs side by side (`Mirrors`), step by step up to the visit of a cell; then what the decoder knows of each
coefficient (`knownFrom`) and the relation between the two windows that every pass keeps (`Tracks`), up to a block; then
the statement. -/

namespace Sys2Proof.Machine

/-! ## Flag words that agree but for an idle sign -/

theorem getLsbD_putMask (f m : FlagWord) (v : Bool) {i : Nat} (hi : i < 16) :
    (putMask f m v).getLsbD i = if m.getLsbD i then v else f.getLsbD i := by
  cases v with
  | true => cases hm : m.getLsbD i <;> simp [putMask, hm, -BitVec.getLsbD_eq_getElem]
  | false => cases hm : m.getLsbD i <;> simp [putMask, hm, hi, -BitVec.getLsbD_eq_getElem]

theorem getLsbD_idleMask {i : Nat} (hi : i < 16) : (0x7FFF#16).getLsbD i = decide (i < 15) := by
  revert i
  decide

/-- Agreement bit by bit: the low fifteen, and the sign of a significant coefficient. -/
theorem sameButIdleSign_iff (f g : FlagWord) :
    sameButIdleSign f g ↔ (∀ i < 15, f.getLsbD i = g.getLsbD i) ∧ (isSig f = true → isNeg f = isNeg g) := by
  constructor
  · rintro ⟨hlow, hsig⟩
    refine ⟨fun i hi => ?_, fun hs => congrArg isNeg (hsig hs)⟩
    have hbit := congrArg (BitVec.getLsbD · i) hlow
    simpa [getLsbD_idleMask (Nat.lt_succ_of_lt hi), hi] using hbit
  · rintro ⟨hlow, hsig⟩
    refine ⟨BitVec.eq_of_getLsbD_eq fun i hi => ?_, fun hs => BitVec.eq_of_getLsbD_eq fun i hi => ?_⟩
    · rw [BitVec.getLsbD_and, BitVec.getLsbD_and, getLsbD_idleMask hi]
      by_cases h15 : i < 15
      · rw [hlow i h15]
      · simp [h15]
    · obtain h15 | rfl : i < 15 ∨ i = 15 := by omega
      · exact hlow i h15
      · exact hsig hs

namespace sameButIdleSign

variable {f g : FlagWord} (hfg : sameButIdleSign f g)
include hfg

theorem getLsbD_eq {i : Nat} (hi : i < 15) : f.getLsbD i = g.getLsbD i := ((sameButIdleSign_iff f g).mp hfg).1 i hi

theorem isSig_eq : isSig f = isSig g := hfg.getLsbD_eq (by decide)

theorem isVis_eq : isVis f = isVis g := hfg.getLsbD_eq (by decide)

theorem mask {m : FlagWord} (hm : 0x7FFF#16 &&& m = m) : f &&& m = g &&& m := by
  rw [← hm, ← BitVec.and_assoc, ← BitVec.and_assoc, hfg.1]

theorem hasSigNeighbour_eq : hasSigNeighbour f = hasSigNeighbour g := by
  unfold hasSigNeighbour
  rw [hfg.mask (by decide)]

theorem sigLabel_eq (o : Orient) : sigLabel o f = sigLabel o g := by
  have hH : countH f = countH g := by simp only [countH, hfg.getLsbD_eq, Nat.reduceLT]
  have hV : countV f = countV g := by simp only [countV, hfg.getLsbD_eq, Nat.reduceLT]
  have hD : countD f = countD g := by simp only [countD, hfg.getLsbD_eq, Nat.reduceLT]
  cases o <;> simp only [sigLabel, hH, hV, hD]

theorem refLabel_eq : refLabel f = refLabel g := by
  have hR : isRef f = isRef g := hfg.getLsbD_eq (by decide)
  simp only [refLabel, hR, hfg.hasSigNeighbour_eq]

theorem signH_eq : signH f = signH g := by
  simp only [signH, hfg.getLsbD_eq, Nat.reduceLT]

theorem signV_eq : signV f = signV g := by
  simp only [signV, hfg.getLsbD_eq, Nat.reduceLT]

theorem signLabel_eq : signLabel f = signLabel g := by simp only [signLabel, hfg.signH_eq, hfg.signV_eq]

theorem signXor_eq : signXor f = signXor g := by simp only [signXor, hfg.signH_eq, hfg.signV_eq]

/-- A bit other than `SIG`, written alike. -/
theorem putMask {m : FlagWord} (hm : m.getLsbD 13 = false) (v : Bool) :
    sameButIdleSign (putMask f m v) (putMask g m v) := by
  obtain ⟨hlow, hneg⟩ := (sameButIdleSign_iff f g).mp hfg
  refine (sameButIdleSign_iff _ _).mpr ⟨fun i hi => ?_, fun hs => ?_⟩
  · rw [getLsbD_putMask _ _ _ (by omega), getLsbD_putMask _ _ _ (by omega), hlow i hi]
  · simp only [isSig, isNeg, getLsbD_putMask, Nat.reduceLT, hm, Bool.false_eq_true, if_false] at hs hneg ⊢
    rw [hneg hs]

/-- Words that agree in their sign too are equal. -/
theorem eq_of_isNeg (hneg : isNeg f = isNeg g) : f = g := by
  refine BitVec.eq_of_getLsbD_eq fun i hi => ?_
  obtain h15 | rfl : i < 15 ∨ i = 15 := by omega
  · exact hfg.getLsbD_eq h15
  · exact hneg

end sameButIdleSign

/-- Neighbour bits leave the owner bits alone. -/
theorem getLsbD_of_neighbourMask {m : FlagWord} (hm : m &&& 0xF000#16 = 0#16) {i : Nat} (hi : 12 ≤ i) (hi' : i < 16) :
    m.getLsbD i = false := by
  have hbit := congrArg (BitVec.getLsbD · i) hm
  have hF : ∀ j < 16, 12 ≤ j → (0xF000#16).getLsbD j = true := by decide
  simpa [hF i hi' hi, -BitVec.getLsbD_eq_getElem] using hbit

/-! ## A visit to one coefficient -/

/-- A bit of the magnitude, stored if it is 1 (R186). -/
def Window.store (win : Window) (x y p : Nat) (bit : Bool) : Window := if bit then win.orMag x y p else win

/-- What a visit writes into the flag words: the tracker, if the coefficient becomes significant, and one owner bit
(R184, R185, R187, R188). -/
def Window.visit (win : Window) (x y : Nat) (on neg : Bool) (m : FlagWord) (v : Bool) : Window :=
  (if on then win.setSig x y neg else win).putBit (x + 1) (y + 1) m v

/-- What a visit makes of the coefficient's own flag word. -/
def ownWord (f : FlagWord) (on neg : Bool) (m : FlagWord) (v : Bool) : FlagWord :=
  putMask (if on then putMask (f ||| flagSig) flagSgn neg else f) m v

@[simp] theorem Window.flag_store (win : Window) (x y p : Nat) (bit : Bool) (wx wy : Nat) :
    (win.store x y p bit).flag wx wy = win.flag wx wy := by
  cases bit <;> rfl

@[simp] theorem Window.coef_store (win : Window) (x y p : Nat) (bit : Bool) (i j : Nat) :
    (win.store x y p bit).coef i j = win.coef i j := win.flag_store ..

theorem Window.mag_store_same (win : Window) (x y p : Nat) (bit : Bool) :
    (win.store x y p bit).mag x y =
      if bit then win.mag x y ||| BitVec.ofNat 31 (2 ^ p) else win.mag x y := by
  cases bit with
  | true => simp [Window.store, Window.orMag, Window.mag_putMag]
  | false => rfl

theorem Window.mag_store_other (win : Window) {x y i j : Nat} (p : Nat) (bit : Bool) (hx : x < 64) (hi : i < 64)
    (hne : (i, j) ≠ (x, y)) : (win.store x y p bit).mag i j = win.mag i j := by
  cases bit with
  | true =>
    refine (Window.mag_putMag ..).trans (if_neg fun haddr => hne ?_)
    obtain ⟨rfl, rfl⟩ := (magAddr_inj hi hx).mp haddr
    rfl
  | false => rfl

theorem Window.mags_visit (win : Window) (x y : Nat) (on neg : Bool) (m : FlagWord) (v : Bool) :
    (win.visit x y on neg m v).mags = win.mags := by
  cases on <;> rfl

theorem Window.mag_visit (win : Window) (x y : Nat) (on neg : Bool) (m : FlagWord) (v : Bool) (i j : Nat) :
    (win.visit x y on neg m v).mag i j = win.mag i j := by
  unfold Window.mag
  rw [Window.mags_visit]

theorem Window.coef_setSig (win : Window) {x : Nat} (y : Nat) (neg : Bool) (hx : x < 64) :
    (win.setSig x y neg).coef x y = putMask (win.coef x y ||| flagSig) flagSgn neg := by
  obtain ⟨own, -⟩ := win.setSig_marked x y neg hx
  refine own.trans ?_
  cases neg <;> simp [putMask, flagSig, flagSgn, BitVec.or_assoc, Window.coef]

theorem Window.coef_visit (win : Window) {x : Nat} (y : Nat) (on neg : Bool) (m : FlagWord) (v : Bool) (hx : x < 64) :
    (win.visit x y on neg m v).coef x y = ownWord (win.coef x y) on neg m v := by
  refine (Window.flag_putBit_same ..).trans ?_
  cases on with
  | true => exact congrArg (putMask · m v) (win.coef_setSig y neg hx)
  | false => rfl

/-- The tracker sets the same neighbour bits of a cell in every window (R164). -/
theorem Window.flag_setSig_other {x y wx wy : Nat} (neg : Bool) (hx : x < 64) (hw : wx < 66)
    (hne : (wx, wy) ≠ (x + 1, y + 1)) :
    ∃ m : FlagWord, m &&& 0xF000#16 = 0#16 ∧
      ∀ win : Window, (win.setSig x y neg).flag wx wy = win.flag wx wy ||| m := by
  have hmark := fun win : Window => win.setSig_marked x y neg hx
  simp only [Window.marked, forall_and] at hmark
  obtain ⟨-, east, west, south, north, southEast, southWest, northEast, northWest, -, frame⟩ := hmark
  by_cases hin : x ≤ wx ∧ wx ≤ x + 2 ∧ y ≤ wy ∧ wy ≤ y + 2
  · have hcell : (wx = x + 2 ∧ wy = y + 1) ∨ (wx = x ∧ wy = y + 1) ∨ (wx = x + 1 ∧ wy = y + 2) ∨
        (wx = x + 1 ∧ wy = y) ∨ (wx = x + 2 ∧ wy = y + 2) ∨ (wx = x ∧ wy = y + 2) ∨ (wx = x + 2 ∧ wy = y) ∨
        (wx = x ∧ wy = y) := by
      simp only [ne_eq, Prod.mk.injEq] at hne
      omega
    rcases hcell with ⟨rfl, rfl⟩ | ⟨rfl, rfl⟩ | ⟨rfl, rfl⟩ | ⟨rfl, rfl⟩ | ⟨rfl, rfl⟩ |
      ⟨rfl, rfl⟩ | ⟨rfl, rfl⟩ | ⟨rfl, rfl⟩
    · exact ⟨_, by cases neg <;> decide, east⟩
    · exact ⟨_, by cases neg <;> decide, west⟩
    · exact ⟨_, by cases neg <;> decide, south⟩
    · exact ⟨_, by cases neg <;> decide, north⟩
    · exact ⟨_, by decide, southEast⟩
    · exact ⟨_, by decide, southWest⟩
    · exact ⟨_, by decide, northEast⟩
    · exact ⟨_, by decide, northWest⟩
  · exact ⟨0#16, by decide, fun win => by rw [frame win wx wy hw hin, BitVec.or_zero]⟩

/-- Outside its coefficient a visit sets the same neighbour bits of a cell in every window. -/
theorem Window.flag_visit_other {x y wx wy : Nat} (on neg : Bool) (m : FlagWord) (v : Bool) (hx : x < 64) (hw : wx < 66)
    (hne : (wx, wy) ≠ (x + 1, y + 1)) :
    ∃ n : FlagWord, n &&& 0xF000#16 = 0#16 ∧
      ∀ win : Window, (win.visit x y on neg m v).flag wx wy = putMask (win.flag wx wy) n true := by
  have hput : ∀ win : Window, (win.putBit (x + 1) (y + 1) m v).flag wx wy = win.flag wx wy := fun win =>
    (win.putBit_onlyFlag x y m v hx).2.2 wx wy hw hne
  cases on with
  | true =>
    obtain ⟨n, hn, hset⟩ := Window.flag_setSig_other neg hx hw hne
    exact ⟨n, hn, fun win => (hput _).trans (hset win)⟩
  | false => exact ⟨0#16, by decide, fun win => (hput win).trans (BitVec.or_zero).symm⟩

theorem isVis_ownWord (f : FlagWord) (on neg : Bool) (m : FlagWord) (v : Bool) :
    isVis (ownWord f on neg m v) = if m.getLsbD 12 then v else isVis f := by
  cases on with
  | true => simp [isVis, ownWord, getLsbD_putMask, flagSig, flagSgn, -BitVec.getLsbD_eq_getElem]
  | false => simp [isVis, ownWord, getLsbD_putMask, -BitVec.getLsbD_eq_getElem]

/-- The owner bits a visit writes itself. -/
theorem ownerMask_bits {m : FlagWord} (hm : m = flagVis ∨ m = flagRef) :
    m.getLsbD 13 = false ∧ m.getLsbD 15 = false := by
  rcases hm with rfl | rfl <;> decide

section
variable {m : FlagWord} (hm : m = flagVis ∨ m = flagRef)
include hm

theorem isSig_ownWord (f : FlagWord) (on neg v : Bool) : isSig (ownWord f on neg m v) = (on || isSig f) := by
  obtain ⟨h13, -⟩ := ownerMask_bits hm
  cases on with
  | true => simp [isSig, ownWord, getLsbD_putMask, h13, flagSig, flagSgn, -BitVec.getLsbD_eq_getElem]
  | false => simp [isSig, ownWord, getLsbD_putMask, h13, -BitVec.getLsbD_eq_getElem]

theorem isNeg_ownWord_off (f : FlagWord) (neg v : Bool) : isNeg (ownWord f false neg m v) = isNeg f := by
  obtain ⟨-, h15⟩ := ownerMask_bits hm
  simp [isNeg, ownWord, getLsbD_putMask, h15, -BitVec.getLsbD_eq_getElem]

/-- A visit with the same sign keeps the two words alike. -/
theorem sameButIdleSign_ownWord {f g : FlagWord} (hfg : sameButIdleSign f g) (on neg v : Bool) :
    sameButIdleSign (ownWord f on neg m v) (ownWord g on neg m v) := by
  obtain ⟨h13, -⟩ := ownerMask_bits hm
  cases on with
  | false => exact hfg.putMask h13 v
  | true =>
    refine sameButIdleSign.putMask ?_ h13 v
    simp only [if_true]
    refine (sameButIdleSign_iff _ _).mpr ⟨fun i hi => ?_, fun _ => ?_⟩
    · rw [getLsbD_putMask _ _ _ (by omega), getLsbD_putMask _ _ _ (by omega), BitVec.getLsbD_or, BitVec.getLsbD_or,
        hfg.getLsbD_eq hi]
    · simp [isNeg, getLsbD_putMask, flagSgn, -BitVec.getLsbD_eq_getElem]

end

/-! ## Two runs side by side -/

@[simp] theorem decoded_append (a b : List CodEvent) : decoded (a ++ b) = decoded a ++ decoded b := by
  induction a with
  | nil => rfl
  | cons e rest ih => cases e <;> simp [decoded, ih]

/-- A port that never says `full` says `ok`, and stays so. -/
theorem Answers.pop_neverFull {q : Answers EncAnswer} (hq : q.neverFull = true) :
    ∃ r, q.pop = some (.ok, r) ∧ r.neverFull = true := by
  obtain ⟨pending, rest⟩ := q
  simp only [Answers.neverFull, Bool.and_eq_true, List.all_eq_true, decide_eq_true_eq] at hq
  obtain ⟨hpending, rfl⟩ := hq
  cases pending with
  | nil => exact ⟨_, rfl, rfl⟩
  | cons a more =>
    obtain rfl := hpending a (by simp)
    refine ⟨_, rfl, ?_⟩
    simpa [Answers.neverFull] using fun b hb => hpending b (by simp [hb])

/-- From window `a` the encoder's run, whose coder takes every bit, goes to its end, and from window `b` the decoder's
run, given the bits coded, goes to its end with the same value and the encoder's events with `Dec` for `Enc` (R198). `Q`
holds of the value and of the two windows at the end. -/
def Mirrors {α : Type} (a b : Window) (enc dec : Coding → Res Coding α) (Q : α → Window → Window → Prop) : Prop :=
  ∀ c, c.win = a → c.encIn.neverFull = true →
    ∃ v c' b' ev, enc c = .done v c' ∧ c'.encIn.neverFull = true ∧ c'.cod = c.cod ++ ev ∧ Q v c'.win b' ∧
      ∀ d more, d.win = b → d.decIn.pending = encBits ev ++ more →
        ∃ d', dec d = .done v d' ∧ d'.win = b' ∧ d'.cod = d.cod ++ decoded ev ∧ d'.decIn.pending = more

namespace Mirrors

variable {α β : Type} {a b : Window} {enc dec : Coding → Res Coding α} {Q : α → Window → Window → Prop}

theorem mono {Q' : α → Window → Window → Prop} (h : Mirrors a b enc dec Q) (hQ : ∀ v a' b', Q v a' b' → Q' v a' b') :
    Mirrors a b enc dec Q' := by
  intro c hc hfull
  obtain ⟨v, c', b', ev, henc, hfull', hcod, hq, hdec⟩ := h c hc hfull
  exact ⟨v, c', b', ev, henc, hfull', hcod, hQ _ _ _ hq, hdec⟩

/-- The runs only matter from the windows they start in. -/
theorem congr {enc' dec' : Coding → Res Coding α} (h : Mirrors a b enc dec Q) (he : ∀ c, c.win = a → enc' c = enc c)
    (hd : ∀ d, d.win = b → dec' d = dec d) : Mirrors a b enc' dec' Q := by
  intro c hc hfull
  obtain ⟨v, c', b', ev, henc, hfull', hcod, hq, hdec⟩ := h c hc hfull
  refine ⟨v, c', b', ev, (he c hc).trans henc, hfull', hcod, hq, fun d more hdw hpend => ?_⟩
  rw [hd d hdw]
  exact hdec d more hdw hpend

/-- One write into each window. -/
theorem write {v : α} {f g : Window → Window} (hQ : Q v (f a) (g b)) :
    Mirrors a b (fun c => .done v (c.mapWin f)) (fun d => .done v (d.mapWin g)) Q := by
  rintro c rfl hfull
  refine ⟨v, c.mapWin f, g b, [], rfl, hfull, (List.append_nil _).symm, hQ, ?_⟩
  rintro d more rfl hpend
  exact ⟨d.mapWin g, rfl, rfl, (List.append_nil _).symm, hpend⟩

theorem done {v : α} (hQ : Q v a b) : Mirrors a b (fun c => .done v c) (fun d => .done v d) Q :=
  write (f := id) (g := id) hQ

/-- An event of the coder port that carries no bit. -/
theorem emit {e : CodEvent} (hbits : encBits [e] = []) (hdecoded : decoded [e] = [e])
    {Q : Unit → Window → Window → Prop} (hQ : Q () a b) :
    Mirrors a b (fun c => .done () (c.emit e)) (fun d => .done () (d.emit e)) Q := by
  rintro c rfl hfull
  refine ⟨(), c.emit e, b, [e], rfl, hfull, rfl, hQ, ?_⟩
  rintro d more rfl hpend
  exact ⟨d.emit e, rfl, rfl, by rw [hdecoded]; rfl, by rw [hbits] at hpend; exact hpend⟩

theorem bind {R : β → Window → Window → Prop} {encNext decNext : α → Coding → Res Coding β} (h : Mirrors a b enc dec Q)
    (hnext : ∀ v a' b', Q v a' b' → Mirrors a' b' (encNext v) (decNext v) R) :
    Mirrors a b (fun c => (enc c).bind encNext) (fun d => (dec d).bind decNext) R := by
  intro c hc hfull
  obtain ⟨v, c1, b1, ev1, henc1, hfull1, hcod1, hq, hdec1⟩ := h c hc hfull
  obtain ⟨u, c2, b2, ev2, henc2, hfull2, hcod2, hr, hdec2⟩ := hnext v c1.win b1 hq c1 rfl hfull1
  refine ⟨u, c2, b2, ev1 ++ ev2, ?_, hfull2, ?_, hr, fun d more hd hpend => ?_⟩
  · show (enc c).bind encNext = _
    rw [henc1, Res.bind_done, henc2]
  · rw [hcod2, hcod1, List.append_assoc]
  · rw [encBits_append, List.append_assoc] at hpend
    obtain ⟨d1, hd1, hw1, hdcod1, hpend1⟩ := hdec1 d _ hd hpend
    obtain ⟨d2, hd2, hw2, hdcod2, hpend2⟩ := hdec2 d1 more hw1 hpend1
    refine ⟨d2, ?_, hw2, ?_, hpend2⟩
    · show (dec d).bind decNext = _
      rw [hd1, Res.bind_done, hd2]
    · rw [hdcod2, hdcod1, decoded_append, List.append_assoc]

/-- A run that begins with a write into each window. -/
theorem afterWrite {f g : Window → Window} (h : Mirrors (f a) (g b) enc dec Q) :
    Mirrors a b (fun c => enc (c.mapWin f)) (fun d => dec (d.mapWin g)) Q := by
  refine (write (v := ()) (f := f) (g := g) (Q := fun _ a' b' => a' = f a ∧ b' = g b) ⟨rfl, rfl⟩).bind
    (encNext := fun _ => enc) (decNext := fun _ => dec) ?_
  rintro _ a' b' ⟨rfl, rfl⟩
  exact h

/-- A loop, where `I` says of a set what is done. -/
theorem forEach {ι κ : Type} {I : Set κ → Window → Window → Prop} {cells : ι → Set κ}
    {encBody decBody : ι → Coding → Res Coding Unit} (l : List ι)
    (hbody : ∀ i ∈ l, ∀ T a b, I T a b → Mirrors a b (encBody i) (decBody i) fun _ => I (T ∪ cells i)) {T : Set κ}
    (hI : I T a b) :
    Mirrors a b (Machine.forEach l encBody) (Machine.forEach l decBody)
      fun _ => I (T ∪ {c | ∃ i ∈ l, c ∈ cells i}) := by
  induction l generalizing a b T with
  | nil => exact done (by simpa using hI)
  | cons i rest ih =>
    refine (hbody i (by simp) T a b hI).bind fun _ a' b' hI' => ?_
    refine (ih (fun j hj => hbody j (by simp [hj])) hI').mono fun _ a2 b2 hI2 => ?_
    have hunion : T ∪ cells i ∪ {c | ∃ j ∈ rest, c ∈ cells j} = T ∪ {c | ∃ j ∈ i :: rest, c ∈ cells j} := by
      ext c
      simp [or_assoc]
    rwa [hunion] at hI2

end Mirrors

/-- The two directions of one pass (R183). -/
def PassCtx.toward (g : PassCtx) (m : Mode) : PassCtx := { g with mode := m }

/-- One coder call in one context: the decoder gets the encoder's bit (R183). -/
theorem codeBit_mirrors (a b : Window) (cur : Cursor) {ctx ctx' : Nat} (v v' : Bool) (hctx : ctx' = ctx) :
    Mirrors a b (codeBit .enc cur ctx v) (codeBit .dec cur ctx' v') fun r a' b' => r = v ∧ a' = a ∧ b' = b := by
  subst hctx
  rintro c rfl hfull
  obtain ⟨r, hpop, hr⟩ := Answers.pop_neverFull hfull
  refine ⟨v, Coding.emit { c with encIn := r } (.enc ctx' v), b, [.enc ctx' v], ?_, hr, rfl, ⟨rfl, rfl, rfl⟩, ?_⟩
  · simp only [codeBit, hpop]
  · rintro d more rfl hpend
    have hpop' : d.decIn.pop = some (v, { d.decIn with pending := more }) := by
      have hcons : d.decIn.pending = v :: more := hpend
      simp only [Answers.pop, hcons]
    exact ⟨Coding.emit { d with decIn := { d.decIn with pending := more } } (.dec ctx' v),
      by simp only [codeBit, hpop'], rfl, rfl, rfl⟩

section
variable {g : PassCtx} {a b : Window} {cur : Cursor} {x y p : Nat}

theorem storeBit_enc_eq (c : Coding) (v : Bool) : storeBit (g.toward .enc) x y p v c = c.mapWin id :=
  storeBit_enc _ x y p v c rfl

theorem storeBit_dec_eq (d : Coding) (v : Bool) :
    storeBit (g.toward .dec) x y p v d = d.mapWin fun win => win.store x y p v := by
  cases v with
  | true => exact if_pos ⟨rfl, rfl⟩
  | false => exact storeBit_false _ x y p d

/-- A stored bit (R186). -/
theorem storeBit_mirrors (v : Bool) :
    Mirrors a b (fun c => .done v (storeBit (g.toward .enc) x y p v c))
      (fun d => .done v (storeBit (g.toward .dec) x y p v d)) fun r a' b' => r = v ∧ a' = a ∧ b' = b.store x y p v :=
  (Mirrors.write (f := id) (g := fun win => win.store x y p v) ⟨rfl, rfl, rfl⟩).congr
    (fun c _ => by rw [storeBit_enc_eq]) (fun d _ => by rw [storeBit_dec_eq])

/-- The significance step codes bit `p` of the encoder's magnitude (R183). -/
theorem sigStep_mirrors (hf : sameButIdleSign (a.coef x y) (b.coef x y)) :
    Mirrors a b (sigStep (g.toward .enc) cur x y p) (sigStep (g.toward .dec) cur x y p)
      fun v a' b' => v = magBit a x y p ∧ a' = a ∧ b' = b.store x y p v := by
  refine ((codeBit_mirrors a b cur (magBit a x y p) (magBit b x y p) (hf.sigLabel_eq g.orient).symm).bind
    (encNext := fun v c => .done v (storeBit (g.toward .enc) x y p v c))
    (decNext := fun v d => .done v (storeBit (g.toward .dec) x y p v d)) ?_).congr
    (by rintro c rfl; rfl) (by rintro d rfl; rfl)
  rintro v a' b' ⟨rfl, rfl, rfl⟩
  refine (storeBit_mirrors _).mono ?_
  rintro v a2 b2 ⟨rfl, rfl, rfl⟩
  exact ⟨rfl, rfl, rfl⟩

/-- The sign step marks the coefficient with the encoder's sign in both windows (R184). -/
theorem signStep_mirrors (hf : sameButIdleSign (a.coef x y) (b.coef x y)) :
    Mirrors a b (signStep (g.toward .enc) cur x y) (signStep (g.toward .dec) cur x y)
      fun _ a' b' => a' = a.setSig x y (isNeg (a.coef x y)) ∧ b' = b.setSig x y (isNeg (a.coef x y)) := by
  refine ((codeBit_mirrors a b cur (isNeg (a.coef x y) ^^ signXor (a.coef x y))
    (isNeg (b.coef x y) ^^ signXor (b.coef x y)) hf.signLabel_eq.symm).bind
    (encNext := fun v c => .done () (c.mapWin fun win => win.setSig x y (v ^^ signXor (a.coef x y))))
    (decNext := fun v d => .done () (d.mapWin fun win => win.setSig x y (v ^^ signXor (b.coef x y)))) ?_).congr
    (by rintro c rfl; rfl) (by rintro d rfl; rfl)
  rintro v a' b' ⟨rfl, rfl, rfl⟩
  refine Mirrors.write ?_
  rw [← hf.signXor_eq, Bool.xor_assoc, Bool.xor_self, Bool.xor_false]
  exact ⟨rfl, rfl⟩

/-- The significance step and, after a 1, the sign step; then `VIS` (R185, R188). -/
theorem sigThenSign_mirrors (vis : Bool) (hf : sameButIdleSign (a.coef x y) (b.coef x y)) :
    Mirrors a b (sigThenSign (g.toward .enc) cur x y p vis) (sigThenSign (g.toward .dec) cur x y p vis)
      fun _ a' b' => a' = a.visit x y (magBit a x y p) (isNeg (a.coef x y)) flagVis vis ∧
        b' = (b.store x y p (magBit a x y p)).visit x y (magBit a x y p) (isNeg (a.coef x y)) flagVis vis := by
  refine (sigStep_mirrors hf).bind ?_
  rintro v a' b' ⟨rfl, rfl, rfl⟩
  have hf' : sameButIdleSign (a'.coef x y) ((b.store x y p (magBit a' x y p)).coef x y) := by
    rwa [Window.coef_store]
  generalize magBit a' x y p = bit at hf' ⊢
  cases bit with
  | true =>
    refine (signStep_mirrors hf').bind ?_
    rintro _ a2 b2 ⟨rfl, rfl⟩
    exact Mirrors.write ⟨rfl, rfl⟩
  | false => exact Mirrors.write ⟨rfl, rfl⟩

/-- A refinement codes bit `p` of the encoder's magnitude and sets `REF` (R187). -/
theorem refine_mirrors (hf : sameButIdleSign (a.coef x y) (b.coef x y)) (neg : Bool) :
    Mirrors a b
      (fun c => (codeBit .enc cur (refLabel (a.coef x y)) (magBit a x y p) c).bind fun v c' =>
        .done () ((storeBit (g.toward .enc) x y p v c').putOwner x y flagRef true))
      (fun d => (codeBit .dec cur (refLabel (b.coef x y)) (magBit b x y p) d).bind fun v d' =>
        .done () ((storeBit (g.toward .dec) x y p v d').putOwner x y flagRef true))
      fun _ a' b' => a' = a.visit x y false neg flagRef true ∧
        b' = (b.store x y p (magBit a x y p)).visit x y false neg flagRef true := by
  refine (codeBit_mirrors a b cur _ _ hf.refLabel_eq.symm).bind ?_
  rintro v a' b' ⟨rfl, rfl, rfl⟩
  refine (Mirrors.write (v := ()) (f := fun win => win.visit x y false neg flagRef true)
    (g := fun win => (win.store x y p (magBit a' x y p)).visit x y false neg flagRef true) ⟨rfl, rfl⟩).congr
    (fun c _ => ?_) (fun d _ => ?_)
  · rw [storeBit_enc_eq]
    rfl
  · rw [storeBit_dec_eq]
    rfl

end

/-! ## What the decoder knows of a coefficient -/

/-- From bit-plane `n` up: `M` is the encoder's magnitude, the decoder's magnitude `D` has exactly those bits of it, and
the coefficient is significant if one of them is 1. -/
def knownFrom (n : Nat) (M D : Magnitude) (sig : Bool) : Prop :=
  (∀ i, D.getLsbD i = (decide (n ≤ i) && M.getLsbD i)) ∧ (sig = true ↔ ∃ i, n ≤ i ∧ M.getLsbD i = true)

/-- Nothing is known above the highest bit-plane. -/
theorem knownFrom_start {n : Nat} {M : Magnitude} (hM : M.toNat < 2 ^ n) : knownFrom n M 0#31 false := by
  have hzero : ∀ i, n ≤ i → M.getLsbD i = false := fun i hi =>
    Nat.testBit_lt_two_pow (Nat.lt_of_lt_of_le hM (Nat.pow_le_pow_right (by decide) hi))
  refine ⟨fun i => ?_, by simp, fun ⟨i, hi, hbit⟩ => ?_⟩
  · by_cases hi : n ≤ i
    · simp [hzero i hi, -BitVec.getLsbD_eq_getElem]
    · simp [hi]
  · rw [hzero i hi] at hbit
    cases hbit

theorem knownFrom_zero {M D : Magnitude} {sig : Bool} (h : knownFrom 0 M D sig) : D = M ∧ (sig = true ↔ M ≠ 0#31) := by
  obtain ⟨hbits, hsig⟩ := h
  refine ⟨BitVec.eq_of_getLsbD_eq fun i _ => by simpa using hbits i, hsig.trans ⟨?_, fun hM => ?_⟩⟩
  · rintro ⟨i, -, hbit⟩ rfl
    simp at hbit
  · by_contra hnone
    refine hM (BitVec.eq_of_getLsbD_eq fun i _ => ?_)
    simpa using fun hbit => hnone ⟨i, Nat.zero_le i, hbit⟩

theorem getLsbD_or_two_pow (D : Magnitude) (p i : Nat) :
    (D ||| BitVec.ofNat 31 (2 ^ p)).getLsbD i = (D.getLsbD i || (decide (i < 31) && decide (p = i))) := by
  rw [BitVec.getLsbD_or, BitVec.getLsbD_ofNat, Nat.testBit_two_pow]

/-- Coding bit `p` makes it known, and coding it again changes nothing. -/
theorem knownFrom_code {p : Nat} {M D : Magnitude} {sig : Bool} (h : knownFrom (p + 1) M D sig ∨ knownFrom p M D sig) :
    knownFrom p M (if M.getLsbD p then D ||| BitVec.ofNat 31 (2 ^ p) else D) (M.getLsbD p || sig) := by
  have hbits : ∀ i, i ≠ p → D.getLsbD i = (decide (p ≤ i) && M.getLsbD i) := fun i hi => by
    rcases h with ⟨hD, -⟩ | ⟨hD, -⟩
    · rw [hD i]
      congr 1
      exact decide_eq_decide.mpr (by omega)
    · exact hD i
  have hbit : M.getLsbD p = false → D.getLsbD p = false := fun hp => by
    rcases h with ⟨hD, -⟩ | ⟨hD, -⟩ <;> simpa [hp] using hD p
  have hsig : (M.getLsbD p || sig) = true ↔ ∃ i, p ≤ i ∧ M.getLsbD i = true := by
    rw [Bool.or_eq_true]
    rcases h with ⟨-, hs⟩ | ⟨-, hs⟩
    · rw [hs]
      constructor
      · rintro (hp | ⟨i, hi, hi'⟩)
        · exact ⟨p, Nat.le_refl p, hp⟩
        · exact ⟨i, Nat.le_of_succ_le hi, hi'⟩
      · rintro ⟨i, hi, hi'⟩
        obtain rfl | hlt := Nat.eq_or_lt_of_le hi
        · exact .inl hi'
        · exact .inr ⟨i, hlt, hi'⟩
    · rw [hs, or_iff_right_iff_imp]
      exact fun hp => ⟨p, Nat.le_refl p, hp⟩
  refine ⟨fun i => ?_, hsig⟩
  by_cases hi : i = p
  · subst hi
    cases hp : M.getLsbD i with
    | true =>
      have h31 : i < 31 := BitVec.lt_of_getLsbD hp
      rw [if_pos rfl, getLsbD_or_two_pow]
      simp [h31]
    | false => simp [hbit hp, -BitVec.getLsbD_eq_getElem]
  · rw [← hbits i hi]
    split
    · rw [getLsbD_or_two_pow]
      simp [Ne.symm hi]
    · rfl

/-- A coefficient before its visit in a pass of plane `p`, from the two magnitudes, `SIG` and `VIS`: its bit `p` is
known if it was visited, in the significance propagation pass (R185), and by the cleanup pass if it is significant
(R187). -/
def beforeVisit (k : PassKind) (p : Nat) (M D : Magnitude) (sig vis : Bool) : Prop :=
  (knownFrom (p + 1) M D sig ∨ knownFrom p M D sig) ∧ (vis = true → knownFrom p M D sig) ∧
    (k = .cup → sig = true → knownFrom p M D sig)

/-- A coefficient after its visit: ready for the next pass, or all known of the plane (R188, R190). -/
def afterVisit (k : PassKind) (p : Nat) (M D : Magnitude) (sig vis : Bool) : Prop :=
  match k with
  | .spp => beforeVisit .mrp p M D sig vis
  | .mrp => beforeVisit .cup p M D sig vis
  | .cup => knownFrom p M D sig ∧ vis = false

section
variable {k : PassKind} {p : Nat} {M D : Magnitude} {sig vis : Bool}

theorem beforeVisit_of_knownFrom (vis : Bool) (h : knownFrom p M D sig) : beforeVisit k p M D sig vis :=
  ⟨.inr h, fun _ => h, fun _ _ => h⟩

theorem afterVisit_of_knownFrom (h : knownFrom p M D sig) (hvis : k = .cup → vis = false) :
    afterVisit k p M D sig vis := by
  cases k with
  | spp => exact beforeVisit_of_knownFrom vis h
  | mrp => exact beforeVisit_of_knownFrom vis h
  | cup => exact ⟨h, hvis rfl⟩

theorem beforeVisit_of_afterVisit (h : afterVisit k p M D sig vis) : beforeVisit k p M D sig vis := by
  cases k with
  | spp =>
    obtain ⟨hknown, hseen, -⟩ := h
    exact ⟨hknown, hseen, nofun⟩
  | mrp =>
    obtain ⟨hknown, hseen, -⟩ := h
    exact ⟨hknown, hseen, nofun⟩
  | cup => exact beforeVisit_of_knownFrom vis h.1

/-- The next plane begins where the cleanup pass ends (R193). -/
theorem beforeVisit_of_knownFrom_succ (h : knownFrom (p + 1) M D sig) (hvis : vis = false)
    (hsig : k = .cup → sig = false) : beforeVisit k p M D sig vis :=
  ⟨.inl h, fun hv => absurd (hvis ▸ hv) nofun, fun hk hs => absurd (hsig hk ▸ hs) nofun⟩

end

/-- A coefficient in the middle of a pass: before its visit, and after it if it is one of `T`. -/
def midPass (k : PassKind) (p : Nat) (T : Set (Nat × Nat)) (x y : Nat) (M D : Magnitude) (sig vis : Bool) : Prop :=
  beforeVisit k p M D sig vis ∧ ((x, y) ∈ T → afterVisit k p M D sig vis)

/-! ## The two windows -/

/-- Of every cell that is not a significant coefficient the sign bit is the one of `win0` (R184). -/
def Window.keepsIdleSigns (win win0 : Window) (w h : Nat) : Prop :=
  ∀ wx wy, wx ≤ w + 1 → wy ≤ h + 1 → win.sigIn w h wx wy = false → isNeg (win.flag wx wy) = isNeg (win0.flag wx wy)

/-- The encoder's window `a` and the decoder's `b`, begun as `a0` and `b0`: alike in their flag words, the encoder's
magnitudes the old ones, the idle signs the old ones, and of each coefficient `C` of the two magnitudes, `SIG` and
`VIS`. -/
structure Tracks (w h : Nat) (a0 b0 : Window) (C : Nat → Nat → Magnitude → Magnitude → Bool → Bool → Prop)
    (a b : Window) : Prop where
  flags : a.sameFlags b w h
  encMags : a.mags = a0.mags
  encSigns : a.keepsIdleSigns a0 w h
  decSigns : b.keepsIdleSigns b0 w h
  cells : ∀ x y, x < w → y < h → C x y (a.mag x y) (b.mag x y) (isSig (a.coef x y)) (isVis (a.coef x y))

theorem sigIn_coef (win : Window) {w h x y : Nat} (hx : x < w) (hy : y < h) :
    win.sigIn w h (x + 1) (y + 1) = isSig (win.coef x y) := by
  have hin : inBlock w h (x + 1) (y + 1) = true := by
    simp only [inBlock, decide_eq_true_eq]
    omega
  rw [Window.sigIn, hin, Bool.true_and]
  rfl

/-- A visit keeps the idle signs. -/
theorem Window.keepsIdleSigns.visit {win win0 : Window} {w h x y : Nat} {m : FlagWord}
    (hkeep : win.keepsIdleSigns win0 w h) (hw : w ≤ 64) (hx : x < w) (hy : y < h) (hm : m = flagVis ∨ m = flagRef)
    (on neg v : Bool) : (win.visit x y on neg m v).keepsIdleSigns win0 w h := by
  intro wx wy hwx hwy hidle
  by_cases hown : (wx, wy) = (x + 1, y + 1)
  · obtain ⟨rfl, rfl⟩ := Prod.mk.inj hown
    have hword := win.coef_visit y on neg m v (Nat.lt_of_lt_of_le hx hw)
    rw [sigIn_coef _ hx hy, hword, isSig_ownWord hm, Bool.or_eq_false_iff] at hidle
    obtain ⟨rfl, hsig⟩ := hidle
    calc isNeg ((win.visit x y false neg m v).coef x y)
        = isNeg (win.coef x y) := by rw [hword, isNeg_ownWord_off hm]
      _ = isNeg (win0.flag (x + 1) (y + 1)) := hkeep _ _ hwx hwy ((sigIn_coef _ hx hy).trans hsig)
  · obtain ⟨n, hn, hflag⟩ := Window.flag_visit_other on neg m v (Nat.lt_of_lt_of_le hx hw)
      (show wx < 66 by omega) hown
    have h13 := getLsbD_of_neighbourMask hn (show 12 ≤ 13 by decide) (by decide)
    have h15 := getLsbD_of_neighbourMask hn (show 12 ≤ 15 by decide) (by decide)
    have hsig : isSig ((win.visit x y on neg m v).flag wx wy) = isSig (win.flag wx wy) := by
      rw [hflag, isSig, getLsbD_putMask _ _ _ (by decide), h13]
      rfl
    have hneg : isNeg ((win.visit x y on neg m v).flag wx wy) = isNeg (win.flag wx wy) := by
      rw [hflag, isNeg, getLsbD_putMask _ _ _ (by decide), h15]
      rfl
    rw [hneg]
    exact hkeep wx wy hwx hwy (by rwa [Window.sigIn, hsig] at hidle)

/-- The same visit keeps two windows alike. -/
theorem Window.sameFlags.visit {a b : Window} {w h x y : Nat} {m : FlagWord} (hflags : a.sameFlags b w h) (hw : w ≤ 64)
    (hx : x < w) (hm : m = flagVis ∨ m = flagRef) (on neg v : Bool) :
    (a.visit x y on neg m v).sameFlags (b.visit x y on neg m v) w h := by
  intro wx wy hwx hwy
  have hx64 := Nat.lt_of_lt_of_le hx hw
  by_cases hown : (wx, wy) = (x + 1, y + 1)
  · obtain ⟨rfl, rfl⟩ := Prod.mk.inj hown
    have hword := sameButIdleSign_ownWord hm (hflags _ _ hwx hwy) on neg v
    have ha := a.coef_visit y on neg m v hx64
    have hb := b.coef_visit y on neg m v hx64
    unfold Window.coef at ha hb
    rwa [ha, hb]
  · obtain ⟨n, hn, hflag⟩ := Window.flag_visit_other on neg m v hx64 (show wx < 66 by omega) hown
    rw [hflag, hflag]
    exact (hflags wx wy hwx hwy).putMask (getLsbD_of_neighbourMask hn (by decide) (by decide)) true

namespace Tracks

variable {w h : Nat} {a0 b0 a b : Window} {C C' : Nat → Nat → Magnitude → Magnitude → Bool → Bool → Prop}

theorem coef (ht : Tracks w h a0 b0 C a b) {x y : Nat} (hx : x < w) (hy : y < h) :
    sameButIdleSign (a.coef x y) (b.coef x y) :=
  ht.flags (x + 1) (y + 1) (by omega) (by omega)

theorem mono (ht : Tracks w h a0 b0 C a b)
    (hC : ∀ x y, x < w → y < h → C x y (a.mag x y) (b.mag x y) (isSig (a.coef x y)) (isVis (a.coef x y)) →
      C' x y (a.mag x y) (b.mag x y) (isSig (a.coef x y)) (isVis (a.coef x y))) : Tracks w h a0 b0 C' a b :=
  { ht with cells := fun x y hx hy => hC x y hx hy (ht.cells x y hx hy) }

/-- A visit, with a bit stored by the decoder alone, changes `C` at its coefficient and keeps it at all others. -/
theorem visit (ht : Tracks w h a0 b0 C a b) (hw : w ≤ 64) {x y : Nat} (hx : x < w) (hy : y < h) {m : FlagWord}
    (hm : m = flagVis ∨ m = flagRef) (p : Nat) (bit on neg v : Bool)
    (hother : ∀ i j, (i, j) ≠ (x, y) → ∀ M D s t, C i j M D s t → C' i j M D s t)
    (hown : C' x y (a.mag x y) (if bit then b.mag x y ||| BitVec.ofNat 31 (2 ^ p) else b.mag x y)
      (on || isSig (a.coef x y)) (if m.getLsbD 12 then v else isVis (a.coef x y))) :
    Tracks w h a0 b0 C' (a.visit x y on neg m v) ((b.store x y p bit).visit x y on neg m v) where
  flags := by
    have hstore : a.sameFlags (b.store x y p bit) w h := fun wx wy hwx hwy => by
      rw [Window.flag_store]
      exact ht.flags wx wy hwx hwy
    exact hstore.visit hw hx hm on neg v
  encMags := (a.mags_visit x y on neg m v).trans ht.encMags
  encSigns := ht.encSigns.visit hw hx hy hm on neg v
  decSigns := by
    have hstore : (b.store x y p bit).keepsIdleSigns b0 w h := by
      simpa only [Window.keepsIdleSigns, Window.sigIn, Window.flag_store] using ht.decSigns
    exact hstore.visit hw hx hy hm on neg v
  cells i j hi hj := by
    have hx64 := Nat.lt_of_lt_of_le hx hw
    rw [Window.mag_visit, Window.mag_visit]
    by_cases hcell : (i, j) = (x, y)
    · obtain ⟨rfl, rfl⟩ := Prod.mk.inj hcell
      rwa [a.coef_visit j on neg m v hx64, isSig_ownWord hm, isVis_ownWord, Window.mag_store_same]
    · have hne : (i + 1, j + 1) ≠ (x + 1, y + 1) := by simpa using hcell
      obtain ⟨n, hn, hflag⟩ := Window.flag_visit_other on neg m v hx64 (show i + 1 < 66 by omega) hne
      have h12 := getLsbD_of_neighbourMask hn (Nat.le_refl 12) (by decide)
      have h13 := getLsbD_of_neighbourMask hn (show 12 ≤ 13 by decide) (by decide)
      have hsig : isSig ((a.visit x y on neg m v).coef i j) = isSig (a.coef i j) := by
        rw [Window.coef, hflag, isSig, getLsbD_putMask _ _ _ (by decide), h13]
        rfl
      have hvis : isVis ((a.visit x y on neg m v).coef i j) = isVis (a.coef i j) := by
        rw [Window.coef, hflag, isVis, getLsbD_putMask _ _ _ (by decide), h12]
        rfl
      rw [hsig, hvis, b.mag_store_other p bit hx64 (by omega) hcell]
      exact hother i j hcell _ _ _ _ (ht.cells i j hi hj)

/-- Coefficients that need no visit, or no longer count as visited. -/
theorem settle {k : PassKind} {p : Nat} {T T' : Set (Nat × Nat)} (ht : Tracks w h a0 b0 (midPass k p T) a b)
    (hT : ∀ x y, x < w → y < h → (x, y) ∈ T' → (x, y) ∈ T ∨
      afterVisit k p (a.mag x y) (b.mag x y) (isSig (a.coef x y)) (isVis (a.coef x y))) :
    Tracks w h a0 b0 (midPass k p T') a b :=
  ht.mono fun x y hx hy ⟨hbefore, hafter⟩ => ⟨hbefore, fun hmem => (hT x y hx hy hmem).elim hafter id⟩

/-- A visit in a pass. -/
theorem visit_midPass {k : PassKind} {p : Nat} {T : Set (Nat × Nat)} (ht : Tracks w h a0 b0 (midPass k p T) a b)
    (hw : w ≤ 64) {x y : Nat} (hx : x < w) (hy : y < h) {m : FlagWord} (hm : m = flagVis ∨ m = flagRef)
    (bit on neg v : Bool)
    (hown : afterVisit k p (a.mag x y) (if bit then b.mag x y ||| BitVec.ofNat 31 (2 ^ p) else b.mag x y)
      (on || isSig (a.coef x y)) (if m.getLsbD 12 then v else isVis (a.coef x y))) :
    Tracks w h a0 b0 (midPass k p (T ∪ {(x, y)})) (a.visit x y on neg m v) ((b.store x y p bit).visit x y on neg m v) :=
  ht.visit hw hx hy hm p bit on neg v
    (fun _ _ hne _ _ _ _ ⟨hbefore, hafter⟩ => ⟨hbefore, fun hmem => hafter (hmem.resolve_right hne)⟩)
    ⟨beforeVisit_of_afterVisit hown, fun _ => hown⟩

end Tracks

/-! ## The passes -/

section
variable {g : PassCtx} {a0 b0 a b : Window} {p x y y0 : Nat} {T : Set (Nat × Nat)}

/-- A visit of the significance propagation pass (R185). -/
theorem sppCell_mirrors (ht : Tracks g.w g.h a0 b0 (midPass .spp p T) a b) (hw : g.w ≤ 64) (hx : x < g.w)
    (hy : y < g.h) :
    Mirrors a b (sppCell (g.toward .enc) p y0 x y) (sppCell (g.toward .dec) p y0 x y)
      fun _ => Tracks g.w g.h a0 b0 (midPass .spp p (T ∪ {(x, y)})) := by
  have hf := ht.coef hx hy
  obtain ⟨⟨hknown, hseen, -⟩, -⟩ := ht.cells x y hx hy
  have hcond : (!isSig (b.coef x y) && !isVis (b.coef x y) && hasSigNeighbour (b.coef x y)) =
      (!isSig (a.coef x y) && !isVis (a.coef x y) && hasSigNeighbour (a.coef x y)) := by
    rw [hf.isSig_eq, hf.isVis_eq, hf.hasSigNeighbour_eq]
  by_cases hcoded : (!isSig (a.coef x y) && !isVis (a.coef x y) && hasSigNeighbour (a.coef x y)) = true
  · refine Mirrors.congr (enc := sigThenSign (g.toward .enc) (.scan .spp p y0 x y) x y p true)
      (dec := sigThenSign (g.toward .dec) (.scan .spp p y0 x y) x y p true) ?_
      (by rintro c rfl; exact if_pos hcoded) (by rintro d rfl; exact if_pos (hcond.trans hcoded))
    refine (sigThenSign_mirrors true hf).mono ?_
    rintro _ a' b' ⟨rfl, rfl⟩
    exact ht.visit_midPass hw hx hy (.inl rfl) _ _ _ _ (afterVisit_of_knownFrom (knownFrom_code hknown) nofun)
  · refine Mirrors.congr (enc := fun c => .done () c) (dec := fun d => .done () d) (Mirrors.done ?_)
      (by rintro c rfl; exact if_neg hcoded) (by rintro d rfl; exact if_neg (fun hd => hcoded (hcond.symm.trans hd)))
    refine ht.settle fun i j _ _ hmem => hmem.imp id fun hij => ?_
    obtain ⟨rfl, rfl⟩ := Prod.mk.inj hij
    exact ⟨hknown, hseen, nofun⟩

/-- A visit of the magnitude refinement pass (R187). -/
theorem mrpCell_mirrors (ht : Tracks g.w g.h a0 b0 (midPass .mrp p T) a b) (hw : g.w ≤ 64) (hx : x < g.w)
    (hy : y < g.h) :
    Mirrors a b (mrpCell (g.toward .enc) p y0 x y) (mrpCell (g.toward .dec) p y0 x y)
      fun _ => Tracks g.w g.h a0 b0 (midPass .mrp p (T ∪ {(x, y)})) := by
  have hf := ht.coef hx hy
  obtain ⟨⟨hknown, hseen, -⟩, -⟩ := ht.cells x y hx hy
  have hcond : (isSig (b.coef x y) && !isVis (b.coef x y)) = (isSig (a.coef x y) && !isVis (a.coef x y)) := by
    rw [hf.isSig_eq, hf.isVis_eq]
  by_cases hcoded : (isSig (a.coef x y) && !isVis (a.coef x y)) = true
  · refine (refine_mirrors (g := g) (cur := .scan .mrp p y0 x y) (p := p) hf false).congr
      (by rintro c rfl; exact if_pos hcoded) (by rintro d rfl; exact if_pos (hcond.trans hcoded)) |>.mono ?_
    rintro _ a' b' ⟨rfl, rfl⟩
    have hsig : isSig (a.coef x y) = true := (Bool.and_eq_true _ _ ▸ hcoded).1
    refine ht.visit_midPass hw hx hy (.inr rfl) _ _ _ _ (afterVisit_of_knownFrom ?_ nofun)
    have hcode := knownFrom_code hknown
    rwa [hsig, Bool.or_true] at hcode ⊢
  · refine Mirrors.congr (enc := fun c => .done () c) (dec := fun d => .done () d) (Mirrors.done ?_)
      (by rintro c rfl; exact if_neg hcoded) (by rintro d rfl; exact if_neg (fun hd => hcoded (hcond.symm.trans hd)))
    refine ht.settle fun i j _ _ hmem => hmem.imp id fun hij => ?_
    obtain ⟨rfl, rfl⟩ := Prod.mk.inj hij
    exact ⟨hknown, hseen, fun _ hsig => hseen (by simpa [hsig] using hcoded)⟩

/-- `CleanupCell` (R188, R190). -/
theorem cupCell_mirrors (ht : Tracks g.w g.h a0 b0 (midPass .cup p T) a b) (hw : g.w ≤ 64) (hx : x < g.w)
    (hy : y < g.h) :
    Mirrors a b (cupCell (g.toward .enc) p y0 x y) (cupCell (g.toward .dec) p y0 x y)
      fun _ => Tracks g.w g.h a0 b0 (midPass .cup p (T ∪ {(x, y)})) := by
  have hf := ht.coef hx hy
  obtain ⟨⟨hknown, hseen, hsig⟩, -⟩ := ht.cells x y hx hy
  have hcond : (!isSig (b.coef x y) && !isVis (b.coef x y)) = (!isSig (a.coef x y) && !isVis (a.coef x y)) := by
    rw [hf.isSig_eq, hf.isVis_eq]
  by_cases hcoded : (!isSig (a.coef x y) && !isVis (a.coef x y)) = true
  · refine Mirrors.congr (enc := sigThenSign (g.toward .enc) (.scan .cup p y0 x y) x y p false)
      (dec := sigThenSign (g.toward .dec) (.scan .cup p y0 x y) x y p false) ?_
      (by rintro c rfl; exact if_pos hcoded) (by rintro d rfl; exact if_pos (hcond.trans hcoded))
    refine (sigThenSign_mirrors false hf).mono ?_
    rintro _ a' b' ⟨rfl, rfl⟩
    exact ht.visit_midPass hw hx hy (.inl rfl) _ _ _ _ (afterVisit_of_knownFrom (knownFrom_code hknown) fun _ => rfl)
  · refine (Mirrors.write (v := ()) (f := fun win => win.visit x y false false flagVis false)
      (g := fun win => win.visit x y false false flagVis false) ?_).congr
      (by rintro c rfl; exact if_neg hcoded) (by rintro d rfl; exact if_neg (fun hd => hcoded (hcond.symm.trans hd)))
    have hall : knownFrom p (a.mag x y) (b.mag x y) (isSig (a.coef x y)) := by
      cases hs : isSig (a.coef x y) with
      | true => exact hs ▸ hsig rfl hs
      | false => exact hs ▸ hseen (by simpa [hs] using hcoded)
    exact ht.visit_midPass hw hx hy (.inl rfl) false false false false (afterVisit_of_knownFrom hall fun _ => rfl)

theorem mem_drop_rowsOf {h y0 n y : Nat} : y ∈ (rowsOf h y0).drop n ↔ y0 + n ≤ y ∧ y < h ∧ y < y0 + 4 := by
  have hrange : rowsOf h y0 = List.range' y0 (min 4 (h - y0)) := (List.range'_eq_map_range ..).symm
  rw [hrange, List.drop_range', List.mem_range'_1]
  omega

theorem mem_rowsOf {h y0 y : Nat} : y ∈ rowsOf h y0 ↔ y0 ≤ y ∧ y < h ∧ y < y0 + 4 :=
  mem_drop_rowsOf (n := 0)

/-- The coefficients of some rows of a column. -/
def cellsAt (x : Nat) (rows : List Nat) : Set (Nat × Nat) := {c | ∃ y ∈ rows, c ∈ ({(x, y)} : Set (Nat × Nat))}

theorem mem_cellsAt {x i j : Nat} {rows : List Nat} : (i, j) ∈ cellsAt x rows ↔ i = x ∧ j ∈ rows := by
  simp only [cellsAt, Set.mem_ofPred_eq, Set.mem_singleton_iff, Prod.mk.injEq]
  exact ⟨fun ⟨_, hy, hi, hj⟩ => ⟨hi, hj ▸ hy⟩, fun ⟨hi, hj⟩ => ⟨j, hj, hi, rfl⟩⟩

/-- Some rows of a column, cell by cell. -/
theorem rows_mirrors {k : PassKind} {encCell decCell : Nat → Coding → Res Coding Unit} (rows : List Nat)
    (ht : Tracks g.w g.h a0 b0 (midPass k p T) a b)
    (hcell : ∀ y ∈ rows, ∀ T a b, Tracks g.w g.h a0 b0 (midPass k p T) a b →
      Mirrors a b (encCell y) (decCell y) fun _ => Tracks g.w g.h a0 b0 (midPass k p (T ∪ {(x, y)}))) :
    Mirrors a b (forEach rows encCell) (forEach rows decCell)
      fun _ => Tracks g.w g.h a0 b0 (midPass k p (T ∪ cellsAt x rows)) :=
  Mirrors.forEach (I := fun T => Tracks g.w g.h a0 b0 (midPass k p T)) rows hcell ht

/-- `runEnd` after its bit is stored. -/
def runEndAfterStore (g : PassCtx) (p y0 x r : Nat) (c : Coding) : Res Coding Unit :=
  (signStep g (.scan .cup p y0 x (y0 + r)) x (y0 + r) c).bind fun _ c1 =>
    forEach ((rowsOf g.h y0).drop (r + 1)) (fun y' => cupCell g p y0 x y') (c1.putOwner x (y0 + r) flagVis false)

/-- The end of a run-length column, from the row where the run ends (R189). -/
theorem runEnd_mirrors {r : Nat} (ht : Tracks g.w g.h a0 b0 (midPass .cup p T) a b) (hw : g.w ≤ 64) (hx : x < g.w)
    (hy : y0 + r < g.h) (hbit : magBit a x (y0 + r) p = true) :
    Mirrors a b (runEnd (g.toward .enc) p y0 x r) (runEnd (g.toward .dec) p y0 x r)
      fun _ => Tracks g.w g.h a0 b0
        (midPass .cup p (T ∪ {(x, y0 + r)} ∪ cellsAt x ((rowsOf g.h y0).drop (r + 1)))) := by
  obtain ⟨⟨hknown, -⟩, -⟩ := ht.cells x (y0 + r) hx hy
  have hf : sameButIdleSign (a.coef x (y0 + r)) ((b.store x (y0 + r) p true).coef x (y0 + r)) := by
    rw [Window.coef_store]
    exact ht.coef hx hy
  have hcode := knownFrom_code hknown
  rw [show (a.mag x (y0 + r)).getLsbD p = true from hbit] at hcode
  refine ((storeBit_mirrors true).bind (encNext := fun _ => runEndAfterStore (g.toward .enc) p y0 x r)
    (decNext := fun _ => runEndAfterStore (g.toward .dec) p y0 x r) ?_).congr (fun _ _ => rfl) (fun _ _ => rfl)
  rintro v a' b' ⟨rfl, rfl, rfl⟩
  refine (signStep_mirrors hf).bind ?_
  rintro _ a2 b2 ⟨rfl, rfl⟩
  refine Mirrors.afterWrite (enc := forEach _ fun y' => cupCell (g.toward .enc) p y0 x y')
    (dec := forEach _ fun y' => cupCell (g.toward .dec) p y0 x y') ?_
  exact rows_mirrors _ (ht.visit_midPass hw hx hy (.inl rfl) true true _ false
    (afterVisit_of_knownFrom hcode fun _ => rfl))
    fun y' hy' _ _ _ ht' => cupCell_mirrors ht' hw hx (mem_drop_rowsOf.mp hy').2.1

/-- The four words of a quiet column say neither significant nor visited (R189). -/
theorem quietColumn_idle {g : PassCtx} {y0 x : Nat} (hq : quietColumn g a y0 x = true) :
    y0 + 3 < g.h ∧ ∀ r < 4, isSig (a.coef x (y0 + r)) = false ∧ isVis (a.coef x (y0 + r)) = false := by
  simp only [quietColumn, Bool.and_eq_true, decide_eq_true_eq, List.all_eq_true] at hq
  obtain ⟨⟨-, hfull⟩, hquiet⟩ := hq
  refine ⟨hfull, fun r hr => ?_⟩
  have hmask := hquiet r (by simp; omega)
  have hbit : ∀ i < 16, runMask.getLsbD i = true → (a.coef x (y0 + r)).getLsbD i = false := fun i _ hm => by
    have hi := congrArg (BitVec.getLsbD · i) hmask
    simpa [hm, -BitVec.getLsbD_eq_getElem] using hi
  exact ⟨hbit 13 (by decide) (by decide), hbit 12 (by decide) (by decide)⟩

/-- Both directions find the same columns quiet (R189). -/
theorem quietColumn_toward {C : Nat → Nat → Magnitude → Magnitude → Bool → Bool → Prop}
    (ht : Tracks g.w g.h a0 b0 C a b) (hx : x < g.w) :
    quietColumn (g.toward .dec) b y0 x = quietColumn (g.toward .enc) a y0 x := by
  unfold quietColumn
  by_cases hfull : y0 + 3 < g.h
  · have hword : ∀ r < 4, b.coef x (y0 + r) &&& runMask = a.coef x (y0 + r) &&& runMask := fun r hr =>
      ((ht.coef hx (show y0 + r < g.h by omega)).mask (by decide)).symm
    simp only [List.all_cons, List.all_nil, hword, Nat.reduceLT]
    rfl
  · have hnot : ∀ m, decide (y0 + 3 < (g.toward m).h) = false := fun m => decide_eq_false hfull
    simp only [hnot, Bool.and_false, Bool.false_and]

/-- `runColumn` after its first bit, with the run the encoder found. -/
def runAfterFound (g : PassCtx) (p y0 x rlen : Nat) (found : Bool) (c : Coding) : Res Coding Unit :=
  if found then
    (codeBit g.mode (.scan .cup p y0 x y0) cxUni (decide (rlen / 2 = 1)) c).bind fun hi c2 =>
      (codeBit g.mode (.scan .cup p y0 x y0) cxUni (decide (rlen % 2 = 1)) c2).bind fun lo c3 =>
        runEnd g p y0 x (2 * hi.toNat + lo.toNat) c3
  else .done () c

/-- A run-length column (R189). -/
theorem runColumn_mirrors (ht : Tracks g.w g.h a0 b0 (midPass .cup p T) a b) (hw : g.w ≤ 64) (hx : x < g.w)
    (hq : quietColumn (g.toward .enc) a y0 x = true) :
    Mirrors a b (runColumn (g.toward .enc) p y0 x) (runColumn (g.toward .dec) p y0 x)
      fun _ => Tracks g.w g.h a0 b0 (midPass .cup p (T ∪ cellsAt x (rowsOf g.h y0))) := by
  obtain ⟨hfull, hidle⟩ := quietColumn_idle hq
  replace hfull : y0 + 3 < g.h := hfull
  obtain ⟨hr4, hzero, hone⟩ := runOf_firstOne a p y0 x
  -- The rows before the end of the run: their bit is 0, and that is all there is to know.
  have hskip : ∀ r < runOf a p y0 x, afterVisit .cup p (a.mag x (y0 + r)) (b.mag x (y0 + r)) (isSig (a.coef x (y0 + r)))
      (isVis (a.coef x (y0 + r))) := fun r hr => by
    obtain ⟨⟨hknown, -⟩, -⟩ := ht.cells x (y0 + r) hx (by omega)
    have hcode := knownFrom_code hknown
    rw [hzero r hr, Bool.false_or] at hcode
    exact ⟨hcode, (hidle r (by omega)).2⟩
  have hrun : Tracks g.w g.h a0 b0 (midPass .cup p (T ∪ {c | ∃ r < runOf a p y0 x, c = (x, y0 + r)})) a b := by
    refine ht.settle fun i j _ _ hmem => hmem.imp id ?_
    rintro ⟨r, hr, hij⟩
    obtain ⟨rfl, rfl⟩ := Prod.mk.inj hij
    exact hskip r hr
  refine ((codeBit_mirrors a b (.scan .cup p y0 x y0) (ctx := cxRl) (decide (runOf a p y0 x ≠ 4))
    (decide (runOf b p y0 x ≠ 4)) rfl).bind (encNext := runAfterFound (g.toward .enc) p y0 x (runOf a p y0 x))
      (decNext := runAfterFound (g.toward .dec) p y0 x (runOf b p y0 x)) ?_).congr
    (by rintro c rfl; rfl) (by rintro d rfl; rfl)
  rintro found a1 b1 ⟨hfound, rfl, rfl⟩
  generalize runOf a1 p y0 x = rlen at *
  cases found with
  | false =>
    obtain rfl : rlen = 4 := by simpa using hfound
    refine Mirrors.done (hrun.settle fun i j _ _ hmem => .inl (hmem.imp id fun hcol => ?_))
    obtain ⟨rfl, hrow⟩ := mem_cellsAt.mp hcol
    have hj := mem_rowsOf.mp hrow
    exact ⟨j - y0, by omega, by rw [Nat.add_sub_of_le hj.1]⟩
  | true =>
    have hlt : rlen < 4 := Nat.lt_of_le_of_ne hr4 (by simpa using hfound.symm)
    refine (codeBit_mirrors a1 b1 _ (decide (rlen / 2 = 1)) _ rfl).bind ?_
    rintro hi a2 b2 ⟨hhi, rfl, rfl⟩
    refine (codeBit_mirrors a2 b2 _ (decide (rlen % 2 = 1)) _ rfl).bind ?_
    rintro lo a3 b3 ⟨hlo, rfl, rfl⟩
    have hrlen : 2 * hi.toNat + lo.toNat = rlen := by
      subst hhi hlo
      interval_cases rlen <;> rfl
    rw [hrlen]
    refine (runEnd_mirrors hrun hw hx (by omega) (hone hlt)).mono fun _ a4 b4 ht4 =>
      ht4.settle fun i j _ _ hmem => .inl ?_
    rcases hmem with hmem | hcol
    · exact .inl (.inl (.inl hmem))
    · obtain ⟨rfl, hrow⟩ := mem_cellsAt.mp hcol
      obtain ⟨hlow, hh, hhigh⟩ := mem_rowsOf.mp hrow
      rcases Nat.lt_trichotomy j (y0 + rlen) with hlt' | rfl | hgt
      · exact .inl (.inl (.inr ⟨j - y0, by omega, by rw [Nat.add_sub_of_le hlow]⟩))
      · exact .inl (.inr rfl)
      · exact .inr (mem_cellsAt.mpr ⟨rfl, mem_drop_rowsOf.mpr ⟨hgt, hh, hhigh⟩⟩)

/-- A column of the cleanup pass (R188, R189). -/
theorem cupColumn_mirrors (ht : Tracks g.w g.h a0 b0 (midPass .cup p T) a b) (hw : g.w ≤ 64) (hx : x < g.w) :
    Mirrors a b (cupColumn (g.toward .enc) p y0 x) (cupColumn (g.toward .dec) p y0 x)
      fun _ => Tracks g.w g.h a0 b0 (midPass .cup p (T ∪ cellsAt x (rowsOf g.h y0))) := by
  have hquiet := quietColumn_toward (y0 := y0) ht hx
  by_cases hq : quietColumn (g.toward .enc) a y0 x = true
  · exact (runColumn_mirrors ht hw hx hq).congr (by rintro c rfl; exact if_pos hq)
      (by rintro d rfl; exact if_pos (hquiet.trans hq))
  · exact (rows_mirrors (encCell := cupCell (g.toward .enc) p y0 x) (decCell := cupCell (g.toward .dec) p y0 x) _ ht
      fun y hy _ _ _ ht' => cupCell_mirrors ht' hw hx (mem_rowsOf.mp hy).2.1).congr
      (by rintro c rfl; exact if_neg hq) (by rintro d rfl; exact if_neg (fun hd => hq (hquiet.symm.trans hd)))

/-- A column of a pass. -/
theorem passColumn_mirrors {k : PassKind} (ht : Tracks g.w g.h a0 b0 (midPass k p T) a b) (hw : g.w ≤ 64)
    (hx : x < g.w) :
    Mirrors a b (passColumn (g.toward .enc) k p y0 x) (passColumn (g.toward .dec) k p y0 x)
      fun _ => Tracks g.w g.h a0 b0 (midPass k p (T ∪ cellsAt x (rowsOf g.h y0))) := by
  cases k with
  | spp => exact rows_mirrors _ ht fun y hy _ _ _ ht' => sppCell_mirrors ht' hw hx (mem_rowsOf.mp hy).2.1
  | mrp => exact rows_mirrors _ ht fun y hy _ _ _ ht' => mrpCell_mirrors ht' hw hx (mem_rowsOf.mp hy).2.1
  | cup => exact cupColumn_mirrors ht hw hx

/-- The scan meets every coefficient (R181). -/
theorem mem_columns {w h y0 x : Nat} : (y0, x) ∈ columns w h ↔ x < w ∧ ∃ k < (h + 3) / 4, y0 = 4 * k := by
  simp only [columns, stripes, List.mem_flatMap, List.mem_map, List.mem_range, Prod.mk.injEq]
  constructor
  · rintro ⟨_, ⟨k, hk, rfl⟩, x', hx, rfl, rfl⟩
    exact ⟨hx, k, hk, rfl⟩
  · rintro ⟨hx, k, hk, rfl⟩
    exact ⟨_, ⟨k, hk, rfl⟩, x, hx, rfl, rfl⟩

/-- A pass takes every coefficient from before its visit to after it (R185, R187 to R189). -/
theorem codingPass_mirrors {k : PassKind} (ht : Tracks g.w g.h a0 b0 (fun _ _ => beforeVisit k p) a b) (hw : g.w ≤ 64) :
    Mirrors a b (codingPass (g.toward .enc) k p) (codingPass (g.toward .dec) k p)
      fun _ => Tracks g.w g.h a0 b0 fun _ _ => afterVisit k p := by
  have hstart : Tracks g.w g.h a0 b0 (midPass k p ∅) a b := ht.mono fun _ _ _ _ hbefore => ⟨hbefore, nofun⟩
  refine (Mirrors.forEach (I := fun T => Tracks g.w g.h a0 b0 (midPass k p T))
    (cells := fun col => cellsAt col.2 (rowsOf g.h col.1)) (columns g.w g.h)
    (fun col hcol _ _ _ ht' => passColumn_mirrors ht' hw (mem_columns.mp hcol).1) hstart).bind fun _ a' b' ht' => ?_
  refine Mirrors.emit rfl rfl (ht'.mono fun x y hx hy hmid => hmid.2 (.inr ?_))
  exact ⟨(4 * (y / 4), x), mem_columns.mpr ⟨hx, y / 4, by omega, rfl⟩, mem_cellsAt.mpr ⟨rfl, mem_rowsOf.mpr (by omega)⟩⟩

/-- What is known between two planes: nothing is marked `VIS` (R190, R193). -/
def betweenPlanes (n : Nat) (M D : Magnitude) (sig vis : Bool) : Prop := knownFrom n M D sig ∧ vis = false

/-- The top plane has the cleanup pass alone, over coefficients none of which is significant (R195). -/
theorem topPlane_mirrors (hw : g.w ≤ 64)
    (ht : Tracks g.w g.h a0 b0 (fun _ _ M D sig vis => betweenPlanes (p + 1) M D sig vis ∧ sig = false) a b) :
    Mirrors a b (forEach (planePasses (p + 1) p) fun k => codingPass (g.toward .enc) k p)
      (forEach (planePasses (p + 1) p) fun k => codingPass (g.toward .dec) k p)
      fun _ => Tracks g.w g.h a0 b0 fun _ _ => betweenPlanes p := by
  rw [planePasses, if_pos rfl]
  have hcup : Tracks g.w g.h a0 b0 (fun _ _ => beforeVisit .cup p) a b :=
    ht.mono fun _ _ _ _ ⟨⟨hknown, hvis⟩, hsig⟩ => beforeVisit_of_knownFrom_succ hknown hvis fun _ => hsig
  exact (codingPass_mirrors hcup hw).bind fun _ _ _ ht' => Mirrors.done ht'

/-- Every other plane has the three passes (R193). -/
theorem lowerPlane_mirrors {nbp : Nat} (hw : g.w ≤ 64) (hp : p + 1 < nbp)
    (ht : Tracks g.w g.h a0 b0 (fun _ _ => betweenPlanes (p + 1)) a b) :
    Mirrors a b (forEach (planePasses nbp p) fun k => codingPass (g.toward .enc) k p)
      (forEach (planePasses nbp p) fun k => codingPass (g.toward .dec) k p)
      fun _ => Tracks g.w g.h a0 b0 fun _ _ => betweenPlanes p := by
  rw [planePasses, if_neg (Nat.ne_of_lt hp)]
  have hspp : Tracks g.w g.h a0 b0 (fun _ _ => beforeVisit .spp p) a b :=
    ht.mono fun _ _ _ _ ⟨hknown, hvis⟩ => beforeVisit_of_knownFrom_succ hknown hvis nofun
  exact (codingPass_mirrors hspp hw).bind fun _ _ _ hmrp => (codingPass_mirrors hmrp hw).bind fun _ _ _ hcup =>
    (codingPass_mirrors hcup hw).bind fun _ _ _ ht' => Mirrors.done ht'

/-- The planes below the top one, down to plane 0 (R193). -/
theorem lowerPlanes_mirrors {nbp : Nat} (hw : g.w ≤ 64) (n : Nat) (hn : n < nbp)
    (ht : Tracks g.w g.h a0 b0 (fun _ _ => betweenPlanes n) a b) :
    Mirrors a b
      (forEach (List.range n).reverse fun p => forEach (planePasses nbp p) fun k => codingPass (g.toward .enc) k p)
      (forEach (List.range n).reverse fun p => forEach (planePasses nbp p) fun k => codingPass (g.toward .dec) k p)
      fun _ => Tracks g.w g.h a0 b0 fun _ _ => betweenPlanes 0 := by
  induction n generalizing a b with
  | zero => exact Mirrors.done ht
  | succ n ih =>
    rw [List.range_succ, List.reverse_append]
    exact (lowerPlane_mirrors hw hn ht).bind fun _ _ _ ht' => ih (Nat.lt_of_succ_lt hn) ht'

/-- A block: at its end every bit of every magnitude is knownFrom (R198). -/
theorem codingBlock_mirrors (hw : g.w ≤ 64) (nbp : Nat)
    (ht : Tracks g.w g.h a0 b0 (fun _ _ M D sig vis => betweenPlanes nbp M D sig vis ∧ sig = false) a b) :
    Mirrors a b (codingBlock (g.toward .enc) nbp) (codingBlock (g.toward .dec) nbp)
      fun _ => Tracks g.w g.h a0 b0 fun _ _ => betweenPlanes 0 := by
  refine ((Mirrors.emit (e := .reset) (Q := fun _ => Tracks g.w g.h a0 b0
      fun _ _ M D sig vis => betweenPlanes nbp M D sig vis ∧ sig = false) rfl rfl ht).bind
    (encNext := fun _ => forEach (List.range nbp).reverse fun p =>
      forEach (planePasses nbp p) fun k => codingPass (g.toward .enc) k p)
    (decNext := fun _ => forEach (List.range nbp).reverse fun p =>
      forEach (planePasses nbp p) fun k => codingPass (g.toward .dec) k p) ?_).congr (fun _ _ => rfl) (fun _ _ => rfl)
  rintro _ a' b' ht'
  cases nbp with
  | zero => exact Mirrors.done (ht'.mono fun _ _ _ _ hb => hb.1)
  | succ n =>
    rw [List.range_succ, List.reverse_append]
    exact (topPlane_mirrors hw ht').bind fun _ _ _ hn => lowerPlanes_mirrors hw n (Nat.lt_succ_self n) hn

end

/-! ## The statement -/

theorem mem_scan {w h y0 x y : Nat} : (y0, x, y) ∈ scan w h ↔ (y0, x) ∈ columns w h ∧ y ∈ rowsOf h y0 := by
  simp only [scan, List.mem_flatMap, List.mem_map, Prod.mk.injEq]
  constructor
  · rintro ⟨⟨y0', x'⟩, hcol, y', hy, rfl, rfl, rfl⟩
    exact ⟨hcol, hy⟩
  · exact fun ⟨hcol, hy⟩ => ⟨_, hcol, y, hy, rfl, rfl, rfl⟩

theorem le_foldl_max {ι : Type} (f : ι → Nat) (l : List ι) (v : Nat) :
    v ≤ l.foldl (fun acc i => max acc (f i)) v ∧ ∀ i ∈ l, f i ≤ l.foldl (fun acc i => max acc (f i)) v := by
  induction l generalizing v with
  | nil => exact ⟨Nat.le_refl v, nofun⟩
  | cons i rest ih =>
    obtain ⟨hv, hrest⟩ := ih (max v (f i))
    refine ⟨(Nat.le_max_left ..).trans hv, fun j hj => ?_⟩
    rcases List.mem_cons.mp hj with rfl | hj
    · exact (Nat.le_max_right ..).trans hv
    · exact hrest j hj

theorem foldl_max_lt {ι : Type} (f : ι → Nat) (l : List ι) {v n : Nat} (hv : v < n) (hf : ∀ i ∈ l, f i < n) :
    l.foldl (fun acc i => max acc (f i)) v < n := by
  induction l generalizing v with
  | nil => exact hv
  | cons i rest ih => exact ih (Nat.max_lt.mpr ⟨hv, hf i (by simp)⟩) fun j hj => hf j (by simp [hj])

theorem mag_le_maxMag (win : Window) {w h x y : Nat} (hx : x < w) (hy : y < h) : (win.mag x y).toNat ≤ maxMag win w h :=
  (le_foldl_max (fun c : Nat × Nat × Nat => (win.mag c.2.1 c.2.2).toNat) (scan w h) 0).2 (4 * (y / 4), x, y)
    (mem_scan.mpr ⟨mem_columns.mpr ⟨hx, y / 4, by omega, rfl⟩, mem_rowsOf.mpr (by omega)⟩)

theorem lt_two_pow_bitLen (v : Nat) : v < 2 ^ bitLen v := by
  unfold bitLen
  split
  · omega
  · exact Nat.lt_log2_self

/-- Every magnitude lies within the planes of a block (R193). -/
theorem mag_lt_two_pow_planesOf (win : Window) {w h x y : Nat} (hx : x < w) (hy : y < h) :
    (win.mag x y).toNat < 2 ^ planesOf win w h :=
  Nat.lt_of_le_of_lt (mag_le_maxMag win hx hy) (lt_two_pow_bitLen _)

theorem planesOf_le (win : Window) (w h : Nat) : planesOf win w h ≤ 31 := by
  have hmax : maxMag win w h < 2 ^ 31 := foldl_max_lt _ _ (by decide) fun c _ => (win.mag c.2.1 c.2.2).isLt
  unfold planesOf bitLen
  split
  · decide
  · next hne => exact (Nat.log2_lt hne).mpr hmax

/-- A `READY` window and a `READY` window without magnitudes, before the first plane (R24, R198). -/
theorem Tracks.start {we wd : Window} {w h nbp : Nat} (hquiet : ∀ wx wy, wx ≤ w + 1 → wy ≤ h + 1 →
      we.flag wx wy &&& 0x7FFF#16 = 0#16 ∧ wd.flag wx wy &&& 0x7FFF#16 = 0#16)
    (hzero : ∀ x y, x < w → y < h → wd.mag x y = 0#31)
    (hplanes : ∀ x y, x < w → y < h → (we.mag x y).toNat < 2 ^ nbp) :
    Tracks w h we wd (fun _ _ M D sig vis => betweenPlanes nbp M D sig vis ∧ sig = false) we wd := by
  have hlow : ∀ wx wy, wx ≤ w + 1 → wy ≤ h + 1 → ∀ i < 15, (we.flag wx wy).getLsbD i = false :=
    fun wx wy hwx hwy i hi => by
      have hbit := congrArg (BitVec.getLsbD · i) (hquiet wx wy hwx hwy).1
      simpa [getLsbD_idleMask (Nat.lt_succ_of_lt hi), hi] using hbit
  refine ⟨fun wx wy hwx hwy => ?_, rfl, fun _ _ _ _ _ => rfl, fun _ _ _ _ _ => rfl, fun x y hx hy => ?_⟩
  · obtain ⟨he, hd⟩ := hquiet wx wy hwx hwy
    exact ⟨he.trans hd.symm, fun hsig => absurd ((hlow wx wy hwx hwy 13 (by decide)).symm.trans hsig) nofun⟩
  · have hsig : isSig (we.coef x y) = false := hlow _ _ (by omega) (by omega) 13 (by decide)
    have hvis : isVis (we.coef x y) = false := hlow _ _ (by omega) (by omega) 12 (by decide)
    rw [hzero x y hx hy, hsig, hvis]
    exact ⟨⟨knownFrom_start (hplanes x y hx hy), rfl⟩, rfl⟩

namespace Tracks

variable {w h : Nat} {we wd we' wd' : Window}
  (ht : Tracks w h we wd (fun _ _ => betweenPlanes 0) we' wd')
include ht

/-- At the end of a block the magnitudes are equal, and the significant coefficients those with one. -/
theorem finalMag {x y : Nat} (hx : x < w) (hy : y < h) :
    wd'.mag x y = we.mag x y ∧ (isSig (we'.coef x y) = true ↔ we.mag x y ≠ 0#31) := by
  obtain ⟨hknown, -⟩ := ht.cells x y hx hy
  have hmag : we'.mag x y = we.mag x y := by
    unfold Window.mag
    rw [ht.encMags]
  rw [← hmag]
  exact knownFrom_zero hknown

/-- At the end of a block a flag word differs at most in the sign of a coefficient without magnitude, where a sign was
loaded (R198). -/
theorem finalFlag (hbe : we.borderOk w h) (hbd : wd.borderOk w h) {wx wy : Nat} (hwx : wx ≤ w + 1) (hwy : wy ≤ h + 1) :
    we'.flag wx wy = wd'.flag wx wy ∨ ∃ x y, wx = x + 1 ∧ wy = y + 1 ∧ x < w ∧ y < h ∧ we.mag x y = 0#31 ∧
      (isNeg (we.coef x y) = true ∨ isNeg (wd.coef x y) = true) := by
  have hsame := ht.flags wx wy hwx hwy
  have hsigIn : wd'.sigIn w h wx wy = we'.sigIn w h wx wy := by rw [Window.sigIn, Window.sigIn, hsame.isSig_eq]
  have hidle : we'.sigIn w h wx wy = false → isNeg (we.flag wx wy) = false → isNeg (wd.flag wx wy) = false →
      we'.flag wx wy = wd'.flag wx wy := fun hs he hd => hsame.eq_of_isNeg <| by
    rw [ht.encSigns wx wy hwx hwy hs, ht.decSigns wx wy hwx hwy (hsigIn.trans hs), he, hd]
  cases hin : inBlock w h wx wy with
  | false =>
    have hborder : ∀ win : Window, win.borderOk w h → isNeg (win.flag wx wy) = false := fun win hb => by
      have hbit := congrArg (BitVec.getLsbD · 15) (hb wx wy hwx hwy hin)
      simpa [isNeg] using hbit
    exact .inl (hidle (by rw [Window.sigIn, hin, Bool.false_and]) (hborder we hbe) (hborder wd hbd))
  | true =>
    obtain ⟨hx1, hxw, hy1, hyh⟩ : 1 ≤ wx ∧ wx ≤ w ∧ 1 ≤ wy ∧ wy ≤ h := by simpa [inBlock] using hin
    obtain ⟨x, rfl⟩ := Nat.exists_eq_add_of_le' hx1
    obtain ⟨y, rfl⟩ := Nat.exists_eq_add_of_le' hy1
    obtain ⟨-, hsig⟩ := ht.finalMag hxw hyh
    by_cases hs : isSig (we'.coef x y) = true
    · exact .inl (hsame.2 hs)
    · by_cases hneg : isNeg (we.coef x y) = true ∨ isNeg (wd.coef x y) = true
      · exact .inr ⟨x, y, rfl, rfl, hxw, hyh, not_not.mp (mt hsig.mpr hs), hneg⟩
      · obtain ⟨he, hd⟩ := not_or.mp hneg
        refine .inl (hidle ?_ (Bool.eq_false_iff.mpr he) (Bool.eq_false_iff.mpr hd))
        rw [sigIn_coef _ hxw hyh]
        exact Bool.eq_false_iff.mpr hs

end Tracks

/-- Settles O51: the two runs go side by side (`codingBlock_mirrors`), from windows of which nothing is known above the
coded planes (`Tracks.start`) to windows of which everything is (`Tracks.finalMag`, `Tracks.finalFlag`). -/
theorem blockRoundTrip : Obligations.BlockRoundTrip := by
  intro e d e' we we' wd ev nbp more heErr hdErr heReady hdReady heWin hdWin hw hh hw64 ho hrl hquiet hzero hfull hexec
    hwe' hcod hn hres0 hpend
  obtain ⟨_, c', b', ev', henc, -, hcod', ht, hdec⟩ := codingBlock_mirrors (g := e.passCtx .enc) hw64
    (planesOf we e.cbW e.cbH) (Tracks.start hquiet hzero fun x y hx hy => mag_lt_two_pow_planesOf we hx hy)
    (e.coding we) rfl hfull
  replace henc : codingBlock (e.passCtx .enc) (planesOf we e.cbW e.cbH) (e.coding we) = .done () c' := henc
  rw [exec_t1EncBlock heErr heReady heWin, henc] at hexec
  obtain rfl : (e.withCoding c').blockResults (planesOf we e.cbW e.cbH) = e' := by
    simpa [State.finish] using hexec
  obtain rfl : c'.win = we' := Option.some.inj hwe'
  obtain rfl : ev' = ev := List.append_cancel_left (hcod'.symm.trans hcod)
  obtain rfl : planesOf we e.cbW e.cbH = nbp := by
    have hle := planesOf_le we e.cbW e.cbH
    have hnat : (BitVec.ofNat 32 (planesOf we e.cbW e.cbH)).toNat = (BitVec.ofNat 32 nbp).toNat :=
      congrArg BitVec.toNat hres0
    rw [BitVec.toNat_ofNat, BitVec.toNat_ofNat] at hnat
    omega
  obtain ⟨d1, hrun, rfl, hdcod, hdpend⟩ := hdec (d.coding wd) more rfl hpend
  have hctx : d.passCtx .dec = (e.passCtx .enc).toward .dec := by
    rw [State.passCtx, ← hw, ← hh, ← ho, ← hrl]
    rfl
  refine ⟨(d.withCoding d1).blockResults (planesOf we e.cbW e.cbH), d1.win, ?_, hdErr, rfl, rfl, rfl, rfl, hdcod,
    hdpend, rfl, fun x y hx hy => ?_, ht.flags, fun hbe hbd wx wy => ht.finalFlag hbe hbd⟩
  · rw [exec_t1DecBlock hdErr hdReady hdWin hn, hctx, hrun]
    rfl
  · obtain ⟨hmag, hsig⟩ := ht.finalMag hx hy
    exact ⟨hmag, fun hne => ((ht.coef hx hy).2 (hsig.mpr hne)).symm⟩

end Sys2Proof.Machine
end

section
/-! PROOFS. The family of spec/60_exceptions.md: words dropped while `ERR` = 1 (R219), the return from a fault (R220),
and the causes of `CONFIG` (R211), `CONSISTENCY` (R213) and `SEQUENCE` (R215). First the laws about the model's functions,
in the order of the definitions they speak of; then the statements they settle. -/

namespace Sys2Proof.Machine

/-! ## Dispatch (R87) -/

/-- Step 3 of R87: the unit of the command is in a state that accepts it (R161, R120). -/
def acceptedIn (i : Instr) (s : State) : Bool :=
  match i with
  | .ttSet t _ _ _ => (s.tree t).mode.acceptsSet
  | .ttEnc t _ _ _ => (s.tree t).mode.acceptsEnc
  | .ttDec t _ _ _ => (s.tree t).mode.acceptsDec
  | .ttRd t _ => (s.tree t).mode.acceptsRead
  | .cbClear => s.cbState.acceptsClear
  | .magWr _ _ _ _ | .t1EncBlock | .t1DecBlock _ => s.cbState.acceptsLoad
  | .magRd _ _ | .flgRd _ _ => s.cbState.acceptsRead
  | .setSig _ _ _ | .t1EncPass _ _ | .t1DecPass _ _ => s.cbState.acceptsPass
  | _ => true

/-- Step 4 of R87: the fault of the operand checks, if they fail (R211, R213). -/
def operandFault (i : Instr) (s : State) : Option ErrCode :=
  match i with
  | .ttInit _ w h => checkTreeSize s.cfg.ttMaxDim w h
  | .ttSet t x y v | .ttEnc t x y v | .ttDec t x y v => checkLeaf (s.tree t) x y v
  | .ttRd t node => checkNode (s.tree t) node
  | .cbCfg _ w h => checkBlockSize w h
  | .magWr x y _ _ | .magRd x y | .setSig x y _ => checkCoef s x y
  | .flgRd wx wy => checkCell s wx wy
  | .t1EncPass _ p | .t1DecPass _ p => checkPlane p
  | .t1DecBlock nbp => checkPlanes nbp
  | _ => none

/-- Every command but `CLR_ERR` and `SOFT_RESET` goes through dispatch (R87, R219). -/
theorem exec_eq_dispatch {i : Instr} (s : State) (hclr : i ≠ .clrErr) (hreset : i ≠ .softReset) :
    ∃ effect, exec i s = s.dispatch i (acceptedIn i s) (operandFault i s) effect := by
  cases i with
  | clrErr => exact absurd rfl hclr
  | softReset => exact absurd rfl hreset
  | _ => exact ⟨_, rfl⟩

/-- While `ERR` = 1 every command but the two is dropped (R219). -/
theorem exec_dropped {i : Instr} {s : State} (herr : s.err = true) (hclr : i ≠ .clrErr) (hreset : i ≠ .softReset) :
    exec i s = .next s := by
  obtain ⟨effect, h⟩ := exec_eq_dispatch s hclr hreset
  rw [h, s.dispatch_dropped _ _ _ _ herr]

/-- A unit state that does not accept the command: `SEQUENCE`, whatever the operands (R215, R218). The two commands that
bypass dispatch are accepted always. -/
theorem exec_refused {i : Instr} {s : State} (herr : s.err = false) (hacc : acceptedIn i s = false) :
    exec i s = .next (s.faulted .sequence (encode i)) := by
  obtain ⟨effect, h⟩ := exec_eq_dispatch (i := i) s (by rintro rfl; cases hacc) (by rintro rfl; cases hacc)
  rw [h, hacc, s.dispatch_sequence _ _ _ herr, s.raise_eq_faulted .sequence _ (by decide)]

/-- An accepted command whose operands fail a check: the fault of the check, and no effect (R217). The two commands that
bypass dispatch have no check. -/
theorem exec_operandFault {i : Instr} {s : State} {c : ErrCode} (hc : c ≠ .capacity) (herr : s.err = false)
    (hacc : acceptedIn i s = true) (hfault : operandFault i s = some c) :
    exec i s = .next (s.faulted c (encode i)) := by
  obtain ⟨effect, h⟩ := exec_eq_dispatch (i := i) s (by rintro rfl; cases hfault) (by rintro rfl; cases hfault)
  rw [h, hacc, hfault, s.dispatch_check _ _ _ herr, s.raise_eq_faulted _ _ hc]

/-! ## The unit states that accept a command (R161, R120) -/

theorem CbState.acceptsLoad_iff {c : CbState} : c.acceptsLoad = true ↔ c = .ready := by
  cases c <;> decide

theorem CbState.acceptsRead_iff {c : CbState} : c.acceptsRead = true ↔ c = .ready ∨ c = .active ∨ c = .dirty := by
  cases c <;> decide

theorem CbState.acceptsPass_iff {c : CbState} : c.acceptsPass = true ↔ c = .ready ∨ c = .active := by
  cases c <;> decide

theorem TreeMode.acceptsSet_iff {m : TreeMode} : m.acceptsSet = true ↔ m = .fresh ∨ m = .loaded := by
  cases m <;> decide

theorem TreeMode.acceptsEnc_iff {m : TreeMode} : m.acceptsEnc = true ↔ m = .fresh ∨ m = .loaded ∨ m = .enc := by
  cases m <;> decide

theorem TreeMode.acceptsDec_iff {m : TreeMode} : m.acceptsDec = true ↔ m = .fresh ∨ m = .dec := by
  cases m <;> decide

theorem TreeMode.acceptsRead_iff {m : TreeMode} : m.acceptsRead = true ↔ m ≠ .uninit := by
  cases m <;> decide

/-- `SEQUENCE` names the states the other way round: those the table leaves out. -/
theorem CbState.acceptsRead_eq_false {c : CbState} (h : c = .unconf ∨ c = .conf) : c.acceptsRead = false := by
  rcases h with rfl | rfl <;> rfl

theorem TreeMode.acceptsEnc_eq_false {m : TreeMode} (h : m = .uninit ∨ m = .dec) : m.acceptsEnc = false := by
  rcases h with rfl | rfl <;> rfl

/-- A state outside the table of a command is not accepted. -/
theorem accepts_eq_false {accepted : Bool} {P : Prop} (htable : accepted = true ↔ P) (h : ¬ P) : accepted = false :=
  Bool.eq_false_iff.mpr (mt htable.mp h)

/-! ## The operand checks (R211, R213) -/

theorem unlessOk_of_not {P : Prop} [Decidable P] (c : ErrCode) (h : ¬ P) : unlessOk (decide P) c = some c := by
  rw [decide_eq_false h, unlessOk_false]

theorem checkTreeSize_fails {maxDim w h : Nat} (hbad : w = 0 ∨ h = 0 ∨ maxDim < w ∨ maxDim < h) :
    checkTreeSize maxDim w h = some .config :=
  unlessOk_of_not _ (by omega)

theorem checkBlockSize_fails {w h : Nat} (hbad : w = 0 ∨ h = 0 ∨ 64 < w ∨ 64 < h) :
    checkBlockSize w h = some .config :=
  unlessOk_of_not _ (by unfold cbMax; omega)

theorem checkLeaf_fails {tr : TagTree} {x y v : Nat} (hbad : tr.w ≤ x ∨ tr.h ≤ y ∨ v = 255) :
    checkLeaf tr x y v = some .consistency :=
  unlessOk_of_not _ (by unfold ttTMax; omega)

theorem checkNode_fails {tr : TagTree} {i : Nat} (hbad : nodeCount tr.w tr.h ≤ i) :
    checkNode tr i = some .consistency :=
  unlessOk_of_not _ (by omega)

theorem checkCoef_fails {s : State} {x y : Nat} (hbad : s.cbW ≤ x ∨ s.cbH ≤ y) : checkCoef s x y = some .consistency :=
  unlessOk_of_not _ (by omega)

theorem checkCell_fails {s : State} {wx wy : Nat} (hbad : s.cbW + 1 < wx ∨ s.cbH + 1 < wy) :
    checkCell s wx wy = some .consistency :=
  unlessOk_of_not _ (by omega)

theorem checkPlane_fails {p : Nat} (hbad : 31 ≤ p) : checkPlane p = some .consistency :=
  unlessOk_of_not _ (by unfold magW; omega)

theorem checkPlanes_fails {nbp : Nat} (hbad : 31 < nbp) : checkPlanes nbp = some .consistency :=
  unlessOk_of_not _ (by unfold magW; omega)

/-- The checks of all commands but the two that set a geometry. -/
theorem unlessOk_consistency_ne_config (ok : Bool) : unlessOk ok .consistency ≠ some .config := by
  cases ok <;> decide

/-! ## Outcomes that are no `CONFIG` fault (R211) -/

/-- The command did not end by raising `CONFIG`. -/
def NotConfig (r : Result) : Prop := ∀ u, r = .next u → u.err = true → u.errCode ≠ some .config

namespace NotConfig

theorem of_err {u : State} (herr : u.err = false) : NotConfig (.next u) := by
  rintro _ ⟨⟩ h
  exact absurd (herr.symm.trans h) nofun

theorem raise (s : State) {c : ErrCode} (w : Word) (pos : Reg) (hc : c ≠ .config) :
    NotConfig (.next (s.raise c w pos)) := by
  rintro _ ⟨⟩ - h
  exact hc (Option.some.inj h)

theorem fault (f : Fault) : NotConfig (.fault f) := by
  rintro _ ⟨⟩

theorem dispatch {s : State} {i : Instr} {accepted : Bool} {check : Option ErrCode} {effect : Result}
    (herr : s.err = false) (hcheck : check ≠ some .config) (heffect : NotConfig effect) :
    NotConfig (s.dispatch i accepted check effect) := by
  rcases s.dispatch_cases i accepted check effect with ⟨-, h⟩ | ⟨-, -, h⟩ | ⟨c, -, -, rfl, h⟩ | ⟨-, -, -, h⟩
  all_goals rw [h]
  · exact of_err herr
  · exact raise s _ _ (by decide)
  · exact raise s _ _ fun hc => hcheck (congrArg some hc)
  · exact heffect

theorem withWindow {s : State} {f : Window → Result} (hf : ∀ win, NotConfig (f win)) : NotConfig (s.withWindow f) := by
  cases hwin : s.window with
  | none => rw [s.withWindow_none f hwin]; exact fault _
  | some win => rw [s.withWindow_some f win hwin]; exact hf win

theorem withNodes {tr : TagTree} {f : Memory Node → Result} (hf : ∀ m, NotConfig (f m)) :
    NotConfig (tr.withNodes f) := by
  cases hm : tr.nodes with
  | none => rw [tr.withNodes_none f hm]; exact fault _
  | some m => rw [tr.withNodes_some f m hm]; exact hf m

/-- A pass command completes, waits, or raises `CAPACITY` (R73, R196). -/
theorem finish {s : State} {i : Instr} {results : State → State} (r : Res Coding Unit) (herr : s.err = false)
    (hres : ∀ t, (results t).err = t.err) : NotConfig (s.finish i results r) := by
  rcases s.finish_cases i results r with ⟨c, -, h⟩ | ⟨cur, c, -, h⟩ | ⟨cur, c, -, h⟩
  all_goals rw [h]
  · exact of_err ((hres _).trans herr)
  · exact raise _ _ _ (by decide)
  · exact of_err herr

end NotConfig

theorem State.afterWalk_err (s : State) (t : TreeSel) (mode : TreeMode) (k : Walk) :
    (s.afterWalk t mode k).err = s.err :=
  State.setTree_err _ _ _

/-- A query completes or waits: a walk raises no fault (R71, R73). -/
theorem State.query_notConfig {s : State} (i : Instr) (decoding : Bool) (t : TreeSel) (mode : TreeMode) (x y thr : Nat)
    (herr : s.err = false) : NotConfig (s.query i decoding t mode x y thr) := by
  cases hm : (s.tree t).nodes with
  | none => rw [State.query, TagTree.withNodes_none _ _ hm]; exact .fault _
  | some m =>
    rcases s.query_cases i decoding t mode x y thr m hm with ⟨k, -, h⟩ | ⟨cur, k, -, h⟩
    all_goals rw [h]; exact .of_err ((s.afterWalk_err _ _ _).trans herr)

/-- Only the two commands that set a geometry check for `CONFIG` (R211). -/
theorem exec_notConfig {i : Instr} {s : State} (herr : s.err = false) (htree : ∀ t w h, i ≠ .ttInit t w h)
    (hblock : ∀ o w h, i ≠ .cbCfg o w h) : NotConfig (exec i s) := by
  have hconsistency := unlessOk_consistency_ne_config
  cases i with
  | ttInit t w h => exact absurd rfl (htree t w h)
  | cbCfg o w h => exact absurd rfl (hblock o w h)
  | softReset => exact .of_err rfl
  | clrErr => exact .of_err rfl
  | nop | ctxSig | ctxRef | ctxSgn | cbClear => exact .dispatch (check := none) herr nofun (.of_err herr)
  | ttSet t => exact .dispatch herr (hconsistency _) (.withNodes fun _ => .of_err ((s.setTree_err t _).trans herr))
  | ttEnc | ttDec => exact .dispatch herr (hconsistency _) (State.query_notConfig _ _ _ _ _ _ _ herr)
  | ttRd => exact .dispatch herr (hconsistency _) (.withNodes fun _ => .of_err herr)
  | magWr | magRd | flgRd => exact .dispatch herr (hconsistency _) (.withWindow fun _ => .of_err herr)
  | setSig =>
    refine .dispatch herr (hconsistency _) (.withWindow fun win => ?_)
    split
    · exact .raise s _ _ (by decide)
    · exact .of_err herr
  | t1EncPass | t1DecPass | t1DecBlock =>
    exact .dispatch herr (hconsistency _) (.withWindow fun _ => .finish _ herr fun _ => rfl)
  | t1EncBlock => exact .dispatch (check := none) herr nofun (.withWindow fun _ => .finish _ herr fun _ => rfl)

/-! ## Single commands -/

/-- `SET_SIG` past its range check on a coefficient already significant (R169, R215). -/
theorem exec_setSig_significant {x y : Nat} (neg : Bool) {s : State} {win : Window} (herr : s.err = false)
    (hacc : s.cbState = .ready ∨ s.cbState = .active) (hwin : s.window = some win) (hx : x < s.cbW) (hy : y < s.cbH)
    (hsig : isSig (win.coef x y) = true) :
    exec (.setSig x y neg) s = .next (s.faulted .sequence (encode (.setSig x y neg))) := by
  show execSetSig x y neg s = _
  rw [execSetSig, CbState.acceptsPass_of_ready_or_active hacc, checkCoef_of_lt hx hy, s.dispatch_effect _ _ herr,
    s.withWindow_some _ _ hwin, if_pos hsig, s.raise_eq_faulted .sequence _ (by decide)]

/-! ## The write of a command word while `ERR` = 1 (R219) -/

/-- An illegal word is dropped as well: it raises nothing. -/
theorem State.writeCmdHi_error_dropped {s : State} {hi : Reg} {e : DecodeError} (hbusy : s.busy = false)
    (herr : s.err = true) (hdec : decode (commandWord hi s.cmdLo) = .error e) : s.writeCmdHi hi = .settle s := by
  simp [State.writeCmdHi, hbusy, herr, hdec]

theorem encode_clrErr : encode .clrErr = 0x0200000000000000#64 := by decide

theorem encode_softReset : encode .softReset = 0x0100000000000000#64 := by decide

/-! ## The statements -/

/-- Settles O6: an illegal word settles at once (`writeCmdHi_error_dropped`), and a legal word is that of its command
(`decode_eq_ok`), so the command is one that is dropped (`exec_dropped`). -/
theorem wordsAreDroppedWhileErr : Obligations.WordsAreDroppedWhileErr := by
  intro s hi more hwrite hbusy herr hclr hreset
  have hnext := (nextAction_write hwrite).trans (State.busWrite_cmdHi _ hi)
  cases hdec : decode (commandWord hi s.cmdLo) with
  | error e => exact step_of_settle (hnext.trans (State.writeCmdHi_error_dropped hbusy herr hdec))
  | ok i =>
    have hword : encode i = hi ++ s.cmdLo := (decode_eq_ok hdec).2
    rw [step_of_run (hnext.trans (State.writeCmdHi_ok hbusy hdec))]
    refine exec_dropped herr ?clrErr ?softReset
    case clrErr =>
      rintro rfl
      exact hclr (hword.symm.trans encode_clrErr)
    case softReset =>
      rintro rfl
      exact hreset (hword.symm.trans encode_softReset)

/-- Settles O14: the command is `State.clearError`. -/
theorem clrErrEndsTheFaultState : Obligations.ClrErrEndsTheFaultState := fun _ => rfl

/-- Settles O15: the two size checks fail (`checkTreeSize_fails`, `checkBlockSize_fails`), and no other command has one
(`exec_notConfig`). -/
theorem badGeometryRaisesConfig : Obligations.BadGeometryRaisesConfig := by
  intro s w h herr
  refine ⟨fun t hbad => ?_, fun o hbad => ?_, fun i u htree hblock => exec_notConfig herr htree hblock u⟩
  · exact exec_operandFault (by decide) herr rfl (checkTreeSize_fails hbad)
  · exact exec_operandFault (by decide) herr rfl (checkBlockSize_fails hbad)

/-- Settles O16: in a state of its table the command is accepted, and the operands fail its check
(`exec_operandFault`). -/
theorem badOperandRaisesConsistency : Obligations.BadOperandRaisesConsistency := by
  intro s herr
  refine ⟨fun t x y v hbad => ⟨fun hmode => ?ttSet, fun hmode => ?ttEnc, fun hmode => ?ttDec⟩,
    fun t i hmode hbad => ?ttRd,
    fun x y neg mag hbad => ⟨fun hstate => ?magWr, fun hstate => ?magRd, fun hstate => ?setSig⟩,
    fun wx wy hbad hstate => ?flgRd, fun k hstate => ⟨?encPass, ?decPass⟩, fun nbp hbad hstate => ?decBlock⟩
  case ttSet => exact exec_operandFault (by decide) herr (TreeMode.acceptsSet_iff.mpr hmode) (checkLeaf_fails hbad)
  case ttEnc => exact exec_operandFault (by decide) herr (TreeMode.acceptsEnc_iff.mpr hmode) (checkLeaf_fails hbad)
  case ttDec => exact exec_operandFault (by decide) herr (TreeMode.acceptsDec_iff.mpr hmode) (checkLeaf_fails hbad)
  case ttRd => exact exec_operandFault (by decide) herr (TreeMode.acceptsRead_iff.mpr hmode) (checkNode_fails hbad)
  case magWr => exact exec_operandFault (by decide) herr (CbState.acceptsLoad_iff.mpr hstate) (checkCoef_fails hbad)
  case magRd => exact exec_operandFault (by decide) herr (CbState.acceptsRead_iff.mpr hstate) (checkCoef_fails hbad)
  case setSig => exact exec_operandFault (by decide) herr (CbState.acceptsPass_iff.mpr hstate) (checkCoef_fails hbad)
  case flgRd => exact exec_operandFault (by decide) herr (CbState.acceptsRead_iff.mpr hstate) (checkCell_fails hbad)
  case encPass =>
    exact exec_operandFault (by decide) herr (CbState.acceptsPass_iff.mpr hstate) (checkPlane_fails le_rfl)
  case decPass =>
    exact exec_operandFault (by decide) herr (CbState.acceptsPass_iff.mpr hstate) (checkPlane_fails le_rfl)
  case decBlock =>
    exact exec_operandFault (by decide) herr (CbState.acceptsLoad_iff.mpr hstate) (checkPlanes_fails hbad)

/-- Settles O17: outside its table a command is refused before its operands are looked at (`exec_refused`); the last
cause is `SET_SIG`'s own (`exec_setSig_significant`). -/
theorem commandOutOfStateRaisesSequence : Obligations.CommandOutOfStateRaisesSequence := by
  intro s i herr hcause
  rcases hcause with hclear | hload | hread | hpass | httSet | httEnc | httDec | httRd | hsig
  · obtain ⟨rfl, hstate⟩ := hclear
    exact exec_refused herr (congrArg CbState.acceptsClear hstate)
  · obtain ⟨hcmd, hstate⟩ := hload
    have hacc := accepts_eq_false CbState.acceptsLoad_iff hstate
    rcases hcmd with ⟨x, y, neg, mag, rfl⟩ | rfl | ⟨nbp, rfl⟩ <;> exact exec_refused herr hacc
  · obtain ⟨hcmd, hstate⟩ := hread
    have hacc := CbState.acceptsRead_eq_false hstate
    rcases hcmd with ⟨x, y, rfl⟩ | ⟨x, y, rfl⟩ <;> exact exec_refused herr hacc
  · obtain ⟨hcmd, hstate⟩ := hpass
    have hacc := accepts_eq_false CbState.acceptsPass_iff (not_or.mpr hstate)
    rcases hcmd with ⟨x, y, neg, rfl⟩ | ⟨k, p, rfl⟩ | ⟨k, p, rfl⟩ <;> exact exec_refused herr hacc
  · obtain ⟨t, x, y, v, rfl, hmode⟩ := httSet
    exact exec_refused herr (accepts_eq_false TreeMode.acceptsSet_iff (not_or.mpr hmode))
  · obtain ⟨t, x, y, v, rfl, hmode⟩ := httEnc
    exact exec_refused herr (TreeMode.acceptsEnc_eq_false hmode)
  · obtain ⟨t, x, y, v, rfl, hmode⟩ := httDec
    exact exec_refused herr (accepts_eq_false TreeMode.acceptsDec_iff (not_or.mpr hmode))
  · obtain ⟨t, n, rfl, hmode⟩ := httRd
    exact exec_refused herr (accepts_eq_false TreeMode.acceptsRead_iff (not_not.mpr hmode))
  · obtain ⟨x, y, neg, win, rfl, hacc, hwin, hx, hy, hsig⟩ := hsig
    exact exec_setSig_significant neg herr hacc hwin hx hy hsig

end Sys2Proof.Machine
end

section
/-! PROOFS. The family of spec/70_reset_and_hazards.md: register writes while `BUSY` = 1 (R244). First what a write of
`CMD_HI` does to a busy block, then the statement it settles. -/

namespace Sys2Proof.Machine

/-! ## The write of a command word while `BUSY` = 1 (R64, R244) -/

/-- A busy block takes no word but that of `SOFT_RESET`: the word is not queued, only `OVR` tells of it. -/
theorem State.writeCmdHi_lost {s : State} {hi : Reg} (hbusy : s.busy = true)
    (hword : commandWord hi s.cmdLo ≠ encode .softReset) : s.writeCmdHi hi = .settle { s with ovr := true } := by
  rw [State.writeCmdHi, if_pos hbusy, if_neg hword]

/-- The word of `SOFT_RESET` is executed in a busy block as well. -/
theorem State.writeCmdHi_softReset {s : State} {hi : Reg} (hbusy : s.busy = true)
    (hword : commandWord hi s.cmdLo = encode .softReset) : s.writeCmdHi hi = .run .softReset s := by
  rw [State.writeCmdHi, if_pos hbusy, if_pos hword]

/-! ## The statement -/

/-- Settles O7: whether the word is that of `SOFT_RESET` (`encode_softReset`) decides if the write of `CMD_HI` is lost
(`writeCmdHi_lost`) or runs it (`writeCmdHi_softReset`); the write of `CMD_LO` is that of the register map
(`registerMapAccesses`), busy or not. -/
theorem commandWriteWhileBusy : Obligations.CommandWriteWhileBusy := by
  intro s more
  refine ⟨fun hi hwrite hbusy => ?cmdHi, fun lo hwrite => ?cmdLo⟩
  case cmdHi =>
    have hnext := (nextAction_write hwrite).trans (State.busWrite_cmdHi _ hi)
    rw [← encode_softReset]
    exact ⟨fun hword => step_of_settle (hnext.trans (State.writeCmdHi_lost hbusy hword)),
      fun hword => step_of_run (hnext.trans (State.writeCmdHi_softReset hbusy hword))⟩
  case cmdLo =>
    obtain ⟨-, hwrites⟩ := registerMapAccesses s 0x00 more (Nat.zero_le _)
    obtain ⟨hcmdLo, -, -⟩ := hwrites lo hwrite
    exact hcmdLo rfl

end Sys2Proof.Machine
end


section
/-! PROOFS. The encoding of commands (spec/30_encoding.md): the decoder inverts the encoder (R81, R82, R87, R88), and the
words of the assembler examples (R89). -/

namespace Sys2Proof

/-! ## The fields of an assembled word (R80) -/

theorem toNat_assemble {op s x y imm : Nat} (hop : op < 256) (hs : s < 4) (hx : x < 2048) (hy : y < 2048)
    (himm : imm < 4294967296) :
    (assemble op s x y imm).toNat = op * 2 ^ 56 + s * 2 ^ 54 + x * 2 ^ 43 + y * 2 ^ 32 + imm := by
  rw [assemble, BitVec.toNat_ofNat]
  omega

/-- The decoder sees the five fields a word was put together from. -/
theorem decode_assemble {op s x y imm : Nat} (hop : op < 256) (hs : s < 4) (hx : x < 2048) (hy : y < 2048)
    (himm : imm < 4294967296) : decode (assemble op s x y imm) = decodeFields op s x y imm := by
  have hword := toNat_assemble hop hs hx hy himm
  have fOp : fieldOp (assemble op s x y imm) = op := by rw [fieldOp, slice, hword]; omega
  have fS : fieldS (assemble op s x y imm) = s := by rw [fieldS, slice, hword]; omega
  have fX : fieldX (assemble op s x y imm) = x := by rw [fieldX, slice, hword]; omega
  have fY : fieldY (assemble op s x y imm) = y := by rw [fieldY, slice, hword]; omega
  have fImm : fieldImm (assemble op s x y imm) = imm := by rw [fieldImm, slice, hword]; omega
  rw [decode, fOp, fS, fX, fY, fImm]

/-! ## What the parts of the decoder make of what the encoder writes (R82, R83) -/

theorem whenZero_of_eq_zero {unused : Nat} (h : unused = 0) (r : Except DecodeError Instr) : whenZero unused r = r :=
  if_pos h

@[simp] theorem withTree_code (t : TreeSel) (mk : TreeSel → Instr) : withTree t.code mk = .ok (mk t) := by
  cases t <;> rfl

@[simp] theorem withKind_code (k : PassKind) (mk : PassKind → Instr) : withKind k.code mk = .ok (mk k) := by
  cases k <;> rfl

@[simp] theorem orientOf_orientCode (o : Orient) : orientOf o.code = o := by cases o <;> rfl

theorem TreeSel.code_lt (t : TreeSel) : t.code < 4 := by cases t <;> decide

theorem Orient.code_lt (o : Orient) : o.code < 4 := by cases o <;> decide

theorem PassKind.code_lt (k : PassKind) : k.code < 4 := by cases k <;> decide

/-- Sign and magnitude side by side in the immediate field of `MAG_WR` (R81). -/
theorem signedImm_lt (neg : Bool) (mag : BitVec 31) : neg.toNat * 2147483648 + mag.toNat < 4294967296 := by
  have hmag := mag.isLt
  have hneg := neg.toNat_le
  omega

theorem signedImm_neg (neg : Bool) (mag : BitVec 31) :
    decide ((neg.toNat * 2147483648 + mag.toNat) / 2147483648 = 1) = neg := by
  have hmag := mag.isLt
  cases neg with
  | true => exact decide_eq_true (by rw [Bool.toNat_true]; omega)
  | false => exact decide_eq_false (by rw [Bool.toNat_false]; omega)

theorem signedImm_mag (neg : Bool) (mag : BitVec 31) :
    BitVec.ofNat 31 (neg.toNat * 2147483648 + mag.toNat) = mag := by
  have hmag := mag.isLt
  apply BitVec.eq_of_toNat_eq
  rw [BitVec.toNat_ofNat]
  omega

theorem decide_toNat_mod_two (neg : Bool) : decide (neg.toNat % 2 = 1) = neg := by cases neg <;> rfl

/-! ## The decoder on an encoding (R88) -/

/-- Every command is read back from the fields of its format; the checks of its unused bits pass, since the encoder
leaves them 0. -/
theorem decode_encode {i : Instr} (hwf : i.wf = true) : decode (encode i) = .ok i := by
  cases i with
  | nop | softReset | clrErr | cbClear | t1EncBlock => rfl
  | ttInit t w h =>
    obtain ⟨hw, hh⟩ : w < 2048 ∧ h < 2048 := by simpa [Instr.wf, fitsCoord_iff] using hwf
    refine (decode_assemble (by decide) t.code_lt hw hh (by decide)).trans ?_
    exact (whenZero_of_eq_zero rfl _).trans (withTree_code t _)
  | ttSet t x y v | ttEnc t x y v | ttDec t x y v =>
    obtain ⟨⟨hx, hy⟩, hv⟩ : (x < 2048 ∧ y < 2048) ∧ v < 256 := by simpa [Instr.wf, fitsCoord_iff] using hwf
    refine (decode_assemble (by decide) t.code_lt hx hy (by omega)).trans ?_
    refine (whenZero_of_eq_zero (Nat.div_eq_of_lt hv) _).trans ((withTree_code t _).trans ?_)
    rw [Nat.mod_eq_of_lt hv]
  | ttRd t node =>
    have hnode : node < 4294967296 := by simpa [Instr.wf] using hwf
    refine (decode_assemble (by decide) t.code_lt (by decide) (by decide) hnode).trans ?_
    exact (whenZero_of_eq_zero rfl _).trans (withTree_code t _)
  | ctxSig o f =>
    have hf := f.isLt
    refine (decode_assemble (by decide) o.code_lt (by decide) (by decide) (by omega)).trans ?_
    refine (whenZero_of_eq_zero (by omega) _).trans ?_
    rw [orientOf_orientCode, BitVec.ofNat_toNat, BitVec.setWidth_eq]
  | ctxRef f | ctxSgn f =>
    have hf := f.isLt
    refine (decode_assemble (by decide) (by decide) (by decide) (by decide) (by omega)).trans ?_
    refine (whenZero_of_eq_zero (by omega) _).trans ?_
    rw [BitVec.ofNat_toNat, BitVec.setWidth_eq]
  | cbCfg o w h =>
    obtain ⟨hw, hh⟩ : w < 2048 ∧ h < 2048 := by simpa [Instr.wf, fitsCoord_iff] using hwf
    refine (decode_assemble (by decide) o.code_lt hw hh (by decide)).trans ?_
    refine (whenZero_of_eq_zero rfl _).trans ?_
    rw [orientOf_orientCode]
  | magWr x y neg mag =>
    obtain ⟨hx, hy⟩ : x < 2048 ∧ y < 2048 := by simpa [Instr.wf, fitsCoord_iff] using hwf
    refine (decode_assemble (by decide) (by decide) hx hy (signedImm_lt neg mag)).trans ?_
    refine (whenZero_of_eq_zero rfl _).trans ?_
    rw [signedImm_neg, signedImm_mag]
  | magRd x y | flgRd x y =>
    obtain ⟨hx, hy⟩ : x < 2048 ∧ y < 2048 := by simpa [Instr.wf, fitsCoord_iff] using hwf
    exact (decode_assemble (by decide) (by decide) hx hy (by decide)).trans (whenZero_of_eq_zero rfl _)
  | setSig x y neg =>
    obtain ⟨hx, hy⟩ : x < 2048 ∧ y < 2048 := by simpa [Instr.wf, fitsCoord_iff] using hwf
    have hneg := neg.toNat_le
    refine (decode_assemble (by decide) (by decide) hx hy (by omega)).trans ?_
    refine (whenZero_of_eq_zero (by omega) _).trans ?_
    rw [decide_toNat_mod_two]
  | t1EncPass k p | t1DecPass k p =>
    have hp : p < 32 := by simpa [Instr.wf] using hwf
    refine (decode_assemble (by decide) k.code_lt (by decide) (by decide) (by omega)).trans ?_
    refine (whenZero_of_eq_zero (by omega) _).trans ((withKind_code k _).trans ?_)
    rw [Nat.mod_eq_of_lt hp]
  | t1DecBlock nbp =>
    have hn : nbp < 64 := by simpa [Instr.wf] using hwf
    refine (decode_assemble (by decide) (by decide) (by decide) (by decide) (by omega)).trans ?_
    refine (whenZero_of_eq_zero (by omega) _).trans ?_
    rw [Nat.mod_eq_of_lt hn]

/-- A word that is the encoding of a command decodes to it. -/
theorem decode_of_encode_eq {w : Word} {i : Instr} (hwf : i.wf = true) (hw : encode i = w) : decode w = .ok i :=
  hw ▸ decode_encode hwf

/-! ## The statements -/

/-- Settles O1: the decoder inverts the encoder, format by format (`decode_encode`). -/
theorem decodeOfEncodeIsTheCommand : Obligations.DecodeOfEncodeIsTheCommand := fun _ hwf => decode_encode hwf

/-- Settles O2: a word that decodes is the encoding of its command (`decode_eq_ok`), which leaves room for no second
word. -/
theorem decodedWordIsItsEncoding : Obligations.DecodedWordIsItsEncoding := by
  intro w i hdec
  obtain ⟨hwf, hword⟩ := decode_eq_ok hdec
  refine ⟨hwf, hword, fun v hv => ?_⟩
  obtain ⟨-, hword'⟩ := decode_eq_ok hv
  exact hword'.symm.trans hword

/-- Settles O3: each word is the encoding of its command, so it decodes to it (`decode_encode`). -/
theorem listedWordsDecode : Obligations.ListedWordsDecode := by
  refine ⟨?_, ?_, ?_, ?_, ?_, ?_, ?_, ?_, ?_, ?_⟩ <;> exact decode_of_encode_eq rfl (by decide)

end Sys2Proof
end


section
/-! PROOFS. What a command can do (`Outcome`, `exec_outcome`) and what the host's side can do to a state (`Arrives`,
`arrives_nextAction`), each said once: every statement about all commands or all steps is a case analysis over the two.
Then the commands one by one, and the statements that need no more. -/

namespace Sys2Proof.Machine

/-! ## Planes of a window (R193) -/

theorem exists_foldl_max_eq {ι : Type} (f : ι → Nat) (l : List ι) (v : Nat) :
    l.foldl (fun acc i => max acc (f i)) v = v ∨ ∃ i ∈ l, l.foldl (fun acc i => max acc (f i)) v = f i := by
  induction l generalizing v with
  | nil => exact .inl rfl
  | cons i rest ih =>
    rw [List.foldl_cons]
    rcases ih (max v (f i)) with h | ⟨j, hj, h⟩
    · rcases Nat.le_total v (f i) with hle | hle
      · exact .inr ⟨i, List.mem_cons_self, h.trans (Nat.max_eq_right hle)⟩
      · exact .inl (h.trans (Nat.max_eq_left hle))
    · exact .inr ⟨j, List.mem_cons_of_mem i hj, h⟩

theorem mem_scan_inBlock {w h : Nat} {c : Nat × Nat × Nat} (hc : c ∈ scan w h) : c.2.1 < w ∧ c.2.2 < h := by
  obtain ⟨y0, x, y⟩ := c
  obtain ⟨hcol, hrow⟩ := mem_scan.mp hc
  exact ⟨(mem_columns.mp hcol).1, (mem_rowsOf.mp hrow).2.1⟩

/-- The largest magnitude is one of the code-block's, unless all are 0. -/
theorem exists_mag_eq_maxMag {win : Window} {w h : Nat} (hpos : 0 < maxMag win w h) :
    ∃ x y, x < w ∧ y < h ∧ (win.mag x y).toNat = maxMag win w h := by
  rcases exists_foldl_max_eq (fun c : Nat × Nat × Nat => (win.mag c.2.1 c.2.2).toNat) (scan w h) 0 with h0 | ⟨c, hc, hmax⟩
  · exact absurd hpos (by rw [maxMag, h0]; decide)
  · obtain ⟨hx, hy⟩ := mem_scan_inBlock hc
    exact ⟨c.2.1, c.2.2, hx, hy, hmax.symm⟩

theorem two_pow_bitLen_le {v : Nat} (hpos : 0 < bitLen v) : 2 ^ (bitLen v - 1) ≤ v := by
  unfold bitLen at hpos ⊢
  split at hpos
  · exact absurd hpos (Nat.lt_irrefl 0)
  · next hv =>
    rw [if_neg hv, Nat.add_sub_cancel]
    exact Nat.log2_self_le hv

theorem planes_planesOf (win : Window) (w h : Nat) : win.planes w h (planesOf win w h) := by
  refine ⟨fun x y hx hy => mag_lt_two_pow_planesOf win hx hy, fun hpos => ?_⟩
  have hle : 2 ^ (planesOf win w h - 1) ≤ maxMag win w h := two_pow_bitLen_le hpos
  obtain ⟨x, y, hx, hy, hmag⟩ := exists_mag_eq_maxMag (Nat.lt_of_lt_of_le (Nat.two_pow_pos _) hle)
  exact ⟨x, y, hx, hy, hmag ▸ hle⟩

theorem Window.planes.le {win : Window} {w h m n : Nat} (hm : win.planes w h m) (hn : win.planes w h n) : m ≤ n := by
  obtain ⟨-, hattained⟩ := hm
  obtain ⟨hbound, -⟩ := hn
  by_contra hlt
  obtain ⟨x, y, hx, hy, hle⟩ := hattained (by omega)
  have hpow : 2 ^ n ≤ 2 ^ (m - 1) := Nat.pow_le_pow_right (by decide) (by omega)
  exact absurd (hbound x y hx hy) (Nat.not_lt.mpr (hpow.trans hle))

/-- The number of planes of the statements is the machine's. -/
theorem planes_iff {win : Window} {w h n : Nat} : win.planes w h n ↔ n = planesOf win w h := by
  constructor
  · exact fun hn => Nat.le_antisymm (hn.le (planes_planesOf win w h)) ((planes_planesOf win w h).le hn)
  · rintro rfl
    exact planes_planesOf win w h

/-! ## Commands that run passes (R191 to R195) -/

/-- Some passes, in order. -/
def codingPasses (g : PassCtx) (l : List (PassKind × Nat)) (c : Coding) : Res Coding Unit :=
  forEach l (fun kp => codingPass g kp.1 kp.2) c

/-- What a pass command starts its passes from: the events before the first of them are issued. -/
def State.codingAfter (s : State) (win : Window) (first : List CodEvent) : Coding :=
  ⟨win, s.cod ++ first, s.encIn, s.decIn⟩

/-- The results of a command that runs passes: the block commands have some (R193, R194). -/
def State.passResults (s : State) (win : Window) (i : Instr) (t : State) : State :=
  match i with
  | .t1EncBlock => t.blockResults (planesOf win s.cbW s.cbH)
  | .t1DecBlock nbp => t.blockResults nbp
  | _ => t

theorem forEach_singleton {σ ι : Type} (i : ι) (body : ι → σ → Res σ Unit) (s : σ) : forEach [i] body s = body i s := by
  unfold forEach
  cases body i s <;> rfl

theorem exec_t1EncPass (k : PassKind) {p : Nat} {s : State} {win : Window} (herr : s.err = false)
    (hacc : s.cbState = .ready ∨ s.cbState = .active) (hwin : s.window = some win) (hp : p ≤ 30) :
    exec (.t1EncPass k p) s = s.finish (.t1EncPass k p) id (codingPass (s.passCtx .enc) k p (s.coding win)) := by
  show s.onePass (.t1EncPass k p) .enc k p = _
  rw [State.onePass, CbState.acceptsPass_of_ready_or_active hacc, checkPlane_of_le hp, s.dispatch_effect _ _ herr,
    s.withWindow_some _ _ hwin]

theorem State.codingAfter_nil (s : State) (win : Window) : s.codingAfter win [] = s.coding win := by
  rw [State.codingAfter, List.append_nil]
  rfl

/-- Every command that runs passes, past its checks, is the same: its passes, then its end (R191 to R195). -/
theorem exec_startsPasses {s : State} {win : Window} {i : Instr} {m : Mode} {l : List (PassKind × Nat)}
    {first : List CodEvent} (herr : s.err = false) (hwin : s.window = some win) (hstart : s.startsPasses win i m l first) :
    exec i s = s.finish i (s.passResults win i) (codingPasses (s.passCtx m) l (s.codingAfter win first)) := by
  unfold codingPasses
  rcases hstart with ⟨k, p, hacc, hp, rfl, rfl, hcmd⟩ | ⟨nbp, hready, hn, rfl, rfl, hcmd⟩
  · rw [forEach_singleton, s.codingAfter_nil]
    rcases hcmd with ⟨rfl, rfl⟩ | ⟨rfl, rfl⟩
    · exact exec_t1EncPass k herr hacc hwin hp
    · exact exec_t1DecPass k herr hacc hwin hp
  · rcases hcmd with ⟨rfl, rfl, hplanes⟩ | ⟨rfl, rfl⟩
    · obtain rfl := planes_iff.mp hplanes
      rw [exec_t1EncBlock herr hready hwin, codingBlock_passes]
      rfl
    · rw [exec_t1DecBlock herr hready hwin hn, codingBlock_passes]
      rfl

/-! ## Everything a command can do (R87) -/

/-- The state a completed query leaves (R118). -/
def State.queried (s : State) (t : TreeSel) (mode : TreeMode) (x y thr : Nat) (k : Walk) : State :=
  (s.afterWalk t mode k).setRes
    (queryResult (nodeAt k.nodes (Level.node ⟨0, (s.tree t).w, (s.tree t).h⟩ x y)) thr) (BitVec.ofNat 32 k.nbits)

/-- The walk of a query of `s` (R115). -/
def State.queryWalk (s : State) (decoding : Bool) (t : TreeSel) (x y thr : Nat) (m : Memory Node) : Res Walk Unit :=
  walk decoding t (s.tree t).w (s.tree t).h x y thr ⟨m, s.hdr, s.hdrIn, 0, 0⟩

/-- The operands of a tree command pass its check (R113, R116, R117). -/
def leafOk (tr : TagTree) (x y v : Nat) : Prop := x < tr.w ∧ y < tr.h ∧ v ≤ 254

/-- What a command that passes its checks does, past them: the state it ends in or waits in. -/
inductive Does (s : State) : Instr → State → Prop
  | nop : Does s .nop s
  | softReset : Does s .softReset s.blockReset
  | clrErr : Does s .clrErr s.clearError
  | results {i : Instr} (a b : Reg) : Does s i (s.setRes a b)
  | ttInit {t : TreeSel} {w h : Nat} (hw : 1 ≤ w ∧ w ≤ s.cfg.ttMaxDim) (hh : 1 ≤ h ∧ h ≤ s.cfg.ttMaxDim) :
      Does s (.ttInit t w h) (s.setTree t ⟨w, h, .fresh, some []⟩)
  | ttSet {t : TreeSel} {x y v : Nat} {m : Memory Node} (hmode : (s.tree t).mode = .fresh ∨ (s.tree t).mode = .loaded)
      (hm : (s.tree t).nodes = some m) (hleaf : leafOk (s.tree t) x y v) :
      Does s (.ttSet t x y v) (s.setTree t
        { s.tree t with mode := .loaded, nodes := some (loadLeaf (s.tree t).w (s.tree t).h x y v m) })
  | ttEnc {t : TreeSel} {x y thr : Nat} {m : Memory Node} {k : Walk}
      (hmode : (s.tree t).mode = .fresh ∨ (s.tree t).mode = .loaded ∨ (s.tree t).mode = .enc)
      (hm : (s.tree t).nodes = some m) (hleaf : leafOk (s.tree t) x y thr)
      (hwalk : s.queryWalk false t x y thr m = .done () k) :
      Does s (.ttEnc t x y thr) (s.queried t .enc x y thr k)
  | ttDec {t : TreeSel} {x y thr : Nat} {m : Memory Node} {k : Walk}
      (hmode : (s.tree t).mode = .fresh ∨ (s.tree t).mode = .dec)
      (hm : (s.tree t).nodes = some m) (hleaf : leafOk (s.tree t) x y thr)
      (hwalk : s.queryWalk true t x y thr m = .done () k) :
      Does s (.ttDec t x y thr) (s.queried t .dec x y thr k)
  | ttDecWaits {t : TreeSel} {x y thr : Nat} {m : Memory Node} {cur : Cursor} {k : Walk}
      (hmode : (s.tree t).mode = .fresh ∨ (s.tree t).mode = .dec)
      (hm : (s.tree t).nodes = some m) (hleaf : leafOk (s.tree t) x y thr)
      (hwalk : s.queryWalk true t x y thr m = .hold cur k) :
      Does s (.ttDec t x y thr) (s.hold (.ttDec t x y thr) cur (s.afterWalk t (s.tree t).mode k))
  | cbCfg {o : Orient} {w h : Nat} (hw : 1 ≤ w ∧ w ≤ 64) (hh : 1 ≤ h ∧ h ≤ 64) :
      Does s (.cbCfg o w h) { s with cbW := w, cbH := h, cbOrient := o, cbState := .conf, window := none }
  | cbClear (hstate : s.cbState ≠ .unconf) :
      Does s .cbClear { s with window := some Window.cleared, cbState := .ready }
  | magWr {x y : Nat} {neg : Bool} {mag : Magnitude} {win : Window} (hready : s.cbState = .ready)
      (hwin : s.window = some win) (hx : x < s.cbW) (hy : y < s.cbH) :
      Does s (.magWr x y neg mag)
        { s with window := some ((win.putMag x y mag).putBit (x + 1) (y + 1) flagSgn neg) }
  | setSig {x y : Nat} {neg : Bool} {win : Window} (hacc : s.cbState = .ready ∨ s.cbState = .active)
      (hwin : s.window = some win) (hx : x < s.cbW) (hy : y < s.cbH) (hsig : isSig (win.coef x y) = false) :
      Does s (.setSig x y neg) { s with window := some (win.setSig x y neg), cbState := .active }
  | passesEnd {i : Instr} {win : Window} {m : Mode} {l : List (PassKind × Nat)} {first : List CodEvent} {c : Coding}
      (hwin : s.window = some win) (hstart : s.startsPasses win i m l first)
      (hrun : codingPasses (s.passCtx m) l (s.codingAfter win first) = .done () c) :
      Does s i (s.passResults win i (s.withCoding c))
  | passesFull {i : Instr} {win : Window} {m : Mode} {l : List (PassKind × Nat)} {first : List CodEvent} {cur : Cursor}
      {c : Coding} (hwin : s.window = some win) (hstart : s.startsPasses win i m l first)
      (hrun : codingPasses (s.passCtx m) l (s.codingAfter win first) = .full cur c) :
      Does s i ((s.withCoding c).raise .capacity (encode i) (errPosOf cur))
  | passesWait {i : Instr} {win : Window} {m : Mode} {l : List (PassKind × Nat)} {first : List CodEvent} {cur : Cursor}
      {c : Coding} (hwin : s.window = some win) (hstart : s.startsPasses win i m l first)
      (hrun : codingPasses (s.passCtx m) l (s.codingAfter win first) = .hold cur c) :
      Does s i (s.hold i cur (s.withCoding c))

/-- What a command can end in: it is dropped (R219), raises a fault of its checks (R211, R213, R215), does what it is for,
or would read contents the spec leaves unspecified, which stops the model (log 2). -/
inductive Outcome (s : State) (i : Instr) : Result → Prop
  | dropped (herr : s.err = true) : Outcome s i (.next s)
  | refused (herr : s.err = false) {c : ErrCode} (hc : c = .config ∨ c = .consistency ∨ c = .sequence) :
      Outcome s i (.next (s.faulted c (encode i)))
  | does {t : State} (h : Does s i t) : Outcome s i (.next t)
  | noWindow (hacc : s.cbState.acceptsRead = true) (hwin : s.window = none) : Outcome s i (.fault .windowUnspecified)
  | noNodes {t : TreeSel} (hmode : (s.tree t).mode ≠ .uninit) (hm : (s.tree t).nodes = none) :
      Outcome s i (.fault .treeUnspecified)

namespace Outcome

variable {s : State} {i : Instr}

theorem dispatch {accepted : Bool} {check : Option ErrCode} {effect : Result}
    (hcheck : check = none ∨ check = some .config ∨ check = some .consistency)
    (heffect : s.err = false → accepted = true → check = none → Outcome s i effect) :
    Outcome s i (s.dispatch i accepted check effect) := by
  rcases s.dispatch_cases i accepted check effect with ⟨herr, h⟩ | ⟨herr, -, h⟩ | ⟨c, herr, -, hc, h⟩ | ⟨herr, hacc, hc, h⟩
  · rw [h]
    exact .dropped herr
  · rw [h, s.raise_eq_faulted .sequence _ (by decide)]
    exact .refused herr (.inr (.inr rfl))
  · obtain rfl | rfl : c = .config ∨ c = .consistency := by simpa [hc] using hcheck
    · rw [h, s.raise_eq_faulted .config _ (by decide)]
      exact .refused herr (.inl rfl)
    · rw [h, s.raise_eq_faulted .consistency _ (by decide)]
      exact .refused herr (.inr (.inl rfl))
  · rw [h]
    exact heffect herr hacc hc

theorem withWindow {f : Window → Result} (hacc : s.cbState.acceptsRead = true)
    (hf : ∀ win, s.window = some win → Outcome s i (f win)) : Outcome s i (s.withWindow f) := by
  cases hwin : s.window with
  | none => rw [s.withWindow_none f hwin]; exact .noWindow hacc hwin
  | some win => rw [s.withWindow_some f win hwin]; exact hf win hwin

theorem withNodes {t : TreeSel} {f : Memory Node → Result} (hmode : (s.tree t).mode ≠ .uninit)
    (hf : ∀ m, (s.tree t).nodes = some m → Outcome s i (f m)) : Outcome s i ((s.tree t).withNodes f) := by
  cases hm : (s.tree t).nodes with
  | none => rw [TagTree.withNodes_none _ f hm]; exact .noNodes hmode hm
  | some m => rw [TagTree.withNodes_some _ f m hm]; exact hf m hm

/-- The end of a command that runs passes. -/
theorem passes {win : Window} {m : Mode} {l : List (PassKind × Nat)} {first : List CodEvent}
    (herr : s.err = false) (hwin : s.window = some win) (hstart : s.startsPasses win i m l first) :
    Outcome s i (exec i s) := by
  rw [exec_startsPasses herr hwin hstart]
  generalize hrun : codingPasses (s.passCtx m) l (s.codingAfter win first) = r
  cases r with
  | done _ c => exact .does (.passesEnd hwin hstart hrun)
  | full cur c => exact .does (.passesFull hwin hstart hrun)
  | hold cur c => exact .does (.passesWait hwin hstart hrun)

end Outcome

theorem unlessOk_eq_none {P : Prop} [Decidable P] {c : ErrCode} : unlessOk (decide P) c = none ↔ P := by
  by_cases h : P <;> simp [h]

theorem checkLeaf_eq_none {tr : TagTree} {x y v : Nat} : checkLeaf tr x y v = none ↔ leafOk tr x y v := unlessOk_eq_none

theorem checkCoef_eq_none {s : State} {x y : Nat} : checkCoef s x y = none ↔ x < s.cbW ∧ y < s.cbH := unlessOk_eq_none

theorem unlessOk_config (ok : Bool) :
    unlessOk ok .config = none ∨ unlessOk ok .config = some .config ∨ unlessOk ok .config = some .consistency := by
  cases ok <;> decide

theorem unlessOk_consistency (ok : Bool) :
    unlessOk ok .consistency = none ∨ unlessOk ok .consistency = some .config ∨
      unlessOk ok .consistency = some .consistency := by
  cases ok <;> decide

theorem CbState.acceptsRead_of_pass {c : CbState} (h : c = .ready ∨ c = .active) : c.acceptsRead = true := by
  rcases h with rfl | rfl <;> rfl

theorem TreeMode.ne_uninit_of_enc {mode : TreeMode} (h : mode = .fresh ∨ mode = .loaded ∨ mode = .enc) :
    mode ≠ .uninit := by
  rcases h with rfl | rfl | rfl <;> decide

theorem TreeMode.ne_uninit_of_dec {mode : TreeMode} (h : mode = .fresh ∨ mode = .dec) : mode ≠ .uninit := by
  rcases h with rfl | rfl <;> decide

theorem TreeMode.ne_uninit_of_set {mode : TreeMode} (h : mode = .fresh ∨ mode = .loaded) : mode ≠ .uninit := by
  rcases h with rfl | rfl <;> decide

/-- `TT_ENC` never waits: `HdrPut` cannot fail or be held (R71, R73). -/
theorem queryWalk_enc_done (s : State) (t : TreeSel) (x y thr : Nat) (m : Memory Node) :
    ∃ k, s.queryWalk false t x y thr m = .done () k := by
  obtain ⟨k, bits, hwalk, -⟩ := walk_enc t thr (treePath (s.tree t).w (s.tree t).h x y) ⟨m, s.hdr, s.hdrIn, 0, 0⟩
  exact ⟨k, hwalk⟩

/-- A query past its checks: it completes, or waits. -/
theorem State.query_eq {s : State} (i : Instr) (decoding : Bool) (t : TreeSel) (mode : TreeMode) (x y thr : Nat)
    {m : Memory Node} (hm : (s.tree t).nodes = some m) :
    (∃ k, s.queryWalk decoding t x y thr m = .done () k ∧
      s.query i decoding t mode x y thr = .next (s.queried t mode x y thr k)) ∨
    ∃ cur k, s.queryWalk decoding t x y thr m = .hold cur k ∧
      s.query i decoding t mode x y thr = .next (s.hold i cur (s.afterWalk t (s.tree t).mode k)) :=
  s.query_cases i decoding t mode x y thr m hm

/-- Everything a command can do. -/
theorem exec_outcome (i : Instr) (s : State) : Outcome s i (exec i s) := by
  cases i with
  | softReset => exact .does .softReset
  | clrErr => exact .does .clrErr
  | nop => exact .dispatch (.inl rfl) fun _ _ _ => .does .nop
  | ctxSig o f | ctxRef f => exact .dispatch (.inl rfl) fun _ _ _ => .does (.results _ s.res1)
  | ctxSgn f => exact .dispatch (.inl rfl) fun _ _ _ => .does (.results _ _)
  | ttInit t w h =>
    refine .dispatch (unlessOk_config _) fun _ _ hcheck => .does ?_
    obtain ⟨hw, hw', hh, hh'⟩ := unlessOk_eq_none.mp hcheck
    exact .ttInit ⟨hw, hw'⟩ ⟨hh, hh'⟩
  | ttSet t x y v =>
    refine .dispatch (unlessOk_consistency _) fun _ hacc hcheck => ?_
    have hmode := TreeMode.acceptsSet_iff.mp hacc
    exact .withNodes (TreeMode.ne_uninit_of_set hmode) fun m hm => .does (.ttSet hmode hm (checkLeaf_eq_none.mp hcheck))
  | ttEnc t x y thr =>
    refine .dispatch (unlessOk_consistency _) fun _ hacc hcheck => ?_
    have hmode := TreeMode.acceptsEnc_iff.mp hacc
    refine .withNodes (TreeMode.ne_uninit_of_enc hmode) fun m hm => ?_
    obtain ⟨k, hwalk⟩ := queryWalk_enc_done s t x y thr m
    have hdoes := Does.ttEnc hmode hm (checkLeaf_eq_none.mp hcheck) hwalk
    rw [State.queryWalk] at hwalk
    rw [hwalk]
    exact .does hdoes
  | ttDec t x y thr =>
    refine .dispatch (unlessOk_consistency _) fun _ hacc hcheck => ?_
    have hmode := TreeMode.acceptsDec_iff.mp hacc
    have hleaf := checkLeaf_eq_none.mp hcheck
    cases hm : (s.tree t).nodes with
    | none =>
      rw [State.query, TagTree.withNodes_none _ _ hm]
      exact .noNodes (TreeMode.ne_uninit_of_dec hmode) hm
    | some m =>
      rcases State.query_eq (.ttDec t x y thr) true t .dec x y thr hm with ⟨k, hwalk, h⟩ | ⟨cur, k, hwalk, h⟩
      · rw [h]
        exact .does (.ttDec hmode hm hleaf hwalk)
      · rw [h]
        exact .does (.ttDecWaits hmode hm hleaf hwalk)
  | ttRd t node =>
    refine .dispatch (unlessOk_consistency _) fun _ hacc _ => ?_
    exact .withNodes (TreeMode.acceptsRead_iff.mp hacc) fun m _ => .does (.results _ _)
  | cbCfg o w h =>
    refine .dispatch (unlessOk_config _) fun _ _ hcheck => .does ?_
    obtain ⟨hw, hw', hh, hh'⟩ := unlessOk_eq_none.mp hcheck
    exact .cbCfg ⟨hw, hw'⟩ ⟨hh, hh'⟩
  | cbClear =>
    refine .dispatch (.inl rfl) fun _ hacc _ => .does (.cbClear ?_)
    intro h
    rw [h] at hacc
    cases hacc
  | magWr x y neg mag =>
    refine .dispatch (unlessOk_consistency _) fun _ hacc hcheck => ?_
    have hready := CbState.acceptsLoad_iff.mp hacc
    obtain ⟨hx, hy⟩ := checkCoef_eq_none.mp hcheck
    exact .withWindow (CbState.acceptsRead_of_pass (.inl hready)) fun win hwin => .does (.magWr hready hwin hx hy)
  | magRd x y | flgRd wx wy =>
    refine .dispatch (unlessOk_consistency _) fun _ hacc _ => ?_
    exact .withWindow hacc fun win _ => .does (.results _ s.res1)
  | setSig x y neg =>
    refine .dispatch (unlessOk_consistency _) fun herr hacc hcheck => ?_
    have hstate := CbState.acceptsPass_iff.mp hacc
    obtain ⟨hx, hy⟩ := checkCoef_eq_none.mp hcheck
    refine .withWindow (CbState.acceptsRead_of_pass hstate) fun win hwin => ?_
    split
    · rw [s.raise_eq_faulted .sequence _ (by decide)]
      exact .refused herr (.inr (.inr rfl))
    · next hsig => exact .does (.setSig hstate hwin hx hy (Bool.eq_false_iff.mpr hsig))
  | t1EncPass k p =>
    refine .dispatch (unlessOk_consistency _) fun herr hacc hcheck => ?_
    have hstate := CbState.acceptsPass_iff.mp hacc
    have hp : p ≤ 30 := Nat.le_of_lt_succ (unlessOk_eq_none.mp hcheck)
    refine .withWindow (CbState.acceptsRead_of_pass hstate) fun win hwin => ?_
    have h := Outcome.passes herr hwin (.inl ⟨k, p, hstate, hp, rfl, rfl, .inl ⟨rfl, rfl⟩⟩)
    rwa [exec_t1EncPass k herr hstate hwin hp] at h
  | t1DecPass k p =>
    refine .dispatch (unlessOk_consistency _) fun herr hacc hcheck => ?_
    have hstate := CbState.acceptsPass_iff.mp hacc
    have hp : p ≤ 30 := Nat.le_of_lt_succ (unlessOk_eq_none.mp hcheck)
    refine .withWindow (CbState.acceptsRead_of_pass hstate) fun win hwin => ?_
    have h := Outcome.passes herr hwin (.inl ⟨k, p, hstate, hp, rfl, rfl, .inr ⟨rfl, rfl⟩⟩)
    rwa [exec_t1DecPass k herr hstate hwin hp] at h
  | t1EncBlock =>
    refine .dispatch (.inl rfl) fun herr hacc _ => ?_
    have hready := CbState.acceptsLoad_iff.mp hacc
    refine .withWindow (CbState.acceptsRead_of_pass (.inl hready)) fun win hwin => ?_
    have h := Outcome.passes herr hwin
      (.inr ⟨_, hready, planesOf_le win _ _, rfl, rfl, .inl ⟨rfl, rfl, planes_planesOf win _ _⟩⟩)
    rwa [exec_t1EncBlock herr hready hwin] at h
  | t1DecBlock nbp =>
    refine .dispatch (unlessOk_consistency _) fun herr hacc hcheck => ?_
    have hready := CbState.acceptsLoad_iff.mp hacc
    have hn : nbp ≤ 31 := unlessOk_eq_none.mp hcheck
    refine .withWindow (CbState.acceptsRead_of_pass (.inl hready)) fun win hwin => ?_
    have h := Outcome.passes herr hwin (.inr ⟨nbp, hready, hn, rfl, rfl, .inr ⟨rfl, rfl⟩⟩)
    rwa [exec_t1DecBlock herr hready hwin hn] at h

/-- Everything a command that goes on can do: dropped, refused by its checks, or done. -/
theorem exec_next {i : Instr} {s t : State} (h : exec i s = .next t) :
    (s.err = true ∧ t = s) ∨
    (s.err = false ∧ ∃ c, (c = .config ∨ c = .consistency ∨ c = .sequence) ∧ t = s.faulted c (encode i)) ∨
    Does s i t := by
  have hout := exec_outcome i s
  rw [h] at hout
  cases hout with
  | dropped herr => exact .inl ⟨herr, rfl⟩
  | refused herr hc => exact .inr (.inl ⟨herr, _, hc, rfl⟩)
  | does hdoes => exact .inr (.inr hdoes)

/-! ## Everything the host's side can do (R63, R64, R73, R240) -/

/-- What an event can make of a state: it settles, or a command runs. -/
inductive Arrives (s : State) : HostAction → Prop
  | environment (rdata cmdLo : Reg) (ovr : Bool) (encIn : Answers EncAnswer) (decIn hdrIn : Answers Bool) :
      Arrives s (.settle { s with
        rdata := rdata, cmdLo := cmdLo, ovr := ovr, encIn := encIn, decIn := decIn, hdrIn := hdrIn })
  | illegal (w : Word) (hbusy : s.busy = false) (herr : s.err = false) :
      Arrives s (.settle (s.faulted .illegal w))
  | slow (i : Instr) (hbusy : s.busy = false) : Arrives s (.settle (s.hold i .start s))
  | reset : Arrives s (.settle s.blockReset)
  | command (i : Instr) (hbusy : s.busy = false) : Arrives s (.run i s)
  | softReset : Arrives s (.run .softReset s)
  | resume (h : Pending) (encIn : Answers EncAnswer) (decIn hdrIn : Answers Bool) (hheld : s.held = some h) :
      Arrives s (.run h.cmd (s.rewind { h with encIn := encIn, decIn := decIn, hdrIn := hdrIn }))

/-- An event that changes nothing. -/
theorem Arrives.still (s : State) : Arrives s (.settle s) :=
  .environment s.rdata s.cmdLo s.ovr s.encIn s.decIn s.hdrIn

/-- Everything the write of `CMD_HI` can do (R64, R87, R214, R219). -/
theorem arrives_writeCmdHi (s : State) (hi : Reg) : Arrives s (s.writeCmdHi hi) := by
  by_cases hbusy : s.busy = true
  · by_cases hword : commandWord hi s.cmdLo = encode .softReset
    · rw [State.writeCmdHi_softReset hbusy hword]
      exact .softReset
    · rw [State.writeCmdHi_lost hbusy hword]
      exact .environment s.rdata s.cmdLo true s.encIn s.decIn s.hdrIn
  · have hidle : s.busy = false := Bool.eq_false_iff.mpr hbusy
    cases hdec : decode (commandWord hi s.cmdLo) with
    | ok i =>
      rw [State.writeCmdHi_ok hidle hdec]
      exact .command i hidle
    | error e =>
      by_cases herr : s.err = true
      · rw [State.writeCmdHi_error_dropped hidle herr hdec]
        exact .still s
      · have herr' : s.err = false := Bool.eq_false_iff.mpr herr
        rw [State.writeCmdHi_error hidle herr' hdec]
        exact .illegal _ hidle herr'

theorem HostAction.delayed_run_busy {i : Instr} {s : State} (h : s.busy = true) :
    (HostAction.run i s).delayed = .run i s := if_pos h

theorem HostAction.delayed_run_idle {i : Instr} {s : State} (h : s.busy = false) :
    (HostAction.run i s).delayed = .settle (s.hold i .start s) := if_neg (Bool.eq_false_iff.mp h)

/-- A word that runs a command runs it from the state of its write. -/
theorem State.writeCmdHi_run {s t : State} {hi : Reg} {i : Instr} (h : s.writeCmdHi hi = .run i t) : t = s := by
  unfold State.writeCmdHi at h
  dsimp only at h
  split at h
  · split at h
    · cases h; rfl
    · cases h
  · split at h
    · cases h; rfl
    · cases h

theorem arrives_slowCommand (s : State) (hi : Reg) : Arrives s (s.writeCmdHi hi).delayed := by
  have hwrite := arrives_writeCmdHi s hi
  generalize ha : s.writeCmdHi hi = a at hwrite
  cases a with
  | settle t => exact hwrite
  | run i t =>
    obtain rfl := State.writeCmdHi_run ha
    by_cases hbusy : t.busy = true
    · rw [HostAction.delayed_run_busy hbusy]
      exact hwrite
    · rw [HostAction.delayed_run_idle (Bool.eq_false_iff.mpr hbusy)]
      exact .slow i (Bool.eq_false_iff.mpr hbusy)

theorem arrives_busWrite (s : State) (off width : Nat) (v : Reg) : Arrives s (s.busWrite off width v) := by
  by_cases hwidth : width = 4
  · subst hwidth
    by_cases hlo : off = 0x00
    · subst hlo
      exact .environment s.rdata v s.ovr s.encIn s.decIn s.hdrIn
    · by_cases hhi : off = 0x04
      · subst hhi
        exact arrives_writeCmdHi s v
      · rw [State.busWrite_ignored _ _ _ hlo hhi]
        exact .still s
  · rw [State.busWrite_width_ne _ _ _ hwidth]
    exact .still s

theorem State.resume_held {s : State} {h : Pending} (hheld : s.held = some h) :
    s.resume = .run h.cmd (s.rewind h) := by
  rw [State.resume, hheld]

theorem State.resume_idle {s : State} (hheld : s.held = none) : s.resume = .settle s := by
  rw [State.resume, hheld]

/-- Everything a late answer, or `proceed`, can do: only the port and what a held command started from differ from
before. -/
theorem arrives_resume {s t : State} {encIn : Answers EncAnswer} {decIn hdrIn : Answers Bool}
    {f : Pending → Pending} {encThen : Pending → Answers EncAnswer} {decThen hdrThen : Pending → Answers Bool}
    (ht : t = { s with encIn := encIn, decIn := decIn, hdrIn := hdrIn, held := s.held.map f })
    (hf : ∀ h, f h = { h with encIn := encThen h, decIn := decThen h, hdrIn := hdrThen h }) :
    Arrives s t.resume := by
  cases hheld : s.held with
  | none =>
    have ht' : t = { s with encIn := encIn, decIn := decIn, hdrIn := hdrIn } := by rw [ht, hheld]; rfl
    rw [State.resume_idle (by rw [ht', hheld]), ht']
    exact .environment s.rdata s.cmdLo s.ovr encIn decIn hdrIn
  | some h =>
    have hnow : t.held = some { h with encIn := encThen h, decIn := decThen h, hdrIn := hdrThen h } := by
      rw [ht, hheld, ← hf]
      rfl
    rw [State.resume_held hnow, ht]
    exact .resume h (encThen h) (decThen h) (hdrThen h) hheld

/-- Everything an event can do. -/
theorem arrives_hostEvent (e : Event) (s : State) : Arrives s (hostEvent e s) := by
  cases e with
  | read off width => exact .environment _ s.cmdLo s.ovr s.encIn s.decIn s.hdrIn
  | write off width v => exact arrives_busWrite s off width v
  | slowCommand v => exact arrives_slowCommand s v
  | reset => exact .reset
  | proceed =>
    refine arrives_resume (f := id) (encThen := Pending.encIn) (decThen := Pending.decIn) (hdrThen := Pending.hdrIn)
      (encIn := s.encIn) (decIn := s.decIn) (hdrIn := s.hdrIn) ?_ fun _ => rfl
    rw [Option.map_id]
    rfl
  | encAnswer a =>
    exact arrives_resume (encThen := fun h => h.encIn.push a) (decThen := Pending.decIn) (hdrThen := Pending.hdrIn) rfl
      fun _ => rfl
  | decAnswer b =>
    exact arrives_resume (encThen := Pending.encIn) (decThen := fun h => h.decIn.push b) (hdrThen := Pending.hdrIn) rfl
      fun _ => rfl
  | hdrAnswer b =>
    exact arrives_resume (encThen := Pending.encIn) (decThen := Pending.decIn) (hdrThen := fun h => h.hdrIn.push b) rfl
      fun _ => rfl

/-- Everything the next event can do to the state it lands in; without one the block stays as it is. -/
theorem arrives_nextAction (s : State) : ∃ more, Arrives { s with inputs := more } (nextAction s) := by
  cases hin : s.inputs with
  | nil =>
    rw [nextAction_idle s hin]
    exact ⟨s.inputs, .still s⟩
  | cons e more =>
    rw [nextAction_event s e more hin]
    exact ⟨more, arrives_hostEvent e _⟩

/-- A property of states that no event changes, until a command runs. -/
structure KeptByHost (P : State → Prop) : Prop where
  environment : ∀ {s : State} (inputs : List Event) (rdata cmdLo : Reg) (ovr : Bool) (encIn : Answers EncAnswer)
    (decIn hdrIn : Answers Bool), P s → P { s with
      inputs := inputs, rdata := rdata, cmdLo := cmdLo, ovr := ovr, encIn := encIn, decIn := decIn, hdrIn := hdrIn }
  illegal : ∀ {s : State} (w : Word), s.busy = false → s.err = false → P s → P (s.faulted .illegal w)
  slow : ∀ {s : State} (i : Instr), s.busy = false → P s → P (s.hold i .start s)
  reset : ∀ {s : State}, P s → P s.blockReset
  rewind : ∀ {s : State} {h : Pending} (encIn : Answers EncAnswer) (decIn hdrIn : Answers Bool), s.held = some h → P s →
    P (s.rewind { h with encIn := encIn, decIn := decIn, hdrIn := hdrIn })

namespace KeptByHost

variable {P : State → Prop} (hP : KeptByHost P)
include hP

/-- What an event leads to has the property: the state it settles in, or the one a command runs from. -/
theorem nextAction {s : State} (hs : P s) :
    (∃ t, Machine.nextAction s = .settle t ∧ P t) ∨
      (∃ i t, Machine.nextAction s = .run i t ∧ P t ∧ (t.busy = false ∨ i = .softReset)) := by
  obtain ⟨more, h⟩ := arrives_nextAction s
  have hmore : P { s with inputs := more } := hP.environment more s.rdata s.cmdLo s.ovr s.encIn s.decIn s.hdrIn hs
  generalize Machine.nextAction s = a at h
  cases h with
  | environment rdata cmdLo ovr encIn decIn hdrIn =>
    exact .inl ⟨_, rfl, hP.environment more rdata cmdLo ovr encIn decIn hdrIn hmore⟩
  | illegal w hbusy herr => exact .inl ⟨_, rfl, hP.illegal w hbusy herr hmore⟩
  | slow i hbusy => exact .inl ⟨_, rfl, hP.slow i hbusy hmore⟩
  | reset => exact .inl ⟨_, rfl, hP.reset hmore⟩
  | command i hbusy => exact .inr ⟨i, _, rfl, hmore, .inl hbusy⟩
  | softReset => exact .inr ⟨_, _, rfl, hmore, .inr rfl⟩
  | resume h encIn decIn hdrIn hheld => exact .inr ⟨_, _, rfl, hP.rewind encIn decIn hdrIn hheld hmore, .inl rfl⟩

/-- A property no event changes and every command keeps, is kept by every step. -/
theorem step {s t : State} (hexec : ∀ {i s t}, P s → s.busy = false → exec i s = .next t → P t) (hs : P s)
    (hstep : Machine.step s = .next t) : P t := by
  rcases hP.nextAction hs with ⟨u, hnext, hu⟩ | ⟨i, u, hnext, hu, hrun⟩
  · rw [step_of_settle hnext] at hstep
    cases hstep
    exact hu
  · rw [step_of_run hnext] at hstep
    rcases hrun with hbusy | rfl
    · exact hexec hu hbusy hstep
    · cases hstep
      exact hP.reset hu

end KeptByHost

end Sys2Proof.Machine
end


section
/-! PROOFS. Single commands past their checks (R101, R112, R119, R162, R163, R166 to R168), precise faults (R217), what
the host sees of a running or waiting command (R64, R73). First the laws about the model's functions, in the order of the
definitions they speak of; then the statements they settle. -/

namespace Sys2Proof.Machine

/-! ## Operand checks that pass (R87) -/

theorem checkTreeSize_of_le {maxDim w h : Nat} (hw : 1 ≤ w) (hw' : w ≤ maxDim) (hh : 1 ≤ h) (hh' : h ≤ maxDim) :
    checkTreeSize maxDim w h = none := unlessOk_eq_none.mpr ⟨hw, hw', hh, hh'⟩

theorem checkBlockSize_of_le {w h : Nat} (hw : 1 ≤ w) (hw' : w ≤ 64) (hh : 1 ≤ h) (hh' : h ≤ 64) :
    checkBlockSize w h = none := unlessOk_eq_none.mpr ⟨hw, hw', hh, hh'⟩

theorem checkNode_of_lt {tr : TagTree} {i : Nat} (hi : i < nodeCount tr.w tr.h) : checkNode tr i = none :=
  unlessOk_eq_none.mpr hi

theorem checkCell_of_le {s : State} {wx wy : Nat} (hx : wx ≤ s.cbW + 1) (hy : wy ≤ s.cbH + 1) :
    checkCell s wx wy = none := unlessOk_eq_none.mpr ⟨hx, hy⟩

theorem checkLeaf_of_leafOk {tr : TagTree} {x y v : Nat} (h : leafOk tr x y v) : checkLeaf tr x y v = none :=
  unlessOk_eq_none.mpr h

/-! ## Flag words and register words -/

theorem isNeg_putMask_sgn (f : FlagWord) (neg : Bool) : isNeg (putMask f flagSgn neg) = neg := by
  simp [isNeg, getLsbD_putMask, flagSgn, -BitVec.getLsbD_eq_getElem]

/-- Writing `SGN` leaves the fifteen other bits. -/
theorem putMask_sgn_and_idle (f : FlagWord) (neg : Bool) : putMask f flagSgn neg &&& 0x7FFF#16 = f &&& 0x7FFF#16 := by
  have hmask : ∀ i < 15, flagSgn.getLsbD i = false := by decide
  refine BitVec.eq_of_getLsbD_eq fun i hi => ?_
  rw [BitVec.getLsbD_and, BitVec.getLsbD_and, getLsbD_putMask _ _ _ hi, getLsbD_idleMask hi]
  by_cases h15 : i < 15
  · rw [hmask i h15]
    rfl
  · simp [h15]

theorem Window.signedMag_sign (win : Window) (x y : Nat) : (win.signedMag x y).getLsbD 31 = isNeg (win.coef x y) := by
  rw [Window.signedMag, BitVec.getLsbD_append]
  simp

theorem Window.signedMag_magnitude (win : Window) (x y : Nat) : (win.signedMag x y).extractLsb' 0 31 = win.mag x y := by
  refine BitVec.eq_of_getLsbD_eq fun i hi => ?_
  rw [Window.signedMag, BitVec.getLsbD_extractLsb', BitVec.getLsbD_append]
  simp [hi, -BitVec.getLsbD_eq_getElem]

/-- The fields of a node's word (R60, R119). -/
theorem Node.word_fields {n : Node} (hval : n.val < 256) (hlow : n.low < 256) :
    (n.word.extractLsb' 0 8).toNat = n.val ∧ (n.word.extractLsb' 8 8).toNat = n.low ∧ n.word.getLsbD 16 = n.vis ∧
      n.word.extractLsb' 17 15 = 0#15 := by
  have hvis := n.vis.toNat_le
  rw [Node.word]
  refine ⟨?_, ?_, getLsbD_ofNat_eq (by decide) ?_, extractLsb'_ofNat_eq_zero (by decide) ?_⟩
  · rw [extractLsb'_ofNat_toNat (by decide)]; omega
  · rw [extractLsb'_ofNat_toNat (by decide)]; omega
  · omega
  · omega

/-! ## Commands past their checks -/

theorem exec_cbCfg (o : Orient) {w h : Nat} {s : State} (herr : s.err = false) (hw : 1 ≤ w) (hw' : w ≤ 64) (hh : 1 ≤ h)
    (hh' : h ≤ 64) :
    exec (.cbCfg o w h) s = .next { s with cbW := w, cbH := h, cbOrient := o, cbState := .conf, window := none } := by
  show execCbCfg o w h s = _
  rw [execCbCfg, checkBlockSize_of_le hw hw' hh hh', s.dispatch_effect _ _ herr]

theorem CbState.acceptsClear_of_ne {c : CbState} (h : c ≠ .unconf) : c.acceptsClear = true := by
  cases c with
  | unconf => exact absurd rfl h
  | _ => rfl

theorem exec_cbClear {s : State} (herr : s.err = false) (hstate : s.cbState ≠ .unconf) :
    exec .cbClear s = .next { s with window := some Window.cleared, cbState := .ready } := by
  show execCbClear s = _
  rw [execCbClear, CbState.acceptsClear_of_ne hstate, s.dispatch_effect _ _ herr]

theorem exec_magWr {x y : Nat} (neg : Bool) (mag : Magnitude) {s : State} {win : Window} (herr : s.err = false)
    (hready : s.cbState = .ready) (hwin : s.window = some win) (hx : x < s.cbW) (hy : y < s.cbH) :
    exec (.magWr x y neg mag) s =
      .next { s with window := some ((win.putMag x y mag).putBit (x + 1) (y + 1) flagSgn neg) } := by
  show execMagWr x y neg mag s = _
  rw [execMagWr, CbState.acceptsLoad_iff.mpr hready, checkCoef_of_lt hx hy, s.dispatch_effect _ _ herr,
    s.withWindow_some _ _ hwin]

theorem exec_magRd {x y : Nat} {s : State} {win : Window} (herr : s.err = false)
    (hacc : s.cbState = .ready ∨ s.cbState = .active ∨ s.cbState = .dirty) (hwin : s.window = some win)
    (hx : x < s.cbW) (hy : y < s.cbH) : exec (.magRd x y) s = .next (s.setRes0 (win.signedMag x y)) := by
  show execMagRd x y s = _
  rw [execMagRd, CbState.acceptsRead_iff.mpr hacc, checkCoef_of_lt hx hy, s.dispatch_effect _ _ herr,
    s.withWindow_some _ _ hwin]

theorem exec_flgRd {wx wy : Nat} {s : State} {win : Window} (herr : s.err = false)
    (hacc : s.cbState = .ready ∨ s.cbState = .active ∨ s.cbState = .dirty) (hwin : s.window = some win)
    (hx : wx ≤ s.cbW + 1) (hy : wy ≤ s.cbH + 1) :
    exec (.flgRd wx wy) s = .next (s.setRes0 ((win.flag wx wy).setWidth 32)) := by
  show execFlgRd wx wy s = _
  rw [execFlgRd, CbState.acceptsRead_iff.mpr hacc, checkCell_of_le hx hy, s.dispatch_effect _ _ herr,
    s.withWindow_some _ _ hwin]

theorem exec_ttInit (t : TreeSel) {w h : Nat} {s : State} (herr : s.err = false) (hw : 1 ≤ w) (hw' : w ≤ s.cfg.ttMaxDim)
    (hh : 1 ≤ h) (hh' : h ≤ s.cfg.ttMaxDim) :
    exec (.ttInit t w h) s = .next (s.setTree t ⟨w, h, .fresh, some []⟩) := by
  show execTtInit t w h s = _
  rw [execTtInit, checkTreeSize_of_le hw hw' hh hh', s.dispatch_effect _ _ herr]

theorem exec_ttSet {t : TreeSel} {x y v : Nat} {s : State} {m : Memory Node} (herr : s.err = false)
    (hmode : (s.tree t).mode = .fresh ∨ (s.tree t).mode = .loaded) (hm : (s.tree t).nodes = some m)
    (hleaf : leafOk (s.tree t) x y v) :
    exec (.ttSet t x y v) s = .next (s.setTree t
      { s.tree t with mode := .loaded, nodes := some (loadLeaf (s.tree t).w (s.tree t).h x y v m) }) := by
  show execTtSet t x y v s = _
  simp only [execTtSet]
  rw [TreeMode.acceptsSet_iff.mpr hmode, checkLeaf_of_leafOk hleaf, s.dispatch_effect _ _ herr,
    TagTree.withNodes_some _ _ _ hm]

theorem exec_ttRd {t : TreeSel} {i : Nat} {s : State} {m : Memory Node} (herr : s.err = false)
    (hmode : (s.tree t).mode ≠ .uninit) (hm : (s.tree t).nodes = some m) (hi : i < nodeCount (s.tree t).w (s.tree t).h) :
    exec (.ttRd t i) s = .next (s.setRes (nodeAt m i).word (parentWord (s.tree t).w (s.tree t).h i)) := by
  show execTtRd t i s = _
  simp only [execTtRd]
  rw [TreeMode.acceptsRead_iff.mpr hmode, checkNode_of_lt hi, s.dispatch_effect _ _ herr,
    TagTree.withNodes_some _ _ _ hm]

theorem exec_ttEnc {t : TreeSel} {x y thr : Nat} {s : State} (herr : s.err = false)
    (hmode : (s.tree t).mode = .fresh ∨ (s.tree t).mode = .loaded ∨ (s.tree t).mode = .enc)
    (hleaf : leafOk (s.tree t) x y thr) :
    exec (.ttEnc t x y thr) s = s.query (.ttEnc t x y thr) false t .enc x y thr := by
  show execTtEnc t x y thr s = _
  rw [execTtEnc, TreeMode.acceptsEnc_iff.mpr hmode, checkLeaf_of_leafOk hleaf, s.dispatch_effect _ _ herr]

theorem exec_ttDec {t : TreeSel} {x y thr : Nat} {s : State} (herr : s.err = false)
    (hmode : (s.tree t).mode = .fresh ∨ (s.tree t).mode = .dec) (hleaf : leafOk (s.tree t) x y thr) :
    exec (.ttDec t x y thr) s = s.query (.ttDec t x y thr) true t .dec x y thr := by
  show execTtDec t x y thr s = _
  rw [execTtDec, TreeMode.acceptsDec_iff.mpr hmode, checkLeaf_of_leafOk hleaf, s.dispatch_effect _ _ herr]

/-- A query whose walk ends (R118). -/
theorem State.query_done {s : State} {i : Instr} {decoding : Bool} {t : TreeSel} {mode : TreeMode} {x y thr : Nat}
    {m : Memory Node} {k : Walk} (hm : (s.tree t).nodes = some m)
    (hwalk : s.queryWalk decoding t x y thr m = .done () k) :
    s.query i decoding t mode x y thr = .next (s.queried t mode x y thr k) := by
  rcases State.query_eq i decoding t mode x y thr hm with ⟨k', h, hq⟩ | ⟨cur, k', h, -⟩
  · cases hwalk.symm.trans h
    exact hq
  · cases hwalk.symm.trans h

/-- A query whose walk waits (R73). -/
theorem State.query_waits {s : State} {i : Instr} {decoding : Bool} {t : TreeSel} {mode : TreeMode} {x y thr : Nat}
    {m : Memory Node} {cur : Cursor} {k : Walk} (hm : (s.tree t).nodes = some m)
    (hwalk : s.queryWalk decoding t x y thr m = .hold cur k) :
    s.query i decoding t mode x y thr = .next (s.hold i cur (s.afterWalk t (s.tree t).mode k)) := by
  rcases State.query_eq i decoding t mode x y thr hm with ⟨k', h, -⟩ | ⟨cur', k', h, hq⟩
  · cases hwalk.symm.trans h
  · cases hwalk.symm.trans h
    exact hq

/-! ## Registers a command leaves (R216, R217) -/

section
variable (s : State) (t : TreeSel) (mode : TreeMode) (k : Walk)

@[simp] theorem State.afterWalk_busy : (s.afterWalk t mode k).busy = s.busy := State.setTree_busy _ _ _

@[simp] theorem State.queried_busy (x y thr : Nat) : (s.queried t mode x y thr k).busy = s.busy :=
  State.setTree_busy _ _ _

@[simp] theorem State.queried_err (x y thr : Nat) : (s.queried t mode x y thr k).err = s.err := State.setTree_err _ _ _

end

section
variable (s t : State) (win : Window) (i : Instr)

@[simp] theorem State.passResults_busy : (s.passResults win i t).busy = t.busy := by
  unfold State.passResults; split <;> rfl

@[simp] theorem State.passResults_err : (s.passResults win i t).err = t.err := by
  unfold State.passResults; split <;> rfl

end

/-- What a command does past its checks raises no fault but `CAPACITY` (R212). -/
theorem Does.err {i : Instr} {s t : State} (h : Does s i t) (herr : s.err = false) :
    t.err = false ∨ t.errCode = some .capacity := by
  cases h with
  | passesFull => exact .inr rfl
  | softReset | clrErr => exact .inl rfl
  | ttInit | ttSet => exact .inl ((s.setTree_err _ _).trans herr)
  | ttEnc | ttDec => exact .inl ((s.queried_err _ _ _ _ _ _).trans herr)
  | ttDecWaits => exact .inl ((s.afterWalk_err _ _ _).trans herr)
  | passesEnd => exact .inl ((s.passResults_err _ _ _).trans herr)
  | _ => exact .inl herr

/-! ## Commands that wait (R73) -/

/-- Command `i`, started in `s`, waits in `t`: going back from `t` gives `s` again, but for the ports and the events still
to come; and what it did does not depend on the events still to come. -/
def WaitsFrom (i : Instr) (s t : State) : Prop :=
  (∃ h, t.held = some h ∧ h.cmd = i ∧ h.encIn = s.encIn ∧ h.decIn = s.decIn ∧ h.hdrIn = s.hdrIn ∧
    ∀ more encIn decIn hdrIn,
      ({ t with inputs := more } : State).rewind { h with encIn := encIn, decIn := decIn, hdrIn := hdrIn } =
        { s with inputs := more, encIn := encIn, decIn := decIn, hdrIn := hdrIn }) ∧
    ∀ more, exec i { s with inputs := more } = .next { t with inputs := more }

/-- Going back from a hold, when nothing else was touched. -/
theorem State.rewind_hold_eq {s now : State} (i : Instr) (cur : Cursor) (hbusy : s.busy = false) (hheld : s.held = none)
    (hnow : now = { s with
      cbState := now.cbState, window := now.window, tree0 := now.tree0, tree1 := now.tree1, cod := now.cod,
      hdr := now.hdr, encIn := now.encIn, decIn := now.decIn, hdrIn := now.hdrIn })
    (more : List Event) (encIn : Answers EncAnswer) (decIn hdrIn : Answers Bool) :
    ({ s.hold i cur now with inputs := more } : State).rewind
        ⟨i, cur, s.cbState, s.window, s.tree0, s.tree1, s.cod, s.hdr, encIn, decIn, hdrIn⟩ =
      { s with inputs := more, encIn := encIn, decIn := decIn, hdrIn := hdrIn } := by
  rw [hnow]
  simp only [State.rewind, State.hold, ← hbusy, ← hheld]

theorem State.afterWalk_eq (s : State) (t : TreeSel) (mode : TreeMode) (k : Walk) :
    let now := s.afterWalk t mode k
    now = { s with
      cbState := now.cbState, window := now.window, tree0 := now.tree0, tree1 := now.tree1, cod := now.cod,
      hdr := now.hdr, encIn := now.encIn, decIn := now.decIn, hdrIn := now.hdrIn } := by
  cases t <;> rfl

theorem State.tree_inputs (s : State) (more : List Event) (t : TreeSel) :
    ({ s with inputs := more } : State).tree t = s.tree t := by
  cases t <;> rfl

theorem State.afterWalk_inputs (s : State) (more : List Event) (t : TreeSel) (mode : TreeMode) (k : Walk) :
    ({ s with inputs := more } : State).afterWalk t mode k = { s.afterWalk t mode k with inputs := more } := by
  cases t <;> rfl

/-- A command that leaves an idle block busy waits. -/
theorem waitsFrom_of_busy {i : Instr} {s t : State} (hbusy : s.busy = false) (hheld : s.held = none)
    (herr : s.err = false) (hexec : exec i s = .next t) (ht : t.busy = true) : WaitsFrom i s t := by
  rcases exec_next hexec with ⟨herr', -⟩ | ⟨-, c, -, rfl⟩ | hdoes
  · exact absurd (herr.symm.trans herr') nofun
  · exact absurd ht nofun
  · cases hdoes with
    | passesWait hwin hstart hrun =>
      refine ⟨⟨_, rfl, rfl, rfl, rfl, rfl, s.rewind_hold_eq _ _ hbusy hheld rfl⟩, fun more => ?_⟩
      rw [exec_startsPasses (s := { s with inputs := more }) herr hwin hstart]
      have hrun' : codingPasses (({ s with inputs := more } : State).passCtx _) _
          (({ s with inputs := more } : State).codingAfter _ _) = .hold _ _ := hrun
      rw [hrun']
      rfl
    | @ttDecWaits tr x y thr m cur k hmode hm hleaf hwalk =>
      refine ⟨⟨_, rfl, rfl, rfl, rfl, rfl, s.rewind_hold_eq _ _ hbusy hheld ?_⟩, fun more => ?_⟩
      · exact s.afterWalk_eq tr (s.tree tr).mode k
      · have htree := s.tree_inputs more tr
        have hwalk' : ({ s with inputs := more } : State).queryWalk true tr x y thr m = .hold cur k := by
          rw [← hwalk, State.queryWalk, htree]
          rfl
        rw [exec_ttDec (s := { s with inputs := more }) herr (by rwa [htree]) (by rwa [htree]),
          State.query_waits (by rwa [htree]) hwalk', htree, State.afterWalk_inputs]
        rfl
    | softReset | passesFull => exact absurd ht Bool.false_ne_true
    | ttInit | ttSet => exact absurd (((s.setTree_busy _ _).trans hbusy).symm.trans ht) nofun
    | ttEnc | ttDec => exact absurd (((s.queried_busy _ _ _ _ _ _).trans hbusy).symm.trans ht) nofun
    | passesEnd =>
      rw [State.passResults_busy] at ht
      exact absurd (hbusy.symm.trans ht) nofun
    | _ => exact absurd (hbusy.symm.trans ht) nofun

/-- A late answer, or `proceed`, makes a waiting command run again from where it started (R73). -/
theorem WaitsFrom.step_resume {i : Instr} {s t u : State} {e : Event} {more : List Event} {encIn : Answers EncAnswer}
    {decIn hdrIn : Answers Bool} (h : WaitsFrom i s t)
    (hu : hostEvent e { t with inputs := more } = u.resume)
    (hheld : ∀ h, t.held = some h → h.encIn = s.encIn → h.decIn = s.decIn → h.hdrIn = s.hdrIn →
      u.held = some { h with encIn := encIn, decIn := decIn, hdrIn := hdrIn } ∧
        u.rewind { h with encIn := encIn, decIn := decIn, hdrIn := hdrIn } =
          ({ t with inputs := more } : State).rewind { h with encIn := encIn, decIn := decIn, hdrIn := hdrIn }) :
    step { t with inputs := e :: more } =
      exec i { s with inputs := more, encIn := encIn, decIn := decIn, hdrIn := hdrIn } := by
  obtain ⟨⟨p, hp, rfl, henc, hdec, hhdr, hrewind⟩, -⟩ := h
  obtain ⟨hnow, hsame⟩ := hheld p hp henc hdec hhdr
  have hnext : nextAction { t with inputs := e :: more } =
      .run p.cmd { s with inputs := more, encIn := encIn, decIn := decIn, hdrIn := hdrIn } := by
    rw [nextAction_event _ e more rfl, ← hrewind, ← hsame]
    exact hu.trans (State.resume_held hnow)
  exact step_of_run hnext

/-! ## The statements -/

/-- Settles O11: `NOP` is dropped or has no effect. -/
theorem nopChangesNothing : Obligations.NopChangesNothing := by
  intro s
  rcases s.dispatch_cases .nop true none (.next s) with ⟨-, h⟩ | ⟨-, hacc, -⟩ | ⟨c, -, -, hc, -⟩ | ⟨-, -, -, h⟩
  · exact h
  · cases hacc
  · cases hc
  · exact h

/-- Settles O13: both resets are `State.blockReset`, which takes these fields from the state. -/
theorem resetsLeaveTheEnvironment : Obligations.ResetsLeaveTheEnvironment := fun s =>
  ⟨s.blockReset, exec_softReset s, rfl, rfl, rfl, rfl, rfl, rfl, fun _ hreset =>
    ⟨_, step_resetInput hreset, rfl, rfl, rfl, rfl, rfl, rfl⟩⟩

/-- Settles O18: past its checks a command raises `CAPACITY` or nothing (`Does.err`), and the fault of a check is precise
(`exec_next`). -/
theorem otherFaultsArePrecise : Obligations.OtherFaultsArePrecise := by
  intro i s t hexec herr ht hcapacity
  rcases exec_next hexec with ⟨herr', -⟩ | ⟨-, c, hc, rfl⟩ | hdoes
  · exact absurd (herr.symm.trans herr') nofun
  · exact ⟨c, hc, rfl⟩
  · rcases hdoes.err herr with h | h
    · exact absurd (h.symm.trans ht) nofun
    · exact absurd h hcapacity

/-- Settles O23: `CB_CFG` past its check (`exec_cbCfg`). -/
theorem cbCfgSetsTheGeometry : Obligations.CbCfgSetsTheGeometry := fun o _ _ _ herr hw hw' hh hh' =>
  exec_cbCfg o herr hw hw' hh hh'

/-- Settles O24: `CB_CLEAR` past its check (`exec_cbClear`) leaves the window without entries. -/
theorem cbClearZeroesTheWindow : Obligations.CbClearZeroesTheWindow := fun _ herr hstate =>
  ⟨Window.cleared, exec_cbClear herr hstate, Window.flag_cleared, Window.mag_cleared⟩

/-- Settles O25: one magnitude and one flag word are written (`exec_magWr`); the rest is the frame of the two writes. -/
theorem magWrStoresOneCoefficient : Obligations.MagWrStoresOneCoefficient := by
  intro x y neg mag s win herr hready hwin hw hx hy
  have hx64 : x < 64 := Nat.lt_of_lt_of_le hx hw
  obtain ⟨hmag, -, hmags⟩ := win.putMag_onlyMag x y mag hx64
  obtain ⟨hflag, -, hflags⟩ := (win.putMag x y mag).putBit_onlyFlag x y flagSgn neg hx64
  refine ⟨_, exec_magWr neg mag herr hready hwin hx hy, hmag, ?_, ?_, hmags, hflags⟩
  · rw [hflag, isNeg_putMask_sgn]
  · rw [hflag, putMask_sgn_and_idle]
    rfl

/-- Settles O26: `MAG_RD` past its check (`exec_magRd`) gives `Window.signedMag`, sign above magnitude. -/
theorem magRdGivesSignAndMagnitude : Obligations.MagRdGivesSignAndMagnitude := fun x y _ win herr hacc hwin hx hy =>
  ⟨win.signedMag x y, exec_magRd herr hacc hwin hx hy, win.signedMag_sign x y, win.signedMag_magnitude x y⟩

/-- Settles O27: `FLG_RD` past its check (`exec_flgRd`). -/
theorem flgRdGivesTheFlagWord : Obligations.FlgRdGivesTheFlagWord := fun _ _ _ _ herr hacc hwin hx hy =>
  exec_flgRd herr hacc hwin hx hy

/-- Settles O30: `TT_INIT` past its check (`exec_ttInit`) leaves the node array without entries. -/
theorem ttInitMakesAFreshTree : Obligations.TtInitMakesAFreshTree := fun t _ _ _ herr hw hw' hh hh' =>
  ⟨[], exec_ttInit t herr hw hw' hh hh', nodeAt_nil⟩

/-- Settles O34: `TT_RD` past its check (`exec_ttRd`), the fields of a node's word (`Node.word_fields`) and the word of the
parent. -/
theorem ttRdGivesNodeAndParent : Obligations.TtRdGivesNodeAndParent := by
  intro t i s m herr hmode hm hi hval hlow
  obtain ⟨hwordVal, hwordLow, hwordVis, hwordZeros⟩ := Node.word_fields hval hlow
  refine ⟨_, _, exec_ttRd herr hmode hm hi, hwordVal, hwordLow, hwordVis, hwordZeros, fun p hp => ?_, fun hp => ?_⟩
  · rw [parentWord, hp]
  · rw [parentWord, hp]

/-- Settles O5: the write of `CMD_HI` runs the command; as `slowCommand` it holds the command at its start, and `proceed`
goes back there and runs it. -/
theorem stepRunsTheDecodedCommand : Obligations.StepRunsTheDecodedCommand := by
  intro s more
  refine ⟨fun hi i hin hbusy hdec => ?write, fun hi i hin hbusy hheld hdec => ?slow, fun hi hin hlost => ?lost,
    fun hin hheld => ?proceed⟩
  case write =>
    exact step_of_run ((nextAction_write hin).trans (State.writeCmdHi_ok hbusy hdec))
  case slow =>
    have hnext : nextAction s = .settle (({ s with inputs := .proceed :: more } : State).hold i .start
        { s with inputs := .proceed :: more }) := by
      rw [nextAction_event s _ _ hin]
      show (State.writeCmdHi _ hi).delayed = _
      rw [State.writeCmdHi_ok (s := { s with inputs := .proceed :: more }) hbusy hdec]
      exact HostAction.delayed_run_idle hbusy
    refine ⟨_, step_of_settle hnext, rfl, rfl, ?_⟩
    have hback := s.rewind_hold_eq i .start hbusy hheld (now := s) rfl more s.encIn s.decIn s.hdrIn
    refine step_of_run ?_
    rw [nextAction_event _ .proceed more rfl]
    exact congrArg (HostAction.run i) hback
  case lost =>
    have hdelayed : (({ s with inputs := more } : State).writeCmdHi hi).delayed =
        ({ s with inputs := more } : State).writeCmdHi hi := by
      by_cases hbusy : s.busy = true
      · by_cases hword : commandWord hi s.cmdLo = encode .softReset
        · rw [State.writeCmdHi_softReset (s := { s with inputs := more }) hbusy hword]
          exact HostAction.delayed_run_busy hbusy
        · rw [State.writeCmdHi_lost (s := { s with inputs := more }) hbusy hword]
          rfl
      · generalize ha : ({ s with inputs := more } : State).writeCmdHi hi = a
        cases a with
        | settle t => rfl
        | run i t =>
          obtain ⟨i', hdec⟩ : ∃ i', decode (commandWord hi s.cmdLo) = .ok i' := by
            cases hd : decode (commandWord hi s.cmdLo) with
            | ok i' => exact ⟨i', rfl⟩
            | error e => simp [State.writeCmdHi, hbusy, hd] at ha
          rcases hlost with hbusy' | hnone
          · exact absurd hbusy' hbusy
          · exact absurd hdec (hnone i')
    have hnext : nextAction s = nextAction { s with inputs := .write 0x04 4 hi :: more } := by
      rw [nextAction_event s _ _ hin, nextAction_event _ (.write 0x04 4 hi) more rfl]
      exact hdelayed
    rw [step, step, hnext]
  case proceed =>
    exact step_of_settle ((nextAction_event s _ _ hin).trans (State.resume_idle hheld))

/-- Settles O53: reads settle; a word that is not `SOFT_RESET`'s only sets `OVR` (`writeCmdHi_lost`); `proceed` runs a
waiting command again to where it waits (`waitsFrom_of_busy`). -/
theorem heldBlockWaits : Obligations.HeldBlockWaits := by
  intro s more hbusy
  refine ⟨fun off width hin => ⟨_, step_read hin⟩, fun off width v hin hword => ?write, fun v hin hword => ?slow,
    fun i r hidle hheld herr hexec => ?proceed, fun hin => step_of_settle (nextAction_idle s hin)⟩
  case write =>
    rw [← encode_softReset] at hword
    by_cases hwidth : width = 4
    · subst hwidth
      by_cases hlo : off = 0x00
      · subst hlo
        exact ⟨v, s.ovr, step_of_settle (nextAction_write hin)⟩
      · by_cases hhi : off = 0x04
        · subst hhi
          exact ⟨s.cmdLo, true, step_of_settle ((nextAction_write hin).trans
            (State.writeCmdHi_lost (s := { s with inputs := more }) hbusy hword))⟩
        · exact ⟨s.cmdLo, s.ovr, step_of_settle ((nextAction_write hin).trans
            (State.busWrite_ignored _ 4 v hlo hhi))⟩
    · exact ⟨s.cmdLo, s.ovr, step_of_settle ((nextAction_write hin).trans (State.busWrite_width_ne _ off v hwidth))⟩
  case slow =>
    rw [← encode_softReset] at hword
    refine step_of_settle ((nextAction_event s _ _ hin).trans ?_)
    show (State.writeCmdHi _ v).delayed = _
    rw [State.writeCmdHi_lost (s := { s with inputs := more }) hbusy hword]
    rfl
  case proceed =>
    have hwaits := waitsFrom_of_busy hidle hheld herr hexec hbusy
    rw [hwaits.step_resume (e := .proceed) (u := { s with inputs := more }) (encIn := r.encIn) (decIn := r.decIn)
      (hdrIn := r.hdrIn) rfl ?_]
    · exact hwaits.2 more
    · rintro ⟨⟩ hp rfl rfl rfl
      exact ⟨hp, rfl⟩

/-- Settles O54: a late answer goes to the ports the command started with, and the command runs again from there
(`WaitsFrom.step_resume`). -/
theorem lateAnswerResumesTheCommand : Obligations.LateAnswerResumesTheCommand := by
  intro i s t more hidle hheld herr hexec hbusy
  have hwaits := waitsFrom_of_busy hidle hheld herr hexec hbusy
  refine ⟨fun b => ?_, fun b => ?_, fun a => ?_⟩
  · refine hwaits.step_resume (u := ({ t with inputs := more } : State).offerDec b) (encIn := s.encIn)
      (decIn := s.decIn.push b) (hdrIn := s.hdrIn) rfl ?_
    rintro ⟨⟩ hp rfl rfl rfl
    exact ⟨by rw [State.offerDec_held, hp]; rfl, rfl⟩
  · refine hwaits.step_resume (u := ({ t with inputs := more } : State).offerHdr b) (encIn := s.encIn)
      (decIn := s.decIn) (hdrIn := s.hdrIn.push b) rfl ?_
    rintro ⟨⟩ hp rfl rfl rfl
    exact ⟨by rw [State.offerHdr_held, hp]; rfl, rfl⟩
  · refine hwaits.step_resume (u := ({ t with inputs := more } : State).offerEnc a) (encIn := s.encIn.push a)
      (decIn := s.decIn) (hdrIn := s.hdrIn) rfl ?_
    rintro ⟨⟩ hp rfl rfl rfl
    exact ⟨by rw [State.offerEnc_held, hp]; rfl, rfl⟩

end Sys2Proof.Machine
end


section
/-! PROOFS. The queries of a tag tree (R115 to R118, R123) and the writing of a leaf (R113): what one node step does, then
walks (`walkVisit`), then the path in a pyramid of levels; then the statements they settle. -/

namespace Sys2Proof.Machine

/-! ## One node (R115 to R117) -/

section
variable {thr f f' : Nat} {nd nd' : Node} {bits : List Bool}

/-- The three ways a node of `TT_ENC` is left (R116): past the threshold, below the value, at the value. -/
theorem encStep_cases (h : encStep thr nd f bits nd' f') :
    (thr < max f nd.low ∧ bits = [] ∧ f' = max f nd.low ∧ nd' = { nd with low := f' }) ∨
    (max f nd.low ≤ thr ∧ thr < nd.val ∧ bits = List.replicate (thr + 1 - max f nd.low) false ∧ f' = thr + 1 ∧
      nd' = { nd with low := f' }) ∨
    (max f nd.low ≤ thr ∧ nd.val ≤ thr ∧
      bits = List.replicate (nd.val - max f nd.low) false ++ (if nd.vis then [] else [true]) ∧
      f' = max (max f nd.low) nd.val ∧ nd' = { nd with low := f', vis := true }) := by
  obtain ⟨past, below, within⟩ := h
  rcases Nat.lt_or_ge thr (max f nd.low) with hlt | hle
  · obtain ⟨hbits, rfl, rfl⟩ := past hlt
    exact .inl ⟨hlt, hbits, rfl, rfl⟩
  · rcases Nat.lt_or_ge thr nd.val with hlt | hge
    · obtain ⟨hbits, rfl, rfl⟩ := below hle hlt
      exact .inr (.inl ⟨hle, hlt, hbits, rfl, rfl⟩)
    · obtain ⟨hbits, rfl, rfl⟩ := within hle hge
      exact .inr (.inr ⟨hle, hge, hbits, rfl, rfl⟩)

theorem encStep_val (h : encStep thr nd f bits nd' f') : nd'.val = nd.val := by
  rcases encStep_cases h with ⟨-, -, -, rfl⟩ | ⟨-, -, -, -, rfl⟩ | ⟨-, -, -, -, rfl⟩ <;> rfl

/-- What no query undoes: a floor reached, a node reported (R34 (b)). -/
def nodeGrows (a b : Node) : Prop := a.low ≤ b.low ∧ (a.vis = true → b.vis = true)

theorem nodeGrows.refl (a : Node) : nodeGrows a a := ⟨Nat.le_refl _, id⟩

theorem nodeGrows.trans {a b c : Node} (h : nodeGrows a b) (h' : nodeGrows b c) : nodeGrows a c :=
  ⟨h.1.trans h'.1, h'.2 ∘ h.2⟩

theorem encStep_grows (h : encStep thr nd f bits nd' f') : nodeGrows nd nd' := by
  rcases encStep_cases h with ⟨-, -, hf, rfl⟩ | ⟨hle, -, -, hf, rfl⟩ | ⟨-, -, -, hf, rfl⟩
  · exact ⟨show nd.low ≤ f' by omega, id⟩
  · exact ⟨show nd.low ≤ f' by omega, id⟩
  · exact ⟨show nd.low ≤ f' by omega, fun _ => rfl⟩

theorem decStep_grows (h : decStep thr nd f bits nd' f') : nodeGrows nd nd' := by
  obtain ⟨zeros, hf, -, ⟨-, -, rfl⟩ | ⟨-, -, -, rfl⟩⟩ := h
  · exact ⟨show nd.low ≤ f' by omega, id⟩
  · exact ⟨show nd.low ≤ f' by omega, fun _ => rfl⟩

/-- The 8-bit range of a node (R31). -/
def nodeBounded (n : Node) : Prop := n.val ≤ ttInf ∧ n.low ≤ ttInf

theorem encStep_bounded (hthr : thr ≤ 254) (h : encStep thr nd f bits nd' f') (hnd : nodeBounded nd) (hf : f ≤ ttInf) :
    nodeBounded nd' ∧ f' ≤ ttInf := by
  obtain ⟨hval, hlow⟩ := hnd
  unfold ttInf at *
  have hf' : f' ≤ 255 := by
    rcases encStep_cases h with ⟨-, -, hf', -⟩ | ⟨-, -, -, hf', -⟩ | ⟨-, -, -, hf', -⟩ <;> omega
  refine ⟨?_, hf'⟩
  rcases encStep_cases h with ⟨-, -, -, rfl⟩ | ⟨-, -, -, -, rfl⟩ | ⟨-, -, -, -, rfl⟩ <;> exact ⟨hval, hf'⟩

theorem decStep_floor_le (h : decStep thr nd f bits nd' f') (hnd : nodeBounded nd) (hf : f ≤ ttInf) : f' ≤ ttInf := by
  obtain ⟨zeros, hf', hasked, -⟩ := h
  obtain ⟨hval, hlow⟩ := hnd
  cases zeros with
  | zero => omega
  | succ z =>
    have hlast := hasked z (Nat.lt_succ_self z)
    omega

theorem decStep_bounded (h : decStep thr nd f bits nd' f') (hnd : nodeBounded nd) (hf : f ≤ ttInf) :
    nodeBounded nd' ∧ f' ≤ ttInf := by
  have hf' := decStep_floor_le h hnd hf
  obtain ⟨zeros, -, -, ⟨-, -, rfl⟩ | ⟨-, -, -, rfl⟩⟩ := h
  · exact ⟨⟨hnd.1, hf'⟩, hf'⟩
  · exact ⟨⟨hf', hf'⟩, hf'⟩

/-- The bits of a node: each 0 raises the floor by one, up to the threshold, and there is at most one 1 (R123). -/
def bitsBounded (thr f : Nat) (bits : List Bool) (f' : Nat) : Prop :=
  bits.count false + (thr + 1 - f') ≤ thr + 1 - f ∧ bits.count true ≤ 1

theorem encStep_bits (h : encStep thr nd f bits nd' f') : bitsBounded thr f bits f' := by
  rcases encStep_cases h with ⟨hlt, rfl, hf, -⟩ | ⟨hle, -, rfl, hf, -⟩ | ⟨hle, hval, rfl, hf, -⟩
  · exact ⟨by rw [List.count_nil]; omega, by simp⟩
  · refine ⟨?_, by simp [List.count_replicate]⟩
    rw [List.count_replicate_self]
    omega
  · rw [bitsBounded, List.count_append, List.count_append, List.count_replicate_self]
    cases nd.vis with
    | true => exact ⟨by simp; omega, by simp [List.count_replicate]⟩
    | false => exact ⟨by simp; omega, by simp [List.count_replicate]⟩

theorem decStep_bits (h : decStep thr nd f bits nd' f') : bitsBounded thr f bits f' := by
  obtain ⟨zeros, hf, hasked, hend⟩ := h
  have hzeros : zeros + (thr + 1 - f') ≤ thr + 1 - f := by
    cases zeros with
    | zero => omega
    | succ z =>
      have hlast := (hasked z (Nat.lt_succ_self z)).1
      omega
  rcases hend with ⟨rfl, -, -⟩ | ⟨rfl, -, -, -⟩
  · exact ⟨by rw [List.count_replicate_self]; exact hzeros, by simp [List.count_replicate]⟩
  · exact ⟨by rw [List.count_append, List.count_replicate_self]; simpa using hzeros,
      by simp [List.count_append, List.count_replicate]⟩

end

/-! ## Walks -/

section
variable {step : NodeStep} {l : List Nat} {m m' : Memory Node} {f f' : Nat} {bits : List Bool}

theorem onlyNode.same {n : Nat} {nd : Node} (h : onlyNode m m' n nd) : nodeAt m' n = nd := h.1

theorem onlyNode.other {n i : Nat} {nd : Node} (h : onlyNode m m' n nd) (hi : i ≠ n) : nodeAt m' i = nodeAt m i := h.2 i hi

theorem walkVisit_append {a b : List Nat} :
    walkVisit step (a ++ b) m f bits m' f' ↔
      ∃ m1 f1 b1 b2, walkVisit step a m f b1 m1 f1 ∧ walkVisit step b m1 f1 b2 m' f' ∧ bits = b1 ++ b2 := by
  induction a generalizing m f bits with
  | nil =>
    constructor
    · exact fun h => ⟨m, f, [], bits, ⟨rfl, rfl, rfl⟩, h, rfl⟩
    · rintro ⟨m1, f1, b1, b2, ⟨rfl, rfl, rfl⟩, h, rfl⟩
      exact h
  | cons n rest ih =>
    constructor
    · rintro ⟨nd, f1, m1, b1, b2, hstep, honly, hrest, rfl⟩
      obtain ⟨m2, f2, b3, b4, ha, hb, rfl⟩ := ih.mp hrest
      exact ⟨m2, f2, b1 ++ b3, b4, ⟨nd, f1, m1, b1, b3, hstep, honly, ha, rfl⟩, hb, (List.append_assoc ..).symm⟩
    · rintro ⟨m2, f2, b5, b4, ⟨nd, f1, m1, b1, b3, hstep, honly, ha, rfl⟩, hb, rfl⟩
      exact ⟨nd, f1, m1, b1, b3 ++ b4, hstep, honly, ih.mpr ⟨m2, f2, b3, b4, ha, hb, rfl⟩, List.append_assoc ..⟩

theorem walkVisit_singleton {n : Nat} :
    walkVisit step [n] m f bits m' f' ↔ ∃ nd, step (nodeAt m n) f bits nd f' ∧ onlyNode m m' n nd := by
  constructor
  · rintro ⟨nd, f1, m1, b1, b2, hstep, honly, ⟨rfl, rfl, rfl⟩, rfl⟩
    exact ⟨nd, by rwa [List.append_nil], honly⟩
  · rintro ⟨nd, hstep, honly⟩
    exact ⟨nd, f', m', bits, [], hstep, honly, ⟨rfl, rfl, rfl⟩, (List.append_nil _).symm⟩

/-- A walk writes the nodes of its path alone. -/
theorem walkVisit_off (h : walkVisit step l m f bits m' f') {i : Nat} (hi : i ∉ l) : nodeAt m' i = nodeAt m i := by
  induction l generalizing m f bits with
  | nil =>
    obtain ⟨-, rfl, -⟩ := h
    rfl
  | cons n rest ih =>
    obtain ⟨nd, f1, m1, b1, b2, -, honly, hrest, -⟩ := h
    rw [List.mem_cons, not_or] at hi
    exact (ih hrest hi.2).trans (honly.other hi.1)

/-- What every step keeps of a node, carried by the floor, holds of all nodes after a walk. -/
theorem walkVisit_keeps {P : Node → Prop} {Q : Nat → Prop}
    (hstep : ∀ {nd f bits nd' f'}, step nd f bits nd' f' → P nd → Q f → P nd' ∧ Q f')
    (h : walkVisit step l m f bits m' f') (hm : ∀ i, P (nodeAt m i)) (hf : Q f) :
    (∀ i, P (nodeAt m' i)) ∧ Q f' := by
  induction l generalizing m f bits with
  | nil =>
    obtain ⟨-, rfl, rfl⟩ := h
    exact ⟨hm, hf⟩
  | cons n rest ih =>
    obtain ⟨nd, f1, m1, b1, b2, hn, honly, hrest, -⟩ := h
    obtain ⟨hnd, hf1⟩ := hstep hn (hm n) hf
    refine ih hrest (fun i => ?_) hf1
    by_cases hi : i = n
    · rw [hi, honly.same]
      exact hnd
    · rw [honly.other hi]
      exact hm i

/-- A relation between a node before and after each step holds before and after a walk. -/
theorem walkVisit_rel {R : Node → Node → Prop} (hrefl : ∀ a, R a a) (htrans : ∀ {a b c}, R a b → R b c → R a c)
    (hstep : ∀ {nd f bits nd' f'}, step nd f bits nd' f' → R nd nd') (h : walkVisit step l m f bits m' f') (i : Nat) :
    R (nodeAt m i) (nodeAt m' i) := by
  induction l generalizing m f bits with
  | nil =>
    obtain ⟨-, rfl, -⟩ := h
    exact hrefl _
  | cons n rest ih =>
    obtain ⟨nd, f1, m1, b1, b2, hn, honly, hrest, -⟩ := h
    refine htrans ?_ (ih hrest)
    by_cases hi : i = n
    · rw [hi, honly.same]
      exact hstep hn
    · rw [honly.other hi]
      exact hrefl _

theorem walkVisit_enc_val {thr : Nat} (h : walkVisit (encStep thr) l m f bits m' f') (i : Nat) :
    (nodeAt m' i).val = (nodeAt m i).val :=
  walkVisit_rel (R := fun a b => b.val = a.val) (fun _ => rfl) (fun h h' => h'.trans h) encStep_val h i

/-- The bits of a walk: the zeros share the candidates up to the threshold, each node has at most one 1 (R123). -/
theorem walkVisit_bits {thr : Nat} (hstep : ∀ {nd f bits nd' f'}, step nd f bits nd' f' → bitsBounded thr f bits f')
    (h : walkVisit step l m f bits m' f') :
    bits.count false + (thr + 1 - f') ≤ thr + 1 - f ∧ bits.count true ≤ l.length := by
  induction l generalizing m f bits with
  | nil =>
    obtain ⟨rfl, -, rfl⟩ := h
    simp
  | cons n rest ih =>
    obtain ⟨nd, f1, m1, b1, b2, hn, -, hrest, rfl⟩ := h
    obtain ⟨hfalse, htrue⟩ := hstep hn
    obtain ⟨hfalse', htrue'⟩ := ih hrest
    rw [List.count_append, List.count_append, List.length_cons]
    omega

end

/-! ## Ports of a walk -/

theorem Answers.gives_nil_eq {α : Type} {q r : Answers α} (h : q.gives [] r) : r = q := by
  obtain ⟨qp, qr⟩ := q
  obtain ⟨rp, rr⟩ := r
  obtain ⟨rfl, hp | ⟨hr, n, a, -, hl⟩⟩ := h
  · obtain rfl : qp = rp := hp
    rfl
  · obtain ⟨hq, -⟩ := List.append_eq_nil_iff.mp hl.symm
    obtain rfl : rp = [] := hr
    obtain rfl : qp = [] := hq
    rfl

/-- A port that does not answer has no answer left. -/
theorem Answers.eq_of_pop_eq_none {α : Type} {q : Answers α} (h : q.pop = none) : q = ⟨[], none⟩ := by
  obtain ⟨pending, rest⟩ := q
  unfold Answers.pop at h
  cases pending with
  | cons a more => cases h
  | nil =>
    cases rest with
    | none => rfl
    | some a => cases h

theorem Answers.gives.rest_eq {α : Type} {q r : Answers α} {l : List α} (h : q.gives l r) : r.rest = q.rest := h.1

/-- A port with finitely many answers gives them in order. -/
theorem Answers.gives_finite {α : Type} {q r : Answers α} {l : List α} (hq : q.rest = none) (h : q.gives l r) :
    q.pending = l ++ r.pending := by
  obtain ⟨-, h | ⟨-, n, a, ha, -⟩⟩ := h
  · exact h
  · rw [hq] at ha
    cases ha

/-- The walk of `TT_DEC` takes at most one bit for each candidate left at a node, also where it waits (R123). -/
theorem decNode_hdr_length (t : TreeSel) (n left : Nat) (k : Walk) :
    (decNode t n left k).state.hdr.length ≤ k.hdr.length + left := by
  induction left generalizing k with
  | zero => exact Nat.le_refl _
  | succ left ih =>
    unfold decNode
    dsimp only
    split
    · split
      · exact Nat.le_add_right _ _
      · next b more _ =>
        cases b with
        | true => simp [Res.state]
        | false =>
          refine (ih _).trans ?_
          simp
          omega
    · exact Nat.le_add_right _ _

theorem visitNode_dec_waits_length {t : TreeSel} {thr n : Nat} {k k' : Walk} {cur : Cursor}
    (h : visitNode true t thr n k = .hold cur k') : k'.hdr.length ≤ k.hdr.length + (thr + 1 - k.floor) := by
  obtain ⟨hfloor, -, hhdr, -, -⟩ := enterNode_spec n k
  have hlen := decNode_hdr_length t n (thr + 1 - (enterNode n k).floor) (enterNode n k)
  have hvisit : (decNode t n (thr + 1 - (enterNode n k).floor) (enterNode n k)) = .hold cur k' := by
    unfold visitNode nodeStep at h
    rw [if_pos rfl] at h
    cases hr : decNode t n (thr + 1 - (enterNode n k).floor) (enterNode n k) with
    | done a k1 => rw [hr] at h; cases h
    | full cur1 k1 => rw [hr] at h; cases h
    | hold cur1 k1 => rw [hr] at h; exact h
  rw [hvisit, hhdr] at hlen
  have hstate : (Res.hold cur k' : Res Walk Unit).state = k' := rfl
  rw [hstate] at hlen
  omega

/-- The bits a walk of `TT_DEC` takes, whether it ends or waits (R123). -/
theorem walk_dec_bits (t : TreeSel) (thr : Nat) (path : List Nat) (k : Walk) :
    ∃ bits : List Bool, (forEach path (visitNode true t thr) k).state.hdr = k.hdr ++ bits.map .get ∧
      bits.count false ≤ thr + 1 - k.floor ∧ bits.count true ≤ path.length := by
  induction path generalizing k with
  | nil => exact ⟨[], by simp [forEach, Res.state], by simp, by simp⟩
  | cons n rest ih =>
    rcases visitNode_dec t thr n k with ⟨k1, b1, hvisit, hmoved, nd, hstep, -⟩ | ⟨k', zeros, hvisit, hhdr, -⟩
    · obtain ⟨b2, hhdr2, hfalse, htrue⟩ := ih k1
      obtain ⟨hfalse1, htrue1⟩ := decStep_bits hstep
      refine ⟨b1 ++ b2, ?_, ?_, ?_⟩
      · have hrun : forEach (n :: rest) (visitNode true t thr) k = forEach rest (visitNode true t thr) k1 := by
          simp [forEach, hvisit]
        rw [hrun, hhdr2, hmoved.1]
        simp
      · rw [List.count_append]
        omega
      · rw [List.count_append, List.length_cons]
        omega
    · have hrun : forEach (n :: rest) (visitNode true t thr) k = .hold (.path t n) k' := by simp [forEach, hvisit]
      have hlen := visitNode_dec_waits_length hvisit
      rw [hhdr] at hlen
      rw [hrun]
      refine ⟨List.replicate zeros false, hhdr, ?_, by simp [List.count_replicate]⟩
      rw [List.count_replicate_self]
      simp at hlen
      omega

/-! ## Levels and paths (R32, R114) -/

theorem Level.base_le_node (lv : Level) (i j : Nat) : lv.base ≤ lv.node i j := by
  rw [Level.node, Nat.add_assoc]
  exact Nat.le_add_right _ _

theorem Level.node_inj {lv : Level} {i j i' j' : Nat} (hi : i < lv.w) (hi' : i' < lv.w)
    (h : lv.node i j = lv.node i' j') : i = i' ∧ j = j' := by
  constructor
  · rw [← lv.node_column (j := j) hi, ← lv.node_column (j := j') hi', h]
  · rw [← lv.node_row (i := i) (j := j) hi, ← lv.node_row (i := i') (j := j') hi', h]

/-- The leaf level starts at index 0. -/
theorem leaf_index (w h x y : Nat) : Level.node ⟨0, w, h⟩ x y = y * w + x := by
  rw [Level.node, Nat.zero_add]

theorem half_lt {lv : Level} {x : Nat} (hx : x < lv.w) : x / 2 < lv.above.w := by
  simp only [Level.above]
  omega

theorem half_lt_rows {lv : Level} {y : Nat} (hy : y < lv.h) : y / 2 < lv.above.h := by
  simp only [Level.above]
  omega

/-- The nodes of a path from a level up are not below that level. -/
theorem IsPyramid.base_le_of_mem_pathUp {lv : Level} {rest : List Level} (h : IsPyramid (lv :: rest)) {x y i : Nat}
    (hi : i ∈ pathUp (lv :: rest) x y) : lv.base ≤ i := by
  induction rest generalizing lv x y with
  | nil =>
    rw [pathUp, pathUp, List.mem_singleton] at hi
    exact hi ▸ lv.base_le_node x y
  | cons up rest ih =>
    rw [pathUp, List.mem_cons] at hi
    rcases hi with rfl | hi
    · exact lv.base_le_node x y
    · cases h with
      | level _ hup => exact (Nat.le_add_right _ _).trans (ih hup hi)

/-- A node of a level is on no path from the level above up. -/
theorem IsPyramid.not_mem_pathUp_above {lv : Level} {rest : List Level} (h : IsPyramid (lv :: lv.above :: rest))
    {i j x y : Nat} (hi : i < lv.w) (hj : j < lv.h) : lv.node i j ∉ pathUp (lv.above :: rest) x y := fun hmem =>
  absurd (h.tail.base_le_of_mem_pathUp hmem) (Nat.not_le.mpr (lv.node_lt_above_base hi hj))

theorem pathUp_length (l : List Level) (x y : Nat) : (pathUp l x y).length = l.length := by
  induction l generalizing x y with
  | nil => rfl
  | cons lv rest ih => rw [pathUp, List.length_cons, List.length_cons, ih]

theorem treePath_length (w h x y : Nat) : (treePath w h x y).length = (levels w h).length := by
  rw [treePath, List.length_reverse, pathUp_length]

/-- The path of a leaf ends at the leaf. -/
theorem treePath_eq_append (w h x y : Nat) : ∃ above, treePath w h x y = above ++ [Level.node ⟨0, w, h⟩ x y] := by
  obtain ⟨rest, hrest⟩ := levels_eq_cons w h
  exact ⟨(pathUp rest (x / 2) (y / 2)).reverse, by rw [treePath, hrest, pathUp, List.reverse_cons]⟩

theorem mem_childrenOf_lt {lv : Level} {i j n : Nat} (hn : n ∈ childrenOf lv i j) : n < lv.above.base := by
  obtain ⟨di, dj, -, -, hx, hy, rfl⟩ := mem_childrenOf.mp hn
  exact lv.node_lt_above_base hx hy

/-! ## Writing a leaf (R113) -/

theorem isMinOf.congr {m m' : Memory Node} {l : List Nat} {v : Nat} (h : isMinOf m l v)
    (hl : ∀ n ∈ l, (nodeAt m' n).val = (nodeAt m n).val) : isMinOf m' l v := by
  obtain ⟨hle, hall, hattained⟩ := h
  refine ⟨hle, fun n hn => hl n hn ▸ hall n hn, hattained.imp id ?_⟩
  rintro ⟨n, hn, hv⟩
  exact ⟨n, hn, (hl n hn).trans hv⟩

/-- Restoring the minima writes the ancestors alone. -/
theorem raiseMins_off {lv : Level} {rest : List Level} {x y i : Nat} (m : Memory Node)
    (hi : i ∉ pathUp rest (x / 2) (y / 2)) : nodeAt (raiseMins (lv :: rest) x y m) i = nodeAt m i := by
  induction rest generalizing lv x y m with
  | nil => rfl
  | cons up rest ih =>
    rw [pathUp, List.mem_cons, not_or] at hi
    rw [raiseMins, ih _ hi.2, nodeAt_putNode, if_neg hi.1]

/-- Restoring the minima writes values alone, within 8 bits. -/
theorem raiseMins_node (l : List Level) (x y : Nat) (m : Memory Node) (i : Nat) :
    (nodeAt (raiseMins l x y m) i).low = (nodeAt m i).low ∧ (nodeAt (raiseMins l x y m) i).vis = (nodeAt m i).vis ∧
      ((nodeAt m i).val ≤ ttInf → (nodeAt (raiseMins l x y m) i).val ≤ ttInf) := by
  induction l generalizing x y m with
  | nil => exact ⟨rfl, rfl, id⟩
  | cons lv rest ih =>
    cases rest with
    | nil => exact ⟨rfl, rfl, id⟩
    | cons up rest =>
      rw [raiseMins]
      obtain ⟨hlow, hvis, hval⟩ := ih (x / 2) (y / 2)
        (putNode m (up.node (x / 2) (y / 2)) { nodeAt m (up.node (x / 2) (y / 2)) with
          val := minVal m (childrenOf lv (x / 2) (y / 2)) })
      rw [hlow, hvis]
      rw [nodeAt_putNode] at hval ⊢
      by_cases hi : i = up.node (x / 2) (y / 2)
      · subst hi
        rw [if_pos rfl] at hval ⊢
        exact ⟨rfl, rfl, fun _ => hval (minVal_isMinOf m _).1⟩
      · rw [if_neg hi] at hval ⊢
        exact ⟨rfl, rfl, hval⟩

/-- After the minima are restored each ancestor is the minimum of its children: the writes further up touch neither. -/
theorem raiseMins_pathMinOk {lv : Level} {rest : List Level} (h : IsPyramid (lv :: rest)) {x y : Nat} (hx : x < lv.w)
    (hy : y < lv.h) (m : Memory Node) : pathMinOk (lv :: rest) x y (raiseMins (lv :: rest) x y m) := by
  induction rest generalizing lv x y m with
  | nil => trivial
  | cons up rest ih =>
    obtain rfl : up = lv.above := h.up_eq_above (pre := [])
    rw [raiseMins]
    refine ⟨?_, ih h.tail (half_lt hx) (half_lt_rows hy) _⟩
    generalize hm1 : putNode m (lv.above.node (x / 2) (y / 2)) _ = m1
    have habove : ∀ i < lv.above.above.base, nodeAt (raiseMins (lv.above :: rest) (x / 2) (y / 2) m1) i = nodeAt m1 i := by
      intro i hi
      refine raiseMins_off m1 fun hmem => ?_
      cases rest with
      | nil => cases hmem
      | cons up' rest =>
        obtain rfl : up' = lv.above.above := h.tail.up_eq_above (pre := [])
        exact absurd (h.tail.tail.base_le_of_mem_pathUp hmem) (Nat.not_le.mpr hi)
    have hparent := lv.above.node_lt_above_base (half_lt hx) (half_lt_rows hy)
    rw [habove _ hparent, ← hm1, nodeAt_putNode, if_pos rfl]
    refine (minVal_isMinOf m _).congr fun n hn => ?_
    have hn' := mem_childrenOf_lt hn
    have hne : n ≠ lv.above.node (x / 2) (y / 2) :=
      Nat.ne_of_lt (Nat.lt_of_lt_of_le hn' (lv.above.base_le_node _ _))
    rw [hm1, habove n (Nat.lt_of_lt_of_le hn' (Nat.le_add_right _ _)), ← hm1, nodeAt_putNode, if_neg hne]

/-- Everything the writing of a leaf does (R113). -/
theorem loadLeaf_spec {w h x y : Nat} (hx : x < w) (hy : y < h) (v : Nat) (m : Memory Node) :
    (nodeAt (loadLeaf w h x y v m) (y * w + x)).val = v ∧ pathMinOk (levels w h) x y (loadLeaf w h x y v m) ∧
      (∀ i, i ∉ treePath w h x y → nodeAt (loadLeaf w h x y v m) i = nodeAt m i) ∧
      ∀ i, (nodeAt (loadLeaf w h x y v m) i).low = (nodeAt m i).low ∧
        (nodeAt (loadLeaf w h x y v m) i).vis = (nodeAt m i).vis := by
  have hpyr : IsPyramid (levels w h) := isPyramid_levels (by omega) (by omega)
  obtain ⟨rest, hrest⟩ := levels_eq_cons w h
  rw [hrest] at hpyr
  have hleaf : Level.node ⟨0, w, h⟩ x y ∉ pathUp rest (x / 2) (y / 2) := by
    cases rest with
    | nil => exact List.not_mem_nil
    | cons up rest =>
      obtain rfl : up = Level.above ⟨0, w, h⟩ := hpyr.up_eq_above (pre := [])
      exact hpyr.not_mem_pathUp_above hx hy
  rw [← leaf_index w h x y, loadLeaf, treePath, hrest]
  refine ⟨?_, raiseMins_pathMinOk hpyr hx hy _, fun i hi => ?_, fun i => ?_⟩
  · rw [raiseMins_off _ hleaf, nodeAt_putNode, if_pos rfl]
  · rw [List.mem_reverse, pathUp, List.mem_cons, not_or] at hi
    rw [raiseMins_off _ hi.2, nodeAt_putNode, if_neg hi.1]
  · obtain ⟨hlow, hvis, -⟩ := raiseMins_node (⟨0, w, h⟩ :: rest) x y
      (putNode m (Level.node ⟨0, w, h⟩ x y) { nodeAt m (Level.node ⟨0, w, h⟩ x y) with val := v }) i
    rw [hlow, hvis, nodeAt_putNode]
    split
    · next hi => exact ⟨by rw [hi], by rw [hi]⟩
    · exact ⟨rfl, rfl⟩

theorem loadLeaf_bounded {w h x y v : Nat} {m : Memory Node} (hv : v ≤ 254) (hm : ∀ i, nodeBounded (nodeAt m i))
    (i : Nat) : nodeBounded (nodeAt (loadLeaf w h x y v m) i) := by
  obtain ⟨hlow, -, hval⟩ := raiseMins_node (levels w h) x y
    (putNode m (Level.node ⟨0, w, h⟩ x y) { nodeAt m (Level.node ⟨0, w, h⟩ x y) with val := v }) i
  rw [loadLeaf, nodeBounded, hlow]
  rw [nodeAt_putNode] at hval ⊢
  split at hval
  · next hi =>
    rw [if_pos hi]
    exact ⟨hval (hv.trans (by decide)), (hm _).2⟩
  · next hi =>
    rw [if_neg hi]
    exact ⟨hval (hm i).1, (hm i).2⟩

/-! ## The statements -/

/-- What a completed query does to the state (R118), its events and its port given by the walk. -/
theorem State.queried_eq (s : State) (t : TreeSel) (mode : TreeMode) (x y thr : Nat) (k : Walk) :
    s.queried t mode x y thr k = ({ s with
      hdr := k.hdr
      hdrIn := k.hdrIn
      res0 := queryResult (nodeAt k.nodes (y * (s.tree t).w + x)) thr
      res1 := BitVec.ofNat 32 k.nbits } : State).setTree t { s.tree t with mode := mode, nodes := some k.nodes } := by
  rw [State.queried, leaf_index]
  cases t <;> rfl

theorem queryResult_done {nd : Node} {thr : Nat} (h : nd.vis = true ∧ nd.val ≤ thr) :
    queryResult nd thr = BitVec.ofNat 32 (256 + nd.val % 256) := by
  rw [queryResult, queryDone, h.1, decide_eq_true h.2]
  rfl

theorem queryResult_open {nd : Node} {thr : Nat} (h : ¬ (nd.vis = true ∧ nd.val ≤ thr)) :
    queryResult nd thr = BitVec.ofNat 32 (nd.low % 256) := by
  have hdone : queryDone nd thr = false := by
    rw [← Bool.not_eq_true, queryDone, Bool.and_eq_true, decide_eq_true_eq]
    exact h
  rw [queryResult, hdone]
  rfl

/-- Settles O31: the command past its checks (`exec_ttSet`) is the writing of a leaf (`loadLeaf_spec`). -/
theorem ttSetLoadsOneLeaf : Obligations.TtSetLoadsOneLeaf := by
  intro t x y v s m herr hmode hm hx hy hv
  exact ⟨_, exec_ttSet herr hmode hm ⟨hx, hy, hv⟩, loadLeaf_spec hx hy v m⟩

/-- The walk of a `TT_ENC` of `s` (R115, R116). -/
theorem queryWalk_enc (s : State) (t : TreeSel) (x y thr : Nat) (m : Memory Node) :
    ∃ (k : Walk) (bits : List Bool), s.queryWalk false t x y thr m = .done () k ∧ k.hdr = s.hdr ++ bits.map .put ∧
      k.nbits = bits.length ∧ k.hdrIn = s.hdrIn ∧
      walkVisit (encStep thr) (treePath (s.tree t).w (s.tree t).h x y) m 0 bits k.nodes k.floor := by
  obtain ⟨k, bits, hwalk, ⟨hhdr, hnbits, hport⟩, hvisit⟩ :=
    walk_enc t thr (treePath (s.tree t).w (s.tree t).h x y) ⟨m, s.hdr, s.hdrIn, 0, 0⟩
  exact ⟨k, bits, hwalk, hhdr, by rw [hnbits, Nat.zero_add], Answers.gives_nil_eq hport, hvisit⟩

/-- How the walk of a `TT_DEC` of `s` may end (R115, R117, R73). -/
theorem queryWalk_dec (s : State) (t : TreeSel) (x y thr : Nat) (m : Memory Node) :
    (∃ (k : Walk) (bits : List Bool), s.queryWalk true t x y thr m = .done () k ∧ k.hdr = s.hdr ++ bits.map .get ∧
      k.nbits = bits.length ∧ s.hdrIn.gives bits k.hdrIn ∧
      walkVisit (decStep thr) (treePath (s.tree t).w (s.tree t).h x y) m 0 bits k.nodes k.floor) ∨
    ∃ (k : Walk) (m1 : Memory Node) (n f zeros : Nat) (above below : List Nat) (got : List Bool),
      s.queryWalk true t x y thr m = .hold (.path t n) k ∧
      treePath (s.tree t).w (s.tree t).h x y = above ++ n :: below ∧ walkVisit (decStep thr) above m 0 got m1 f ∧
      k.hdr = s.hdr ++ (got ++ List.replicate zeros false).map .get ∧
      s.hdrIn.gives (got ++ List.replicate zeros false) k.hdrIn ∧ k.hdrIn.pop = none ∧
      onlyNode m1 k.nodes n { nodeAt m1 n with low := max f (nodeAt m1 n).low } := by
  rcases walk_dec t thr (treePath (s.tree t).w (s.tree t).h x y) ⟨m, s.hdr, s.hdrIn, 0, 0⟩ with
    ⟨k, bits, hwalk, ⟨hhdr, hnbits, hport⟩, hvisit⟩ |
    ⟨k, k1, n, zeros, above, below, got, hwalk, hpath, hvisit, hhdr, hport, hpop, honly⟩
  · exact .inl ⟨k, bits, hwalk, hhdr, by rw [hnbits, Nat.zero_add], hport, hvisit⟩
  · exact .inr ⟨k, k1.nodes, n, k1.floor, zeros, above, below, got, hwalk, hpath, hvisit, hhdr, hport, hpop, honly⟩

/-- Settles O32: the walk (`queryWalk_enc`) and the results of the state it leaves (`State.queried_eq`). -/
theorem ttEncAnswersTheQuery : Obligations.TtEncAnswersTheQuery := by
  intro t x y thr s m herr hmode hm hx hy hthr
  obtain ⟨k, bits, hwalk, hhdr, hnbits, hport, hvisit⟩ := queryWalk_enc s t x y thr m
  refine ⟨k.nodes, bits, queryResult (nodeAt k.nodes (y * (s.tree t).w + x)) thr, k.floor, ?_,
    ⟨queryResult_done, queryResult_open⟩, hvisit, walkVisit_enc_val hvisit, fun i => walkVisit_off hvisit⟩
  rw [exec_ttEnc herr hmode ⟨hx, hy, hthr⟩, State.query_done hm hwalk, State.queried_eq, hhdr, hnbits, hport]

/-- Settles O33: a port that answers for ever leaves no walk waiting (`queryWalk_dec`). -/
theorem ttDecAnswersTheQuery : Obligations.TtDecAnswersTheQuery := by
  intro t x y thr s m herr hmode hm hx hy hthr hendless
  rcases queryWalk_dec s t x y thr m with ⟨k, bits, hwalk, hhdr, hnbits, hport, hvisit⟩ |
    ⟨k, m1, n, f, zeros, above, below, got, -, -, -, -, hport, hpop, -⟩
  · refine ⟨k.nodes, bits, queryResult (nodeAt k.nodes (y * (s.tree t).w + x)) thr, k.hdrIn, k.floor, ?_,
      ⟨queryResult_done, queryResult_open⟩, hport, hvisit, fun i => walkVisit_off hvisit⟩
    rw [exec_ttDec herr hmode ⟨hx, hy, hthr⟩, State.query_done hm hwalk, State.queried_eq, hhdr, hnbits]
  · have hrest := hport.rest_eq
    rw [Answers.eq_of_pop_eq_none hpop] at hrest
    rw [Answers.endless, ← hrest] at hendless
    cases hendless

/-- A command issues header events by its effect alone. -/
theorem State.dispatch_next_hdr {s u : State} {i : Instr} {accepted : Bool} {check : Option ErrCode} {effect : Result}
    (h : s.dispatch i accepted check effect = .next u) : u.hdr = s.hdr ∨ effect = .next u := by
  rcases s.dispatch_cases i accepted check effect with ⟨-, h'⟩ | ⟨-, -, h'⟩ | ⟨c, -, -, -, h'⟩ | ⟨-, -, -, h'⟩
  · cases h'.symm.trans h
    exact .inl rfl
  · cases h'.symm.trans h
    exact .inl rfl
  · cases h'.symm.trans h
    exact .inl rfl
  · exact .inr (h'.symm.trans h)

/-- The header events of a query are those of its walk, ended or waiting. -/
theorem State.query_next_hdr {s u : State} {i : Instr} {decoding : Bool} {t : TreeSel} {mode : TreeMode} {x y thr : Nat}
    (h : s.query i decoding t mode x y thr = .next u) :
    ∃ m, u.hdr = (s.queryWalk decoding t x y thr m).state.hdr := by
  cases hm : (s.tree t).nodes with
  | none =>
    rw [State.query, TagTree.withNodes_none _ _ hm] at h
    cases h
  | some m =>
    refine ⟨m, ?_⟩
    rcases State.query_eq i decoding t mode x y thr hm with ⟨k, hwalk, hq⟩ | ⟨cur, k, hwalk, hq⟩
    · cases hq.symm.trans h
      rw [hwalk, State.queried, State.setRes_hdr, State.afterWalk, State.setTree_hdr]
      rfl
    · cases hq.symm.trans h
      rw [hwalk, State.hold_hdr, State.afterWalk, State.setTree_hdr]
      rfl

/-- Settles O37: a command that does not come to its query moves no bit; the bits of its walk, ended or waiting, are
bounded (`walkVisit_bits`, `walk_dec_bits`), on a path with a node a level (`treePath_length`). -/
theorem queryBitsAreBounded : Obligations.QueryBitsAreBounded := by
  intro t x y thr s u
  have hpath := treePath_length (s.tree t).w (s.tree t).h x y
  refine ⟨fun hexec => ?enc, fun hexec => ?dec⟩
  case enc =>
    rcases State.dispatch_next_hdr hexec with hhdr | hquery
    · exact ⟨[], by simp [hhdr], by simp, by simp⟩
    · obtain ⟨m, hu⟩ := State.query_next_hdr hquery
      obtain ⟨k, bits, hwalk, hhdr, -, -, hvisit⟩ := queryWalk_enc s t x y thr m
      obtain ⟨hfalse, htrue⟩ := walkVisit_bits encStep_bits hvisit
      refine ⟨bits, ?_, by omega, hpath ▸ htrue⟩
      rw [hu, hwalk]
      exact hhdr
  case dec =>
    rcases State.dispatch_next_hdr hexec with hhdr | hquery
    · exact ⟨[], by simp [hhdr], by simp, by simp⟩
    · obtain ⟨m, hu⟩ := State.query_next_hdr hquery
      obtain ⟨bits, hhdr, hfalse, htrue⟩ := walk_dec_bits t thr (treePath (s.tree t).w (s.tree t).h x y)
        ⟨m, s.hdr, s.hdrIn, 0, 0⟩
      exact ⟨bits, hu.trans hhdr, hfalse, hpath ▸ htrue⟩

end Sys2Proof.Machine
end


section
/-! PROOFS. The invariants of a tag tree (R34) along the path of a query: on an encoder's tree the floor never passes the
value of the node the walk comes to, so a query resolves its leaf up to the threshold and a decoder can follow it (R118,
R122); on a decoder's tree a reported node is never touched again. First the encoder, then the decoder that follows it,
then the decoder's own tree, then the writing of a leaf; then the statements they settle. -/

namespace Sys2Proof.Machine

/-! ## An encoder's tree (R34, R116) -/

theorem nodeOk_enc_of_mode {mode : TreeMode} {nd : Node} (hmode : mode = .fresh ∨ mode = .loaded ∨ mode = .enc)
    (h : nodeOk mode nd) : nodeOk .enc nd := by
  rcases hmode with rfl | rfl | rfl
  · obtain rfl : nd = Node.fresh := h
    exact ⟨by decide, nofun⟩
  · obtain ⟨hlow, hvis⟩ : nd.low = 0 ∧ nd.vis = false := h
    exact ⟨hlow ▸ Nat.zero_le _, fun hv => absurd (hvis.symm.trans hv) nofun⟩
  · exact h

theorem hasMins_of_mode {mode : TreeMode} (hmode : mode = .fresh ∨ mode = .loaded ∨ mode = .enc) :
    mode.hasMins = true := by
  rcases hmode with rfl | rfl | rfl <;> rfl

/-- A node of an encoder's tree that the walk comes to with a floor not above its value is left so. -/
theorem encStep_nodeOk {thr f f' : Nat} {nd nd' : Node} {bits : List Bool} (h : encStep thr nd f bits nd' f')
    (hnd : nodeOk .enc nd) (hf : f ≤ nd.val) : nodeOk .enc nd' ∧ f' ≤ nd.val := by
  obtain ⟨hle, hvis⟩ := hnd
  rcases encStep_cases h with ⟨-, -, hf', rfl⟩ | ⟨hstart, hlt, -, hf', rfl⟩ | ⟨-, -, -, hf', rfl⟩
  · refine ⟨⟨show f' ≤ nd.val by omega, fun hv => ?_⟩, by omega⟩
    have hlow := hvis hv
    show f' = nd.val
    omega
  · refine ⟨⟨show f' ≤ nd.val by omega, fun hv => ?_⟩, by omega⟩
    have hlow := hvis hv
    omega
  · exact ⟨⟨show f' ≤ nd.val by omega, fun _ => show f' = nd.val by omega⟩, by omega⟩

theorem mem_childrenOf_half {lv : Level} {x y : Nat} (hx : x < lv.w) (hy : y < lv.h) :
    lv.node x y ∈ childrenOf lv (x / 2) (y / 2) := by
  have hx2 : 2 * (x / 2) + x % 2 = x := by omega
  have hy2 : 2 * (y / 2) + y % 2 = y := by omega
  exact mem_childrenOf.mpr ⟨x % 2, y % 2, by omega, by omega, by omega, by omega, by rw [hx2, hy2]⟩

/-- A parent's value is at most its child's (R34 (a)). -/
theorem minOk_parent_le {lv : Level} {rest : List Level} {m : Memory Node}
    (hmin : minOk (lv :: lv.above :: rest) m) {x y : Nat} (hx : x < lv.w) (hy : y < lv.h) :
    (nodeAt m (lv.above.node (x / 2) (y / 2))).val ≤ (nodeAt m (lv.node x y)).val := by
  obtain ⟨hmins, -⟩ := hmin
  obtain ⟨-, hall, -⟩ := hmins (x / 2) (y / 2) (half_lt hx) (half_lt_rows hy)
  exact hall _ (mem_childrenOf_half hx hy)

/-- The walk of an encoder comes to each node with a floor not above its value: the floor is at most the parent's value,
which is at most the child's (R34 (a)). -/
theorem enc_arrives {lv : Level} {rest : List Level} (h : IsPyramid (lv :: rest)) {x y thr f : Nat} (hx : x < lv.w)
    (hy : y < lv.h) {m m' : Memory Node} {bits : List Bool} (hmin : minOk (lv :: rest) m)
    (hok : ∀ i, nodeOk .enc (nodeAt m i))
    (hvisit : walkVisit (encStep thr) (pathUp rest (x / 2) (y / 2)).reverse m 0 bits m' f) :
    (∀ i, nodeOk .enc (nodeAt m' i)) ∧ f ≤ (nodeAt m (lv.node x y)).val := by
  induction rest generalizing lv x y bits m' f with
  | nil =>
    obtain ⟨-, rfl, rfl⟩ := hvisit
    exact ⟨hok, Nat.zero_le _⟩
  | cons up rest ih =>
    obtain rfl : up = lv.above := h.up_eq_above (pre := [])
    rw [pathUp, List.reverse_cons] at hvisit
    obtain ⟨m1, f1, b1, b2, habove, hlast, -⟩ := walkVisit_append.mp hvisit
    obtain ⟨nd, hstep, honly⟩ := walkVisit_singleton.mp hlast
    obtain ⟨hok1, hf1⟩ := ih h.tail (half_lt hx) (half_lt_rows hy) hmin.2 habove
    have hval := walkVisit_enc_val habove (lv.above.node (x / 2) (y / 2))
    obtain ⟨hnd, hf⟩ := encStep_nodeOk hstep (hok1 _) (hval ▸ hf1)
    refine ⟨fun i => ?_, (hval ▸ hf).trans (minOk_parent_le hmin hx hy)⟩
    by_cases hi : i = lv.above.node (x / 2) (y / 2)
    · rw [hi, honly.same]
      exact hnd
    · rw [honly.other hi]
      exact hok1 i

theorem minOk_congr {l : List Level} {m m' : Memory Node} (hval : ∀ i, (nodeAt m' i).val = (nodeAt m i).val)
    (h : minOk l m) : minOk l m' := by
  induction l with
  | nil => trivial
  | cons lv rest ih =>
    cases rest with
    | nil => trivial
    | cons up rest =>
      obtain ⟨hmins, hrest⟩ := h
      refine ⟨fun i j hi hj => ?_, ih hrest⟩
      rw [hval]
      exact (hmins i j hi hj).congr fun n _ => hval n

/-- What the path of a leaf is: the nodes above it, and it, which is none of them. -/
theorem treePath_split {w h x y : Nat} (hx : x < w) (hy : y < h) :
    ∃ rest, levels w h = ⟨0, w, h⟩ :: rest ∧ IsPyramid (⟨0, w, h⟩ :: rest) ∧
      treePath w h x y = (pathUp rest (x / 2) (y / 2)).reverse ++ [Level.node ⟨0, w, h⟩ x y] ∧
      Level.node ⟨0, w, h⟩ x y ∉ (pathUp rest (x / 2) (y / 2)).reverse := by
  have hpyr : IsPyramid (levels w h) := isPyramid_levels (by omega) (by omega)
  obtain ⟨rest, hrest⟩ := levels_eq_cons w h
  rw [hrest] at hpyr
  refine ⟨rest, hrest, hpyr, by rw [treePath, hrest, pathUp, List.reverse_cons], ?_⟩
  rw [List.mem_reverse]
  cases rest with
  | nil => exact List.not_mem_nil
  | cons up rest =>
    obtain rfl : up = Level.above ⟨0, w, h⟩ := hpyr.up_eq_above (pre := [])
    exact hpyr.not_mem_pathUp_above hx hy

/-- The walk of `TT_ENC` on a tree with its invariants: they hold after it, and it comes to the leaf with a floor not
above the leaf's value. -/
theorem walk_enc_coherent {w h x y thr f : Nat} (hx : x < w) (hy : y < h) {m m' : Memory Node} {bits : List Bool}
    (hmin : minOk (levels w h) m) (hok : ∀ i, nodeOk .enc (nodeAt m i))
    (hvisit : walkVisit (encStep thr) (treePath w h x y) m 0 bits m' f) :
    (∀ i, nodeOk .enc (nodeAt m' i)) ∧ ∃ f1 b1, f1 ≤ (nodeAt m (Level.node ⟨0, w, h⟩ x y)).val ∧
      encStep thr (nodeAt m (Level.node ⟨0, w, h⟩ x y)) f1 b1 (nodeAt m' (Level.node ⟨0, w, h⟩ x y)) f := by
  obtain ⟨rest, hrest, hpyr, hpath, hnotin⟩ := treePath_split hx hy
  rw [hrest] at hmin
  rw [hpath] at hvisit
  obtain ⟨m1, f1, b1, b2, habove, hlast, -⟩ := walkVisit_append.mp hvisit
  obtain ⟨nd, hstep, honly⟩ := walkVisit_singleton.mp hlast
  obtain ⟨hok1, hf1⟩ := enc_arrives hpyr hx hy hmin hok habove
  have hleaf := walkVisit_off habove hnotin
  rw [hleaf] at hstep
  obtain ⟨hnd, -⟩ := encStep_nodeOk hstep (hok _) hf1
  refine ⟨fun i => ?_, f1, b2, hf1, honly.same ▸ hstep⟩
  by_cases hi : i = Level.node ⟨0, w, h⟩ x y
  · rw [hi, honly.same]
    exact hnd
  · rw [honly.other hi]
    exact hok1 i

/-- The answer of a query at a leaf that the walk came to with a floor not above its value (R118). -/
theorem encStep_answer {thr f f' : Nat} {nd nd' : Node} {bits : List Bool} (h : encStep thr nd f bits nd' f')
    (hnd : nodeOk .enc nd) (hf : f ≤ nd.val) (hval : nd.val ≤ ttInf) :
    (nd.val ≤ thr → queryResult nd' thr = BitVec.ofNat 32 (256 + nd.val)) ∧
      (thr < nd.val → ∃ low, thr < low ∧ low ≤ nd.val ∧ queryResult nd' thr = BitVec.ofNat 32 low) := by
  obtain ⟨hle, -⟩ := hnd
  unfold ttInf at hval
  have hopen : ∀ f', thr < f' → f' ≤ nd.val → queryResult { nd with low := f' } thr = BitVec.ofNat 32 f' := by
    intro f' hlt hle'
    rw [queryResult_open (nd := { nd with low := f' }) fun hdone => absurd hdone.2 (show ¬ nd.val ≤ thr by omega)]
    show BitVec.ofNat 32 (f' % 256) = _
    rw [Nat.mod_eq_of_lt (by omega)]
  rcases encStep_cases h with ⟨hlt, -, hf', rfl⟩ | ⟨-, hlt, -, hf', rfl⟩ | ⟨-, hge, -, hf', rfl⟩
  · exact ⟨fun hv => absurd hlt (by omega), fun _ => ⟨f', by omega, by omega, hopen f' (by omega) (by omega)⟩⟩
  · exact ⟨fun hv => absurd hlt (by omega), fun _ => ⟨f', by omega, by omega, hopen f' (by omega) (by omega)⟩⟩
  · refine ⟨fun hv => ?_, fun hlt => absurd hge (by omega)⟩
    rw [queryResult_done (nd := { nd with low := f', vis := true }) ⟨rfl, hv⟩]
    show BitVec.ofNat 32 (256 + nd.val % 256) = _
    rw [Nat.mod_eq_of_lt (by omega)]

/-- Settles O36: the walk keeps the invariants and comes to the leaf with a floor not above its value
(`walk_enc_coherent`), from where the answer follows (`encStep_answer`). -/
theorem ttEncResolvesExactlyUpToTheThreshold : Obligations.TtEncResolvesExactlyUpToTheThreshold := by
  intro t x y thr s m u herr hmode hok hcoherent hm hx hy hthr hexec
  obtain ⟨hnodes, hmins, -⟩ := hcoherent m hm
  obtain ⟨k, bits, hwalk, -, -, -, hvisit⟩ := queryWalk_enc s t x y thr m
  rw [exec_ttEnc herr hmode ⟨hx, hy, hthr⟩, State.query_done hm hwalk] at hexec
  cases hexec
  have henc : ∀ i, nodeOk .enc (nodeAt m i) := fun i => nodeOk_enc_of_mode hmode (hnodes i)
  obtain ⟨-, f1, b1, hf1, hstep⟩ := walk_enc_coherent hx hy (hmins (hasMins_of_mode hmode)) henc hvisit
  obtain ⟨-, -, hbounded⟩ := hok
  rw [← leaf_index _ (s.tree t).h]
  exact encStep_answer hstep (henc _) hf1 (hbounded m hm _).1

/-! ## A decoder that follows an encoder (R122) -/

/-- Zeros the port answers raise the floor, one each (R117). -/
theorem decNode_zeros (t : TreeSel) (n : Nat) {zeros left : Nat} {k : Walk} {more : List Bool} (hleft : zeros ≤ left)
    (hval : k.floor + zeros ≤ (nodeAt k.nodes n).val) (hpend : k.hdrIn.pending = List.replicate zeros false ++ more) :
    decNode t n left k = decNode t n (left - zeros) { k with
      hdrIn := { k.hdrIn with pending := more }
      hdr := k.hdr ++ (List.replicate zeros false).map .get
      nbits := k.nbits + zeros
      floor := k.floor + zeros } := by
  induction zeros generalizing left k with
  | zero =>
    obtain rfl : k.hdrIn.pending = more := hpend
    simp
  | succ zeros ih =>
    obtain ⟨left, rfl⟩ := Nat.exists_eq_add_of_le' (Nat.le_trans (Nat.succ_pos zeros) hleft)
    have hpop : k.hdrIn.pop = some (false, { k.hdrIn with pending := List.replicate zeros false ++ more }) := by
      rw [Answers.pop, hpend, List.replicate_succ]
      rfl
    have hstep : decNode t n (left + 1) k = decNode t n left { k with
        hdrIn := { k.hdrIn with pending := List.replicate zeros false ++ more }
        hdr := k.hdr ++ [HdrEvent.get false]
        nbits := k.nbits + 1
        floor := k.floor + 1 } := by
      rw [decNode]
      simp [hpop, show k.floor < (nodeAt k.nodes n).val by omega]
    rw [hstep, ih (Nat.le_of_succ_le_succ hleft) (by show k.floor + 1 + zeros ≤ (nodeAt k.nodes n).val; omega) rfl,
      Nat.add_sub_add_right]
    simp [List.replicate_succ, Nat.add_assoc, Nat.add_comm 1 zeros]

/-- A node that asks nothing more (R117). -/
theorem decNode_quiet (t : TreeSel) (n left : Nat) {k : Walk} (h : left = 0 ∨ (nodeAt k.nodes n).val ≤ k.floor) :
    decNode t n left k = .done () k := by
  cases left with
  | zero => rfl
  | succ left =>
    rw [decNode, if_neg (by omega)]

/-- A 1 ends the node (R117). -/
theorem decNode_one (t : TreeSel) (n left : Nat) {k : Walk} {more : List Bool} (hval : k.floor < (nodeAt k.nodes n).val)
    (hpend : k.hdrIn.pending = true :: more) :
    decNode t n (left + 1) k = .done () { k with
      hdrIn := { k.hdrIn with pending := more }
      hdr := k.hdr ++ [HdrEvent.get true]
      nbits := k.nbits + 1
      nodes := putNode k.nodes n { nodeAt k.nodes n with val := k.floor, vis := true } } := by
  have hpop : k.hdrIn.pop = some (true, { k.hdrIn with pending := more }) := by
    rw [Answers.pop, hpend]
  rw [decNode]
  simp [hpop, hval]

/-- A visit that ends, in the parts of its run (R115). -/
theorem visitNode_of_decNode {t : TreeSel} {thr n : Nat} {k k0 k' : Walk} (hk0 : enterNode n k = k0)
    (h : decNode t n (thr + 1 - k0.floor) k0 = .done () k') :
    visitNode true t thr n k = .done () (leaveNode n k') := by
  rw [visitNode, nodeStep, if_pos rfl, hk0, h]
  rfl

/-- What a decoder's visit of a node leaves behind: the bits were the next ones on the port. -/
structure TookBits (n : Nat) (bits more : List Bool) (k k' : Walk) (nd : Node) (f : Nat) : Prop where
  floor : k'.floor = f
  hdr : k'.hdr = k.hdr ++ bits.map .get
  nbits : k'.nbits = k.nbits + bits.length
  pending : k'.hdrIn.pending = more
  nodes : onlyNode k.nodes k'.nodes n nd

theorem TookBits.enter {n : Nat} (k : Walk) :
    TookBits n [] k.hdrIn.pending k (enterNode n k) { nodeAt k.nodes n with low := max k.floor (nodeAt k.nodes n).low }
      (max k.floor (nodeAt k.nodes n).low) := by
  obtain ⟨hfloor, hnodes, hhdr, hport, hnbits⟩ := enterNode_spec n k
  exact ⟨hfloor, by simp [hhdr], hnbits, by rw [hport], hnodes⟩

theorem TookBits.leave {n : Nat} {bits more : List Bool} {k k' : Walk} {nd : Node} {f : Nat}
    (h : TookBits n bits more k k' nd f) : TookBits n bits more k (leaveNode n k') { nd with low := f } f := by
  obtain ⟨hfloor, hnodes, hhdr, hport, hnbits⟩ := leaveNode_spec n k'
  rw [h.nodes.same, h.floor] at hnodes
  exact ⟨hfloor.trans h.floor, hhdr.trans h.hdr, hnbits.trans h.nbits, by rw [hport, h.pending], h.nodes.trans hnodes⟩

/-- A decoder's visit of a node that agrees with an encoder's, on the bits the encoder put there: it takes exactly those,
and the two nodes agree again (R122). -/
theorem visitNode_follows (t : TreeSel) {thr n f' : Nat} {k : Walk} {e e' : Node} {bits more : List Bool}
    (hthr : thr ≤ 254) (hagree : nodesAgree e (nodeAt k.nodes n)) (he : nodeOk .enc e)
    (hd : nodeOk .dec (nodeAt k.nodes n)) (hf : k.floor ≤ e.val) (hstep : encStep thr e k.floor bits e' f')
    (hpend : k.hdrIn.pending = bits ++ more) :
    ∃ k' d', visitNode true t thr n k = .done () k' ∧ TookBits n bits more k k' d' f' ∧ nodesAgree e' d' ∧
      nodeOk .dec d' := by
  obtain ⟨hlow, hvis, hvalAgree⟩ := hagree
  obtain ⟨hle, hreached⟩ := he
  obtain ⟨hreported, hunknown⟩ := hd
  have henter := TookBits.enter (n := n) k
  generalize hd0 : nodeAt k.nodes n = d at *
  generalize hk0 : enterNode n k = k0 at henter
  rw [← hlow] at henter
  have hnode0 : nodeAt k0.nodes n = { d with low := max k.floor e.low } := henter.nodes.same
  have hval0 : (nodeAt k0.nodes n).val = d.val := by rw [hnode0]
  -- where the node asks nothing, it only takes the floor
  have hquiet : ∀ left, left = thr + 1 - k0.floor → (left = 0 ∨ d.val ≤ k0.floor) →
      visitNode true t thr n k = .done () (leaveNode n k0) := by
    rintro left rfl hend
    exact visitNode_of_decNode hk0 (decNode_quiet t n _ (by rw [hval0]; exact hend))
  have hkeep : ∀ f : Nat, f = max k.floor e.low → (d.vis = true → f = d.low) →
      nodesAgree { e with low := f } { d with low := f } ∧ nodeOk .dec { d with low := f } := by
    intro f hmax hsame
    refine ⟨⟨rfl, hvis, hvalAgree⟩, fun hv => ?_, hunknown⟩
    exact (hreported hv).trans (hsame hv).symm
  have hfixed : d.vis = true → max k.floor e.low = d.low := fun hv => by
    have hev := hreached (hvis.trans hv)
    omega
  rcases encStep_cases hstep with ⟨hlt, rfl, hf', rfl⟩ | ⟨hstart, hlt, rfl, hf', rfl⟩ | ⟨hstart, hge, rfl, hf', rfl⟩
  · -- past the threshold: nothing asked
    refine ⟨_, { d with low := f' }, hquiet _ rfl (.inl (by rw [henter.floor]; omega)), ?_, ?_⟩
    · rw [List.nil_append] at hpend
      rw [hf', ← hpend]
      exact henter.leave
    · exact hkeep f' hf' fun hv => hf'.trans (hfixed hv)
  · -- below the value: zeros up to the threshold
    have hnot : d.vis = false := by
      rw [← Bool.not_eq_true]
      intro hv
      have hev := hreached (hvis.trans hv)
      omega
    have h255 : d.val = 255 := hunknown hnot
    have hrun := decNode_zeros t n (zeros := thr + 1 - max k.floor e.low) (left := thr + 1 - k0.floor) (k := k0)
      (more := more) (by rw [henter.floor]) (by rw [henter.floor, hval0]; omega) (by rw [henter.pending, hpend])
    rw [show thr + 1 - k0.floor - (thr + 1 - max k.floor e.low) = 0 by rw [henter.floor, Nat.sub_self]] at hrun
    refine ⟨_, _, visitNode_of_decNode hk0 hrun,
      TookBits.leave (nd := { d with low := max k.floor e.low }) ⟨?_, ?_, ?_, rfl, ?_⟩, ?_⟩
    · show k0.floor + (thr + 1 - max k.floor e.low) = f'
      rw [henter.floor]
      omega
    · show k0.hdr ++ _ = _
      rw [henter.hdr]
      simp
    · show k0.nbits + _ = _
      rw [henter.nbits]
      simp
    · exact henter.nodes
    · refine ⟨⟨rfl, hvis, hvalAgree⟩, fun hv => ?_, fun _ => h255⟩
      exact absurd (hnot.symm.trans hv) nofun
  · cases hev : e.vis with
    | true =>
      -- reported before: nothing asked
      have hdv : d.vis = true := hvis.symm.trans hev
      have helow := hreached hev
      have hdval := hvalAgree hev
      have hfloor : f' = max k.floor e.low := by omega
      rw [hev] at hpend
      have hbits : e.val - max k.floor e.low = 0 := by omega
      rw [hbits] at hpend ⊢
      refine ⟨_, { d with low := f' }, hquiet _ rfl (.inr (by rw [henter.floor]; omega)), ?_, ?_⟩
      · rw [hfloor]
        simp only [List.replicate_zero, List.nil_append, if_true] at hpend ⊢
        rw [← hpend]
        exact henter.leave
      · obtain ⟨hag, hok⟩ := hkeep f' hfloor fun hv => hfloor.trans (hfixed hv)
        refine ⟨?_, hok⟩
        obtain ⟨h1, h2, h3⟩ := hag
        exact ⟨h1, hdv.symm, fun _ => h3 hev⟩
    | false =>
      -- reported now: zeros up to the value, then a 1
      have hdv : d.vis = false := hvis.symm.trans hev
      have h255 : d.val = 255 := hunknown hdv
      rw [hev] at hpend
      simp only [Bool.false_eq_true, if_false, List.append_assoc] at hpend ⊢
      have hfloor : f' = e.val := by omega
      have hrun := decNode_zeros t n (zeros := e.val - max k.floor e.low) (left := thr + 1 - k0.floor) (k := k0)
        (more := [true] ++ more) (by rw [henter.floor]; omega) (by rw [henter.floor, hval0]; omega)
        (by rw [henter.pending, hpend])
      obtain ⟨left, hleft⟩ : ∃ left, thr + 1 - k0.floor - (e.val - max k.floor e.low) = left + 1 :=
        ⟨thr - e.val, by rw [henter.floor]; omega⟩
      rw [hleft, decNode_one t n left (by show k0.floor + _ < _; rw [henter.floor, hval0]; omega) rfl] at hrun
      have hsum : k0.floor + (e.val - max k.floor e.low) = f' := by rw [henter.floor]; omega
      refine ⟨_, { low := f', val := f', vis := true }, visitNode_of_decNode hk0 hrun,
        TookBits.leave (nd := { d with val := f', low := max k.floor e.low, vis := true }) ⟨hsum, ?_, ?_, rfl, ?_⟩, ?_⟩
      · show k0.hdr ++ _ ++ _ = _
        rw [henter.hdr]
        simp
      · show k0.nbits + _ + 1 = _
        rw [henter.nbits]
        simp [Nat.add_assoc]
      · show onlyNode k.nodes (putNode k0.nodes n { nodeAt k0.nodes n with val := k0.floor + _, vis := true }) n _
        rw [hsum, hnode0]
        exact henter.nodes.trans (putNode_onlyNode _ _ _)
      · rw [hfloor]
        exact ⟨⟨rfl, rfl, fun _ => rfl⟩, fun _ => rfl, nofun⟩

/-- Along a path the decoder, started where the encoder was and given the encoder's bits, follows the encoder (R122). -/
def DecFollows (t : TreeSel) (thr : Nat) (path : List Nat) (me : Memory Node) (bits : List Bool) (me' : Memory Node)
    (f : Nat) : Prop :=
  ∀ (k : Walk) (more : List Bool), k.floor = 0 → (∀ i, nodesAgree (nodeAt me i) (nodeAt k.nodes i)) →
    (∀ i, nodeOk .dec (nodeAt k.nodes i)) → k.hdrIn.pending = bits ++ more →
    ∃ k', forEach path (visitNode true t thr) k = .done () k' ∧ k'.floor = f ∧ k'.hdr = k.hdr ++ bits.map .get ∧
      k'.nbits = k.nbits + bits.length ∧ k'.hdrIn.pending = more ∧
      (∀ i, nodesAgree (nodeAt me' i) (nodeAt k'.nodes i)) ∧ ∀ i, nodeOk .dec (nodeAt k'.nodes i)

theorem DecFollows.nil (t : TreeSel) (thr : Nat) (me : Memory Node) : DecFollows t thr [] me [] me 0 :=
  fun k _ hf hagree hd hpend => ⟨k, rfl, hf, by simp, rfl, hpend, hagree, hd⟩

/-- One node more. -/
theorem DecFollows.snoc {t : TreeSel} {thr n f f' : Nat} {path : List Nat} {me m1 me' : Memory Node}
    {b1 b2 : List Bool} {nd : Node} (h : DecFollows t thr path me b1 m1 f) (hthr : thr ≤ 254)
    (hok : nodeOk .enc (nodeAt m1 n)) (hf : f ≤ (nodeAt m1 n).val) (hstep : encStep thr (nodeAt m1 n) f b2 nd f')
    (honly : onlyNode m1 me' n nd) : DecFollows t thr (path ++ [n]) me (b1 ++ b2) me' f' := by
  intro k more hk hagree hd hpend
  rw [List.append_assoc] at hpend
  obtain ⟨k1, hrun1, hfloor1, hhdr1, hnbits1, hpend1, hagree1, hd1⟩ := h k _ hk hagree hd hpend
  rw [← hfloor1] at hf hstep
  obtain ⟨k2, d', hrun2, htook, hagree2, hd2⟩ := visitNode_follows t hthr (hagree1 n) hok (hd1 n) hf hstep hpend1
  refine ⟨k2, ?_, htook.floor, ?_, ?_, htook.pending, fun i => ?_, fun i => ?_⟩
  · rw [forEach_append, hrun1, Res.bind_done, forEach_singleton, hrun2]
  · rw [htook.hdr, hhdr1]
    simp
  · rw [htook.nbits, hnbits1, List.length_append, Nat.add_assoc]
  · by_cases hi : i = n
    · rw [hi, htook.nodes.same, honly.same]
      exact hagree2
    · rw [htook.nodes.other hi, honly.other hi]
      exact hagree1 i
  · by_cases hi : i = n
    · rw [hi, htook.nodes.same]
      exact hd2
    · rw [htook.nodes.other hi]
      exact hd1 i

/-- The decoder follows the encoder down to a node, whatever the level. -/
theorem decFollows_above {lv : Level} {rest : List Level} (h : IsPyramid (lv :: rest)) (t : TreeSel) {x y thr f : Nat}
    (hx : x < lv.w) (hy : y < lv.h) (hthr : thr ≤ 254) {m m' : Memory Node} {bits : List Bool}
    (hmin : minOk (lv :: rest) m) (hok : ∀ i, nodeOk .enc (nodeAt m i))
    (hvisit : walkVisit (encStep thr) (pathUp rest (x / 2) (y / 2)).reverse m 0 bits m' f) :
    DecFollows t thr (pathUp rest (x / 2) (y / 2)).reverse m bits m' f := by
  induction rest generalizing lv x y bits m' f with
  | nil =>
    obtain ⟨rfl, rfl, rfl⟩ := hvisit
    exact .nil t thr _
  | cons up rest ih =>
    obtain rfl : up = lv.above := h.up_eq_above (pre := [])
    rw [pathUp, List.reverse_cons] at hvisit ⊢
    obtain ⟨m1, f1, b1, b2, habove, hlast, rfl⟩ := walkVisit_append.mp hvisit
    obtain ⟨nd, hstep, honly⟩ := walkVisit_singleton.mp hlast
    obtain ⟨hok1, hf1⟩ := enc_arrives h.tail (half_lt hx) (half_lt_rows hy) hmin.2 hok habove
    have hval := walkVisit_enc_val habove (lv.above.node (x / 2) (y / 2))
    exact (ih h.tail (half_lt hx) (half_lt_rows hy) hmin.2 habove).snoc hthr (hok1 _) (hval ▸ hf1) hstep honly

/-- The decoder follows the encoder to the leaf. -/
theorem decFollows_treePath (t : TreeSel) {w h x y thr f : Nat} (hx : x < w) (hy : y < h) (hthr : thr ≤ 254)
    {m m' : Memory Node} {bits : List Bool} (hmin : minOk (levels w h) m) (hok : ∀ i, nodeOk .enc (nodeAt m i))
    (hvisit : walkVisit (encStep thr) (treePath w h x y) m 0 bits m' f) :
    DecFollows t thr (treePath w h x y) m bits m' f := by
  obtain ⟨rest, hrest, hpyr, hpath, hnotin⟩ := treePath_split hx hy
  rw [hrest] at hmin
  rw [hpath] at hvisit ⊢
  obtain ⟨m1, f1, b1, b2, habove, hlast, rfl⟩ := walkVisit_append.mp hvisit
  obtain ⟨nd, hstep, honly⟩ := walkVisit_singleton.mp hlast
  obtain ⟨hok1, hf1⟩ := enc_arrives hpyr hx hy hmin hok habove
  have hleaf := walkVisit_off habove hnotin
  exact (decFollows_above hpyr t hx hy hthr hmin hok habove).snoc hthr (hok1 _) (hleaf ▸ hf1) hstep honly

theorem nodeOk_dec_of_mode {mode : TreeMode} {nd : Node} (hmode : mode = .fresh ∨ mode = .dec) (h : nodeOk mode nd) :
    nodeOk .dec nd := by
  rcases hmode with rfl | rfl
  · obtain rfl : nd = Node.fresh := h
    exact ⟨nofun, fun _ => rfl⟩
  · exact h

/-- Nodes that agree answer a query alike (R118). -/
theorem nodesAgree.queryResult_eq {e d : Node} (h : nodesAgree e d) (thr : Nat) : queryResult d thr = queryResult e thr := by
  obtain ⟨hlow, hvis, hval⟩ := h
  unfold queryResult queryDone
  cases hv : e.vis with
  | true => rw [← hvis, hv, hval hv, hlow]
  | false => rw [← hvis, hv, hlow]; rfl

theorem map_put_inj {a b : List Bool} (h : a.map HdrEvent.put = b.map HdrEvent.put) : a = b :=
  List.map_injective_iff.mpr (fun _ _ h => HdrEvent.put.inj h) h

theorem map_get_inj {a b : List Bool} (h : a.map HdrEvent.get = b.map HdrEvent.get) : a = b :=
  List.map_injective_iff.mpr (fun _ _ h => HdrEvent.get.inj h) h

theorem State.setTree_tree_same (s : State) (t : TreeSel) (tr : TagTree) : (s.setTree t tr).tree t = tr := by
  rw [State.tree_setTree, if_pos rfl]

/-- Settles O39: the decoder's walk follows the encoder's (`decFollows_treePath`), so the leaves agree and answer alike. -/
theorem decoderFollowsEncoder : Obligations.DecoderFollowsEncoder := by
  intro te td x y thr e d e' bits more heErr hdErr heMode hdMode heOk heCoherent hdCoherent hagrees hx hy hthr hexec
    hbits hpend
  obtain ⟨hw, hh, me, md, hme, hmd, hagree⟩ := hagrees
  obtain ⟨heNodes, heMins, -⟩ := heCoherent me hme
  obtain ⟨hdNodes, -, -⟩ := hdCoherent md hmd
  obtain ⟨k, b, hwalk, hhdr, hnbits, -, hvisit⟩ := queryWalk_enc e te x y thr me
  rw [exec_ttEnc heErr heMode ⟨hx, hy, hthr⟩, State.query_done hme hwalk] at hexec
  cases hexec
  rw [State.queried_eq, State.setTree_hdr] at hbits
  obtain rfl : b = bits := map_put_inj (List.append_cancel_left (hhdr.symm.trans hbits))
  obtain ⟨k', hrun, -, hhdr', hnbits', hpend', hagree', -⟩ :=
    decFollows_treePath td hx hy hthr (heMins (hasMins_of_mode heMode))
      (fun i => nodeOk_enc_of_mode heMode (heNodes i)) hvisit ⟨md, d.hdr, d.hdrIn, 0, 0⟩ more rfl hagree
      (fun i => nodeOk_dec_of_mode hdMode (hdNodes i)) hpend
  have hwalk' : d.queryWalk true td x y thr md = .done () k' := by
    rw [State.queryWalk, walk, ← hw, ← hh]
    exact hrun
  have hleaf : leafOk (d.tree td) x y thr := ⟨hw ▸ hx, hh ▸ hy, hthr⟩
  refine ⟨d.queried td .dec x y thr k', ?_, State.queried_busy .., ?_, ?_, ?_, ?_, ?_⟩
  · rw [exec_ttDec hdErr hdMode hleaf, State.query_done hmd hwalk']
  · show queryResult _ thr = queryResult _ thr
    rw [← hw, ← hh]
    exact (hagree' _).queryResult_eq thr
  · show BitVec.ofNat 32 k'.nbits = BitVec.ofNat 32 k.nbits
    rw [hnbits', hnbits, Nat.zero_add]
  · rw [State.queried_eq, State.setTree_hdr]
    exact hhdr'
  · rw [State.queried_eq, State.setTree_hdrIn]
    exact hpend'
  · rw [State.queried_eq, State.queried_eq, State.setTree_tree_same, State.setTree_tree_same]
    exact ⟨hw, hh, k.nodes, k'.nodes, rfl, rfl, hagree'⟩

end Sys2Proof.Machine
end


section
/-! PROOFS. The life-cycle invariant (R24, R30, R33, R36, R45) and what no query undoes (R34 (b)): every command that goes
on leaves units that say what they claim, and so does every event; from such a state no command reads what is unspecified. -/

namespace Sys2Proof.Machine

/-! ## Where a walk leaves the nodes, ended or waiting -/

/-- A walk that waits leaves the nodes of a walk to the nodes above, and the floor written into one node more (log 16). -/
theorem queryWalk_dec_waits {s : State} {t : TreeSel} {x y thr : Nat} {m : Memory Node} {cur : Cursor} {k : Walk}
    (h : s.queryWalk true t x y thr m = .hold cur k) :
    ∃ (m1 : Memory Node) (n f : Nat) (above below : List Nat) (got : List Bool), cur = .path t n ∧
      treePath (s.tree t).w (s.tree t).h x y = above ++ n :: below ∧ walkVisit (decStep thr) above m 0 got m1 f ∧
      onlyNode m1 k.nodes n { nodeAt m1 n with low := max f (nodeAt m1 n).low } := by
  rcases queryWalk_dec s t x y thr m with ⟨k', bits, hwalk, -⟩ |
    ⟨k', m1, n, f, zeros, above, below, got, hwalk, hpath, hvisit, -, -, -, honly⟩
  · rw [hwalk] at h
    cases h
  · rw [hwalk] at h
    cases h
    exact ⟨m1, n, f, above, below, got, rfl, hpath, hvisit, honly⟩

theorem queryWalk_dec_ends {s : State} {t : TreeSel} {x y thr : Nat} {m : Memory Node} {k : Walk}
    (h : s.queryWalk true t x y thr m = .done () k) :
    ∃ bits : List Bool, walkVisit (decStep thr) (treePath (s.tree t).w (s.tree t).h x y) m 0 bits k.nodes k.floor := by
  rcases queryWalk_dec s t x y thr m with ⟨k', bits, hwalk, -, -, -, hvisit⟩ | ⟨k', m1, n, f, zeros, above, below, got, hwalk, -⟩
  · rw [hwalk] at h
    cases h
    exact ⟨bits, hvisit⟩
  · rw [hwalk] at h
    cases h

theorem queryWalk_enc_ends {s : State} {t : TreeSel} {x y thr : Nat} {m : Memory Node} {k : Walk}
    (h : s.queryWalk false t x y thr m = .done () k) :
    ∃ bits : List Bool, walkVisit (encStep thr) (treePath (s.tree t).w (s.tree t).h x y) m 0 bits k.nodes k.floor := by
  obtain ⟨k', bits, hwalk, -, -, -, hvisit⟩ := queryWalk_enc s t x y thr m
  rw [hwalk] at h
  cases h
  exact ⟨bits, hvisit⟩

/-- Writing the walk's floor into a node, where it is higher. -/
theorem nodeGrows_max (nd : Node) (f : Nat) : nodeGrows nd { nd with low := max f nd.low } := ⟨Nat.le_max_right _ _, id⟩

/-- What the nodes of a tree keep through any of its commands: a leaf written, a query walked to its end or to where it
waits. -/
structure KeptByTree (R : Memory Node → Memory Node → Prop) : Prop where
  load : ∀ {w h x y v : Nat} {m : Memory Node}, v ≤ 254 → R m (loadLeaf w h x y v m)
  query : ∀ {s : State} {decoding : Bool} {t : TreeSel} {x y thr : Nat} {m : Memory Node}, thr ≤ 254 →
    R m (s.queryWalk decoding t x y thr m).state.nodes

/-- It is enough to look at the nodes the walks visit. -/
theorem keptByTree_of_visits {R : Memory Node → Memory Node → Prop}
    (load : ∀ {w h x y v : Nat} {m : Memory Node}, v ≤ 254 → R m (loadLeaf w h x y v m))
    (enc : ∀ {thr : Nat} {l : List Nat} {m m' : Memory Node} {bits : List Bool} {f : Nat}, thr ≤ 254 →
      walkVisit (encStep thr) l m 0 bits m' f → R m m')
    (dec : ∀ {thr : Nat} {l : List Nat} {m m' : Memory Node} {bits : List Bool} {f : Nat}, thr ≤ 254 →
      walkVisit (decStep thr) l m 0 bits m' f → R m m')
    (waits : ∀ {thr : Nat} {l : List Nat} {m m1 m' : Memory Node} {bits : List Bool} {n f : Nat}, thr ≤ 254 →
      walkVisit (decStep thr) l m 0 bits m1 f → onlyNode m1 m' n { nodeAt m1 n with low := max f (nodeAt m1 n).low } →
      R m m') : KeptByTree R where
  load := load
  query {s decoding t x y thr m} hthr := by
    cases decoding with
    | false =>
      obtain ⟨k, bits, hwalk, -, -, -, hvisit⟩ := queryWalk_enc s t x y thr m
      rw [hwalk]
      exact enc hthr hvisit
    | true =>
      rcases queryWalk_dec s t x y thr m with ⟨k, bits, hwalk, -, -, -, hvisit⟩ |
        ⟨k, m1, n, f, zeros, above, below, got, hwalk, -, hvisit, -, -, -, honly⟩
      · rw [hwalk]
        exact dec hthr hvisit
      · rw [hwalk]
        exact waits hthr hvisit honly

theorem loadLeaf_grows {w h x y v : Nat} {m : Memory Node} (i : Nat) :
    nodeGrows (nodeAt m i) (nodeAt (loadLeaf w h x y v m) i) := by
  obtain ⟨hlow, hvis, -⟩ := raiseMins_node (levels w h) x y
    (putNode m (Level.node ⟨0, w, h⟩ x y) { nodeAt m (Level.node ⟨0, w, h⟩ x y) with val := v }) i
  rw [loadLeaf, nodeGrows, hlow, hvis, nodeAt_putNode]
  split
  · next hi =>
    rw [hi]
    exact nodeGrows.refl _
  · exact nodeGrows.refl _

theorem onlyNode.rel {R : Node → Node → Prop} (hrefl : ∀ a, R a a) {m m' : Memory Node} {n : Nat} {nd : Node}
    (h : onlyNode m m' n nd) (hn : R (nodeAt m n) nd) (i : Nat) : R (nodeAt m i) (nodeAt m' i) := by
  by_cases hi : i = n
  · rw [hi, h.same]
    exact hn
  · rw [h.other hi]
    exact hrefl _

/-- No tree command but `TT_INIT` lowers a floor or clears a visited flag (R34 (b)). -/
theorem keptByTree_grows : KeptByTree fun m m' => ∀ i, nodeGrows (nodeAt m i) (nodeAt m' i) :=
  keptByTree_of_visits
    (load := fun _ => loadLeaf_grows)
    (enc := fun _ h => walkVisit_rel nodeGrows.refl nodeGrows.trans encStep_grows h)
    (dec := fun _ h => walkVisit_rel nodeGrows.refl nodeGrows.trans decStep_grows h)
    (waits := fun _ h honly i => (walkVisit_rel nodeGrows.refl nodeGrows.trans decStep_grows h i).trans
      (honly.rel nodeGrows.refl (nodeGrows_max _ _) i))

/-- Every tree command keeps the 8-bit range of the nodes (R31). -/
theorem keptByTree_bounded :
    KeptByTree fun m m' => (∀ i, nodeBounded (nodeAt m i)) → ∀ i, nodeBounded (nodeAt m' i) := by
  refine keptByTree_of_visits loadLeaf_bounded (fun hthr h hm => ?_) (fun _ h hm => ?_) fun _ h honly hm i => ?_
  · exact (walkVisit_keeps (P := nodeBounded) (Q := (· ≤ ttInf)) (encStep_bounded hthr) h hm (Nat.zero_le _)).1
  · exact (walkVisit_keeps (P := nodeBounded) (Q := (· ≤ ttInf)) decStep_bounded h hm (Nat.zero_le _)).1
  · obtain ⟨hm1, hf⟩ := walkVisit_keeps (P := nodeBounded) (Q := (· ≤ ttInf)) decStep_bounded h hm (Nat.zero_le _)
    refine honly.rel (R := fun a b => nodeBounded a → nodeBounded b) (fun _ => id) (fun hn => ?_) i (hm1 i)
    exact ⟨hn.1, Nat.max_le.mpr ⟨hf, hn.2⟩⟩

/-! ## Floors and visited flags never fall -/

theorem State.passResults_eq (s : State) (win : Window) (i : Instr) (t : State) :
    ∃ a b, s.passResults win i t = t.setRes a b := by
  cases i with
  | t1EncBlock | t1DecBlock => exact ⟨_, _, rfl⟩
  | _ => exact ⟨t.res0, t.res1, rfl⟩

@[simp] theorem State.tree_setRes (s : State) (a b : Reg) (t : TreeSel) : (s.setRes a b).tree t = s.tree t := by
  cases t <;> rfl

@[simp] theorem State.tree_hold (s : State) (i : Instr) (cur : Cursor) (now : State) (t : TreeSel) :
    (s.hold i cur now).tree t = now.tree t := by
  cases t <;> rfl

@[simp] theorem State.tree_withCoding (s : State) (c : Coding) (t : TreeSel) : (s.withCoding c).tree t = s.tree t := by
  cases t <;> rfl

@[simp] theorem State.tree_raise (s : State) (c : ErrCode) (w : Word) (pos : Reg) (t : TreeSel) :
    (s.raise c w pos).tree t = s.tree t := by
  cases t <;> rfl

@[simp] theorem State.tree_faulted (s : State) (c : ErrCode) (w : Word) (t : TreeSel) :
    (s.faulted c w).tree t = s.tree t := by
  cases t <;> rfl

@[simp] theorem State.tree_clearError (s : State) (t : TreeSel) : s.clearError.tree t = s.tree t := by
  cases t <;> rfl

@[simp] theorem State.tree_passResults (s : State) (win : Window) (i : Instr) (u : State) (t : TreeSel) :
    (s.passResults win i u).tree t = u.tree t := by
  obtain ⟨a, b, h⟩ := s.passResults_eq win i u
  rw [h, State.tree_setRes]

theorem State.tree_afterWalk (s : State) (t t' : TreeSel) (mode : TreeMode) (k : Walk) :
    (s.afterWalk t mode k).tree t' =
      if t' = t then { s.tree t with mode := mode, nodes := some k.nodes } else s.tree t' := by
  rw [State.afterWalk, State.tree_setTree]
  split
  · rfl
  · cases t' <;> rfl

/-- What a command does to the two trees: nothing, `TT_INIT`, reset, or one tree keeps its size and its nodes are those of
one of the tree commands. -/
theorem Does.tree {s u : State} {i : Instr} {R : Memory Node → Memory Node → Prop} (hR : KeptByTree R)
    (h : Does s i u) (t : TreeSel) :
    u.tree t = s.tree t ∨ (i = .softReset ∧ u.tree t = TagTree.uninit) ∨
      (∃ w h, i = .ttInit t w h ∧ (1 ≤ w ∧ w ≤ s.cfg.ttMaxDim) ∧ (1 ≤ h ∧ h ≤ s.cfg.ttMaxDim) ∧
        u.tree t = ⟨w, h, .fresh, some []⟩) ∨
      ∃ m m' mode, (s.tree t).mode ≠ .uninit ∧ mode ≠ .uninit ∧ (s.tree t).nodes = some m ∧ R m m' ∧
        u.tree t = { s.tree t with mode := mode, nodes := some m' } := by
  cases h with
  | nop => exact .inl rfl
  | softReset => exact .inr (.inl ⟨rfl, by cases t <;> rfl⟩)
  | clrErr => exact .inl (s.tree_clearError t)
  | results a b => exact .inl (s.tree_setRes a b t)
  | ttInit hw hh =>
    rename_i sel w h
    by_cases ht : t = sel
    · subst ht
      exact .inr (.inr (.inl ⟨w, h, rfl, hw, hh, s.setTree_tree_same t _⟩))
    · exact .inl (by rw [State.tree_setTree, if_neg ht])
  | ttSet hmode hm hleaf =>
    rename_i sel x y v m
    by_cases ht : t = sel
    · subst ht
      exact .inr (.inr (.inr ⟨m, _, _, TreeMode.ne_uninit_of_set hmode, by decide, hm, hR.load hleaf.2.2,
        s.setTree_tree_same t _⟩))
    · exact .inl (by rw [State.tree_setTree, if_neg ht])
  | ttEnc hmode hm hleaf hwalk =>
    rename_i sel x y thr m k
    rw [State.queried, State.tree_setRes, State.tree_afterWalk]
    by_cases ht : t = sel
    · subst ht
      have hquery := hR.query (s := s) (decoding := false) (t := t) (x := x) (y := y) (m := m) hleaf.2.2
      rw [hwalk] at hquery
      exact .inr (.inr (.inr ⟨m, _, _, TreeMode.ne_uninit_of_enc hmode, by decide, hm, hquery, if_pos rfl⟩))
    · exact .inl (if_neg ht)
  | ttDec hmode hm hleaf hwalk =>
    rename_i sel x y thr m k
    rw [State.queried, State.tree_setRes, State.tree_afterWalk]
    by_cases ht : t = sel
    · subst ht
      have hquery := hR.query (s := s) (decoding := true) (t := t) (x := x) (y := y) (m := m) hleaf.2.2
      rw [hwalk] at hquery
      exact .inr (.inr (.inr ⟨m, _, _, TreeMode.ne_uninit_of_dec hmode, by decide, hm, hquery, if_pos rfl⟩))
    · exact .inl (if_neg ht)
  | ttDecWaits hmode hm hleaf hwalk =>
    rename_i sel x y thr m cur k
    rw [State.tree_hold, State.tree_afterWalk]
    by_cases ht : t = sel
    · subst ht
      have hquery := hR.query (s := s) (decoding := true) (t := t) (x := x) (y := y) (m := m) hleaf.2.2
      rw [hwalk] at hquery
      have hne := TreeMode.ne_uninit_of_dec hmode
      exact .inr (.inr (.inr ⟨m, _, _, hne, hne, hm, hquery, if_pos rfl⟩))
    · exact .inl (if_neg ht)
  | cbCfg => exact .inl (by cases t <;> rfl)
  | cbClear => exact .inl (by cases t <;> rfl)
  | magWr => exact .inl (by cases t <;> rfl)
  | setSig => exact .inl (by cases t <;> rfl)
  | passesEnd => exact .inl (by rw [State.tree_passResults, State.tree_withCoding])
  | passesFull => exact .inl (by rw [State.tree_raise, State.tree_withCoding])
  | passesWait => exact .inl (by rw [State.tree_hold, State.tree_withCoding])

/-- Settles O38: a command leaves a tree alone or gives it the nodes of a tree command (`Does.tree`), none of which lowers
a floor or clears a flag (`keptByTree_grows`). -/
theorem floorsNeverFall : Obligations.FloorsNeverFall := by
  intro i s u t m hinit hreset hm hexec
  have hsame : ∀ v : State, v.tree t = s.tree t → ∃ m', (v.tree t).nodes = some m' ∧
      ∀ n, (nodeAt m n).low ≤ (nodeAt m' n).low ∧ ((nodeAt m n).vis = true → (nodeAt m' n).vis = true) :=
    fun v hv => ⟨m, by rw [hv, hm], fun n => nodeGrows.refl _⟩
  rcases exec_next hexec with ⟨-, rfl⟩ | ⟨-, c, -, rfl⟩ | hdoes
  · exact hsame _ rfl
  · exact hsame _ (s.tree_faulted _ _ t)
  · rcases hdoes.tree keptByTree_grows t with hu | ⟨rfl, -⟩ | ⟨w, h, rfl, -⟩ | ⟨m0, m', mode, -, -, hm0, hgrows, hu⟩
    · exact hsame u hu
    · exact absurd rfl hreset
    · exact absurd rfl (hinit t w h)
    · obtain rfl : m0 = m := Option.some.inj (hm0.symm.trans hm)
      exact ⟨m', by rw [hu], hgrows⟩

/-! ## The life cycle of the units -/

theorem uninit_tree_ok (maxDim : Nat) : TagTree.uninit.ok maxDim :=
  ⟨fun _ => rfl, fun h => absurd rfl h, nofun⟩

theorem fresh_tree_ok {maxDim w h : Nat} (hw : 1 ≤ w ∧ w ≤ maxDim) (hh : 1 ≤ h ∧ h ≤ maxDim) :
    TagTree.ok maxDim ⟨w, h, .fresh, some []⟩ := by
  refine ⟨nofun, fun _ => ⟨hw.1, hw.2, hh.1, hh.2, rfl⟩, fun m hm i => ?_⟩
  cases hm
  exact ⟨Nat.le_refl _, Nat.zero_le _⟩

theorem TagTree.ok.withNodes {maxDim : Nat} {tr : TagTree} {mode : TreeMode} {m' : Memory Node} (h : tr.ok maxDim)
    (hmode : tr.mode ≠ .uninit) (hmode' : mode ≠ .uninit) (hm' : ∀ i, nodeBounded (nodeAt m' i)) :
    TagTree.ok maxDim { tr with mode := mode, nodes := some m' } := by
  obtain ⟨-, hsize, -⟩ := h
  obtain ⟨hw, hw', hh, hh', -⟩ := hsize hmode
  refine ⟨fun h => absurd h hmode', fun _ => ⟨hw, hw', hh, hh', rfl⟩, fun m hm i => ?_⟩
  cases hm
  exact hm' i

theorem State.LifeCycle.treeNow {s : State} (h : s.LifeCycle) (t : TreeSel) : (s.tree t).ok s.cfg.ttMaxDim := by
  cases t
  · exact h.tree0Now
  · exact h.tree1Now

/-- Each command leaves trees that say what they claim. -/
theorem Does.tree_ok {s u : State} {i : Instr} (h : Does s i u) (hs : s.LifeCycle) (t : TreeSel) :
    (u.tree t).ok s.cfg.ttMaxDim := by
  rcases h.tree keptByTree_bounded t with hu | ⟨-, hu⟩ | ⟨w, h, -, hw, hh, hu⟩ | ⟨m, m', mode, hne, hne', hm, hkeep, hu⟩
  · rw [hu]
    exact hs.treeNow t
  · rw [hu]
    exact uninit_tree_ok _
  · rw [hu]
    exact fresh_tree_ok hw hh
  · rw [hu]
    obtain ⟨-, -, hbounded⟩ := hs.treeNow t
    exact (hs.treeNow t).withNodes hne hne' (hkeep fun i => hbounded m hm i)

/-- A window whose contents are there, in a configured geometry. -/
theorem windowOk_some {st st' : CbState} {w h : Nat} {win : Option Window} (hok : windowOk st w h win) (hst : st ≠ .unconf)
    (hst' : st'.acceptsRead = true) (win' : Window) : windowOk st' w h (some win') := by
  obtain ⟨-, -, hsize⟩ := hok
  exact ⟨hst'.symm, fun h => absurd (h ▸ hst' : CbState.unconf.acceptsRead = true) nofun, fun _ => hsize hst⟩

theorem CbState.ne_unconf_of_pass {c : CbState} (h : c = .ready ∨ c = .active) : c ≠ .unconf := by
  rcases h with rfl | rfl <;> decide

theorem State.startsPasses.state {s : State} {win : Window} {i : Instr} {m : Mode} {l : List (PassKind × Nat)}
    {first : List CodEvent} (h : s.startsPasses win i m l first) : s.cbState = .ready ∨ s.cbState = .active := by
  rcases h with ⟨k, p, hstate, -⟩ | ⟨nbp, hready, -⟩
  · exact hstate
  · exact .inl hready

/-- What a command leaves of the window's life cycle. -/
theorem Does.windowOk {s u : State} {i : Instr} (h : Does s i u) (hs : s.LifeCycle) :
    windowOk u.cbState u.cbW u.cbH u.window := by
  have hnow := hs.windowNow
  cases h with
  | nop | clrErr | results => exact hnow
  | softReset => exact ⟨rfl, fun _ => ⟨rfl, rfl⟩, fun h => absurd rfl h⟩
  | ttInit | ttSet =>
    rw [State.setTree_cbState, State.setTree_cbW, State.setTree_cbH, State.setTree_window]
    exact hnow
  | ttEnc | ttDec =>
    rw [State.queried_eq, State.setTree_cbState, State.setTree_cbW, State.setTree_cbH, State.setTree_window]
    exact hnow
  | ttDecWaits =>
    rw [State.hold_cbState, State.hold_cbW, State.hold_cbH, State.hold_window, State.afterWalk, State.setTree_cbState,
      State.setTree_cbW, State.setTree_cbH, State.setTree_window]
    exact hnow
  | cbCfg hw hh => exact ⟨rfl, nofun, fun _ => ⟨hw.1, hw.2, hh.1, hh.2⟩⟩
  | cbClear hstate => exact windowOk_some hnow hstate rfl _
  | magWr hready => exact windowOk_some hnow (CbState.ne_unconf_of_pass (.inl hready)) (by rw [hready]; rfl) _
  | setSig hstate => exact windowOk_some hnow (CbState.ne_unconf_of_pass hstate) rfl _
  | @passesEnd _ win m l first c _ hstart _ =>
    obtain ⟨a, b, hres⟩ := s.passResults_eq win i (s.withCoding c)
    rw [hres]
    exact windowOk_some hnow (CbState.ne_unconf_of_pass hstart.state) rfl _
  | passesFull _ hstart => exact windowOk_some hnow (CbState.ne_unconf_of_pass hstart.state) rfl _
  | passesWait _ hstart => exact windowOk_some hnow (CbState.ne_unconf_of_pass hstart.state) rfl _

/-- What `BUSY` and the fault registers say of each other (R36, R73, R216). -/
structure State.RegistersOk (s : State) : Prop where
  busyHeld : s.busy = s.held.isSome
  errCode : s.err = s.errCode.isSome
  everErr : s.err = true → s.everErr = true
  noErrorLeft : s.err = false → s.errCmd = 0#64 ∧ s.errPos = 0#32

theorem State.LifeCycle.registersOk {s : State} (h : s.LifeCycle) : s.RegistersOk :=
  ⟨h.busyHeld, h.errCode, h.everErr, h.noErrorLeft⟩

theorem State.RegistersOk.setTree {s : State} (h : s.RegistersOk) (t : TreeSel) (tr : TagTree) :
    (s.setTree t tr).RegistersOk := by
  cases t <;> exact ⟨h.busyHeld, h.errCode, h.everErr, h.noErrorLeft⟩

/-- A hold sets `BUSY` and changes no other register. -/
theorem State.RegistersOk.hold {s : State} (h : s.RegistersOk) (start : State) (i : Instr) (cur : Cursor) :
    (start.hold i cur s).RegistersOk := ⟨rfl, h.errCode, h.everErr, h.noErrorLeft⟩

theorem Does.registersOk {s u : State} {i : Instr} (h : Does s i u) (hs : s.RegistersOk) : u.RegistersOk := by
  cases h with
  | nop => exact hs
  | softReset => exact ⟨rfl, rfl, nofun, fun _ => ⟨rfl, rfl⟩⟩
  | clrErr => exact ⟨hs.busyHeld, rfl, nofun, fun _ => ⟨rfl, rfl⟩⟩
  | ttInit | ttSet => exact hs.setTree _ _
  | ttEnc | ttDec =>
    rw [State.queried_eq]
    refine State.RegistersOk.setTree ?_ _ _
    exact ⟨hs.busyHeld, hs.errCode, hs.everErr, hs.noErrorLeft⟩
  | ttDecWaits =>
    refine State.RegistersOk.hold ?_ s _ _
    rw [State.afterWalk]
    refine State.RegistersOk.setTree ?_ _ _
    exact ⟨hs.busyHeld, hs.errCode, hs.everErr, hs.noErrorLeft⟩
  | @passesEnd _ win m l first c =>
    obtain ⟨a, b, hres⟩ := s.passResults_eq win i (s.withCoding c)
    rw [hres]
    exact ⟨hs.busyHeld, hs.errCode, hs.everErr, hs.noErrorLeft⟩
  | passesFull => exact ⟨rfl, rfl, fun _ => rfl, nofun⟩
  | passesWait => exact ⟨rfl, hs.errCode, hs.everErr, hs.noErrorLeft⟩
  | results | cbCfg | cbClear | magWr | setSig => exact ⟨hs.busyHeld, hs.errCode, hs.everErr, hs.noErrorLeft⟩

/-- No command changes the parameters (R5). -/
theorem Does.cfg {s u : State} {i : Instr} (h : Does s i u) : u.cfg = s.cfg := by
  cases h with
  | ttInit | ttSet => exact State.setTree_cfg ..
  | ttEnc | ttDec => rw [State.queried_eq, State.setTree_cfg]
  | ttDecWaits => rw [State.hold_cfg, State.afterWalk, State.setTree_cfg]
  | @passesEnd _ win m l first c =>
    obtain ⟨a, b, hres⟩ := s.passResults_eq win i (s.withCoding c)
    rw [hres]
    rfl
  | _ => rfl

/-- What a command holds is what it started from (log 6), in the geometry it started in. -/
theorem Does.held {s u : State} {i : Instr} (h : Does s i u) {p : Pending} (hp : u.held = some p) :
    s.held = some p ∨ (p.cbState = s.cbState ∧ p.window = s.window ∧ p.tree0 = s.tree0 ∧ p.tree1 = s.tree1 ∧
      u.cbW = s.cbW ∧ u.cbH = s.cbH) := by
  cases h with
  | nop | clrErr | results | cbCfg | cbClear | magWr | setSig => exact .inl hp
  | softReset | passesFull => exact absurd hp nofun
  | ttInit | ttSet =>
    rw [State.setTree_held] at hp
    exact .inl hp
  | ttEnc | ttDec =>
    rw [State.queried_eq, State.setTree_held] at hp
    exact .inl hp
  | ttDecWaits =>
    rw [State.hold_cbW, State.hold_cbH, State.afterWalk, State.setTree_cbW, State.setTree_cbH]
    cases hp
    exact .inr ⟨rfl, rfl, rfl, rfl, rfl, rfl⟩
  | @passesEnd _ win m l first c =>
    obtain ⟨a, b, hres⟩ := s.passResults_eq win i (s.withCoding c)
    rw [hres] at hp
    exact .inl hp
  | passesWait =>
    cases hp
    exact .inr ⟨rfl, rfl, rfl, rfl, rfl, rfl⟩

/-- Where no command was held, a command that is held now is the one that ran. -/
theorem Does.held_of_idle {s u : State} {i : Instr} (h : Does s i u) (hidle : s.held = none) {p : Pending}
    (hp : u.held = some p) :
    p.cbState = s.cbState ∧ p.window = s.window ∧ p.tree0 = s.tree0 ∧ p.tree1 = s.tree1 ∧ u.cbW = s.cbW ∧
      u.cbH = s.cbH :=
  (h.held hp).resolve_left fun hs => by
    rw [hidle] at hs
    cases hs

theorem State.LifeCycle.idle {s : State} (h : s.LifeCycle) (hbusy : s.busy = false) : s.held = none :=
  Option.isNone_iff_eq_none.mp (by rw [← Option.not_isSome, ← h.busyHeld, hbusy]; rfl)

/-- Every command that goes on keeps the life cycle. -/
theorem Does.lifeCycle {s u : State} {i : Instr} (h : Does s i u) (hs : s.LifeCycle) (hbusy : s.busy = false) :
    u.LifeCycle := by
  obtain ⟨hbusyHeld, hcode, hever, hleft⟩ := h.registersOk hs.registersOk
  have hidle := hs.idle hbusy
  have htree := h.tree_ok hs
  rw [← h.cfg] at htree
  refine ⟨h.cfg ▸ hs.cfgOk, h.windowOk hs, htree .incl, htree .zbp, hbusyHeld, hcode, hever, hleft, ?_, ?_, ?_⟩
  · intro p hp
    obtain ⟨hstate, hwin, -, -, hw, hh⟩ := h.held_of_idle hidle hp
    rw [hstate, hwin, hw, hh]
    exact hs.windowNow
  · intro p hp
    obtain ⟨-, -, htree0, -⟩ := h.held_of_idle hidle hp
    rw [htree0, h.cfg]
    exact hs.tree0Now
  · intro p hp
    obtain ⟨-, -, -, htree1, -⟩ := h.held_of_idle hidle hp
    rw [htree1, h.cfg]
    exact hs.tree1Now

/-- The life cycle of a state in which no command is held. -/
theorem lifeCycle_of_idle {s : State} (hcfg : s.cfg.ok) (hwin : Machine.windowOk s.cbState s.cbW s.cbH s.window)
    (htree : ∀ t, (s.tree t).ok s.cfg.ttMaxDim) (hregs : s.RegistersOk) (hidle : s.held = none) : s.LifeCycle := by
  have hno : ∀ {P : Pending → Prop} p, s.held = some p → P p := fun p hp => by
    rw [hidle] at hp
    cases hp
  exact ⟨hcfg, hwin, htree .incl, htree .zbp, hregs.busyHeld, hregs.errCode, hregs.everErr, hregs.noErrorLeft, hno, hno,
    hno⟩

theorem faulted_registersOk (s : State) (c : ErrCode) (w : Word) : (s.faulted c w).RegistersOk :=
  ⟨rfl, rfl, fun _ => rfl, fun h => Bool.noConfusion h⟩

/-- A fault entry keeps the life cycle (R216). -/
theorem State.LifeCycle.faulted {s : State} (h : s.LifeCycle) (c : ErrCode) (w : Word) : (s.faulted c w).LifeCycle :=
  lifeCycle_of_idle h.cfgOk h.windowNow (fun t => by rw [State.tree_faulted]; exact h.treeNow t)
    (faulted_registersOk s c w) rfl

theorem State.tree_blockReset (s : State) (t : TreeSel) : s.blockReset.tree t = TagTree.uninit := by
  cases t <;> rfl

theorem blockReset_registersOk (s : State) : s.blockReset.RegistersOk :=
  ⟨rfl, rfl, fun h => Bool.noConfusion h, fun _ => ⟨rfl, rfl⟩⟩

theorem blockReset_windowOk (s : State) :
    Machine.windowOk s.blockReset.cbState s.blockReset.cbW s.blockReset.cbH s.blockReset.window :=
  ⟨rfl, fun _ => ⟨rfl, rfl⟩, fun h => absurd rfl h⟩

/-- The state after reset, whatever the parameters (R45). -/
theorem blockReset_lifeCycle {s : State} (hcfg : s.cfg.ok) : s.blockReset.LifeCycle :=
  lifeCycle_of_idle hcfg (blockReset_windowOk s) (fun t => by rw [s.tree_blockReset]; exact uninit_tree_ok _)
    (blockReset_registersOk s) rfl

theorem State.LifeCycle.environment {s : State} (h : s.LifeCycle) (inputs : List Event) (rdata cmdLo : Reg) (ovr : Bool)
    (encIn : Answers EncAnswer) (decIn hdrIn : Answers Bool) : State.LifeCycle { s with
      inputs := inputs, rdata := rdata, cmdLo := cmdLo, ovr := ovr, encIn := encIn, decIn := decIn, hdrIn := hdrIn } :=
  ⟨h.cfgOk, h.windowNow, h.tree0Now, h.tree1Now, h.busyHeld, h.errCode, h.everErr, h.noErrorLeft, h.windowThen,
    h.tree0Then, h.tree1Then⟩

/-- A command held before its first step (log 7). -/
theorem State.LifeCycle.slow {s : State} (h : s.LifeCycle) (i : Instr) : (s.hold i .start s).LifeCycle := by
  refine ⟨h.cfgOk, h.windowNow, h.tree0Now, h.tree1Now, rfl, h.errCode, h.everErr, h.noErrorLeft, ?_, ?_, ?_⟩
  all_goals
    intro p hp
    cases hp
  · exact h.windowNow
  · exact h.tree0Now
  · exact h.tree1Now

/-- Back where a held command started (log 6). -/
theorem State.LifeCycle.rewind {s : State} {p : Pending} (h : s.LifeCycle) (hheld : s.held = some p)
    (encIn : Answers EncAnswer) (decIn hdrIn : Answers Bool) :
    (s.rewind { p with encIn := encIn, decIn := decIn, hdrIn := hdrIn }).LifeCycle := by
  refine lifeCycle_of_idle h.cfgOk (h.windowThen p hheld) (fun t => ?_) ⟨rfl, h.errCode, h.everErr, h.noErrorLeft⟩ rfl
  cases t
  · exact h.tree0Then p hheld
  · exact h.tree1Then p hheld

theorem lifeCycle_keptByHost : KeptByHost State.LifeCycle where
  environment inputs rdata cmdLo ovr encIn decIn hdrIn h := h.environment inputs rdata cmdLo ovr encIn decIn hdrIn
  illegal w _ _ h := h.faulted .illegal w
  slow i _ h := h.slow i
  reset h := blockReset_lifeCycle h.cfgOk
  rewind encIn decIn hdrIn hheld h := h.rewind hheld encIn decIn hdrIn

theorem exec_lifeCycle {i : Instr} {s u : State} (hs : s.LifeCycle) (hbusy : s.busy = false) (h : exec i s = .next u) :
    u.LifeCycle := by
  rcases exec_next h with ⟨-, rfl⟩ | ⟨-, c, -, rfl⟩ | hdoes
  · exact hs
  · exact hs.faulted c _
  · exact hdoes.lifeCycle hs hbusy

/-- Settles O56: no event breaks the life cycle (`lifeCycle_keptByHost`), nor does any command (`Does.lifeCycle`). -/
theorem stepKeepsTheLifeCycle : Obligations.StepKeepsTheLifeCycle := fun _ _ hs hstep =>
  lifeCycle_keptByHost.step exec_lifeCycle hs hstep

/-- No command reads contents the life cycle says are not there. -/
theorem State.LifeCycle.exec_goes_on {s : State} (h : s.LifeCycle) (i : Instr) : ∃ u, exec i s = .next u := by
  have hout := exec_outcome i s
  generalize exec i s = r at hout ⊢
  cases hout with
  | dropped | refused | does => exact ⟨_, rfl⟩
  | noWindow hacc hwin =>
    have hpresent := h.windowNow.1
    rw [hacc, hwin] at hpresent
    cases hpresent
  | @noNodes t hmode hm =>
    obtain ⟨-, hsize, -⟩ := h.treeNow t
    obtain ⟨-, -, -, -, hpresent⟩ := hsize hmode
    rw [hm] at hpresent
    cases hpresent

/-- Settles O57: an event settles in a state or leads to a command run from one with the life cycle, which goes on. -/
theorem stepAlwaysGoesOn : Obligations.StepAlwaysGoesOn := by
  intro s hs
  rcases lifeCycle_keptByHost.nextAction hs with ⟨t, hnext, -⟩ | ⟨i, t, hnext, ht, -⟩
  · exact ⟨t, step_of_settle hnext⟩
  · rw [step_of_run hnext]
    exact ht.exec_goes_on i

theorem TagTree.coherent_uninit : TagTree.uninit.coherent := nofun

/-- Settles O55: nothing is configured, loaded or held. -/
theorem resetHasTheInvariants : Obligations.ResetHasTheInvariants := by
  have hlife : State.reset.LifeCycle := blockReset_lifeCycle (s := State.reset) (by decide)
  have hno : ∀ {P : Pending → Prop} p, State.reset.held = some p → P p := fun p hp => by cases hp
  refine ⟨hlife, State.reset_memWf, ⟨fun v hv => (by cases hv), hno⟩, fun t => ⟨fun _ => ?_, ?_⟩, hno⟩
  · cases t <;> exact TagTree.coherent_uninit
  · rintro ⟨h, n, hheld, -⟩
    cases hheld

end Sys2Proof.Machine
end


section
/-! PROOFS. The node invariants of a decoder's tree (R34 (c), R111, R117) along a walk, ended or waiting, the minima of an
encoder's tree through the writing of a leaf (R113), and so the invariants of both trees after every step (R34). -/

namespace Sys2Proof.Machine

/-! ## Parents (R32) -/

/-- `p` is the parent of `n` in the pyramid `l`. -/
def isParent (l : List Level) (n p : Nat) : Prop :=
  ∃ (pre post : List Level) (lv up : Level) (i j : Nat), l = pre ++ lv :: up :: post ∧ i < lv.w ∧ j < lv.h ∧
    n = lv.node i j ∧ p = up.node (i / 2) (j / 2)

/-- `parentIn` computes the parent. -/
theorem isParent.parentIn_eq {l : List Level} (hl : IsPyramid l) {n p : Nat} (h : isParent l n p) :
    parentIn l n = some p := by
  obtain ⟨pre, post, lv, up, i, j, rfl, hi, hj, rfl, rfl⟩ := h
  exact parentIn_node hl hi hj

theorem isParent.unique {l : List Level} (hl : IsPyramid l) {n p q : Nat} (hp : isParent l n p) (hq : isParent l n q) :
    p = q :=
  Option.some.inj ((hp.parentIn_eq hl).symm.trans (hq.parentIn_eq hl))

/-- A parent stands after its child. -/
theorem isParent.lt {l : List Level} (hl : IsPyramid l) {n p : Nat} (h : isParent l n p) : n < p := by
  obtain ⟨pre, post, lv, up, i, j, rfl, hi, hj, rfl, rfl⟩ := h
  obtain rfl : up = lv.above := hl.up_eq_above
  exact Nat.lt_of_lt_of_le (lv.node_lt_above_base hi hj) (lv.above.base_le_node _ _)

/-- What `reportedOk` says of each node that has a parent (R34 (c)). -/
def reportedBelow (l : List Level) (m : Memory Node) : Prop :=
  ∀ n p, isParent l n p → (nodeAt m n).vis = true → (nodeAt m p).vis = true ∧ (nodeAt m p).low ≤ (nodeAt m n).low

theorem reportedOk_iff {l : List Level} {m : Memory Node} : reportedOk l m ↔ reportedBelow l m := by
  induction l with
  | nil =>
    refine ⟨fun _ n p h => ?_, fun _ => trivial⟩
    obtain ⟨pre, post, lv, up, i, j, hl, -⟩ := h
    simp at hl
  | cons lv rest ih =>
    cases rest with
    | nil =>
      refine ⟨fun _ n p h => ?_, fun _ => trivial⟩
      obtain ⟨pre, post, lv', up, i, j, hl, -⟩ := h
      have hlen := congrArg List.length hl
      simp at hlen
      omega
    | cons up rest =>
      rw [reportedOk, ih]
      constructor
      · rintro ⟨hfirst, hrest⟩ n p ⟨pre, post, lv', up', i, j, hl, hi, hj, rfl, rfl⟩
        cases pre with
        | nil =>
          obtain ⟨rfl, rfl, rfl⟩ : lv = lv' ∧ up = up' ∧ rest = post := by simpa using hl
          exact hfirst i j hi hj
        | cons a pre =>
          obtain ⟨rfl, htail⟩ : lv = a ∧ up :: rest = pre ++ lv' :: up' :: post := by simpa using hl
          exact hrest _ _ ⟨pre, post, lv', up', i, j, htail, hi, hj, rfl, rfl⟩
      · intro h
        refine ⟨fun i j hi hj => h _ _ ⟨[], rest, lv, up, i, j, rfl, hi, hj, rfl, rfl⟩, fun n p hp => ?_⟩
        obtain ⟨pre, post, lv', up', i, j, hl, hi, hj, rfl, rfl⟩ := hp
        exact h _ _ ⟨lv :: pre, post, lv', up', i, j, by rw [hl]; rfl, hi, hj, rfl, rfl⟩

/-- Up a path each node is followed by its parent (R114). -/
theorem pathUp_isChain {l pre rest : List Level} {lv : Level} (h : IsPyramid l) (hl : l = pre ++ lv :: rest) {x y : Nat}
    (hx : x < lv.w) (hy : y < lv.h) : (pathUp (lv :: rest) x y).IsChain (isParent l) := by
  induction rest generalizing pre lv x y with
  | nil => exact List.IsChain.singleton _
  | cons up rest ih =>
    obtain rfl : up = lv.above := (hl ▸ h).up_eq_above
    rw [pathUp, pathUp]
    refine List.IsChain.cons_cons ⟨pre, rest, lv, lv.above, x, y, hl, hx, hy, rfl, rfl⟩ ?_
    exact ih (pre := pre ++ [lv]) (by rw [hl]; simp) (half_lt hx) (half_lt_rows hy)

/-- The last node up a path is the root, which has no parent. -/
theorem pathUp_last {l pre rest : List Level} {lv : Level} (h : IsPyramid l) (hl : l = pre ++ lv :: rest) {x y a : Nat}
    (ha : a ∈ (pathUp (lv :: rest) x y).getLast?) (p : Nat) : ¬ isParent l a p := by
  induction rest generalizing pre lv x y with
  | nil =>
    rintro ⟨pre', post', lv', up', i, j, hl', hi, hj, rfl, rfl⟩
    obtain rfl : up' = lv'.above := (hl' ▸ h).up_eq_above
    have hroot : lv ∈ lv'.above :: post' := by
      have hlast := congrArg List.getLast? (hl.symm.trans hl')
      rw [List.getLast?_append, List.getLast?_append] at hlast
      simp only [List.getLast?_singleton, Option.some_or, List.getLast?_cons_cons] at hlast
      cases hq : (lv'.above :: post').getLast? with
      | none => simp at hq
      | some b =>
        rw [hq] at hlast
        obtain rfl : lv = b := by simpa using hlast
        exact List.mem_of_getLast? hq
    have hbase := (hl' ▸ h).suffix.tail.base_le hroot
    have hnode : lv'.node i j = lv.node x y := by simpa [pathUp] using ha.symm
    have hlt := lv'.node_lt_above_base hi hj
    have hle := lv.base_le_node x y
    omega
  | cons up rest ih =>
    rw [pathUp, pathUp, List.getLast?_cons_cons, ← pathUp] at ha
    exact ih (pre := pre ++ [lv]) (by rw [hl]; simp) ha

/-- The path of a leaf is a chain from the root, each node the parent of the next (R114). -/
theorem treePath_isChain {w h x y : Nat} (hx : x < w) (hy : y < h) :
    (treePath w h x y).IsChain (fun p n => isParent (levels w h) n p) ∧
      ∀ a ∈ (treePath w h x y).head?, ∀ p, ¬ isParent (levels w h) a p := by
  have hpyr : IsPyramid (levels w h) := isPyramid_levels (by omega) (by omega)
  obtain ⟨rest, hrest⟩ := levels_eq_cons w h
  rw [treePath]
  constructor
  · rw [List.isChain_reverse]
    have hchain := pathUp_isChain hpyr (pre := []) hrest hx hy
    rw [hrest] at hchain ⊢
    exact hchain
  · intro a ha
    rw [List.head?_reverse, hrest] at ha
    exact pathUp_last hpyr (pre := []) hrest ha

/-! ## A decoder's tree (R34 (c), R117) -/

/-- What `TT_DEC` does to a node it comes to, whether it leaves the node or waits at it: 0s raise the floor, a 1 reports the
node (R117; log 16). -/
def decMove (thr : Nat) (nd : Node) (f : Nat) (nd' : Node) (f' : Nat) : Prop :=
  ∃ zeros : Nat, f' = max f nd.low + zeros ∧
    (∀ i, i < zeros → max f nd.low + i ≤ thr ∧ max f nd.low + i < nd.val) ∧
    (nd' = { nd with low := f' } ∨ (f' ≤ thr ∧ f' < nd.val ∧ nd' = ⟨f', f', true⟩))

theorem decStep_decMove {thr f f' : Nat} {nd nd' : Node} {bits : List Bool} (h : decStep thr nd f bits nd' f') :
    decMove thr nd f nd' f' := by
  obtain ⟨zeros, hf, hasked, ⟨-, -, hnd⟩ | ⟨-, hle, hlt, hnd⟩⟩ := h
  · exact ⟨zeros, hf, hasked, .inl hnd⟩
  · exact ⟨zeros, hf, hasked, .inr ⟨hle, hlt, hnd⟩⟩

theorem decMove_max (thr : Nat) (nd : Node) (f : Nat) : decMove thr nd f { nd with low := max f nd.low } (max f nd.low) :=
  ⟨0, rfl, fun i hi => absurd hi (Nat.not_lt_zero i), .inl rfl⟩

/-- A reported node is not touched again; a node reported now stands within the threshold, not below the floor it was come
to with. -/
theorem decMove_spec {thr f f' : Nat} {nd nd' : Node} (h : decMove thr nd f nd' f') (hnd : nodeOk .dec nd)
    (hf : nd.vis = true → f ≤ nd.low) :
    nodeOk .dec nd' ∧ (nd.vis = true → nd' = nd) ∧ nd'.low = f' ∧ f ≤ f' ∧ (nd'.vis = true → nd.vis = true ∨ f' ≤ thr) := by
  obtain ⟨hreported, hunknown⟩ := hnd
  obtain ⟨zeros, hf', hasked, hend⟩ := h
  have hstill : nd.vis = true → f' = nd.low ∧ nd.val = nd.low := by
    intro hv
    have hle := hf hv
    have hval := hreported hv
    cases zeros with
    | zero => omega
    | succ z =>
      have hfirst := hasked 0 (Nat.succ_pos z)
      omega
  rcases hend with rfl | ⟨hle, hlt, rfl⟩
  · refine ⟨⟨fun hv => ?_, hunknown⟩, fun hv => ?_, rfl, by omega, .inl⟩
    · obtain ⟨hlow, hval⟩ := hstill hv
      exact hval.trans hlow.symm
    · obtain ⟨hlow, -⟩ := hstill hv
      rw [hlow]
  · refine ⟨⟨fun _ => rfl, nofun⟩, fun hv => ?_, rfl, by omega, fun _ => .inr hle⟩
    obtain ⟨hlow, hval⟩ := hstill hv
    omega

/-- Where a node is left it is reported, or the floor is past the threshold. -/
theorem decStep_exit {thr f f' : Nat} {nd nd' : Node} {bits : List Bool} (h : decStep thr nd f bits nd' f')
    (hthr : thr ≤ 254) (hnd : nodeOk .dec nd) : nd'.vis = true ∨ thr < f' := by
  obtain ⟨-, hunknown⟩ := hnd
  obtain ⟨zeros, -, -, ⟨-, hexit, rfl⟩ | ⟨-, -, -, rfl⟩⟩ := h
  · rcases hexit with hlt | hle
    · exact .inr hlt
    · cases hv : nd.vis with
      | true => exact .inl rfl
      | false =>
        have hval : nd.val = 255 := hunknown hv
        exact .inr (by omega)
  · exact .inl rfl

/-- The invariants of a decoder's tree (R34 (c)). -/
structure DecTree (l : List Level) (m : Memory Node) : Prop where
  nodes : ∀ i, nodeOk .dec (nodeAt m i)
  reported : reportedBelow l m

/-- The walk comes to node `n` with floor `f`: its parent's, if it has one, which is reported or past the threshold. -/
structure ArrivesAt (l : List Level) (thr : Nat) (m : Memory Node) (f n : Nat) : Prop where
  parent : ∀ p, isParent l n p → f = (nodeAt m p).low ∧ ((nodeAt m p).vis = true ∨ thr < f)
  low : (nodeAt m n).vis = true → f ≤ (nodeAt m n).low

theorem ArrivesAt.root {l : List Level} {thr : Nat} {m : Memory Node} {n : Nat} (h : ∀ p, ¬ isParent l n p) :
    ArrivesAt l thr m 0 n := ⟨fun p hp => absurd hp (h p), fun _ => Nat.zero_le _⟩

/-- The node the walk comes to is moved, and the tree keeps its invariants. -/
theorem DecTree.move {l : List Level} (hl : IsPyramid l) {thr n f f' : Nat} {m m' : Memory Node} {nd' : Node}
    (h : DecTree l m) (harr : ArrivesAt l thr m f n) (hmove : decMove thr (nodeAt m n) f nd' f')
    (honly : onlyNode m m' n nd') : DecTree l m' ∧ (nodeAt m' n).low = f' := by
  obtain ⟨hok, hkept, hlow, hle, hnew⟩ := decMove_spec hmove (h.nodes n) harr.low
  refine ⟨⟨fun i => ?_, fun c p hp hv => ?_⟩, by rw [honly.same, hlow]⟩
  · exact honly.rel (R := fun a b => nodeOk .dec a → nodeOk .dec b) (fun _ => id) (fun _ => hok) i (h.nodes i)
  · by_cases hc : c = n
    · subst hc
      rw [honly.other (Nat.ne_of_gt (hp.lt hl)), honly.same, hlow]
      rw [honly.same] at hv
      obtain ⟨hfp, hpast⟩ := harr.parent p hp
      rcases hnew hv with hold | hthr
      · obtain ⟨hpv, -⟩ := h.reported c p hp hold
        exact ⟨hpv, hfp ▸ hle⟩
      · exact ⟨hpast.resolve_right (by omega), hfp ▸ hle⟩
    · rw [honly.other hc] at hv ⊢
      obtain ⟨hpv, hplow⟩ := h.reported c p hp hv
      by_cases hpn : p = n
      · subst hpn
        rw [honly.same, hkept hpv]
        exact ⟨hpv, hplow⟩
      · rw [honly.other hpn]
        exact ⟨hpv, hplow⟩

/-- The walk of `TT_DEC` down a path comes to the next node with the floor of its parent. -/
theorem dec_arrives {l : List Level} (hl : IsPyramid l) {thr n : Nat} (hthr : thr ≤ 254) {path : List Nat}
    (hchain : (path ++ [n]).IsChain (fun p n => isParent l n p)) {m m' : Memory Node} {f f' : Nat} {bits : List Bool}
    (htree : DecTree l m) (harr : ∀ a ∈ (path ++ [n]).head?, ArrivesAt l thr m f a)
    (hvisit : walkVisit (decStep thr) path m f bits m' f') : DecTree l m' ∧ ArrivesAt l thr m' f' n := by
  induction path generalizing m f bits with
  | nil =>
    obtain ⟨-, rfl, rfl⟩ := hvisit
    exact ⟨htree, harr n rfl⟩
  | cons a rest ih =>
    obtain ⟨nd, f1, m1, b1, b2, hstep, honly, hrest, -⟩ := hvisit
    obtain ⟨htree1, hlow1⟩ := htree.move hl (harr a rfl) (decStep_decMove hstep) honly
    have hexit := decStep_exit hstep hthr (htree.nodes a)
    rw [List.cons_append] at hchain
    refine ih hchain.of_cons htree1 (fun b hb => ?_) hrest
    have hparent : isParent l b a := List.isChain_cons.mp hchain |>.1 b hb
    refine ⟨fun p hp => ?_, fun hv => ?_⟩
    · obtain rfl := hparent.unique hl hp
      rw [hlow1, honly.same]
      exact ⟨rfl, hexit⟩
    · exact hlow1 ▸ (htree1.reported b a hparent hv).2

/-- The nodes after the walk of `TT_DEC`, ended or waiting, have the invariants of a decoder's tree. -/
theorem DecTree.queryWalk {s : State} {t : TreeSel} {x y thr : Nat} {m : Memory Node} (hx : x < (s.tree t).w)
    (hy : y < (s.tree t).h) (hthr : thr ≤ 254) (h : DecTree (levels (s.tree t).w (s.tree t).h) m) :
    (∀ k, s.queryWalk true t x y thr m = .done () k → DecTree (levels (s.tree t).w (s.tree t).h) k.nodes) ∧
      ∀ cur k, s.queryWalk true t x y thr m = .hold cur k → DecTree (levels (s.tree t).w (s.tree t).h) k.nodes := by
  have hpyr : IsPyramid (levels (s.tree t).w (s.tree t).h) := isPyramid_levels (by omega) (by omega)
  obtain ⟨hchain, hroot⟩ := treePath_isChain hx hy
  constructor
  · intro k hwalk
    obtain ⟨bits, hvisit⟩ := queryWalk_dec_ends hwalk
    obtain ⟨above, hpath⟩ := treePath_eq_append (s.tree t).w (s.tree t).h x y
    rw [hpath] at hvisit hchain hroot
    obtain ⟨m1, f1, b1, b2, habove, hlast, -⟩ := walkVisit_append.mp hvisit
    obtain ⟨nd, hstep, honly⟩ := walkVisit_singleton.mp hlast
    obtain ⟨htree1, harr⟩ := dec_arrives hpyr hthr hchain h (fun a ha => .root (hroot a ha)) habove
    exact (htree1.move hpyr harr (decStep_decMove hstep) honly).1
  · intro cur k hwalk
    obtain ⟨m1, n, f, above, below, got, -, hpath, hvisit, honly⟩ := queryWalk_dec_waits hwalk
    rw [hpath, show above ++ n :: below = (above ++ [n]) ++ below by simp] at hchain hroot
    have hhead : ∀ a ∈ (above ++ [n]).head?, a ∈ ((above ++ [n]) ++ below).head? := by
      cases above with
      | nil => exact fun a ha => ha
      | cons b above => exact fun a ha => ha
    obtain ⟨htree1, harr⟩ := dec_arrives hpyr hthr hchain.left_of_append h
      (fun a ha => .root (hroot a (hhead a ha))) hvisit
    exact (htree1.move hpyr harr (decMove_max thr _ f) honly).1

/-- A tree that `TT_DEC` accepts has the invariants of a decoder's: in a fresh one nothing is reported. -/
theorem TagTree.coherent.decTree {tr : TagTree} {m : Memory Node} (h : tr.coherent) (hm : tr.nodes = some m)
    (hmode : tr.mode = .fresh ∨ tr.mode = .dec) : DecTree (levels tr.w tr.h) m := by
  obtain ⟨hnodes, -, hreported⟩ := h m hm
  refine ⟨fun i => nodeOk_dec_of_mode hmode (hnodes i), ?_⟩
  rcases hmode with hfresh | hdec
  · intro n p _ hv
    rw [hfresh] at hnodes
    rw [show nodeAt m n = Node.fresh from hnodes n] at hv
    cases hv
  · exact reportedOk_iff.mp (hreported hdec)

theorem DecTree.coherent {w h : Nat} {m : Memory Node} (hm : DecTree (levels w h) m) :
    TagTree.coherent ⟨w, h, .dec, some m⟩ := by
  rintro _ ⟨⟩
  exact ⟨hm.nodes, nofun, fun _ => reportedOk_iff.mpr hm.reported⟩

/-! ## An encoder's tree (R34 (a), R112, R113) -/

theorem minOk_fresh (l : List Level) : minOk l [] := by
  induction l with
  | nil => trivial
  | cons lv rest ih =>
    cases rest with
    | nil => trivial
    | cons up rest => exact ⟨fun i j _ _ => ⟨Nat.le_refl _, fun _ _ => Nat.le_refl _, .inl rfl⟩, ih⟩

theorem fresh_coherent (w h : Nat) : TagTree.coherent ⟨w, h, .fresh, some []⟩ := by
  rintro _ ⟨⟩
  exact ⟨fun _ => rfl, fun _ => minOk_fresh _, nofun⟩

/-- Where each ancestor of `(x, y)` is the minimum of its children and the values off its path are the old ones, every node
is the minimum of its children, if it was. -/
theorem minOk_of_pathMinOk {lv : Level} {rest : List Level} (h : IsPyramid (lv :: rest)) {x y : Nat} (hx : x < lv.w)
    (hy : y < lv.h) {m m' : Memory Node} (hold : minOk (lv :: rest) m) (hpath : pathMinOk (lv :: rest) x y m')
    (hoff : ∀ i, lv.base ≤ i → i ∉ pathUp (lv :: rest) x y → (nodeAt m' i).val = (nodeAt m i).val) :
    minOk (lv :: rest) m' := by
  induction rest generalizing lv x y with
  | nil => trivial
  | cons up rest ih =>
    obtain rfl : up = lv.above := h.up_eq_above (pre := [])
    obtain ⟨hmins, hrest⟩ := hold
    obtain ⟨hmin, hpath⟩ := hpath
    have hbase : ∀ {i}, lv.above.base ≤ i → i ≠ lv.node x y := fun hi =>
      Nat.ne_of_gt (Nat.lt_of_lt_of_le (lv.node_lt_above_base hx hy) hi)
    refine ⟨fun i j hi hj => ?_, ih h.tail (half_lt hx) (half_lt_rows hy) hrest hpath fun i hi hnot => ?_⟩
    · by_cases hij : i = x / 2 ∧ j = y / 2
      · obtain ⟨rfl, rfl⟩ := hij
        exact hmin
      · have hparent : lv.above.node i j ∉ pathUp (lv :: lv.above :: rest) x y := by
          rw [pathUp, pathUp, List.mem_cons, List.mem_cons, not_or, not_or]
          refine ⟨hbase (lv.above.base_le_node i j), fun heq => hij (Level.node_inj hi (half_lt hx) heq), ?_⟩
          cases rest with
          | nil => exact List.not_mem_nil
          | cons up rest =>
            obtain rfl : up = lv.above.above := h.tail.up_eq_above (pre := [])
            exact h.tail.not_mem_pathUp_above hi hj
        rw [hoff _ (Nat.le_trans (Nat.le_add_right _ _) (lv.above.base_le_node i j)) hparent]
        refine (hmins i j hi hj).congr fun n hn => ?_
        obtain ⟨di, dj, hdi, hdj, hcx, hcy, rfl⟩ := mem_childrenOf.mp hn
        refine hoff _ (lv.base_le_node _ _) ?_
        rw [pathUp, List.mem_cons, not_or]
        refine ⟨fun heq => hij ?_, h.not_mem_pathUp_above hcx hcy⟩
        obtain ⟨hxe, hye⟩ := Level.node_inj hcx hx heq
        omega
    · refine hoff i (Nat.le_trans (Nat.le_add_right _ _) hi) ?_
      rw [pathUp, List.mem_cons, not_or]
      exact ⟨hbase hi, hnot⟩

theorem loadLeaf_coherent {tr : TagTree} {m : Memory Node} {x y : Nat} (v : Nat) (h : tr.coherent)
    (hm : tr.nodes = some m) (hmode : tr.mode = .fresh ∨ tr.mode = .loaded) (hx : x < tr.w) (hy : y < tr.h) :
    TagTree.coherent { tr with mode := .loaded, nodes := some (loadLeaf tr.w tr.h x y v m) } := by
  obtain ⟨hnodes, hmins, -⟩ := h m hm
  obtain ⟨-, hpath, hoff, hflags⟩ := loadLeaf_spec hx hy v m
  rintro _ ⟨⟩
  refine ⟨fun i => ?_, fun _ => ?_, nofun⟩
  · obtain ⟨hlow, hvis⟩ := hflags i
    have hold : (nodeAt m i).low = 0 ∧ (nodeAt m i).vis = false := by
      have hi := hnodes i
      rcases hmode with hmode | hmode
      · rw [hmode] at hi
        rw [show nodeAt m i = Node.fresh from hi]
        exact ⟨rfl, rfl⟩
      · rw [hmode] at hi
        exact hi
    exact ⟨hlow.trans hold.1, hvis.trans hold.2⟩
  · have hpyr : IsPyramid (levels tr.w tr.h) := isPyramid_levels (by omega) (by omega)
    have hold : minOk (levels tr.w tr.h) m := hmins (hasMins_of_mode (hmode.imp_right .inl))
    obtain ⟨rest, hrest⟩ := levels_eq_cons tr.w tr.h
    rw [treePath, hrest] at hoff
    rw [hrest] at hpyr hold hpath ⊢
    exact minOk_of_pathMinOk hpyr hx hy hold hpath fun i _ hi => by rw [hoff i (by rwa [List.mem_reverse])]

theorem queryWalk_enc_coherent {s : State} {t : TreeSel} {x y thr : Nat} {m : Memory Node} {k : Walk}
    (h : (s.tree t).coherent) (hm : (s.tree t).nodes = some m)
    (hmode : (s.tree t).mode = .fresh ∨ (s.tree t).mode = .loaded ∨ (s.tree t).mode = .enc)
    (hleaf : leafOk (s.tree t) x y thr) (hwalk : s.queryWalk false t x y thr m = .done () k) :
    TagTree.coherent { s.tree t with mode := .enc, nodes := some k.nodes } := by
  obtain ⟨hx, hy, -⟩ := hleaf
  obtain ⟨hnodes, hmins, -⟩ := h m hm
  obtain ⟨bits, hvisit⟩ := queryWalk_enc_ends hwalk
  have hold := hmins (hasMins_of_mode hmode)
  obtain ⟨hnew, -⟩ := walk_enc_coherent hx hy hold (fun i => nodeOk_enc_of_mode hmode (hnodes i)) hvisit
  rintro _ ⟨⟩
  exact ⟨hnew, fun _ => minOk_congr (walkVisit_enc_val hvisit) hold, nofun⟩

/-! ## Every step -/

/-- The invariants of a state in which no command waits. -/
theorem treesOk_of_idle {s : State} (hidle : s.held = none) (h : ∀ t, (s.tree t).coherent) : s.treesOk := by
  refine ⟨fun t => ⟨fun _ => h t, ?_⟩, fun p hp => ?_⟩
  · rintro ⟨p, n, hp, -⟩
    rw [hidle] at hp
    cases hp
  · rw [hidle] at hp
    cases hp

theorem State.treesOk.coherent {s : State} (h : s.treesOk) (hidle : s.held = none) (t : TreeSel) : (s.tree t).coherent := by
  refine (h.1 t).1 ?_
  rintro ⟨p, n, hp, -⟩
  rw [hidle] at hp
  cases hp

/-- A pass command waits at a coefficient (R196). -/
theorem codingPasses_hold_cursor {g : PassCtx} {l : List (PassKind × Nat)} {c c' : Coding} {cur : Cursor} (hw : g.w ≤ 64)
    (h : codingPasses g l c = .hold cur c') : ∃ spot, cur = cursorOf spot := by
  have hfollows : Follows g.mode (passesVisit g l) c (codingPasses g l c) :=
    Follows.each l (fun kp _ c => codingPass_follows g kp.1 kp.2 c hw) c
  rw [h] at hfollows
  obtain ⟨ev, spot, -, -, -, hcur, -⟩ := hfollows
  exact ⟨spot, hcur⟩

/-- The state a hold leaves: of the tree where `TT_DEC` waits the invariants of `DEC` are asked. -/
theorem treesOk_hold {s now : State} {i : Instr} {cur : Cursor} (hs : ∀ t, (s.tree t).coherent)
    (hnot : ∀ t, (∀ n, cur ≠ .path t n) → (now.tree t).coherent)
    (hwait : ∀ t n, cur = .path t n → TagTree.coherent { now.tree t with mode := .dec }) :
    (s.hold i cur now).treesOk := by
  refine ⟨fun t => ⟨fun hw => ?_, ?_⟩, fun p hp => ?_⟩
  · rw [State.tree_hold]
    exact hnot t fun n hcur => hw ⟨_, n, rfl, hcur⟩
  · rintro ⟨p, n, hp, hcur⟩
    cases hp
    rw [State.tree_hold]
    exact hwait t n hcur
  · cases hp
    exact ⟨hs .incl, hs .zbp⟩

theorem State.LifeCycle.width_le {s : State} (h : s.LifeCycle) : s.cbW ≤ 64 := by
  obtain ⟨-, hnone, hsome⟩ := h.windowNow
  by_cases hst : s.cbState = .unconf
  · rw [(hnone hst).1]
    exact Nat.zero_le _
  · exact (hsome hst).2.1

/-- Every command that goes on keeps the invariants of both trees. -/
theorem Does.treesOk {s u : State} {i : Instr} (h : Does s i u) (hs : s.LifeCycle) (hidle : s.held = none)
    (hok : s.treesOk) : u.treesOk := by
  have hco := hok.coherent hidle
  have hset : ∀ (t t' : TreeSel) (tr : TagTree), tr.coherent → ((s.setTree t tr).tree t').coherent := by
    intro t t' tr htr
    rw [State.tree_setTree]
    split
    · exact htr
    · exact hco t'
  have hwalked : ∀ (t t' : TreeSel) (mode : TreeMode) (k : Walk),
      TagTree.coherent { s.tree t with mode := mode, nodes := some k.nodes } →
      ((s.afterWalk t mode k).tree t').coherent := by
    intro t t' mode k htr
    rw [State.tree_afterWalk]
    split
    · exact htr
    · exact hco t'
  cases h with
  | nop => exact hok
  | softReset => exact treesOk_of_idle rfl fun t => by rw [State.tree_blockReset]; exact TagTree.coherent_uninit
  | clrErr => exact treesOk_of_idle hidle fun t => by rw [State.tree_clearError]; exact hco t
  | results a b => exact treesOk_of_idle hidle fun t => by rw [State.tree_setRes]; exact hco t
  | ttInit => exact treesOk_of_idle (by rw [State.setTree_held, hidle]) fun t => hset _ t _ (fresh_coherent _ _)
  | ttSet hmode hm hleaf =>
    obtain ⟨hx, hy, -⟩ := hleaf
    exact treesOk_of_idle (by rw [State.setTree_held, hidle]) fun t =>
      hset _ t _ (loadLeaf_coherent _ (hco _) hm hmode hx hy)
  | ttEnc hmode hm hleaf hwalk =>
    refine treesOk_of_idle (by rw [State.queried_eq, State.setTree_held]; exact hidle) fun t => ?_
    rw [State.queried, State.tree_setRes]
    exact hwalked _ t _ _ (queryWalk_enc_coherent (hco _) hm hmode hleaf hwalk)
  | @ttDec sel x y thr m k hmode hm hleaf hwalk =>
    obtain ⟨hx, hy, hthr⟩ := hleaf
    refine treesOk_of_idle (by rw [State.queried_eq, State.setTree_held]; exact hidle) fun t => ?_
    rw [State.queried, State.tree_setRes]
    exact hwalked _ t _ _ ((((hco sel).decTree hm hmode).queryWalk hx hy hthr).1 k hwalk).coherent
  | @ttDecWaits sel x y thr m cur k hmode hm hleaf hwalk =>
    obtain ⟨hx, hy, hthr⟩ := hleaf
    obtain ⟨-, n, -, -, -, -, rfl, -⟩ := queryWalk_dec_waits hwalk
    refine treesOk_hold hco (fun t hne => ?_) fun t n' hcur => ?_
    · rw [State.tree_afterWalk, if_neg]
      · exact hco t
      · rintro rfl
        exact hne n rfl
    · obtain ⟨rfl, -⟩ := Cursor.path.inj hcur
      rw [State.tree_afterWalk, if_pos rfl]
      exact ((((hco sel).decTree hm hmode).queryWalk hx hy hthr).2 _ k hwalk).coherent
  | cbCfg => exact treesOk_of_idle hidle fun t => by cases t <;> [exact hco .incl; exact hco .zbp]
  | cbClear => exact treesOk_of_idle hidle fun t => by cases t <;> [exact hco .incl; exact hco .zbp]
  | magWr => exact treesOk_of_idle hidle fun t => by cases t <;> [exact hco .incl; exact hco .zbp]
  | setSig => exact treesOk_of_idle hidle fun t => by cases t <;> [exact hco .incl; exact hco .zbp]
  | @passesEnd _ win m l first c =>
    obtain ⟨a, b, hres⟩ := s.passResults_eq win i (s.withCoding c)
    rw [hres]
    exact treesOk_of_idle hidle fun t => by rw [State.tree_setRes, State.tree_withCoding]; exact hco t
  | passesFull => exact treesOk_of_idle rfl fun t => by rw [State.tree_raise, State.tree_withCoding]; exact hco t
  | passesWait hwin hstart hrun =>
    obtain ⟨spot, rfl⟩ := codingPasses_hold_cursor hs.width_le hrun
    refine treesOk_hold hco (fun t _ => ?_) fun t n hcur => ?_
    · rw [State.tree_withCoding]
      exact hco t
    · cases hcur

/-- The life cycle and the node invariants of both trees. -/
def State.TreesSound (s : State) : Prop := s.LifeCycle ∧ s.treesOk

theorem treesSound_keptByHost : KeptByHost State.TreesSound where
  environment inputs rdata cmdLo ovr encIn decIn hdrIn h :=
    ⟨h.1.environment inputs rdata cmdLo ovr encIn decIn hdrIn, fun t => by cases t <;> [exact h.2.1 .incl; exact h.2.1 .zbp],
      h.2.2⟩
  illegal {s} w hbusy _ h := by
    refine ⟨h.1.faulted .illegal w, treesOk_of_idle rfl fun t => ?_⟩
    rw [State.tree_faulted]
    exact h.2.coherent (h.1.idle hbusy) t
  slow i hbusy h := by
    have hco := h.2.coherent (h.1.idle hbusy)
    exact ⟨h.1.slow i, treesOk_hold hco (fun t _ => hco t) fun t n hcur => by cases hcur⟩
  reset {s} h := ⟨blockReset_lifeCycle h.1.cfgOk,
    treesOk_of_idle rfl fun t => by rw [s.tree_blockReset]; exact TagTree.coherent_uninit⟩
  rewind {s p} encIn decIn hdrIn hheld h := by
    obtain ⟨h0, h1⟩ := h.2.2 p hheld
    exact ⟨h.1.rewind hheld encIn decIn hdrIn, treesOk_of_idle rfl fun t => by cases t <;> [exact h0; exact h1]⟩

theorem exec_treesSound {i : Instr} {s u : State} (hs : s.TreesSound) (hbusy : s.busy = false) (h : exec i s = .next u) :
    u.TreesSound := by
  obtain ⟨hlife, hok⟩ := hs
  have hidle := hlife.idle hbusy
  refine ⟨exec_lifeCycle hlife hbusy h, ?_⟩
  rcases exec_next h with ⟨-, rfl⟩ | ⟨-, c, -, rfl⟩ | hdoes
  · exact hok
  · exact treesOk_of_idle rfl fun t => by rw [State.tree_faulted]; exact hok.coherent hidle t
  · exact hdoes.treesOk hlife hidle hok

/-- Settles O60: with the life cycle, no event breaks the invariants of the trees and every command keeps them
(`Does.treesOk`): `minOk_of_pathMinOk` for a leaf written, `walk_enc_coherent` and `dec_arrives` for the queries. -/
theorem stepKeepsTreeInvariants : Obligations.StepKeepsTreeInvariants := fun _ _ hlife hs hstep =>
  (treesSound_keptByHost.step exec_treesSound ⟨hlife, hs⟩ hstep).2

end Sys2Proof.Machine
end


section
/-! PROOFS. What the passes write, in a window of any width (R164, R185 to R190): a run of passes is a sequence of four kinds
of writes (`WindowStep`), its events are coder calls with labels up to 18 between the `PassEnd` events, and it stops at a
coefficient of the pass it is in (`inPass`, `inPasses`). What each write keeps, every command and every step keeps; where the
window has at most 64 columns the same run is `passesVisit` (Sys2Proof/Laws/Passes.lean). -/

namespace Sys2Proof.Machine

/-! ## The writes of a pass -/

/-- One write of a coding pass: a coefficient made significant, its `VIS` written, its `REF` set, a decoded bit stored. -/
inductive WindowStep (g : PassCtx) (a : Window) : Window → Prop
  | mark {x y : Nat} (neg : Bool) (hx : x < g.w) (hy : y < g.h) (hsig : isSig (a.coef x y) = false) :
      WindowStep g a (a.setSig x y neg)
  | vis {x y : Nat} (v : Bool) (hx : x < g.w) (hy : y < g.h) : WindowStep g a (a.putBit (x + 1) (y + 1) flagVis v)
  | ref {x y : Nat} (hx : x < g.w) (hy : y < g.h) (hsig : isSig (a.coef x y) = true) :
      WindowStep g a (a.putBit (x + 1) (y + 1) flagRef true)
  | store {x y : Nat} (p : Nat) (hx : x < g.w) (hy : y < g.h) (hdec : g.mode = .dec) : WindowStep g a (a.orMag x y p)

/-- The writes of a part of a pass. -/
abbrev WindowSteps (g : PassCtx) : Window → Window → Prop := Relation.ReflTransGen (WindowStep g)

/-- What each write keeps. -/
theorem WindowSteps.keeps {g : PassCtx} {P : Window → Prop} (hstep : ∀ {a b}, WindowStep g a b → P a → P b) {a c : Window}
    (h : WindowSteps g a c) (ha : P a) : P c := by
  induction h with
  | refl => exact ha
  | tail _ hlast ih => exact hstep hlast ih

/-- Encoding writes no magnitude (R186). -/
theorem WindowSteps.mags_enc {g : PassCtx} (hm : g.mode = .enc) {a c : Window} (h : WindowSteps g a c) : c.mags = a.mags := by
  refine h.keeps (P := fun b => b.mags = a.mags) (fun {b c} hstep hb => ?_) rfl
  cases hstep with
  | mark => exact hb
  | vis => exact hb
  | ref => exact hb
  | store p _ _ hdec =>
    rw [hm] at hdec
    cases hdec

/-! ## One pass -/

/-- The event of a coder call with a label of the ROM (R38, R141). -/
def CodEvent.isCall (m : Mode) (e : CodEvent) : Prop := ∃ ctx b, ctx ≤ 18 ∧ e = CodEvent.ofCall m ctx b

/-- The spot is a coefficient in the pass of kind `k` on plane `p`. -/
def Spot.within (g : PassCtx) (k : PassKind) (p : Nat) (spot : Spot) : Prop :=
  spot.1 = k ∧ spot.2.1 = p ∧ spot.2.2.1 < g.w ∧ spot.2.2.2 < g.h

/-- What any part of a pass does, in a window of any width. -/
def inPass (g : PassCtx) (k : PassKind) (p : Nat) : Visit := fun a ev stop c =>
  WindowSteps g a c ∧ (∀ e ∈ ev, e.isCall g.mode) ∧ ∀ spot ∈ stop, Spot.within g k p spot

section
variable {g : PassCtx} {k : PassKind} {p : Nat}

theorem inPass_of_andThen {a c : Window} {ev : List CodEvent} {stop : Option Spot}
    (h : (inPass g k p).andThen (inPass g k p) a ev stop c) : inPass g k p a ev stop c := by
  obtain ⟨-, h⟩ | ⟨b, e1, e2, ⟨hsteps, hev, -⟩, ⟨hsteps', hev', hstop⟩, rfl⟩ := h
  · exact h
  · refine ⟨hsteps.trans hsteps', fun e he => ?_, hstop⟩
    exact (List.mem_append.mp he).elim (hev e) (hev' e)

/-- A part of a pass and then another. -/
theorem Follows.inPass_bind {c : Coding} {r : Res Coding Unit} {f : Unit → Coding → Res Coding Unit}
    (h : Follows g.mode (inPass g k p) c r) (hf : ∀ c', r = .done () c' → Follows g.mode (inPass g k p) c' (f () c')) :
    Follows g.mode (inPass g k p) c (r.bind f) :=
  (h.andThen hf).mono fun _ _ _ => inPass_of_andThen

/-- A loop over parts of a pass. -/
theorem Follows.inPass_forEach {ι : Type} {body : ι → Coding → Res Coding Unit} (l : List ι)
    (h : ∀ i ∈ l, ∀ c, Follows g.mode (inPass g k p) c (body i c)) (c : Coding) :
    Follows g.mode (inPass g k p) c (forEach l body c) := by
  induction l generalizing c with
  | nil => exact (Follows.nothing g.mode c).mono fun ev stop d ⟨hev, hstop, hd⟩ =>
      ⟨hd ▸ .refl, by simp [hev], by simp [hstop]⟩
  | cons i rest ih =>
    exact Follows.inPass_bind (h i (by simp) c) fun c' _ => ih (fun j hj => h j (by simp [hj])) c'

/-- Writes into the window, no coder call. -/
theorem Follows.inPass_write {c c' : Coding} (hcod : c'.cod = c.cod) (henc : c'.encIn = c.encIn) (hdec : c'.decIn = c.decIn)
    (h : WindowSteps g c.win c'.win) : Follows g.mode (inPass g k p) c (.done () c') :=
  (Follows.write (R := WindowSteps g) hcod henc hdec h).mono fun ev stop d ⟨hev, hstop, hd⟩ =>
    ⟨hd, by simp [hev], by simp [hstop]⟩

theorem Follows.inPass_still (c : Coding) : Follows g.mode (inPass g k p) c (.done () c) :=
  .inPass_write rfl rfl rfl .refl

/-- A coder call and what comes after it. -/
theorem Follows.inPass_code {cur : Cursor} {y0 x y ctx : Nat} {v : Bool} {c : Coding}
    {f : Bool → Coding → Res Coding Unit} (hcur : cur = .scan k p y0 x y) (hy0 : y0 = 4 * (y / 4)) (hx : x < g.w)
    (hy : y < g.h) (hctx : ctx ≤ 18)
    (hf : ∀ b c1, c1.win = c.win → Follows g.mode (inPass g k p) c1 (f b c1)) :
    Follows g.mode (inPass g k p) c ((codeBit g.mode cur ctx v c).bind f) := by
  have hspot : cur = cursorOf (k, p, x, y) := by rw [hcur, hy0]; rfl
  refine (Follows.code (S := fun _ => inPass g k p) hspot fun b c1 hwin _ => hf b c1 hwin).mono fun ev stop d hd => ?_
  obtain ⟨b, -, hcall⟩ := hd
  refine inPass_of_andThen (hcall.imp (And.imp_right ?_) ?_)
  · rintro ⟨rfl, ⟨rfl, rfl⟩ | ⟨rfl, rfl⟩⟩
    · exact ⟨.refl, by simpa using ⟨ctx, b, hctx, rfl⟩, nofun⟩
    · exact ⟨.refl, nofun, by simpa using ⟨rfl, rfl, hx, hy⟩⟩
  · rintro ⟨a, e1, e2, ⟨rfl, ⟨-, rfl⟩ | ⟨hstop, -⟩⟩, hrest, rfl⟩
    · exact ⟨_, _, e2, ⟨.refl, by simpa using ⟨ctx, b, hctx, rfl⟩, nofun⟩, hrest, rfl⟩
    · cases hstop

theorem storeBit_steps {x y : Nat} (hx : x < g.w) (hy : y < g.h) (b : Bool) (c : Coding) :
    WindowSteps g c.win (storeBit g x y p b c).win := by
  unfold storeBit
  split
  · next h => exact .single (.store p hx hy h.1)
  · exact .refl

theorem storeBit_coef (x y : Nat) (b : Bool) (c : Coding) (i j : Nat) :
    (storeBit g x y p b c).win.coef i j = c.win.coef i j := storeBit_flag g x y p b c _ _

theorem Follows.inPass_storeBit {x y : Nat} (hx : x < g.w) (hy : y < g.h) (b : Bool) (c : Coding) :
    Follows g.mode (inPass g k p) c (.done () (storeBit g x y p b c)) := by
  refine .inPass_write (storeBit_cod ..) ?_ ?_ (storeBit_steps hx hy b c)
  · unfold storeBit; split <;> rfl
  · unfold storeBit; split <;> rfl

variable {y0 x y : Nat}

theorem signStep_inPass {cur : Cursor} (hcur : cur = .scan k p y0 x y) (hy0 : y0 = 4 * (y / 4)) (hx : x < g.w)
    (hy : y < g.h) {c : Coding} (hsig : isSig (c.win.coef x y) = false) :
    Follows g.mode (inPass g k p) c (signStep g cur x y c) :=
  .inPass_code hcur hy0 hx hy ((signLabel_range _).2.trans (by decide)) fun _ _ hwin =>
    .inPass_write rfl rfl rfl (.single (.mark _ hx hy (hwin ▸ hsig)))

theorem sigThenSign_inPass {cur : Cursor} (hcur : cur = .scan k p y0 x y) (hy0 : y0 = 4 * (y / 4)) (hx : x < g.w)
    (hy : y < g.h) (v : Bool) {c : Coding} (hsig : isSig (c.win.coef x y) = false) :
    Follows g.mode (inPass g k p) c (sigThenSign g cur x y p v c) := by
  unfold sigThenSign sigStep
  rw [Res.bind_assoc]
  refine .inPass_code hcur hy0 hx hy ((sigLabel_le _ _).trans (by decide)) fun b c1 hwin => ?_
  refine Follows.inPass_bind ?_ fun c2 _ => .inPass_write rfl rfl rfl (.single (.vis v hx hy))
  cases b with
  | true =>
    refine Follows.inPass_bind (Follows.inPass_storeBit hx hy true c1) (f := fun _ c2 => signStep g cur x y c2) fun c2 h2 => ?_
    cases h2
    exact signStep_inPass hcur hy0 hx hy (by rw [storeBit_coef, hwin]; exact hsig)
  | false => exact .inPass_storeBit hx hy false c1

theorem sppCell_inPass (hy0 : y0 = 4 * (y / 4)) (hx : x < g.w) (hy : y < g.h) (c : Coding) :
    Follows g.mode (inPass g .spp p) c (sppCell g p y0 x y c) := by
  unfold sppCell
  dsimp only
  split
  · next h =>
    simp only [Bool.and_eq_true, Bool.not_eq_true'] at h
    exact sigThenSign_inPass rfl hy0 hx hy true h.1.1
  · exact .inPass_still c

theorem mrpCell_inPass (hy0 : y0 = 4 * (y / 4)) (hx : x < g.w) (hy : y < g.h) (c : Coding) :
    Follows g.mode (inPass g .mrp p) c (mrpCell g p y0 x y c) := by
  unfold mrpCell
  dsimp only
  split
  · next h =>
    simp only [Bool.and_eq_true] at h
    refine .inPass_code rfl hy0 hx hy ((refLabel_range _).2.trans (by decide)) fun b c1 hwin => ?_
    refine Follows.inPass_bind (Follows.inPass_storeBit hx hy b c1)
      (f := fun _ c2 => .done () (c2.putOwner x y flagRef true)) fun c2 h2 => ?_
    cases h2
    refine .inPass_write rfl rfl rfl (.single (.ref hx hy ?_))
    rw [storeBit_coef, hwin]
    exact h.1
  · exact .inPass_still c

theorem cupCell_inPass (hy0 : y0 = 4 * (y / 4)) (hx : x < g.w) (hy : y < g.h) (c : Coding) :
    Follows g.mode (inPass g .cup p) c (cupCell g p y0 x y c) := by
  unfold cupCell
  dsimp only
  split
  · next h =>
    simp only [Bool.and_eq_true, Bool.not_eq_true'] at h
    exact sigThenSign_inPass rfl hy0 hx hy false h.1
  · exact .inPass_write rfl rfl rfl (.single (.vis false hx hy))

/-- A row of a column of a stripe belongs to that stripe. -/
theorem stripe_of_mem_rowsOf {h i n y : Nat} (hy : y ∈ (rowsOf h (4 * i)).drop n) : 4 * i = 4 * (y / 4) ∧ y < h := by
  obtain ⟨hlow, hh, hhigh⟩ := mem_drop_rowsOf.mp hy
  omega

theorem runEnd_inPass {i r : Nat} (hx : x < g.w) (hfull : 4 * i + 3 < g.h) (hr : r ≤ 3) {c : Coding}
    (hsig : isSig (c.win.coef x (4 * i + r)) = false) :
    Follows g.mode (inPass g .cup p) c (runEnd g p (4 * i) x r c) := by
  have hy0 : 4 * i = 4 * ((4 * i + r) / 4) := by omega
  have hy : 4 * i + r < g.h := by omega
  refine Follows.inPass_bind (Follows.inPass_storeBit hx hy true c)
    (f := fun _ c => (signStep g _ x (4 * i + r) c).bind _) fun c1 h1 => ?_
  cases h1
  refine Follows.inPass_bind (signStep_inPass rfl hy0 hx hy (by rw [storeBit_coef]; exact hsig)) fun c2 _ => ?_
  refine Follows.inPass_bind (r := .done () (c2.putOwner x (4 * i + r) flagVis false))
    (.inPass_write rfl rfl rfl (.single (.vis false hx hy)))
    (f := fun _ c => forEach ((rowsOf g.h (4 * i)).drop (r + 1)) (fun y' => cupCell g p (4 * i) x y') c) fun c3 _ => ?_
  refine .inPass_forEach _ (fun y' hy' c => ?_) c3
  obtain ⟨hstripe, hh⟩ := stripe_of_mem_rowsOf hy'
  exact cupCell_inPass hstripe hx hh c

theorem runColumn_inPass {i : Nat} (hx : x < g.w) {c : Coding} (hq : quietColumn g c.win (4 * i) x = true) :
    Follows g.mode (inPass g .cup p) c (runColumn g p (4 * i) x c) := by
  obtain ⟨hfull, hidle⟩ := quietColumn_idle hq
  have hy0 : 4 * i = 4 * (4 * i / 4) := by omega
  have hy : 4 * i < g.h := by omega
  refine .inPass_code rfl hy0 hx hy (by decide) fun found c1 hwin1 => ?_
  cases found with
  | false => exact .inPass_still c1
  | true =>
    refine .inPass_code rfl hy0 hx hy (by decide) fun hi c2 hwin2 => ?_
    refine .inPass_code rfl hy0 hx hy (by decide) fun lo c3 hwin3 => ?_
    have hr : 2 * hi.toNat + lo.toNat ≤ 3 := by cases hi <;> cases lo <;> decide
    refine runEnd_inPass hx hfull hr ?_
    rw [hwin3, hwin2, hwin1]
    exact (hidle _ (Nat.lt_succ_of_le hr)).1

theorem passColumn_inPass {i : Nat} (k : PassKind) (hx : x < g.w) (c : Coding) :
    Follows g.mode (inPass g k p) c (passColumn g k p (4 * i) x c) := by
  have hrow : ∀ y ∈ rowsOf g.h (4 * i), 4 * i = 4 * (y / 4) ∧ y < g.h := fun y hy => stripe_of_mem_rowsOf (n := 0) hy
  have hcup : ∀ c, Follows g.mode (inPass g .cup p) c (forEach (rowsOf g.h (4 * i)) (fun y => cupCell g p (4 * i) x y) c) :=
    Follows.inPass_forEach _ fun y hy c => cupCell_inPass (hrow y hy).1 hx (hrow y hy).2 c
  cases k with
  | spp => exact .inPass_forEach _ (fun y hy c => sppCell_inPass (hrow y hy).1 hx (hrow y hy).2 c) c
  | mrp => exact .inPass_forEach _ (fun y hy c => mrpCell_inPass (hrow y hy).1 hx (hrow y hy).2 c) c
  | cup =>
    show Follows g.mode _ c (cupColumn g p (4 * i) x c)
    unfold cupColumn
    split
    · next hq => exact runColumn_inPass hx hq
    · exact hcup c

end

/-- A whole pass: parts of it, then its `PassEnd`. -/
def wholePass (g : PassCtx) (k : PassKind) (p : Nat) : Visit := (inPass g k p).andThen (.event (.passEnd k p))

theorem codingPass_wholePass (g : PassCtx) (k : PassKind) (p : Nat) (c : Coding) :
    Follows g.mode (wholePass g k p) c (codingPass g k p c) := by
  refine Follows.andThen (.inPass_forEach _ (fun col hcol c => ?_) c) fun c' _ => ⟨[.passEnd k p],
    ⟨rfl, fun _ => ⟨Answers.gives_nil _, rfl⟩, fun _ => ⟨Answers.gives_nil _, rfl⟩⟩, rfl, rfl, rfl⟩
  obtain ⟨y0, x⟩ := col
  obtain ⟨hx, i, -, rfl⟩ := mem_columns.mp hcol
  exact passColumn_inPass k hx c

/-! ## Some passes -/

@[simp] theorem passEnds_append (a b : List CodEvent) : passEnds (a ++ b) = passEnds a ++ passEnds b := by
  induction a with
  | nil => rfl
  | cons e rest ih => cases e <;> simp [passEnds, ih]

/-- Coder calls end no pass. -/
theorem passEnds_of_isCall {m : Mode} {ev : List CodEvent} (h : ∀ e ∈ ev, e.isCall m) : passEnds ev = [] := by
  induction ev with
  | nil => rfl
  | cons e rest ih =>
    obtain ⟨⟨ctx, b, -, rfl⟩, hrest⟩ := List.forall_mem_cons.mp h
    cases m <;> exact ih hrest

/-- Some passes, in a window of any width: the ones ended, in order, and the one it stopped in, if it stopped. -/
def inPasses (g : PassCtx) (l : List (PassKind × Nat)) : Visit := fun a ev stop c =>
  WindowSteps g a c ∧ (stop = none → passEnds ev = l) ∧
    ∀ spot, stop = some spot → ∃ k p post, l = passEnds ev ++ (k, p) :: post ∧ Spot.within g k p spot

theorem inPasses_cons {g : PassCtx} {k : PassKind} {p : Nat} {l : List (PassKind × Nat)} {a c : Window}
    {ev : List CodEvent} {stop : Option Spot} (h : (wholePass g k p).andThen (inPasses g l) a ev stop c) :
    inPasses g ((k, p) :: l) a ev stop c := by
  rcases h with ⟨hstop, hfirst⟩ | ⟨b, e1, e2, hfirst, ⟨hsteps', hdone, hstop⟩, rfl⟩
  · rcases hfirst with ⟨-, hsteps, hev, hspot⟩ | ⟨b, e1, e2, -, ⟨-, hnone, -⟩, -⟩
    · refine ⟨hsteps, fun hn => absurd hn hstop, fun spot hs => ⟨k, p, l, ?_, hspot spot hs⟩⟩
      rw [passEnds_of_isCall hev]
      rfl
    · exact absurd hnone hstop
  · rcases hfirst with ⟨hne, -⟩ | ⟨b', e1', e2', ⟨hsteps, hev, -⟩, ⟨rfl, -, rfl⟩, rfl⟩
    · exact absurd rfl hne
    · have hends : passEnds (e1' ++ [CodEvent.passEnd k p] ++ e2) = (k, p) :: passEnds e2 := by
        rw [passEnds_append, passEnds_append, passEnds_of_isCall hev]
        rfl
      refine ⟨hsteps.trans hsteps', fun hn => by rw [hends, hdone hn], fun spot hs => ?_⟩
      obtain ⟨k', p', post, hl, hspot⟩ := hstop spot hs
      exact ⟨k', p', post, by rw [hends, hl]; rfl, hspot⟩

theorem codingPasses_inPasses (g : PassCtx) (l : List (PassKind × Nat)) (c : Coding) :
    Follows g.mode (inPasses g l) c (codingPasses g l c) := by
  induction l generalizing c with
  | nil => exact (Follows.nothing g.mode c).mono fun ev stop d ⟨hev, hstop, hd⟩ =>
      ⟨hd ▸ .refl, fun _ => by rw [hev]; rfl, fun spot hs => by rw [hstop] at hs; cases hs⟩
  | cons kp rest ih =>
    exact (Follows.andThen (codingPass_wholePass g kp.1 kp.2 c) fun c' _ => ih c').mono fun _ _ _ => inPasses_cons

/-! ## One run, two descriptions -/

theorem cursorOf_inj {a b : Spot} (h : cursorOf a = cursorOf b) : a = b := by
  obtain ⟨k, p, x, y⟩ := a
  obtain ⟨k', p', x', y'⟩ := b
  obtain ⟨rfl, rfl, -, rfl, rfl⟩ := Cursor.scan.inj h
  rfl

theorem Ran.unique {m : Mode} {c c' : Coding} {ev ev' : List CodEvent} (h : Ran m c c' ev) (h' : Ran m c c' ev') :
    ev = ev' := List.append_cancel_left (h.cod.symm.trans h'.cod)

/-- Two descriptions of a run speak of the same events and the same spot. -/
theorem Follows.and {m : Mode} {R S : Visit} {c : Coding} {r : Res Coding Unit} (h : Follows m R c r)
    (h' : Follows m S c r) : Follows m (fun a ev stop d => R a ev stop d ∧ S a ev stop d) c r := by
  cases r with
  | done _ c' =>
    obtain ⟨ev, hran, hr⟩ := h
    obtain ⟨ev', hran', hs⟩ := h'
    obtain rfl := hran.unique hran'
    exact ⟨ev, hran, hr, hs⟩
  | full cur c' =>
    obtain ⟨ev, spot, c1, hran, hm, hpop, hc', hcur, hr⟩ := h
    obtain ⟨ev', spot', c1', hran', -, -, hc'', hcur', hs⟩ := h'
    have hcod : c1.cod = c1'.cod := by
      have := congrArg Coding.cod (hc'.symm.trans hc'')
      exact this
    obtain rfl : ev = ev' := List.append_cancel_left (hran.cod.symm.trans (hcod.trans hran'.cod))
    obtain rfl := cursorOf_inj (hcur.symm.trans hcur')
    exact ⟨ev, spot, c1, hran, hm, hpop, hc', hcur, hr, hs⟩
  | hold cur c' =>
    obtain ⟨ev, spot, hran, henc, hdec, hcur, hr⟩ := h
    obtain ⟨ev', spot', hran', -, -, hcur', hs⟩ := h'
    obtain rfl := hran.unique hran'
    obtain rfl := cursorOf_inj (hcur.symm.trans hcur')
    exact ⟨ev, spot, hran, henc, hdec, hcur, hr, hs⟩

/-- A description, and another one under a condition. -/
theorem Follows.and_of {m : Mode} {R S : Visit} {c : Coding} {r : Res Coding Unit} {P : Prop} (h : Follows m R c r)
    (h' : P → Follows m S c r) : Follows m (fun a ev stop d => R a ev stop d ∧ (P → S a ev stop d)) c r := by
  by_cases hP : P
  · exact (h.and (h' hP)).mono fun _ _ _ hd => ⟨hd.1, fun _ => hd.2⟩
  · exact h.mono fun _ _ _ hd => ⟨hd, fun hp => absurd hp hP⟩

/-- A run of passes: in any window (`inPasses`), and in one of at most 64 columns (`passesVisit`). -/
def passesRun (g : PassCtx) (l : List (PassKind × Nat)) : Visit := fun a ev stop c =>
  inPasses g l a ev stop c ∧ (g.w ≤ 64 → passesVisit g l a ev stop c)

theorem codingPasses_follows (g : PassCtx) (l : List (PassKind × Nat)) (c : Coding) :
    Follows g.mode (passesRun g l) c (codingPasses g l c) :=
  (codingPasses_inPasses g l c).and_of fun hw => Follows.each l (fun kp _ c => codingPass_follows g kp.1 kp.2 c hw) c

/-- The run of one pass: in any window (`wholePass`), and in one of at most 64 columns (`passVisit`). -/
def passRun (g : PassCtx) (k : PassKind) (p : Nat) : Visit := fun a ev stop c =>
  wholePass g k p a ev stop c ∧ (g.w ≤ 64 → passVisit g k p a ev stop c)

theorem codingPass_passRun (g : PassCtx) (k : PassKind) (p : Nat) (c : Coding) :
    Follows g.mode (passRun g k p) c (codingPass g k p c) :=
  (codingPass_wholePass g k p c).and_of fun hw => codingPass_follows g k p c hw

/-- The window after a run of passes, ended or stopped. -/
theorem Follows.steps {m : Mode} {R : Visit} {g : PassCtx} {c : Coding} {r : Res Coding Unit} (h : Follows m R c r)
    (hR : ∀ ev stop d, R c.win ev stop d → WindowSteps g c.win d) : WindowSteps g c.win r.state.win := by
  cases r with
  | done _ c' =>
    obtain ⟨ev, -, hr⟩ := h
    exact hR _ _ _ hr
  | full cur c' =>
    obtain ⟨ev, spot, c1, -, -, -, -, -, hr⟩ := h
    exact hR _ _ _ hr
  | hold cur c' =>
    obtain ⟨ev, spot, -, -, -, -, hr⟩ := h
    exact hR _ _ _ hr

theorem codingPasses_steps (g : PassCtx) (l : List (PassKind × Nat)) (c : Coding) :
    WindowSteps g c.win (codingPasses g l c).state.win :=
  (codingPasses_inPasses g l c).steps fun _ _ _ h => h.1

/-! ## What every command does to the window -/

/-- The window a command leaves: gone, cleared, the old one, one write by `MAG_WR` or `SET_SIG`, or the writes of passes. -/
theorem Does.window {s u : State} {i : Instr} (h : Does s i u) :
    (u.window = s.window ∧ u.cbState = s.cbState ∧ u.cbW = s.cbW ∧ u.cbH = s.cbH) ∨
    (i = .softReset ∧ u.window = none) ∨ ((∃ o w h, i = .cbCfg o w h) ∧ u.window = none) ∨
    (i = .cbClear ∧ u.window = some Window.cleared ∧ u.cbState = .ready) ∨
    ((u.cbW = s.cbW ∧ u.cbH = s.cbH) ∧ ∃ win, s.window = some win ∧
      ((s.cbState = .ready ∧ u.cbState = .ready ∧ ∃ x y mag neg, x < s.cbW ∧ y < s.cbH ∧
          u.window = some ((win.putMag x y mag).putBit (x + 1) (y + 1) flagSgn neg)) ∨
        ((s.cbState = .ready ∨ s.cbState = .active) ∧ (u.cbState = .active ∨ u.cbState = .dirty) ∧
          ∃ m win', WindowSteps (s.passCtx m) win win' ∧ u.window = some win'))) := by
  cases h with
  | nop | clrErr | results => exact .inl ⟨rfl, rfl, rfl, rfl⟩
  | softReset => exact .inr (.inl ⟨rfl, rfl⟩)
  | ttInit | ttSet =>
    exact .inl ⟨State.setTree_window .., State.setTree_cbState .., State.setTree_cbW .., State.setTree_cbH ..⟩
  | ttEnc | ttDec =>
    rw [State.queried_eq]
    exact .inl ⟨State.setTree_window .., State.setTree_cbState .., State.setTree_cbW .., State.setTree_cbH ..⟩
  | ttDecWaits =>
    rw [State.hold_window, State.hold_cbState, State.hold_cbW, State.hold_cbH, State.afterWalk]
    exact .inl ⟨State.setTree_window .., State.setTree_cbState .., State.setTree_cbW .., State.setTree_cbH ..⟩
  | cbCfg => exact .inr (.inr (.inl ⟨⟨_, _, _, rfl⟩, rfl⟩))
  | cbClear => exact .inr (.inr (.inr (.inl ⟨rfl, rfl, rfl⟩)))
  | magWr hready hwin hx hy =>
    exact .inr (.inr (.inr (.inr ⟨⟨rfl, rfl⟩, _, hwin, .inl ⟨hready, hready, _, _, _, _, hx, hy, rfl⟩⟩)))
  | @setSig x y neg win hacc hwin hx hy hsig =>
    exact .inr (.inr (.inr (.inr ⟨⟨rfl, rfl⟩, win, hwin, .inr ⟨hacc, .inl rfl, .enc, _,
      .single (.mark neg hx hy hsig), rfl⟩⟩)))
  | @passesEnd _ win m l first c hwin hstart hrun =>
    have hsteps := codingPasses_steps (s.passCtx m) l (s.codingAfter win first)
    rw [hrun] at hsteps
    obtain ⟨a, b, hres⟩ := s.passResults_eq win i (s.withCoding c)
    rw [hres]
    exact .inr (.inr (.inr (.inr ⟨⟨rfl, rfl⟩, win, hwin, .inr ⟨hstart.state, .inl rfl, m, _, hsteps, rfl⟩⟩)))
  | @passesFull _ win m l first cur c hwin hstart hrun =>
    have hsteps := codingPasses_steps (s.passCtx m) l (s.codingAfter win first)
    rw [hrun] at hsteps
    exact .inr (.inr (.inr (.inr ⟨⟨rfl, rfl⟩, win, hwin, .inr ⟨hstart.state, .inr rfl, m, _, hsteps, rfl⟩⟩)))
  | @passesWait _ win m l first cur c hwin hstart hrun =>
    have hsteps := codingPasses_steps (s.passCtx m) l (s.codingAfter win first)
    rw [hrun] at hsteps
    exact .inr (.inr (.inr (.inr ⟨⟨rfl, rfl⟩, win, hwin, .inr ⟨hstart.state, .inl rfl, m, _, hsteps, rfl⟩⟩)))

/-! ## `SIG` is never lost (R27 (c)) -/

theorem isSig_or {f m : FlagWord} (h : isSig f = true) : isSig (f ||| m) = true := by
  unfold isSig at h ⊢
  rw [BitVec.getLsbD_or, h, Bool.true_or]

theorem isSig_putMask {f m : FlagWord} (hm : m.getLsbD 13 = false) (v : Bool) (h : isSig f = true) :
    isSig (putMask f m v) = true := by
  unfold isSig at h ⊢
  rw [getLsbD_putMask _ _ _ (by decide), hm]
  exact h

theorem Window.isSig_orFlag {win : Window} {wx wy : Nat} (a b : Nat) (m : FlagWord) (h : isSig (win.flag wx wy) = true) :
    isSig ((win.orFlag a b m).flag wx wy) = true := by
  rw [Window.flag_orFlag]
  split
  · next haddr =>
    refine isSig_or ?_
    unfold Window.flag at h ⊢
    rwa [← haddr]
  · exact h

theorem Window.isSig_putBit {win : Window} {wx wy : Nat} (a b : Nat) {m : FlagWord} (hm : m.getLsbD 13 = false) (v : Bool)
    (h : isSig (win.flag wx wy) = true) : isSig ((win.putBit a b m v).flag wx wy) = true := by
  rw [Window.flag_putBit]
  split
  · next haddr =>
    refine isSig_putMask hm v ?_
    unfold Window.flag at h ⊢
    rwa [← haddr]
  · exact h

theorem Window.isSig_setSig {win : Window} {wx wy : Nat} (x y : Nat) (neg : Bool) (h : isSig (win.flag wx wy) = true) :
    isSig ((win.setSig x y neg).flag wx wy) = true := by
  have hown : isSig (((win.orFlag (x + 1) (y + 1) flagSig).putBit (x + 1) (y + 1) flagSgn neg).flag wx wy) = true :=
    Window.isSig_putBit _ _ (by decide) neg (Window.isSig_orFlag _ _ _ h)
  unfold Window.setSig
  iterate 8 refine Window.isSig_orFlag _ _ _ ?_
  exact hown

theorem WindowStep.isSig {g : PassCtx} {a b : Window} (h : WindowStep g a b) {wx wy : Nat}
    (hsig : isSig (a.flag wx wy) = true) : Machine.isSig (b.flag wx wy) = true := by
  cases h with
  | mark neg _ _ _ => exact Window.isSig_setSig _ _ neg hsig
  | vis v _ _ => exact Window.isSig_putBit _ _ (by decide) v hsig
  | ref _ _ _ => exact Window.isSig_putBit _ _ (by decide) true hsig
  | store => exact hsig

/-- Settles O29: a command leaves the window alone or writes it (`Does.window`), and no write clears a `SIG` bit. -/
theorem significanceIsNeverLost : Obligations.SignificanceIsNeverLost := by
  intro i s t win wx wy hclear hcfg hreset hwin hsig hexec
  rcases exec_next hexec with ⟨-, rfl⟩ | ⟨-, c, -, rfl⟩ | hdoes
  · exact ⟨win, hwin, hsig⟩
  · exact ⟨win, hwin, hsig⟩
  · rcases hdoes.window with ⟨hsame, -⟩ | ⟨rfl, -⟩ | ⟨⟨o, w, h, rfl⟩, -⟩ | ⟨rfl, -⟩ |
      ⟨-, win0, hwin0, ⟨-, -, x, y, mag, neg, -, -, hu⟩ | ⟨-, -, m, win', hsteps, hu⟩⟩
    · exact ⟨win, hsame.trans hwin, hsig⟩
    · exact absurd rfl hreset
    · exact absurd rfl (hcfg o w h)
    · exact absurd rfl hclear
    · obtain rfl := Option.some.inj (hwin0.symm.trans hwin)
      exact ⟨_, hu, Window.isSig_putBit _ _ (by decide) neg hsig⟩
    · obtain rfl := Option.some.inj (hwin0.symm.trans hwin)
      exact ⟨win', hu, hsteps.keeps (fun hstep => hstep.isSig) hsig⟩

end Sys2Proof.Machine
end


section
/-! PROOFS. The memories in canonical form (log 1) and the flag-word invariants (R27 (a), (b), (d), R28, R24) after every
step: what each write into a memory or a flag word keeps. -/

namespace Sys2Proof.Machine

/-! ## Canonical memories (log 1) -/

theorem Window.putFlag_memWf {win : Window} (wx wy : Nat) (f : FlagWord) (h : win.memWf = true) :
    (win.putFlag wx wy f).memWf = true := by
  simp only [Window.memWf, Bool.and_eq_true] at h ⊢
  exact ⟨Memory.write_wf _ _ _ h.1, h.2⟩

theorem Window.putMag_memWf {win : Window} (x y : Nat) (v : Magnitude) (h : win.memWf = true) :
    (win.putMag x y v).memWf = true := by
  simp only [Window.memWf, Bool.and_eq_true] at h ⊢
  exact ⟨h.1, Memory.write_wf _ _ _ h.2⟩

theorem Window.setSig_memWf {win : Window} (x y : Nat) (neg : Bool) (h : win.memWf = true) :
    (win.setSig x y neg).memWf = true := by
  unfold Window.setSig
  iterate 8 refine Window.putFlag_memWf _ _ _ ?_
  exact Window.putFlag_memWf _ _ _ (Window.putFlag_memWf _ _ _ h)

theorem WindowStep.memWf {g : PassCtx} {a b : Window} (h : WindowStep g a b) (ha : a.memWf = true) : b.memWf = true := by
  cases h with
  | mark neg _ _ _ => exact Window.setSig_memWf _ _ neg ha
  | vis | ref => exact Window.putFlag_memWf _ _ _ ha
  | store => exact Window.putMag_memWf _ _ _ ha

/-- The node memory is in canonical form. -/
abbrev nodesWf (m : Memory Node) : Prop := Memory.wf Node.fresh m = true

theorem putNode_wf {m : Memory Node} (n : Nat) (nd : Node) (h : nodesWf m) : nodesWf (putNode m n nd) :=
  Memory.write_wf _ _ _ h

theorem raiseMins_wf (l : List Level) (x y : Nat) {m : Memory Node} (h : nodesWf m) : nodesWf (raiseMins l x y m) := by
  induction l generalizing x y m with
  | nil => exact h
  | cons lv rest ih =>
    cases rest with
    | nil => exact h
    | cons up rest => exact ih _ _ (putNode_wf _ _ h)

theorem encNode_wf (n left : Nat) {k : Walk} (h : nodesWf k.nodes) : nodesWf (encNode n left k).nodes := by
  induction left generalizing k with
  | zero => exact h
  | succ left ih =>
    unfold encNode
    dsimp only
    split
    · split
      · exact h
      · exact putNode_wf _ _ h
    · exact ih h

theorem decNode_wf (t : TreeSel) (n left : Nat) {k : Walk} (h : nodesWf k.nodes) :
    nodesWf (decNode t n left k).state.nodes := by
  induction left generalizing k with
  | zero => exact h
  | succ left ih =>
    unfold decNode
    dsimp only
    split
    · split
      · exact h
      · next b more _ =>
        cases b with
        | true => exact putNode_wf _ _ h
        | false => exact ih h
    · exact h

theorem visitNode_wf (decoding : Bool) (t : TreeSel) (thr n : Nat) {k : Walk} (h : nodesWf k.nodes) :
    nodesWf (visitNode decoding t thr n k).state.nodes := by
  have henter : nodesWf (enterNode n k).nodes := by
    unfold enterNode
    dsimp only
    split
    · exact putNode_wf _ _ h
    · exact h
  refine Res.bind_state (P := fun k : Walk => nodesWf k.nodes) _ _ ?_ fun _ k' hk' => putNode_wf _ _ ?_
  · cases decoding with
    | false => exact encNode_wf n _ henter
    | true => exact decNode_wf t n _ henter
  · cases decoding with
    | false =>
      cases hk'
      exact encNode_wf n _ henter
    | true =>
      have hstate := decNode_wf t n (thr + 1 - (enterNode n k).floor) henter
      have hdone : decNode t n (thr + 1 - (enterNode n k).floor) (enterNode n k) = .done () k' := hk'
      rwa [hdone] at hstate

/-- Every tree command keeps the node memory in canonical form. -/
theorem keptByTree_wf : KeptByTree fun m m' => nodesWf m → nodesWf m' where
  load _ h := raiseMins_wf _ _ _ (putNode_wf _ _ h)
  query _ h := forEach_state (P := fun k : Walk => nodesWf k.nodes) _ _ _ h fun n _ _ hk => visitNode_wf _ _ _ n hk

/-- The memories of a window, if there is one. -/
def windowWf (win : Option Window) : Prop := ∀ v, win = some v → v.memWf = true

/-- `memWf`, memory by memory. -/
theorem State.memWf_iff (s : State) :
    s.memWf = true ↔ windowWf s.window ∧ (∀ t, (s.tree t).memWf = true) ∧
      ∀ p, s.held = some p → windowWf p.window ∧ p.tree0.memWf = true ∧ p.tree1.memWf = true := by
  have htrees : (∀ t, (s.tree t).memWf = true) ↔ s.tree0.memWf = true ∧ s.tree1.memWf = true :=
    ⟨fun h => ⟨h .incl, h .zbp⟩, fun h t => by cases t <;> [exact h.1; exact h.2]⟩
  rw [htrees]
  simp only [State.memWf, windowWf, Bool.and_eq_true, Option.all_eq_true, and_assoc]

theorem memWf_of_idle {s : State} (hidle : s.held = none) (hwin : windowWf s.window) (htree : ∀ t, (s.tree t).memWf = true) :
    s.memWf = true :=
  s.memWf_iff.mpr ⟨hwin, htree, fun p hp => by rw [hidle] at hp; cases hp⟩

theorem TagTree.memWf_some {tr : TagTree} {m : Memory Node} (hm : tr.nodes = some m) : tr.memWf = true ↔ nodesWf m := by
  simp [TagTree.memWf, hm]

theorem Does.tree_memWf {s u : State} {i : Instr} (h : Does s i u) (hs : ∀ t, (s.tree t).memWf = true) (t : TreeSel) :
    (u.tree t).memWf = true := by
  rcases h.tree keptByTree_wf t with hu | ⟨-, hu⟩ | ⟨w, h, -, -, -, hu⟩ | ⟨m, m', mode, -, -, hm, hkeep, hu⟩
  · rw [hu]
    exact hs t
  · rw [hu]
    rfl
  · rw [hu]
    rfl
  · rw [hu]
    exact (TagTree.memWf_some rfl).mpr (hkeep ((TagTree.memWf_some hm).mp (hs t)))

theorem Does.windowWf {s u : State} {i : Instr} (h : Does s i u) (hs : Machine.windowWf s.window) :
    Machine.windowWf u.window := by
  rcases h.window with ⟨hsame, -⟩ | ⟨-, hu⟩ | ⟨-, hu⟩ | ⟨-, hu, -⟩ |
    ⟨-, win, hwin, ⟨-, -, x, y, mag, neg, -, -, hu⟩ | ⟨-, -, m, win', hsteps, hu⟩⟩
  all_goals
    rintro v hv
  · exact hs v (hsame.symm.trans hv)
  · rw [hu] at hv
    cases hv
  · rw [hu] at hv
    cases hv
  · obtain rfl := Option.some.inj (hu.symm.trans hv)
    rfl
  · obtain rfl := Option.some.inj (hu.symm.trans hv)
    exact Window.putFlag_memWf _ _ _ (Window.putMag_memWf _ _ _ (hs win hwin))
  · obtain rfl := Option.some.inj (hu.symm.trans hv)
    exact hsteps.keeps (fun hstep => hstep.memWf) (hs win hwin)

theorem exec_memWf {i : Instr} {s u : State} (hs : s.memWf = true) (h : exec i s = .next u) : u.memWf = true := by
  obtain ⟨hwin, htree, hheld⟩ := s.memWf_iff.mp hs
  rcases exec_next h with ⟨-, rfl⟩ | ⟨-, c, -, rfl⟩ | hdoes
  · exact hs
  · exact memWf_of_idle rfl hwin fun t => by rw [State.tree_faulted]; exact htree t
  · refine u.memWf_iff.mpr ⟨hdoes.windowWf hwin, hdoes.tree_memWf htree, fun p hp => ?_⟩
    rcases hdoes.held hp with hsame | ⟨-, hwinThen, htree0, htree1, -, -⟩
    · exact hheld p hsame
    · rw [hwinThen, htree0, htree1]
      exact ⟨hwin, htree .incl, htree .zbp⟩

theorem memWf_keptByHost : KeptByHost fun s => s.memWf = true where
  environment _ _ _ _ _ _ _ h := h
  illegal {s} w _ _ h := by
    obtain ⟨hwin, htree, -⟩ := s.memWf_iff.mp h
    exact memWf_of_idle rfl hwin fun t => by rw [State.tree_faulted]; exact htree t
  slow {s} i _ h := by
    obtain ⟨hwin, htree, -⟩ := s.memWf_iff.mp h
    refine (State.memWf_iff _).mpr ⟨hwin, fun t => by rw [State.tree_hold]; exact htree t, fun p hp => ?_⟩
    cases hp
    exact ⟨hwin, htree .incl, htree .zbp⟩
  reset _ := rfl
  rewind {s p} encIn decIn hdrIn hheld h := by
    obtain ⟨-, -, hthen⟩ := s.memWf_iff.mp h
    obtain ⟨hwin, htree0, htree1⟩ := hthen p hheld
    exact memWf_of_idle rfl hwin fun t => by cases t <;> [exact htree0; exact htree1]

/-- Settles O58: every write keeps the form of the memory it writes (`keptByTree_wf`, `WindowStep.memWf`), and nothing else
is put in a memory's place. -/
theorem stepKeepsMemoriesCanonical : Obligations.StepKeepsMemoriesCanonical := fun _ _ hs hstep =>
  memWf_keptByHost.step (fun hs _ => exec_memWf hs) hs hstep

end Sys2Proof.Machine
end


section
/-! PROOFS. The flag-word invariants (R27 (a), (b), (d), R28, R24): what each write of a pass, `SET_SIG` and `MAG_WR` make of
every bit of every flag word, and so the invariants after every step. -/

namespace Sys2Proof.Machine

/-! ## Neighbours of a cell (R26) -/

/-- The cell that bit `i` of the flag word of cell `(wx, wy)` tells of: the eight `SIG` bits, then the four `SGN` bits. -/
def neighbour (i wx wy : Nat) : Nat × Nat :=
  match i with
  | 0 | 8 => (wx, wy - 1)
  | 1 | 11 => (wx + 1, wy)
  | 2 | 10 => (wx - 1, wy)
  | 3 | 9 => (wx, wy + 1)
  | 4 => (wx + 1, wy - 1)
  | 5 => (wx - 1, wy - 1)
  | 6 => (wx + 1, wy + 1)
  | _ => (wx - 1, wy + 1)

/-- What bit `i` says of its neighbour: that it is significant, or that it is significant and negative. -/
def Window.tellsOf (win : Window) (w h i : Nat) (cell : Nat × Nat) : Bool :=
  if i < 8 then win.sigIn w h cell.1 cell.2 else win.negIn w h cell.1 cell.2

/-- R27 (a) and (b), bit by bit. -/
theorem bitsOk_iff (win : Window) (w h wx wy : Nat) :
    win.sigBitsOk w h wx wy ∧ win.sgnBitsOk w h wx wy ↔
      ∀ i < 12, (win.flag wx wy).getLsbD i = win.tellsOf w h i (neighbour i wx wy) := by
  constructor
  · rintro ⟨⟨h0, h1, h2, h3, h4, h5, h6, h7⟩, h8, h9, h10, h11⟩ i hi
    interval_cases i <;> assumption
  · intro h
    exact ⟨⟨h 0 (by decide), h 1 (by decide), h 2 (by decide), h 3 (by decide), h 4 (by decide), h 5 (by decide),
      h 6 (by decide), h 7 (by decide)⟩, h 8 (by decide), h 9 (by decide), h 10 (by decide), h 11 (by decide)⟩

/-- The invariants of a window in every state that has one: R27 (a), (b), (d), R28. -/
structure WindowSound (win : Window) (w h : Nat) : Prop where
  bits : ∀ x y, x < w → y < h → ∀ i < 12,
    (win.coef x y).getLsbD i = win.tellsOf w h i (neighbour i (x + 1) (y + 1))
  refined : ∀ x y, x < w → y < h → isRef (win.coef x y) = true → isSig (win.coef x y) = true
  border : win.borderOk w h

theorem windowSound_iff {win : Window} {w h : Nat} :
    WindowSound win w h ↔ win.symmetric w h ∧ win.borderOk w h := by
  constructor
  · rintro ⟨hbits, href, hborder⟩
    refine ⟨fun x y hx hy => ?_, hborder⟩
    obtain ⟨hsig, hsgn⟩ := (bitsOk_iff win w h (x + 1) (y + 1)).mpr (hbits x y hx hy)
    exact ⟨hsig, hsgn, href x y hx hy⟩
  · rintro ⟨hsym, hborder⟩
    refine ⟨fun x y hx hy => ?_, fun x y hx hy => (hsym x y hx hy).2.2, hborder⟩
    obtain ⟨hsig, hsgn, -⟩ := hsym x y hx hy
    exact (bitsOk_iff win w h (x + 1) (y + 1)).mp ⟨hsig, hsgn⟩

/-! ## A write that tells no neighbour -/

/-- Of two flag words: equal in `SIG`, in the neighbour bits, and in `SGN` where significant. -/
def sameToNeighbours (f f' : FlagWord) : Prop :=
  (∀ i < 12, f'.getLsbD i = f.getLsbD i) ∧ isSig f' = isSig f ∧ (isSig f = true → isNeg f' = isNeg f)

theorem Window.tellsOf_congr {a c : Window} {w h i : Nat} {cell : Nat × Nat}
    (hsig : isSig (c.flag cell.1 cell.2) = isSig (a.flag cell.1 cell.2))
    (hneg : isSig (a.flag cell.1 cell.2) = true → isNeg (c.flag cell.1 cell.2) = isNeg (a.flag cell.1 cell.2)) :
    c.tellsOf w h i cell = a.tellsOf w h i cell := by
  unfold Window.tellsOf Window.negIn Window.sigIn
  rw [hsig]
  cases hs : isSig (a.flag cell.1 cell.2) with
  | true => rw [hneg hs]
  | false => simp

theorem neighbour_lt (i : Nat) {wx wy : Nat} (hwx : wx < 65) : (neighbour i wx wy).1 < 66 := by
  unfold neighbour
  split <;> simp only <;> omega

/-- Such a write to the word of one coefficient keeps the invariants, if `REF` still implies `SIG`. -/
theorem WindowSound.writeOwner {a c : Window} {w h x y : Nat} (hw : w ≤ 64) (ha : WindowSound a w h) (hx : x < w)
    (hy : y < h) (hown : sameToNeighbours (a.coef x y) (c.coef x y))
    (href : isRef (c.coef x y) = true → isSig (c.coef x y) = true)
    (hother : ∀ wx wy, wx < 66 → (wx, wy) ≠ (x + 1, y + 1) → c.flag wx wy = a.flag wx wy) : WindowSound c w h := by
  have hall : ∀ wx wy, wx < 66 → sameToNeighbours (a.flag wx wy) (c.flag wx wy) := by
    intro wx wy hwx
    by_cases hcell : (wx, wy) = (x + 1, y + 1)
    · obtain ⟨rfl, rfl⟩ := Prod.mk.inj hcell
      exact hown
    · rw [hother wx wy hwx hcell]
      exact ⟨fun _ _ => rfl, rfl, fun _ => rfl⟩
  refine ⟨fun i j hi hj n hn => ?_, fun i j hi hj hr => ?_, fun wx wy hwx hwy hout => ?_⟩
  · obtain ⟨-, hsig, hneg⟩ := hall (neighbour n (i + 1) (j + 1)).1 (neighbour n (i + 1) (j + 1)).2
      (neighbour_lt n (show i + 1 < 65 by omega))
    rw [Window.tellsOf_congr hsig hneg, ← ha.bits i j hi hj n hn]
    exact (hall (i + 1) (j + 1) (by omega)).1 n hn
  · by_cases hcell : (i + 1, j + 1) = (x + 1, y + 1)
    · obtain ⟨hix, hjy⟩ := Prod.mk.inj hcell
      obtain rfl : i = x := by omega
      obtain rfl : j = y := by omega
      exact href hr
    · rw [Window.coef, hother _ _ (by omega) hcell] at hr ⊢
      exact ha.refined i j hi hj hr
  · have hne : (wx, wy) ≠ (x + 1, y + 1) := by
      intro hcell
      obtain ⟨rfl, rfl⟩ := Prod.mk.inj hcell
      simp only [inBlock, decide_eq_false_iff_not] at hout
      omega
    rw [hother wx wy (by omega) hne]
    exact ha.border wx wy hwx hwy hout

theorem sameToNeighbours_putMask {m : FlagWord} (f : FlagWord) (v : Bool) (hlow : ∀ i < 12, m.getLsbD i = false)
    (h13 : m.getLsbD 13 = false) (h15 : m.getLsbD 15 = false) : sameToNeighbours f (putMask f m v) := by
  refine ⟨fun i hi => ?_, ?_, fun _ => ?_⟩
  · rw [getLsbD_putMask _ _ _ (by omega), hlow i hi]
    rfl
  · rw [isSig, getLsbD_putMask _ _ _ (by decide), h13]
    rfl
  · rw [isNeg, getLsbD_putMask _ _ _ (by decide), h15]
    rfl

/-- One owner bit of a coefficient written (R7). -/
theorem Window.putBit_cells (win : Window) {x y : Nat} (m : FlagWord) (v : Bool) (hx : x < 64) :
    (win.putBit (x + 1) (y + 1) m v).coef x y = putMask (win.coef x y) m v ∧
      ∀ wx wy, wx < 66 → (wx, wy) ≠ (x + 1, y + 1) → (win.putBit (x + 1) (y + 1) m v).flag wx wy = win.flag wx wy := by
  obtain ⟨hown, -, hother⟩ := win.putBit_onlyFlag x y m v hx
  exact ⟨hown, hother⟩

/-! ## A coefficient made significant (R164) -/

/-- A neighbour told of a significant coefficient: bit `sig` is set, and bit `sgn` if the coefficient is negative. -/
theorem told_bit {f f' m m' : FlagWord} {i sig sgn : Nat} {neg : Bool} {P : Prop} [Decidable P]
    (hf : f' = f ||| (if neg then m' else m)) (hm : ∀ i < 12, m.getLsbD i = decide (i = sig))
    (hm' : ∀ i < 12, m'.getLsbD i = decide (i = sig ∨ i = sgn)) (hP : P ↔ i = sig ∨ i = sgn) (hsig : sig < 8)
    (hsgn : 8 ≤ sgn) (hi : i < 12) :
    f'.getLsbD i = (f.getLsbD i || (decide P && (decide (i < 8) || neg))) := by
  rw [hf, BitVec.getLsbD_or, decide_eq_decide.mpr hP]
  congr 1
  cases neg with
  | true => rw [if_pos rfl, hm' i hi, Bool.or_true, Bool.and_true]
  | false =>
    rw [if_neg (by decide), hm i hi, Bool.or_false, ← Bool.decide_and]
    exact decide_eq_decide.mpr (by omega)

/-- The cell whose bit `i` tells of coefficient `(x, y)`. -/
def toldAt (i x y : Nat) : Nat × Nat :=
  match i with
  | 0 | 8 => (x + 1, y + 2)
  | 1 | 11 => (x, y + 1)
  | 2 | 10 => (x + 2, y + 1)
  | 3 | 9 => (x + 1, y)
  | 4 => (x, y + 2)
  | 5 => (x + 2, y + 2)
  | 6 => (x, y)
  | _ => (x + 2, y)

theorem neighbour_eq_iff {i wx wy x y : Nat} (hwx : 1 ≤ wx) (hwy : 1 ≤ wy) :
    neighbour i wx wy = (x + 1, y + 1) ↔ (wx, wy) = toldAt i x y := by
  unfold neighbour toldAt
  split <;> simp only [Prod.mk.injEq] <;> omega

theorem toldAt_add (i x y : Nat) : toldAt i x y = (x + (toldAt i 0 0).1, y + (toldAt i 0 0).2) := by
  unfold toldAt
  split <;> simp

/-- The cells told of a coefficient are the eight around it. -/
theorem toldAt_near {i wx wy x y : Nat} (h : (wx, wy) = toldAt i x y) :
    x ≤ wx ∧ wx ≤ x + 2 ∧ y ≤ wy ∧ wy ≤ y + 2 ∧ (wx, wy) ≠ (x + 1, y + 1) := by
  unfold toldAt at h
  simp only [ne_eq, Prod.mk.injEq]
  split at h <;> obtain ⟨rfl, rfl⟩ := Prod.mk.inj h <;> omega

/-- The neighbour at an offset from `(x, y)`, told by its two bits. -/
theorem told_neighbour {a c : Window} {x y wx wy i dx dy sig sgn : Nat} {m m' : FlagWord} {neg : Bool}
    (hcell : wx = x + dx ∧ wy = y + dy)
    (hflag : c.flag (x + dx) (y + dy) = a.flag (x + dx) (y + dy) ||| (if neg then m' else m))
    (htold : ∀ i < 12, (dx, dy) = toldAt i 0 0 ↔ i = sig ∨ i = sgn)
    (hm : ∀ i < 12, m.getLsbD i = decide (i = sig)) (hm' : ∀ i < 12, m'.getLsbD i = decide (i = sig ∨ i = sgn))
    (hsig : sig < 8) (hsgn : 8 ≤ sgn) (hwx : 1 ≤ wx) (hwy : 1 ≤ wy) (hi : i < 12) :
    (c.flag wx wy).getLsbD i =
      ((a.flag wx wy).getLsbD i || (decide (neighbour i wx wy = (x + 1, y + 1)) && (decide (i < 8) || neg))) := by
  obtain ⟨rfl, rfl⟩ := hcell
  refine told_bit hflag hm hm' ?_ hsig hsgn hi
  rw [neighbour_eq_iff hwx hwy, ← htold i hi, toldAt_add]
  simp only [Prod.ext_iff, Nat.add_left_cancel_iff]

/-- The tracker's own word keeps its neighbour bits. -/
theorem Window.setSig_own_bits (win : Window) {x i : Nat} (y : Nat) (neg : Bool) (hx : x < 64) (hi : i < 12) :
    ((win.setSig x y neg).coef x y).getLsbD i = (win.coef x y).getLsbD i := by
  have hsig : ∀ i < 12, flagSig.getLsbD i = false := by decide
  have hsgn : ∀ i < 12, flagSgn.getLsbD i = false := by decide
  rw [win.coef_setSig y neg hx, getLsbD_putMask _ _ _ (by omega), hsgn i hi, BitVec.getLsbD_or, hsig i hi, Bool.or_false]
  rfl

/-- The tracker tells each neighbour of the coefficient, and no other cell. -/
theorem Window.setSig_bits (win : Window) {x y wx wy i : Nat} (neg : Bool) (hx : x < 64) (hwx : 1 ≤ wx) (hwx' : wx < 66)
    (hwy : 1 ≤ wy) (hi : i < 12) :
    ((win.setSig x y neg).flag wx wy).getLsbD i =
      ((win.flag wx wy).getLsbD i || (decide (neighbour i wx wy = (x + 1, y + 1)) && (decide (i < 8) || neg))) := by
  have hnbr := neighbour_eq_iff (i := i) (x := x) (y := y) hwx hwy
  by_cases hin : x ≤ wx ∧ wx ≤ x + 2 ∧ y ≤ wy ∧ wy ≤ y + 2
  · have hcell : (wx = x + 1 ∧ wy = y + 1) ∨ (wx = x + 2 ∧ wy = y + 1) ∨ (wx = x + 0 ∧ wy = y + 1) ∨
        (wx = x + 1 ∧ wy = y + 2) ∨ (wx = x + 1 ∧ wy = y + 0) ∨ (wx = x + 2 ∧ wy = y + 2) ∨
        (wx = x + 0 ∧ wy = y + 2) ∨ (wx = x + 2 ∧ wy = y + 0) ∨ (wx = x + 0 ∧ wy = y + 0) := by omega
    obtain ⟨-, east, west, south, north, southEast, southWest, northEast, northWest, -, -⟩ :=
      win.setSig_marked x y neg hx
    rcases hcell with ⟨rfl, rfl⟩ | hc | hc | hc | hc | hc | hc | hc | hc
    · have hself : neighbour i (x + 1) (y + 1) ≠ (x + 1, y + 1) := fun h => (toldAt_near (hnbr.mp h)).2.2.2.2 rfl
      rw [decide_eq_false hself, Bool.false_and, Bool.or_false]
      exact win.setSig_own_bits y neg hx hi
    · exact told_neighbour (sig := 2) (sgn := 10) hc east (by decide) (by decide) (by decide) (by decide) (by decide)
        hwx hwy hi
    · exact told_neighbour (sig := 1) (sgn := 11) hc west (by decide) (by decide) (by decide) (by decide) (by decide)
        hwx hwy hi
    · exact told_neighbour (sig := 0) (sgn := 8) hc south (by decide) (by decide) (by decide) (by decide) (by decide)
        hwx hwy hi
    · exact told_neighbour (sig := 3) (sgn := 9) hc north (by decide) (by decide) (by decide) (by decide) (by decide)
        hwx hwy hi
    · exact told_neighbour (sig := 5) (sgn := 12) hc (southEast.trans (by rw [ite_self])) (by decide) (by decide)
        (by decide) (by decide) (by decide) hwx hwy hi
    · exact told_neighbour (sig := 4) (sgn := 12) hc (southWest.trans (by rw [ite_self]; rfl)) (by decide) (by decide)
        (by decide) (by decide) (by decide) hwx hwy hi
    · exact told_neighbour (sig := 7) (sgn := 12) hc (northEast.trans (by rw [ite_self]; rfl)) (by decide) (by decide)
        (by decide) (by decide) (by decide) hwx hwy hi
    · exact told_neighbour (sig := 6) (sgn := 12) hc (northWest.trans (by rw [ite_self]; rfl)) (by decide) (by decide)
        (by decide) (by decide) (by decide) hwx hwy hi
  · obtain ⟨-, -, -, -, -, -, -, -, -, -, frame⟩ := win.setSig_marked x y neg hx
    have hfar : neighbour i wx wy ≠ (x + 1, y + 1) := fun h => by
      obtain ⟨h1, h2, h3, h4, -⟩ := toldAt_near (hnbr.mp h)
      exact hin ⟨h1, h2, h3, h4⟩
    rw [frame wx wy hwx' hin, decide_eq_false hfar, Bool.false_and, Bool.or_false]

/-- The tracker's effect on the owner bits: `SIG` and `SGN` of its coefficient, no other (R164). -/
theorem Window.setSig_owner (win : Window) {x : Nat} (y : Nat) (neg : Bool) (hx : x < 64) :
    (isSig ((win.setSig x y neg).coef x y) = true ∧ isNeg ((win.setSig x y neg).coef x y) = neg) ∧
      ∀ wx wy, wx < 66 → (wx, wy) ≠ (x + 1, y + 1) → ∀ i, 12 ≤ i → i < 16 →
        ((win.setSig x y neg).flag wx wy).getLsbD i = (win.flag wx wy).getLsbD i := by
  refine ⟨?_, fun wx wy hwx hne i hi hi' => ?_⟩
  · rw [win.coef_setSig y neg hx, isNeg_putMask_sgn]
    refine ⟨isSig_putMask (by decide) neg ?_, rfl⟩
    rw [isSig, BitVec.getLsbD_or]
    exact Bool.or_true _
  · obtain ⟨n, hn, hset⟩ := Window.flag_setSig_other neg hx hwx hne
    rw [hset, BitVec.getLsbD_or, getLsbD_of_neighbourMask hn hi hi', Bool.or_false]

/-- What is told of any cell after the tracker ran: the old truth, and that its coefficient is significant, with its sign. -/
theorem Window.tellsOf_setSig {win : Window} {w h x y i : Nat} {cell : Nat × Nat} (neg : Bool) (hw : w ≤ 64) (hx : x < w)
    (hy : y < h) (hcell : cell.1 < 66) (hsig : isSig (win.coef x y) = false) :
    (win.setSig x y neg).tellsOf w h i cell =
      (win.tellsOf w h i cell || (decide (cell = (x + 1, y + 1)) && (decide (i < 8) || neg))) := by
  have hx64 : x < 64 := Nat.lt_of_lt_of_le hx hw
  obtain ⟨⟨hownSig, hownNeg⟩, hother⟩ := win.setSig_owner y neg hx64
  by_cases hown : cell = (x + 1, y + 1)
  · subst hown
    have hbefore := (sigIn_coef win hx hy).trans hsig
    have hafter := (sigIn_coef (win.setSig x y neg) hx hy).trans hownSig
    have hneg : isNeg ((win.setSig x y neg).flag (x + 1) (y + 1)) = neg := hownNeg
    unfold Window.tellsOf Window.negIn
    rw [hbefore, hafter, hneg]
    by_cases hi : i < 8 <;> simp [hi]
  · rw [decide_eq_false hown, Bool.false_and, Bool.or_false]
    exact Window.tellsOf_congr (hother _ _ hcell hown 13 (by decide) (by decide))
      fun _ => hother _ _ hcell hown 15 (by decide) (by decide)

/-- The tracker keeps the invariants: each neighbour is told what is now true (R164, R27). -/
theorem WindowSound.setSig {a : Window} {w h x y : Nat} (ha : WindowSound a w h) (neg : Bool) (hw : w ≤ 64) (hx : x < w)
    (hy : y < h) (hsig : isSig (a.coef x y) = false) : WindowSound (a.setSig x y neg) w h := by
  have hx64 : x < 64 := Nat.lt_of_lt_of_le hx hw
  obtain ⟨⟨hownSig, -⟩, hother⟩ := a.setSig_owner y neg hx64
  refine ⟨fun i j hi hj n hn => ?_, fun i j hi hj hr => ?_, fun wx wy hwx hwy hout => ?_⟩
  · rw [Window.tellsOf_setSig neg hw hx hy (neighbour_lt n (by omega)) hsig, ← ha.bits i j hi hj n hn]
    exact a.setSig_bits neg hx64 (Nat.succ_pos i) (by omega) (Nat.succ_pos j) hn
  · by_cases hcell : (i + 1, j + 1) = (x + 1, y + 1)
    · obtain ⟨hix, hjy⟩ := Prod.mk.inj hcell
      obtain rfl : i = x := by omega
      obtain rfl : j = y := by omega
      exact hownSig
    · have hbits := hother (i + 1) (j + 1) (by omega) hcell
      rw [isRef, Window.coef, hbits 14 (by decide) (by decide)] at hr
      rw [isSig, Window.coef, hbits 13 (by decide) (by decide)]
      exact ha.refined i j hi hj hr
  · have hne : (wx, wy) ≠ (x + 1, y + 1) := by
      intro hcell
      obtain ⟨rfl, rfl⟩ := Prod.mk.inj hcell
      simp only [inBlock, decide_eq_false_iff_not] at hout
      omega
    obtain ⟨n, hn, hset⟩ := Window.flag_setSig_other neg hx64 (show wx < 66 by omega) hne
    rw [hset, BitVec.and_or_distrib_right, hn, BitVec.or_zero]
    exact ha.border wx wy hwx hwy hout

/-- Every write of a pass keeps the invariants. -/
theorem WindowStep.sound {g : PassCtx} {a b : Window} (h : WindowStep g a b) (hw : g.w ≤ 64)
    (ha : WindowSound a g.w g.h) : WindowSound b g.w g.h := by
  cases h with
  | mark neg hx hy hsig => exact ha.setSig neg hw hx hy hsig
  | @vis x y v hx hy =>
    obtain ⟨hown, hother⟩ := a.putBit_cells (y := y) flagVis v (Nat.lt_of_lt_of_le hx hw)
    have hsame := sameToNeighbours_putMask (m := flagVis) (a.coef x y) v (by decide) (by decide) (by decide)
    rw [← hown] at hsame
    refine ha.writeOwner hw hx hy hsame (fun hr => ?_) hother
    rw [hown, isRef, getLsbD_putMask _ _ _ (by decide)] at hr
    rw [hsame.2.1]
    exact ha.refined x y hx hy hr
  | @ref x y hx hy hsig =>
    obtain ⟨hown, hother⟩ := a.putBit_cells (y := y) flagRef true (Nat.lt_of_lt_of_le hx hw)
    have hsame := sameToNeighbours_putMask (m := flagRef) (a.coef x y) true (by decide) (by decide) (by decide)
    rw [← hown] at hsame
    exact ha.writeOwner hw hx hy hsame (fun _ => hsame.2.1.trans hsig) hother
  | store => exact ⟨ha.bits, ha.refined, ha.border⟩

/-! ## A quiet window (R24) -/

/-- Bits of a word that are 0 but for the sign. -/
theorem getLsbD_of_quiet {f : FlagWord} (h : f &&& 0x7FFF#16 = 0#16) {i : Nat} (hi : i < 15) : f.getLsbD i = false := by
  have hbit := congrArg (BitVec.getLsbD · i) h
  simpa [getLsbD_idleMask (Nat.lt_succ_of_lt hi), hi, -BitVec.getLsbD_eq_getElem] using hbit

/-- Where nothing is significant and no neighbour is told, the invariants hold. -/
theorem Window.quiet.sound {win : Window} {w h : Nat} (hq : win.quiet w h) (hborder : win.borderOk w h) :
    WindowSound win w h := by
  have hidle : ∀ i cell, win.tellsOf w h i cell = false := by
    intro i cell
    have hsig : win.sigIn w h cell.1 cell.2 = false := by
      cases hin : inBlock w h cell.1 cell.2 with
      | false => rw [Window.sigIn, hin, Bool.false_and]
      | true =>
        simp only [inBlock, decide_eq_true_eq] at hin
        rw [Window.sigIn, isSig, getLsbD_of_quiet (hq _ _ (by omega) (by omega)) (by decide), Bool.and_false]
    unfold Window.tellsOf Window.negIn
    rw [hsig, Bool.false_and, ite_self]
  refine ⟨fun x y hx hy i hi => ?_, fun x y hx hy hr => ?_, hborder⟩
  · rw [hidle]
    exact getLsbD_of_quiet (hq _ _ (by omega) (by omega)) (by omega)
  · rw [isRef, Window.coef, getLsbD_of_quiet (hq _ _ (by omega) (by omega)) (by decide)] at hr
    cases hr

theorem cleared_quiet (w h : Nat) : Window.cleared.quiet w h := fun wx wy _ _ => by
  rw [Window.flag_cleared]
  decide

theorem cleared_border (w h : Nat) : Window.cleared.borderOk w h := fun wx wy _ _ _ => by
  rw [Window.flag_cleared]
  decide

/-- `MAG_WR` writes the sign of one coefficient and nothing else into the flag words (R166). -/
theorem magWr_quiet {win : Window} {w h x y : Nat} (mag : Magnitude) (neg : Bool) (hw : w ≤ 64) (hx : x < w) (hy : y < h)
    (hq : win.quiet w h) (hborder : win.borderOk w h) :
    ((win.putMag x y mag).putBit (x + 1) (y + 1) flagSgn neg).quiet w h ∧
      ((win.putMag x y mag).putBit (x + 1) (y + 1) flagSgn neg).borderOk w h := by
  obtain ⟨hown, hother⟩ := (win.putMag x y mag).putBit_cells (y := y) flagSgn neg (Nat.lt_of_lt_of_le hx hw)
  refine ⟨fun wx wy hwx hwy => ?_, fun wx wy hwx hwy hout => ?_⟩
  · by_cases hcell : (wx, wy) = (x + 1, y + 1)
    · obtain ⟨rfl, rfl⟩ := Prod.mk.inj hcell
      rw [Window.coef] at hown
      rw [hown, putMask_sgn_and_idle]
      exact hq _ _ hwx hwy
    · rw [hother wx wy (by omega) hcell]
      exact hq _ _ hwx hwy
  · have hne : (wx, wy) ≠ (x + 1, y + 1) := by
      intro hcell
      obtain ⟨rfl, rfl⟩ := Prod.mk.inj hcell
      simp only [inBlock, decide_eq_false_iff_not] at hout
      omega
    rw [hother wx wy (by omega) hne]
    exact hborder wx wy hwx hwy hout

/-! ## Every step -/

/-- The invariants of one life-cycle state, bit by bit. -/
theorem flagsOk_iff {st : CbState} {w h : Nat} {win : Option Window} :
    Machine.flagsOk st w h win ↔ ∀ v, win = some v → WindowSound v w h ∧ (st = .ready → v.quiet w h) := by
  unfold Machine.flagsOk
  simp only [windowSound_iff, and_assoc]

/-- Every command keeps the flag-word invariants of the window. -/
theorem Does.flagsOk {s u : State} {i : Instr} (h : Does s i u) (hs : s.LifeCycle)
    (hok : Machine.flagsOk s.cbState s.cbW s.cbH s.window) : Machine.flagsOk u.cbState u.cbW u.cbH u.window := by
  rcases h.window with ⟨hwin, hst, hw, hh⟩ | ⟨-, hu⟩ | ⟨-, hu⟩ | ⟨-, hu, -⟩ |
    ⟨⟨hw, hh⟩, win, hwin, ⟨hready, hready', x, y, mag, neg, hx, hy, hu⟩ | ⟨-, hst, m, win', hsteps, hu⟩⟩
  · rw [hwin, hst, hw, hh]
    exact hok
  all_goals
    refine flagsOk_iff.mpr fun v hv => ?_
    rw [hu] at hv
    cases hv
  · exact ⟨(cleared_quiet _ _).sound (cleared_border _ _), fun _ => cleared_quiet _ _⟩
  · obtain ⟨hsound, hquiet⟩ := flagsOk_iff.mp hok win hwin
    obtain ⟨hq, hborder⟩ := magWr_quiet mag neg hs.width_le hx hy (hquiet hready) hsound.border
    rw [hw, hh]
    exact ⟨hq.sound hborder, fun _ => hq⟩
  · obtain ⟨hsound, -⟩ := flagsOk_iff.mp hok win hwin
    rw [hw, hh]
    refine ⟨hsteps.keeps (P := fun b => WindowSound b s.cbW s.cbH) (fun hstep => hstep.sound hs.width_le) hsound, fun hr => ?_⟩
    rw [hr] at hst
    exact absurd hst (by decide)

/-- The life cycle and the flag-word invariants. -/
def State.FlagsSound (s : State) : Prop := s.LifeCycle ∧ s.flagsOk

/-- The flag-word invariants where no command is held. -/
theorem flagsOk_of_idle {s : State} (hidle : s.held = none) (h : Machine.flagsOk s.cbState s.cbW s.cbH s.window) :
    s.flagsOk := ⟨h, fun p hp => by rw [hidle] at hp; cases hp⟩

theorem flagsSound_keptByHost : KeptByHost State.FlagsSound where
  environment inputs rdata cmdLo ovr encIn decIn hdrIn h :=
    ⟨h.1.environment inputs rdata cmdLo ovr encIn decIn hdrIn, h.2⟩
  illegal w _ _ h := ⟨h.1.faulted .illegal w, flagsOk_of_idle rfl h.2.1⟩
  slow i _ h := ⟨h.1.slow i, h.2.1, fun p hp => by cases hp; exact h.2.1⟩
  reset h := ⟨blockReset_lifeCycle h.1.cfgOk, flagsOk_of_idle rfl fun v hv => by cases hv⟩
  rewind encIn decIn hdrIn hheld h := ⟨h.1.rewind hheld encIn decIn hdrIn, flagsOk_of_idle rfl (h.2.2 _ hheld)⟩

theorem exec_flagsSound {i : Instr} {s u : State} (hs : s.FlagsSound) (hbusy : s.busy = false) (h : exec i s = .next u) :
    u.FlagsSound := by
  obtain ⟨hlife, hok⟩ := hs
  refine ⟨exec_lifeCycle hlife hbusy h, ?_⟩
  rcases exec_next h with ⟨-, rfl⟩ | ⟨-, c, -, rfl⟩ | hdoes
  · exact hok
  · exact flagsOk_of_idle rfl hok.1
  · refine ⟨hdoes.flagsOk hlife hok.1, fun p hp => ?_⟩
    obtain ⟨hst, hwin, -, -, hw, hh⟩ := hdoes.held_of_idle (hlife.idle hbusy) hp
    rw [hst, hwin, hw, hh]
    exact hok.1

/-- Settles O59: no event breaks the flag-word invariants, and every command keeps them: the tracker tells the neighbours
(`WindowSound.setSig`), the other writes of a pass tell nobody (`WindowSound.writeOwner`), `MAG_WR` keeps the window quiet. -/
theorem stepKeepsFlagSymmetry : Obligations.StepKeepsFlagSymmetry := fun _ _ hlife hs hstep =>
  (flagsSound_keptByHost.step exec_flagsSound ⟨hlife, hs⟩ hstep).2

end Sys2Proof.Machine
end


section
/-! PROOFS. The commands that run passes, from a state that accepts them (R191 to R196, R73): how they may end, told from the
description of the run (`passesRun`), and the statements about passes and blocks that go to their end, are refused a bit, or
are left without an answer. -/

namespace Sys2Proof.Machine

/-! ## The scan (R181) -/

/-- Settles O40: stripes top to bottom, in each the columns west to east, in each the rows north to south. -/
theorem scanVisitsEachCoefficientOnce : Obligations.ScanVisitsEachCoefficientOnce := by
  intro w h
  constructor
  · intro y0 x y
    rw [mem_scan, mem_columns, mem_rowsOf]
    constructor
    · rintro ⟨⟨hx, i, -, rfl⟩, hlow, hh, hhigh⟩
      exact ⟨hx, hh, by omega⟩
    · rintro ⟨hx, hh, rfl⟩
      exact ⟨⟨hx, y / 4, by omega, rfl⟩, by omega, hh, by omega⟩
  · have hstripes : (stripes h).Pairwise (· < ·) :=
      List.pairwise_map.mpr (List.pairwise_lt_range.imp fun hlt => by omega)
    have hcolumns : (columns w h).Pairwise fun a b => a.1 < b.1 ∨ (a.1 = b.1 ∧ a.2 < b.2) := by
      refine List.pairwise_flatMap.mpr ⟨fun y0 _ => ?_, hstripes.imp fun {a b} hlt c hc d hd => ?_⟩
      · exact List.pairwise_map.mpr (List.pairwise_lt_range.imp fun hlt => .inr ⟨rfl, hlt⟩)
      · obtain ⟨i, -, rfl⟩ := List.mem_map.mp hc
        obtain ⟨j, -, rfl⟩ := List.mem_map.mp hd
        exact .inl hlt
    refine List.pairwise_flatMap.mpr ⟨fun col _ => ?_, hcolumns.imp fun {a b} hlt c hc d hd => ?_⟩
    · rw [rowsOf, List.map_map]
      exact List.pairwise_map.mpr (List.pairwise_lt_range.imp fun hlt => .inr ⟨rfl, .inr ⟨rfl, Nat.add_lt_add_left hlt _⟩⟩)
    · obtain ⟨i, -, rfl⟩ := List.mem_map.mp hc
      obtain ⟨j, -, rfl⟩ := List.mem_map.mp hd
      exact hlt.imp id fun ⟨hy0, hx⟩ => ⟨hy0, .inl hx⟩

/-! ## Ports that answer (R72) -/

theorem Answers.neverFull_iff {q : Answers EncAnswer} : q.neverFull = true ↔ (∀ a ∈ q.pending, a = .ok) ∧ q.rest = some .ok := by
  simp [Answers.neverFull]

/-- What is left of a port that gave some answers was there before. -/
theorem Answers.gives.mem {α : Type} {q r : Answers α} {l : List α} (h : q.gives l r) {a : α} (ha : a ∈ r.pending) :
    a ∈ q.pending := by
  obtain ⟨-, hp | ⟨hr, -⟩⟩ := h
  · rw [hp]
    exact List.mem_append_right _ ha
  · rw [hr] at ha
    cases ha

theorem Answers.gives.neverFull {q r : Answers EncAnswer} {l : List EncAnswer} (h : q.gives l r)
    (hq : q.neverFull = true) : r.neverFull = true := by
  obtain ⟨hpending, hrest⟩ := Answers.neverFull_iff.mp hq
  exact Answers.neverFull_iff.mpr ⟨fun a ha => hpending a (h.mem ha), h.rest_eq.trans hrest⟩

/-- A port without `full` among its answers does not answer `full`. -/
theorem Answers.pop_ne_full {q r : Answers EncAnswer} (hpending : ∀ a ∈ q.pending, a = .ok) (hrest : q.rest ≠ some .full) :
    q.pop ≠ some (.full, r) := by
  obtain ⟨pending, rest⟩ := q
  intro h
  unfold Answers.pop at h
  cases pending with
  | cons a more =>
    obtain rfl := hpending a (by simp)
    cases h
  | nil =>
    cases rest with
    | none => cases h
    | some a =>
      cases h
      exact hrest rfl

/-- A run over a coder that takes every bit goes to its end. -/
theorem Follows.ends_enc {R : Visit} {c : Coding} {r : Res Coding Unit} (h : Follows .enc R c r)
    (hfull : c.encIn.neverFull = true) : ∃ c' ev, r = .done () c' ∧ Ran .enc c c' ev ∧ R c.win ev none c'.win := by
  cases r with
  | done _ c' =>
    obtain ⟨ev, hran, hr⟩ := h
    exact ⟨c', ev, rfl, hran, hr⟩
  | full cur c' =>
    obtain ⟨ev, spot, c1, hran, -, hpop, -⟩ := h
    obtain ⟨q, hpop', -⟩ := Answers.pop_neverFull ((hran.enc rfl).1.neverFull hfull)
    rw [hpop'] at hpop
    cases hpop
  | hold cur c' =>
    obtain ⟨ev, spot, hran, hpop, -⟩ := h
    obtain ⟨q, hpop', -⟩ := Answers.pop_neverFull ((hran.enc rfl).1.neverFull hfull)
    rw [hpop'] at hpop
    cases hpop rfl

/-- A run over a coder that answers every call goes to its end. -/
theorem Follows.ends_dec {R : Visit} {c : Coding} {r : Res Coding Unit} (h : Follows .dec R c r)
    (hendless : c.decIn.endless = true) : ∃ c' ev, r = .done () c' ∧ Ran .dec c c' ev ∧ R c.win ev none c'.win := by
  cases r with
  | done _ c' =>
    obtain ⟨ev, hran, hr⟩ := h
    exact ⟨c', ev, rfl, hran, hr⟩
  | full cur c' =>
    obtain ⟨ev, spot, c1, -, hm, -⟩ := h
    cases hm
  | hold cur c' =>
    obtain ⟨ev, spot, hran, -, hpop, -⟩ := h
    have hrest := (hran.dec rfl).1.rest_eq
    rw [Answers.eq_of_pop_eq_none (hpop rfl)] at hrest
    rw [Answers.endless, ← hrest] at hendless
    cases hendless

/-! ## One pass -/

theorem encBits_length_of_isCall {ev : List CodEvent} (h : ∀ e ∈ ev, e.isCall .enc) : (encBits ev).length = ev.length := by
  induction ev with
  | nil => rfl
  | cons e rest ih =>
    obtain ⟨⟨ctx, b, -, rfl⟩, hrest⟩ := List.forall_mem_cons.mp h
    exact congrArg Nat.succ (ih hrest)

/-- A pass that goes to its end: coder calls, then its `PassEnd`. -/
theorem wholePass_done {g : PassCtx} {k : PassKind} {p : Nat} {a c : Window} {ev : List CodEvent}
    (h : wholePass g k p a ev none c) :
    ∃ calls, ev = calls ++ [.passEnd k p] ∧ (∀ e ∈ calls, e.isCall g.mode) ∧ WindowSteps g a c := by
  obtain ⟨hne, -⟩ | ⟨b, e1, e2, ⟨hsteps, hcalls, -⟩, ⟨rfl, -, rfl⟩, rfl⟩ := h
  · exact absurd rfl hne
  · exact ⟨e1, rfl, hcalls, hsteps⟩

/-- The state a completed run of passes leaves, seen from the encoder's side: the decoder's port is untouched. -/
theorem State.withCoding_enc {s : State} {win : Window} {first ev : List CodEvent} {c : Coding}
    (h : Ran .enc (s.codingAfter win first) c ev) :
    s.withCoding c = { s with
      cbState := .active, window := some c.win, cod := s.cod ++ first ++ ev, encIn := c.encIn } := by
  rw [State.withCoding, h.cod, (h.enc rfl).2]
  rfl

theorem State.withCoding_dec {s : State} {win : Window} {first ev : List CodEvent} {c : Coding}
    (h : Ran .dec (s.codingAfter win first) c ev) :
    s.withCoding c = { s with
      cbState := .active, window := some c.win, cod := s.cod ++ first ++ ev, decIn := c.decIn } := by
  rw [State.withCoding, h.cod, (h.dec rfl).2]
  rfl

/-- Settles O41: a pass over such a port goes to its end (`Follows.ends_enc`), as `wholePass` and `passVisit` describe it. -/
theorem encPassCompletes : Obligations.EncPassCompletes := by
  intro k p s win herr hacc hwin hp hfull
  obtain ⟨c', ev, hrun, hran, hwhole, hvisit⟩ :=
    (codingPass_passRun (s.passCtx .enc) k p (s.codingAfter win [])).ends_enc hfull
  obtain ⟨calls, rfl, hcalls, hsteps⟩ := wholePass_done hwhole
  refine ⟨c'.win, calls, c'.encIn, ?_, hsteps.mags_enc rfl, fun e he => ?_, ?_, hvisit⟩
  · rw [exec_t1EncPass k herr hacc hwin hp, ← s.codingAfter_nil, hrun]
    show Host.Outcome.next (s.withCoding c') = _
    rw [State.withCoding_enc hran, List.append_nil, List.append_assoc]
  · obtain ⟨ctx, b, hctx, rfl⟩ := hcalls e he
    exact ⟨ctx, b, rfl, hctx⟩
  · have hgives := (hran.enc rfl).1
    rw [encBits_append, List.length_append, encBits_length_of_isCall hcalls] at hgives
    exact hgives

/-- Settles O42: likewise with `Follows.ends_dec`; no decode meets `full`. -/
theorem decPassCompletes : Obligations.DecPassCompletes := by
  intro k p s win herr hacc hwin hp hendless
  obtain ⟨c', ev, hrun, hran, hwhole, hvisit⟩ :=
    (codingPass_passRun (s.passCtx .dec) k p (s.codingAfter win [])).ends_dec hendless
  obtain ⟨calls, rfl, hcalls, hsteps⟩ := wholePass_done hwhole
  refine ⟨c'.win, calls, c'.decIn, ?_, fun e he => ?_, ?_, hvisit⟩
  · rw [exec_t1DecPass k herr hacc hwin hp, ← s.codingAfter_nil, hrun]
    show Host.Outcome.next (s.withCoding c') = _
    rw [State.withCoding_dec hran, List.append_nil, List.append_assoc]
  · obtain ⟨ctx, b, hctx, rfl⟩ := hcalls e he
    exact ⟨ctx, b, rfl, hctx⟩
  · have hgives : s.decIn.gives _ c'.decIn := (hran.dec rfl).1
    rw [decBits_append] at hgives
    simpa [decBits] using hgives

/-! ## A block -/

theorem append_reset (l ev : List CodEvent) : l ++ [.reset] ++ ev = l ++ .reset :: ev := by
  rw [List.append_assoc]
  rfl

/-- Settles O43: the passes of the block (`passesRun`) from the `Reset` on, to their end. -/
theorem encBlockCompletes : Obligations.EncBlockCompletes := by
  intro s win herr hready hwin hfull
  have hplanes := planes_planesOf win s.cbW s.cbH
  have hle := planesOf_le win s.cbW s.cbH
  have hstart : s.startsPasses win .t1EncBlock .enc (blockPasses (planesOf win s.cbW s.cbH)) [.reset] :=
    .inr ⟨_, hready, hle, rfl, rfl, .inl ⟨rfl, rfl, hplanes⟩⟩
  obtain ⟨c', ev, hrun, hran, ⟨hsteps, hends, -⟩, hvisit⟩ := (codingPasses_follows (s.passCtx .enc)
    (blockPasses (planesOf win s.cbW s.cbH)) (s.codingAfter win [.reset])).ends_enc hfull
  refine ⟨_, c'.win, ev, c'.encIn, ?_, hle, hplanes, hends rfl, hsteps.mags_enc rfl, (hran.enc rfl).1, hvisit⟩
  rw [exec_startsPasses herr hwin hstart, hrun]
  show Host.Outcome.next ((s.withCoding c').blockResults (planesOf win s.cbW s.cbH)) = _
  rw [State.withCoding_enc hran, append_reset]
  rfl

/-- Settles O44: likewise on the answers of the decoder's port. -/
theorem decBlockCompletes : Obligations.DecBlockCompletes := by
  intro nbp s win herr hready hwin hn hendless
  have hstart : s.startsPasses win (.t1DecBlock nbp) .dec (blockPasses nbp) [.reset] :=
    .inr ⟨nbp, hready, hn, rfl, rfl, .inr ⟨rfl, rfl⟩⟩
  obtain ⟨c', ev, hrun, hran, ⟨-, hends, -⟩, hvisit⟩ := (codingPasses_follows (s.passCtx .dec)
    (blockPasses nbp) (s.codingAfter win [.reset])).ends_dec hendless
  refine ⟨c'.win, ev, c'.decIn, ?_, hends rfl, (hran.dec rfl).1, hvisit⟩
  rw [exec_startsPasses herr hwin hstart, hrun]
  show Host.Outcome.next ((s.withCoding c').blockResults nbp) = _
  rw [State.withCoding_dec hran, append_reset]
  rfl

/-! ## `CAPACITY` (R196, R212) -/

/-- The parts of one pass as parts of a list of one. -/
theorem passesVisit_singleton {g : PassCtx} {k : PassKind} {p : Nat} {a c : Window} {ev : List CodEvent}
    {stop : Option Spot} : passesVisit g [(k, p)] a ev stop c ↔ passVisit g k p a ev stop c := by
  constructor
  · rintro (⟨-, h⟩ | ⟨b, e1, e2, h, ⟨rfl, rfl, rfl⟩, rfl⟩)
    · exact h
    · rwa [List.append_nil]
  · intro h
    cases stop with
    | none => exact .inr ⟨c, ev, [], h, ⟨rfl, rfl, rfl⟩, (List.append_nil ev).symm⟩
    | some spot => exact .inl ⟨nofun, h⟩

theorem mem_blockPasses {nbp p : Nat} {k : PassKind} (h : (k, p) ∈ blockPasses nbp) : p < nbp := by
  cases nbp with
  | zero => cases h
  | succ n =>
    simp only [blockPasses, List.mem_cons, List.mem_flatMap, List.mem_reverse, List.mem_range, Prod.mk.injEq] at h
    rcases h with ⟨-, rfl⟩ | ⟨q, hq, hmem⟩
    · exact Nat.lt_succ_self _
    · simp only [List.not_mem_nil, or_false] at hmem
      rcases hmem with ⟨-, rfl⟩ | ⟨-, rfl⟩ | ⟨-, rfl⟩ <;> exact Nat.lt_succ_of_lt hq

/-- No pass of a block comes twice (R193). -/
theorem blockPasses_nodup (nbp : Nat) : (blockPasses nbp).Nodup := by
  cases nbp with
  | zero => exact List.nodup_nil
  | succ n =>
    refine List.nodup_cons.mpr ⟨fun hmem => ?_, List.nodup_flatMap.mpr ⟨fun q _ => by simp, ?_⟩⟩
    · obtain ⟨q, hq, hq'⟩ := List.mem_flatMap.mp hmem
      have hlt : q < n := by simpa using hq
      have hnq : n = q := by simpa using hq'
      omega
    · refine (List.nodup_reverse.mpr List.nodup_range).imp fun {q r} hne kp hq hr => ?_
      simp only [List.mem_cons, List.not_mem_nil, or_false] at hq hr
      have h1 : kp.2 = q := by rcases hq with rfl | rfl | rfl <;> rfl
      have h2 : kp.2 = r := by rcases hr with rfl | rfl | rfl <;> rfl
      exact hne (h1.symm.trans h2)

/-- The events before the first pass end no pass and carry no bit. -/
theorem State.startsPasses.first {s : State} {win : Window} {i : Instr} {m : Mode} {l : List (PassKind × Nat)}
    {first : List CodEvent} (h : s.startsPasses win i m l first) : passEnds first = [] ∧ encBits first = [] := by
  rcases h with ⟨k, p, -, -, -, rfl, -⟩ | ⟨nbp, -, -, -, rfl, -⟩ <;> exact ⟨rfl, rfl⟩

/-- The passes of a command are on planes of a magnitude, and none comes twice. -/
theorem State.startsPasses.passes {s : State} {win : Window} {i : Instr} {m : Mode} {l : List (PassKind × Nat)}
    {first : List CodEvent} (h : s.startsPasses win i m l first) : l.Nodup ∧ ∀ kp ∈ l, kp.2 ≤ 30 := by
  rcases h with ⟨k, p, -, hp, rfl, -⟩ | ⟨nbp, -, hn, rfl, -⟩
  · exact ⟨List.nodup_singleton _, fun kp hkp => by rw [List.mem_singleton.mp hkp]; exact hp⟩
  · refine ⟨blockPasses_nodup nbp, fun kp hkp => ?_⟩
    have hlt := mem_blockPasses hkp
    omega

/-- A pass in the middle of a list without repetition is none of those before it. -/
theorem not_mem_of_nodup_append {α : Type} {pre post : List α} {a : α} (h : (pre ++ a :: post).Nodup) : a ∉ pre :=
  fun hmem => (List.nodup_append.mp h).2.2 a hmem a List.mem_cons_self rfl

/-- `ERRPOS` of the coefficient of a call, written out (R36, R196). -/
theorem errPosOf_cursorOf (k : PassKind) (p x y : Nat) : errPosOf (cursorOf (k, p, x, y)) = BitVec.ofNat 32
    (2 ^ 31 + (match k with | .spp => 0 | .mrp => 1 | .cup => 2) * 2 ^ 28 + p * 2 ^ 20 + y * 2 ^ 8 + x) := by
  cases k <;> rfl

/-- What `CAPACITY` leaves of a command that runs passes: the run up to the refused call (R196, R216). -/
theorem capacity_state {s : State} {win : Window} {i : Instr} {l : List (PassKind × Nat)} {first : List CodEvent}
    {cur : Cursor} {c : Coding}
    (hrun : codingPasses (s.passCtx .enc) l (s.codingAfter win first) = .full cur c) :
    ∃ (k : PassKind) (p x y : Nat) (post : List (PassKind × Nat)) (ev : List CodEvent),
      (s.withCoding c).raise .capacity (encode i) (errPosOf cur) = { s with
        err := true, everErr := true, errCode := some .capacity, errCmd := encode i,
        errPos := BitVec.ofNat 32
          (2 ^ 31 + (match k with | .spp => 0 | .mrp => 1 | .cup => 2) * 2 ^ 28 + p * 2 ^ 20 + y * 2 ^ 8 + x),
        cbState := .dirty, busy := false, held := none, window := some c.win, cod := s.cod ++ first ++ ev,
        encIn := c.encIn } ∧
      cur = cursorOf (k, p, x, y) ∧ c.cod = s.cod ++ first ++ ev ∧ l = passEnds ev ++ (k, p) :: post ∧ x < s.cbW ∧
      y < s.cbH ∧ c.win.mags = win.mags ∧ s.encIn.gives (List.replicate (encBits ev).length .ok ++ [.full]) c.encIn ∧
      (s.cbW ≤ 64 → passesVisit (s.passCtx .enc) l win ev (some (k, p, x, y)) c.win) := by
  have hfollows := codingPasses_follows (s.passCtx .enc) l (s.codingAfter win first)
  rw [hrun] at hfollows
  obtain ⟨ev, ⟨k, p, x, y⟩, c1, hran, -, hpop, hc, rfl, ⟨hsteps, -, hstop⟩, hvisit⟩ := hfollows
  obtain ⟨k', p', post, hl, rfl, rfl, hx, hy⟩ := hstop _ rfl
  obtain ⟨hgives, hdec⟩ := hran.enc rfl
  have hcod : c.cod = s.cod ++ first ++ ev := (congrArg Coding.cod hc).trans hran.cod
  have hdecIn : c.decIn = s.decIn := (congrArg Coding.decIn hc).trans hdec
  refine ⟨k, p, x, y, post, ev, ?_, rfl, hcod, hl, hx, hy, hsteps.mags_enc rfl,
    Answers.gives_append hgives (Answers.gives_pop hpop), hvisit⟩
  rw [State.withCoding, hcod, hdecIn, errPosOf_cursorOf]
  rfl

/-- Only an encoder is refused a bit. -/
theorem codingPasses_full_enc {g : PassCtx} {l : List (PassKind × Nat)} {c c' : Coding} {cur : Cursor}
    (h : codingPasses g l c = .full cur c') : g.mode = .enc := by
  have hfollows := codingPasses_inPasses g l c
  rw [h] at hfollows
  obtain ⟨ev, spot, c1, -, hm, -⟩ := hfollows
  exact hm

/-- A command that ends with a fault past its checks ran passes and was refused a bit (R212). -/
theorem Does.capacity {i : Instr} {s t : State} (h : Does s i t) (herr : s.err = false) (hterr : t.err = true) :
    ∃ win l first cur c, s.window = some win ∧ s.startsPasses win i .enc l first ∧
      codingPasses (s.passCtx .enc) l (s.codingAfter win first) = .full cur c ∧
      t = (s.withCoding c).raise .capacity (encode i) (errPosOf cur) := by
  have hno : ∀ {u : State}, u.err = false → u.err = true → False := fun h h' => Bool.noConfusion (h.symm.trans h')
  cases h with
  | @passesFull _ win m l first cur c hwin hstart hrun =>
    obtain rfl : m = .enc := codingPasses_full_enc hrun
    exact ⟨win, l, first, cur, c, hwin, hstart, hrun, rfl⟩
  | softReset | clrErr => cases hterr
  | ttInit | ttSet => exact (hno ((s.setTree_err _ _).trans herr) hterr).elim
  | ttEnc | ttDec => exact (hno ((s.queried_err _ _ _ _ _ _).trans herr) hterr).elim
  | ttDecWaits => exact (hno ((s.afterWalk_err _ _ _).trans herr) hterr).elim
  | passesEnd => exact (hno herr ((s.passResults_err (s.withCoding _) _ _).symm.trans hterr)).elim
  | _ => exact (hno herr hterr).elim

/-- Settles O48: only the passes of a command raise `CAPACITY` (`Does.capacity`), as `capacity_state` says. -/
theorem capacityFaultState : Obligations.CapacityFaultState := by
  intro i s t win hcmd herr hwin hexec hterr hcode
  rcases exec_next hexec with ⟨hs, -⟩ | ⟨-, c, hc, rfl⟩ | hdoes
  · exact absurd (herr.symm.trans hs) Bool.noConfusion
  · have hcap : some c = some ErrCode.capacity := hcode
    rcases hc with rfl | rfl | rfl <;> cases hcap
  · obtain ⟨win0, l, first, cur, c, hwin0, hstart, hrun, rfl⟩ := hdoes.capacity herr hterr
    obtain rfl := Option.some.inj (hwin0.symm.trans hwin)
    obtain ⟨k, p, x, y, post, ev, hstate, -, -, hl, hx, hy, hmags, hgives, hvisit⟩ := capacity_state (i := i) hrun
    obtain ⟨hfirstEnds, hfirstBits⟩ := hstart.first
    obtain ⟨hnodup, hplane⟩ := hstart.passes
    have hends : passEnds (first ++ ev) = passEnds ev := by rw [passEnds_append, hfirstEnds, List.nil_append]
    rw [hstate]
    refine ⟨k, p, x, y, first ++ ev, c.win, c.encIn, by rw [List.append_assoc] <;> rfl, hx, hy, ?_, ?_, hmags, ?_, ?_, ?_⟩
    · exact hplane (k, p) (by rw [hl]; simp)
    · rw [hends]
      exact not_mem_of_nodup_append (hl ▸ hnodup)
    · rw [encBits_append, hfirstBits, List.nil_append]
      exact hgives
    · rintro k' p' rfl
      obtain ⟨k0, p0, -, -, rfl, rfl, hi⟩ | ⟨nbp, -, -, -, -, hi⟩ := hstart
      · obtain ⟨rfl, rfl⟩ : k' = k0 ∧ p' = p0 := by simpa using hi
        have hlen : (passEnds ev ++ (k, p) :: post).length = 1 := by rw [← hl]; rfl
        have hnil : passEnds ev = [] := List.eq_nil_of_length_eq_zero (by simp at hlen; omega)
        rw [hnil, List.nil_append] at hl
        obtain ⟨rfl, rfl⟩ := Prod.mk.inj (List.cons.inj hl).1
        exact ⟨rfl, rfl, hends.trans hnil, fun hw => passesVisit_singleton.mp (hvisit hw)⟩
      · simp at hi
    · rintro rfl
      obtain ⟨k0, p0, -, -, -, -, hi⟩ | ⟨nbp, -, -, rfl, rfl, hi⟩ := hstart
      · simp at hi
      · have hplanes : win0.planes s.cbW s.cbH nbp := by simpa using hi
        exact ⟨nbp, post, ev, hplanes, by rw [hends, hl], rfl, hvisit⟩

/-! ## Ports with finitely many answers (R73) -/

/-- A command that runs passes and is never refused a bit ends, or waits at a coefficient (R73). -/
theorem passes_end_or_wait {s : State} {win : Window} {i : Instr} {m : Mode} {l : List (PassKind × Nat)}
    {first : List CodEvent} (herr : s.err = false) (hwin : s.window = some win) (hstart : s.startsPasses win i m l first)
    (hok : m = .enc → (∀ a ∈ s.encIn.pending, a = .ok) ∧ s.encIn.rest = none) :
    ∃ (c : Coding) (ev : List CodEvent), Ran m (s.codingAfter win first) c ev ∧
      ((exec i s = .next (s.passResults win i (s.withCoding c)) ∧
          passesRun (s.passCtx m) l win ev none c.win) ∨
        ∃ spot, exec i s = .next (s.hold i (cursorOf spot) (s.withCoding c)) ∧ (m = .enc → c.encIn.pop = none) ∧
          (m = .dec → c.decIn.pop = none) ∧ passesRun (s.passCtx m) l win ev (some spot) c.win) := by
  have hfollows : Follows m _ _ _ := codingPasses_follows (s.passCtx m) l (s.codingAfter win first)
  rw [exec_startsPasses herr hwin hstart]
  generalize hrun : codingPasses (s.passCtx m) l (s.codingAfter win first) = r at hfollows ⊢
  cases r with
  | done _ c =>
    obtain ⟨ev, hran, hvisit⟩ := hfollows
    exact ⟨c, ev, hran, .inl ⟨rfl, hvisit⟩⟩
  | full cur c =>
    obtain ⟨ev, spot, c1, hran, rfl, hpop, -⟩ := hfollows
    obtain ⟨hpending, hrest⟩ := hok rfl
    have hgives : s.encIn.gives _ c1.encIn := (hran.enc rfl).1
    refine absurd hpop (Answers.pop_ne_full (fun a ha => hpending a (hgives.mem ha)) ?_)
    rw [hgives.rest_eq, hrest]
    exact nofun
  | hold cur c =>
    obtain ⟨ev, spot, hran, henc, hdec, rfl, hvisit⟩ := hfollows
    exact ⟨c, ev, hran, .inr ⟨spot, rfl, henc, hdec, hvisit⟩⟩

theorem Ran.withCoding_cod {s : State} {win : Window} {m : Mode} {first ev : List CodEvent} {c : Coding}
    (h : Ran m (s.codingAfter win first) c ev) : (s.withCoding c).cod = s.cod ++ first ++ ev := h.cod

theorem Answers.pending_eq_nil {α : Type} {q : Answers α} (h : q.pop = none) : q.pending = [] := by
  rw [Answers.eq_of_pop_eq_none h]

end Sys2Proof.Machine
end


section
/-! PROOFS. One pass encoded and decoded (R198 pass by pass), whatever the magnitudes: the two runs go side by side
(`Mirrors`) with nothing to keep but that the two windows agree in their flag words. -/

namespace Sys2Proof.Machine

/-- A loop whose body keeps two windows alike. -/
theorem Mirrors.forEach_alike {w h : Nat} {ι : Type} {a b : Window} {encBody decBody : ι → Coding → Res Coding Unit}
    (l : List ι) (hbody : ∀ i ∈ l, ∀ a b : Window, a.sameFlags b w h →
      Mirrors a b (encBody i) (decBody i) fun _ a' b' => a'.sameFlags b' w h) (hab : a.sameFlags b w h) :
    Mirrors a b (Machine.forEach l encBody) (Machine.forEach l decBody) fun _ a' b' => a'.sameFlags b' w h :=
  Mirrors.forEach (κ := Empty) (I := fun _ a b => a.sameFlags b w h) (cells := fun _ => ∅) (T := ∅) l
    (fun i hi _ => hbody i hi) hab

section
variable {g : PassCtx} {a b : Window} {p x y y0 : Nat}

theorem Window.sameFlags.coef (hab : a.sameFlags b g.w g.h) (hx : x < g.w) (hy : y < g.h) :
    sameButIdleSign (a.coef x y) (b.coef x y) :=
  hab (x + 1) (y + 1) (by omega) (by omega)

/-- A bit stored by the decoder alone leaves the flag words alike. -/
theorem Window.sameFlags.store (hab : a.sameFlags b g.w g.h) (bit : Bool) :
    a.sameFlags (b.store x y p bit) g.w g.h := fun wx wy hwx hwy => by
  rw [Window.flag_store]
  exact hab wx wy hwx hwy

/-- Two runs that do nothing where the other two do nothing. -/
theorem Mirrors.still {enc dec : Coding → Res Coding Unit} (he : ∀ c, c.win = a → enc c = .done () c)
    (hd : ∀ d, d.win = b → dec d = .done () d) (hab : a.sameFlags b g.w g.h) :
    Mirrors a b enc dec fun _ a' b' => a'.sameFlags b' g.w g.h :=
  (Mirrors.done (v := ()) (Q := fun _ a' b' => a'.sameFlags b' g.w g.h) hab).congr he hd

/-- The significance step, the sign step after a 1, and `VIS` (R185, R188). -/
theorem sigThenSign_alike (cur : Cursor) (vis : Bool) (hab : a.sameFlags b g.w g.h) (hw : g.w ≤ 64) (hx : x < g.w)
    (hy : y < g.h) :
    Mirrors a b (sigThenSign (g.toward .enc) cur x y p vis) (sigThenSign (g.toward .dec) cur x y p vis)
      fun _ a' b' => a'.sameFlags b' g.w g.h := by
  refine (sigThenSign_mirrors vis (hab.coef hx hy)).mono ?_
  rintro _ a' b' ⟨rfl, rfl⟩
  exact (hab.store _).visit hw hx (.inl rfl) _ _ _

theorem sppCell_alike (hab : a.sameFlags b g.w g.h) (hw : g.w ≤ 64) (hx : x < g.w) (hy : y < g.h) :
    Mirrors a b (sppCell (g.toward .enc) p y0 x y) (sppCell (g.toward .dec) p y0 x y)
      fun _ a' b' => a'.sameFlags b' g.w g.h := by
  have hf := hab.coef hx hy
  have hcond : (!isSig (b.coef x y) && !isVis (b.coef x y) && hasSigNeighbour (b.coef x y)) =
      (!isSig (a.coef x y) && !isVis (a.coef x y) && hasSigNeighbour (a.coef x y)) := by
    rw [hf.isSig_eq, hf.isVis_eq, hf.hasSigNeighbour_eq]
  by_cases hcoded : (!isSig (a.coef x y) && !isVis (a.coef x y) && hasSigNeighbour (a.coef x y)) = true
  · exact (sigThenSign_alike (p := p) (.scan .spp p y0 x y) true hab hw hx hy).congr (by rintro c rfl; exact if_pos hcoded)
      (by rintro d rfl; exact if_pos (hcond.trans hcoded))
  · exact .still (by rintro c rfl; exact if_neg hcoded)
      (by rintro d rfl; exact if_neg fun hd => hcoded (hcond.symm.trans hd)) hab

theorem mrpCell_alike (hab : a.sameFlags b g.w g.h) (hw : g.w ≤ 64) (hx : x < g.w) (hy : y < g.h) :
    Mirrors a b (mrpCell (g.toward .enc) p y0 x y) (mrpCell (g.toward .dec) p y0 x y)
      fun _ a' b' => a'.sameFlags b' g.w g.h := by
  have hf := hab.coef hx hy
  have hcond : (isSig (b.coef x y) && !isVis (b.coef x y)) = (isSig (a.coef x y) && !isVis (a.coef x y)) := by
    rw [hf.isSig_eq, hf.isVis_eq]
  by_cases hcoded : (isSig (a.coef x y) && !isVis (a.coef x y)) = true
  · refine ((refine_mirrors (g := g) (cur := .scan .mrp p y0 x y) (p := p) hf false).congr
      (by rintro c rfl; exact if_pos hcoded) (by rintro d rfl; exact if_pos (hcond.trans hcoded))).mono ?_
    rintro _ a' b' ⟨rfl, rfl⟩
    exact (hab.store _).visit hw hx (.inr rfl) _ _ _
  · exact .still (by rintro c rfl; exact if_neg hcoded)
      (by rintro d rfl; exact if_neg fun hd => hcoded (hcond.symm.trans hd)) hab

theorem cupCell_alike (hab : a.sameFlags b g.w g.h) (hw : g.w ≤ 64) (hx : x < g.w) (hy : y < g.h) :
    Mirrors a b (cupCell (g.toward .enc) p y0 x y) (cupCell (g.toward .dec) p y0 x y)
      fun _ a' b' => a'.sameFlags b' g.w g.h := by
  have hf := hab.coef hx hy
  have hcond : (!isSig (b.coef x y) && !isVis (b.coef x y)) = (!isSig (a.coef x y) && !isVis (a.coef x y)) := by
    rw [hf.isSig_eq, hf.isVis_eq]
  by_cases hcoded : (!isSig (a.coef x y) && !isVis (a.coef x y)) = true
  · exact (sigThenSign_alike (p := p) (.scan .cup p y0 x y) false hab hw hx hy).congr (by rintro c rfl; exact if_pos hcoded)
      (by rintro d rfl; exact if_pos (hcond.trans hcoded))
  · exact (Mirrors.write (v := ()) (f := fun win => win.visit x y false false flagVis false)
      (g := fun win => win.visit x y false false flagVis false)
      (Q := fun _ a' b' => a'.sameFlags b' g.w g.h) (hab.visit hw hx (.inl rfl) _ _ _)).congr
      (by rintro c rfl; exact if_neg hcoded) (by rintro d rfl; exact if_neg fun hd => hcoded (hcond.symm.trans hd))

/-- The end of a run-length column, from the row the two bits name (R189). -/
theorem runEnd_alike {r : Nat} (hab : a.sameFlags b g.w g.h) (hw : g.w ≤ 64) (hx : x < g.w) (hy : y0 + r < g.h) :
    Mirrors a b (runEnd (g.toward .enc) p y0 x r) (runEnd (g.toward .dec) p y0 x r)
      fun _ a' b' => a'.sameFlags b' g.w g.h := by
  refine ((storeBit_mirrors true).bind (encNext := fun _ => runEndAfterStore (g.toward .enc) p y0 x r)
    (decNext := fun _ => runEndAfterStore (g.toward .dec) p y0 x r) ?_).congr (fun _ _ => rfl) (fun _ _ => rfl)
  rintro v a' b' ⟨rfl, rfl, rfl⟩
  have hstored : a'.sameFlags (b.store x (y0 + r) p true) g.w g.h := hab.store true
  refine (signStep_mirrors (hstored.coef hx hy)).bind ?_
  rintro _ a2 b2 ⟨rfl, rfl⟩
  refine Mirrors.afterWrite (enc := forEach _ fun y' => cupCell (g.toward .enc) p y0 x y')
    (dec := forEach _ fun y' => cupCell (g.toward .dec) p y0 x y') ?_
  exact .forEach_alike _ (fun y' hy' _ _ h => cupCell_alike h hw hx (mem_drop_rowsOf.mp hy').2.1)
    (hstored.visit hw hx (.inl rfl) true _ false)

/-- Both directions find the same columns quiet (R189): `quietColumn_toward`, with nothing known of the coefficients. -/
theorem quietColumn_alike (hab : a.sameFlags b g.w g.h) (hx : x < g.w) :
    quietColumn (g.toward .dec) b y0 x = quietColumn (g.toward .enc) a y0 x :=
  quietColumn_toward (a0 := a) (b0 := b) (C := fun _ _ _ _ _ _ => True)
    ⟨hab, rfl, fun _ _ _ _ _ => rfl, fun _ _ _ _ _ => rfl, fun _ _ _ _ => trivial⟩ hx

/-- A run-length column (R189): the decoder reads the run the encoder found. -/
theorem runColumn_alike (hab : a.sameFlags b g.w g.h) (hw : g.w ≤ 64) (hx : x < g.w)
    (hq : quietColumn (g.toward .enc) a y0 x = true) :
    Mirrors a b (runColumn (g.toward .enc) p y0 x) (runColumn (g.toward .dec) p y0 x)
      fun _ a' b' => a'.sameFlags b' g.w g.h := by
  have hfull : y0 + 3 < g.h := (quietColumn_idle hq).1
  refine ((codeBit_mirrors a b (.scan .cup p y0 x y0) (ctx := cxRl) (decide (runOf a p y0 x ≠ 4))
    (decide (runOf b p y0 x ≠ 4)) rfl).bind (encNext := runAfterFound (g.toward .enc) p y0 x (runOf a p y0 x))
      (decNext := runAfterFound (g.toward .dec) p y0 x (runOf b p y0 x)) ?_).congr
    (by rintro c rfl; rfl) (by rintro d rfl; rfl)
  rintro found a1 b1 ⟨-, rfl, rfl⟩
  cases found with
  | false => exact Mirrors.done hab
  | true =>
    refine (codeBit_mirrors a1 b1 _ (decide (runOf a1 p y0 x / 2 = 1)) _ rfl).bind ?_
    rintro hi a2 b2 ⟨-, rfl, rfl⟩
    refine (codeBit_mirrors a2 b2 _ (decide (runOf a2 p y0 x % 2 = 1)) _ rfl).bind ?_
    rintro lo a3 b3 ⟨-, rfl, rfl⟩
    have hrow : 2 * hi.toNat + lo.toNat ≤ 3 := by cases hi <;> cases lo <;> decide
    exact runEnd_alike hab hw hx (by omega)

theorem cupColumn_alike (hab : a.sameFlags b g.w g.h) (hw : g.w ≤ 64) (hx : x < g.w) :
    Mirrors a b (cupColumn (g.toward .enc) p y0 x) (cupColumn (g.toward .dec) p y0 x)
      fun _ a' b' => a'.sameFlags b' g.w g.h := by
  have hquiet := quietColumn_alike (y0 := y0) hab hx
  by_cases hq : quietColumn (g.toward .enc) a y0 x = true
  · exact (runColumn_alike (p := p) hab hw hx hq).congr (by rintro c rfl; exact if_pos hq)
      (by rintro d rfl; exact if_pos (hquiet.trans hq))
  · exact (Mirrors.forEach_alike (encBody := cupCell (g.toward .enc) p y0 x) (decBody := cupCell (g.toward .dec) p y0 x)
      (rowsOf g.h y0) (fun y hy _ _ h => cupCell_alike h hw hx (mem_rowsOf.mp hy).2.1) hab).congr
      (by rintro c rfl; exact if_neg hq) (by rintro d rfl; exact if_neg fun hd => hq (hquiet.symm.trans hd))

theorem passColumn_alike (k : PassKind) (hab : a.sameFlags b g.w g.h) (hw : g.w ≤ 64) (hx : x < g.w) :
    Mirrors a b (passColumn (g.toward .enc) k p y0 x) (passColumn (g.toward .dec) k p y0 x)
      fun _ a' b' => a'.sameFlags b' g.w g.h := by
  cases k with
  | spp => exact .forEach_alike _ (fun y hy _ _ h => sppCell_alike h hw hx (mem_rowsOf.mp hy).2.1) hab
  | mrp => exact .forEach_alike _ (fun y hy _ _ h => mrpCell_alike h hw hx (mem_rowsOf.mp hy).2.1) hab
  | cup => exact cupColumn_alike hab hw hx

theorem codingPass_alike (k : PassKind) (hab : a.sameFlags b g.w g.h) (hw : g.w ≤ 64) :
    Mirrors a b (codingPass (g.toward .enc) k p) (codingPass (g.toward .dec) k p)
      fun _ a' b' => a'.sameFlags b' g.w g.h :=
  (Mirrors.forEach_alike (columns g.w g.h)
    (fun _ hcol _ _ h => passColumn_alike k h hw (mem_columns.mp hcol).1) hab).bind fun _ _ _ h' =>
      Mirrors.emit rfl rfl h'

end

/-- Settles O50: the two passes go side by side (`codingPass_alike`). -/
theorem decPassMirrorsEncPass : Obligations.DecPassMirrorsEncPass := by
  intro k p e d e' we wd we' ev more heErr hdErr heAcc hdAcc heWin hdWin hp hw hh hw64 ho hrl hsame hfull hexec hwe' hcod
    hpend
  obtain ⟨_, c', b', ev', henc, -, hcod', hsame', hdec⟩ :=
    codingPass_alike (g := e.passCtx .enc) (p := p) k hsame hw64 (e.coding we) rfl hfull
  replace henc : codingPass (e.passCtx .enc) k p (e.coding we) = .done () c' := henc
  rw [exec_t1EncPass k heErr heAcc heWin hp, henc] at hexec
  obtain rfl : e.withCoding c' = e' := by simpa [State.finish] using hexec
  obtain rfl : c'.win = we' := Option.some.inj hwe'
  obtain rfl : ev' = ev := List.append_cancel_left (hcod'.symm.trans hcod)
  obtain ⟨d1, hrun, rfl, hdcod, hdpend⟩ := hdec (d.coding wd) more rfl hpend
  have hctx : d.passCtx .dec = (e.passCtx .enc).toward .dec := by
    rw [State.passCtx, ← hw, ← hh, ← ho, ← hrl]
    rfl
  refine ⟨d.withCoding d1, d1.win, ?_, hdErr, rfl, rfl, hdcod, hdpend, rfl, hsame'⟩
  rw [exec_t1DecPass k hdErr hdAcc hdWin hp, hctx, hrun]
  rfl

end Sys2Proof.Machine
end


section
/-! PROOFS. `VIS` after a cleanup pass (R190): what each part of the pass, as `passVisit` describes it, makes of the `VIS`
bits (`Visit.clears`). -/

namespace Sys2Proof.Machine

/-- A part of a pass that goes to its end leaves `VIS` = 0 where it was 0 and at the coefficients of `T`. -/
def Visit.clears (T : Set (Nat × Nat)) (R : Visit) : Prop :=
  ∀ a ev c, R a ev none c → ∀ x y, x < 64 → (isVis (a.coef x y) = false ∨ (x, y) ∈ T) → isVis (c.coef x y) = false

namespace Visit.clears

variable {T U : Set (Nat × Nat)} {R S : Visit}

theorem mono (h : R.clears T) (hU : ∀ x y, x < 64 → (x, y) ∈ U → (x, y) ∈ T) : R.clears U :=
  fun a ev c hr x y hx hv => h a ev c hr x y hx (hv.imp id (hU x y hx))

theorem nothing : Visit.nothing.clears ∅ := by
  rintro a ev c ⟨-, -, rfl⟩ x y - (hv | hmem)
  · exact hv
  · exact absurd hmem (Set.notMem_empty _)

theorem andThen (hR : R.clears T) (hS : S.clears U) : (R.andThen S).clears (T ∪ U) := by
  rintro a ev c (⟨hne, -⟩ | ⟨b, e1, e2, hr, hs, -⟩) x y hx hv
  · exact absurd rfl hne
  · refine hS b e2 c hs x y hx ?_
    rcases hv with hv | hv | hv
    · exact .inl (hR a e1 b hr x y hx (.inl hv))
    · exact .inl (hR a e1 b hr x y hx (.inr hv))
    · exact .inr hv

theorem each {ι : Type} {T : ι → Set (Nat × Nat)} {R : ι → Visit} (l : List ι) (h : ∀ i ∈ l, (R i).clears (T i)) :
    (Visit.each l R).clears {c | ∃ i ∈ l, c ∈ T i} := by
  induction l with
  | nil => exact nothing.mono fun x y _ ⟨i, hi, _⟩ => absurd hi List.not_mem_nil
  | cons i rest ih =>
    refine ((h i (by simp)).andThen (ih fun j hj => h j (by simp [hj]))).mono fun x y _ ⟨j, hj, hmem⟩ => ?_
    rcases List.mem_cons.mp hj with rfl | hj
    · exact .inl hmem
    · exact .inr ⟨j, hj, hmem⟩

/-- A part that leaves every `VIS` bit alone. -/
theorem of_same (h : ∀ a ev c, R a ev none c → ∀ x y, x < 64 → isVis (c.coef x y) = isVis (a.coef x y)) :
    R.clears ∅ := by
  rintro a ev c hr x y hx (hv | hmem)
  · exact (h a ev c hr x y hx).trans hv
  · exact absurd hmem (Set.notMem_empty _)

end Visit.clears

/-! ## The steps -/

theorem isVis_or {f m : FlagWord} (hm : m.getLsbD 12 = false) : isVis (f ||| m) = isVis f := by
  rw [isVis, BitVec.getLsbD_or, hm, Bool.or_false]
  rfl

theorem isVis_and {f m : FlagWord} (hm : m.getLsbD 12 = true) : isVis (f &&& m) = isVis f := by
  rw [isVis, BitVec.getLsbD_and, hm, Bool.and_true]
  rfl

/-- The tracker writes no `VIS` bit (R164). -/
theorem Window.marked.isVis_eq {a c : Window} {x y : Nat} {neg : Bool} (h : a.marked c x y neg) {wx wy : Nat}
    (hwx : wx < 66) : isVis (c.flag wx wy) = isVis (a.flag wx wy) := by
  obtain ⟨own, east, west, south, north, southEast, southWest, northEast, northWest, -, frame⟩ := h
  by_cases hin : x ≤ wx ∧ wx ≤ x + 2 ∧ y ≤ wy ∧ wy ≤ y + 2
  · have hcell : (wx = x + 1 ∧ wy = y + 1) ∨ (wx = x + 2 ∧ wy = y + 1) ∨ (wx = x ∧ wy = y + 1) ∨
        (wx = x + 1 ∧ wy = y + 2) ∨ (wx = x + 1 ∧ wy = y) ∨ (wx = x + 2 ∧ wy = y + 2) ∨ (wx = x ∧ wy = y + 2) ∨
        (wx = x + 2 ∧ wy = y) ∨ (wx = x ∧ wy = y) := by omega
    rcases hcell with ⟨rfl, rfl⟩ | ⟨rfl, rfl⟩ | ⟨rfl, rfl⟩ | ⟨rfl, rfl⟩ | ⟨rfl, rfl⟩ | ⟨rfl, rfl⟩ | ⟨rfl, rfl⟩ |
      ⟨rfl, rfl⟩ | ⟨rfl, rfl⟩
    · rw [own]
      cases neg with
      | true => exact isVis_or (by decide)
      | false => exact (isVis_and (by decide)).trans (isVis_or (by decide))
    · rw [east, isVis_or (by cases neg <;> decide)]
    · rw [west, isVis_or (by cases neg <;> decide)]
    · rw [south, isVis_or (by cases neg <;> decide)]
    · rw [north, isVis_or (by cases neg <;> decide)]
    · rw [southEast, isVis_or (by decide)]
    · rw [southWest, isVis_or (by decide)]
    · rw [northEast, isVis_or (by decide)]
    · rw [northWest, isVis_or (by decide)]
  · rw [frame wx wy hwx hin]

theorem coderCall_clears (m : Mode) (spot : Spot) (ctx : Nat) (b : Bool) : (coderCall m spot ctx b).clears ∅ :=
  .of_same fun _ _ _ ⟨hc, _⟩ _ _ _ => hc ▸ rfl

theorem oneStored_clears (m : Mode) (x y p : Nat) : (oneStored m x y p).clears ∅ := by
  refine .of_same ?_
  rintro a ev c ⟨-, -, henc, hdec⟩ i j -
  cases m with
  | enc => rw [henc rfl]
  | dec =>
    obtain ⟨-, hflags, -⟩ := hdec rfl
    rw [Window.coef, Window.coef, Window.flag, Window.flag, hflags]

theorem signVisit_clears (m : Mode) (spot : Spot) (x y : Nat) : (signVisit m spot x y).clears ∅ := by
  rintro a ev c ⟨neg, -, h⟩
  have hmark : (Visit.write fun b c : Window => b.marked c x y neg).clears ∅ :=
    .of_same fun a' _ _ ⟨_, _, hm⟩ i j hi => hm.isVis_eq (by omega)
  exact ((coderCall_clears _ _ _ _).andThen hmark).mono (U := ∅) (fun _ _ _ => .inl) _ _ _ h

theorem visWritten_clears (x y : Nat) : (visWritten x y false).clears {(x, y)} := by
  rintro a ev c ⟨-, -, hown, -, hother⟩ i j hi hv
  by_cases hcell : (i, j) = (x, y)
  · obtain ⟨rfl, rfl⟩ := Prod.mk.inj hcell
    rw [Window.coef, hown, isVis, if_neg Bool.false_ne_true, BitVec.getLsbD_and]
    exact Bool.and_false _
  · rw [Window.coef, hother _ _ (by omega) (by simpa using hcell)]
    exact hv.resolve_right hcell

theorem sigVisit_clears (m : Mode) (o : Orient) (spot : Spot) (x y p : Nat) :
    (sigVisit m o spot x y p false).clears {(x, y)} := by
  rintro a ev c ⟨b, -, h⟩
  have hone : (if b then Visit.andThen (oneStored m x y p) (signVisit m spot x y) else Visit.nothing).clears ∅ := by
    cases b with
    | true => exact ((oneStored_clears _ _ _ _).andThen (signVisit_clears _ _ _ _)).mono fun _ _ _ => .inl
    | false => exact .nothing
  exact ((coderCall_clears _ _ _ _).andThen (hone.andThen (visWritten_clears x y))).mono (U := {(x, y)})
    (fun _ _ _ hmem => .inr (.inr hmem)) _ _ _ h

theorem cupVisit_clears (g : PassCtx) (p x y : Nat) : (cupVisit g p x y).clears {(x, y)} := by
  intro a ev c h
  unfold cupVisit at h
  split at h
  · exact sigVisit_clears _ _ _ _ _ _ a ev c h
  · exact visWritten_clears _ _ a ev c h

/-! ## Columns -/

/-- The rows of a column from its `n`-th on. -/
theorem eachRow_clears {h y0 n x : Nat} {R : Nat → Visit} (hR : ∀ y, (R y).clears {(x, y)}) :
    (eachRow h y0 n R).clears {c | c.1 = x ∧ y0 + n ≤ c.2 ∧ c.2 < h ∧ c.2 < y0 + 4} := by
  refine (Visit.clears.each (T := fun y => {(x, y)}) _ fun y _ => hR y).mono ?_
  rintro i j - ⟨rfl, hlow, hh, hhigh⟩
  exact ⟨j, List.mem_map.mpr ⟨j - (y0 + n), List.mem_range.mpr (by omega), by omega⟩, rfl⟩

/-- A run-length column: the rows above the 1 had `VIS` = 0 (R189). -/
theorem runVisit_clears {g : PassCtx} {p y0 x : Nat} {a c : Window} {ev : List CodEvent} (hready : runReady g a y0 x)
    (h : runVisit g p y0 x a ev none c) {i j : Nat} (hi : i < 64)
    (hv : isVis (a.coef i j) = false ∨ (i = x ∧ y0 ≤ j ∧ j < g.h ∧ j < y0 + 4)) : isVis (c.coef i j) = false := by
  obtain ⟨-, -, hquiet⟩ := hready
  obtain ⟨r, -, -, h⟩ := h
  have hidle : ∀ n < 4, isVis (a.coef x (y0 + n)) = false := fun n hn => by
    have hbit := congrArg (BitVec.getLsbD · 12) (hquiet n hn)
    simpa [isVis, Window.coef] using hbit
  by_cases hr : r = 4
  · rw [if_pos hr] at h
    refine ((coderCall_clears _ _ _ _).andThen .nothing) a ev c h i j hi (.inl (hv.elim id ?_))
    rintro ⟨rfl, hlow, -, hhigh⟩
    simpa [Nat.add_sub_of_le hlow] using hidle (j - y0) (by omega)
  · rw [if_neg hr] at h
    refine ((coderCall_clears _ _ _ _).andThen <| (coderCall_clears _ _ _ _).andThen <|
      (coderCall_clears _ _ _ _).andThen <| (oneStored_clears _ _ _ _).andThen <| (signVisit_clears _ _ _ _).andThen <|
      (visWritten_clears x (y0 + r)).andThen (eachRow_clears fun y => cupVisit_clears g p x y)) a ev c h i j hi ?_
    rcases hv with hv | ⟨rfl, hlow, hh, hhigh⟩
    · exact .inl hv
    · rcases Nat.lt_trichotomy j (y0 + r) with hlt | rfl | hgt
      · refine .inl ?_
        simpa [Nat.add_sub_of_le hlow] using hidle (j - y0) (by omega)
      · exact .inr (.inr (.inr (.inr (.inr (.inr (.inl rfl))))))
      · exact .inr (.inr (.inr (.inr (.inr (.inr (.inr ⟨rfl, hgt, hh, hhigh⟩))))))

theorem cupColumnVisit_clears (g : PassCtx) (p y0 x : Nat) :
    (cupColumnVisit g p y0 x).clears {c | c.1 = x ∧ y0 ≤ c.2 ∧ c.2 < g.h ∧ c.2 < y0 + 4} := by
  rintro a ev c ⟨hrun, hrows⟩ i j hi hv
  by_cases hready : runReady g a y0 x
  · exact runVisit_clears hready (hrun hready) hi hv
  · exact eachRow_clears (fun y => cupVisit_clears g p x y) a ev c (hrows hready) i j hi hv

/-- A cleanup pass that goes to its end leaves no coefficient visited (R190). -/
theorem passVisit_cup_clears {g : PassCtx} {p : Nat} {a c : Window} {ev : List CodEvent} (hw : g.w ≤ 64)
    (h : passVisit g .cup p a ev none c) {x y : Nat} (hx : x < g.w) (hy : y < g.h) : isVis (c.coef x y) = false := by
  have hend : (Visit.event (.passEnd .cup p)).clears ∅ := .of_same fun _ _ _ ⟨_, _, hc⟩ _ _ _ => hc ▸ rfl
  refine ((Visit.clears.each _ fun k _ => Visit.clears.each _ fun x _ =>
    cupColumnVisit_clears g p (4 * k) x).andThen hend) a ev c h x y (by omega) (.inr (.inl ?_))
  exact ⟨y / 4, List.mem_range.mpr (by omega), x, List.mem_range.mpr hx, rfl, by dsimp only; omega, hy, by dsimp only; omega⟩

/-- Settles O47: both passes go to their end (`encPassCompletes`, `decPassCompletes`) as `passVisit` has them. -/
theorem cleanupClearsEveryVisited : Obligations.CleanupClearsEveryVisited := by
  intro p s win herr hacc hwin hw hp
  refine ⟨fun hfull => ?_, fun hendless => ?_⟩
  · obtain ⟨win', ev, q, hexec, -, -, -, hvisit⟩ := encPassCompletes .cup p s win herr hacc hwin hp hfull
    exact ⟨_, win', hexec, rfl, fun x y => passVisit_cup_clears hw (hvisit hw)⟩
  · obtain ⟨win', ev, q, hexec, -, -, hvisit⟩ := decPassCompletes .cup p s win herr hacc hwin hp hendless
    exact ⟨_, win', hexec, rfl, fun x y => passVisit_cup_clears hw (hvisit hw)⟩

end Sys2Proof.Machine
end


section
/-! PROOFS. What a refinement pass codes and marks, in closed form (R187): each part of the pass, as `passVisit` describes
it, refines its coefficients (`Refined`), and the parts are the scan. -/

namespace Sys2Proof.Machine

/-! ## The scan as a list of cells -/

/-- The scan meets no coefficient twice (R181). -/
theorem scan_pairwise_ne (w h : Nat) : (scan w h).Pairwise fun c d => c.2 ≠ d.2 := by
  obtain ⟨hmem, hordered⟩ := scanVisitsEachCoefficientOnce w h
  refine hordered.imp_of_mem fun {c d} hc hd hlt heq => ?_
  obtain ⟨y0, x, y⟩ := c
  obtain ⟨y0', x', y'⟩ := d
  obtain ⟨rfl, rfl⟩ := Prod.mk.inj heq
  obtain ⟨-, -, rfl⟩ := (hmem ..).mp hc
  obtain ⟨-, -, rfl⟩ := (hmem ..).mp hd
  omega

/-- The stripes, columns and rows that a pass visits are the scan (R181). -/
theorem flatMap_eq_scan (w h : Nat) :
    ((List.range ((h + 3) / 4)).flatMap fun k => (List.range w).flatMap fun x =>
      ((List.range (min 4 (h - 4 * k) - 0)).map fun r => 4 * k + 0 + r).flatMap fun y => [(4 * k, x, y)]) = scan w h := by
  simp [scan, columns, stripes, rowsOf, List.map_eq_flatMap, List.flatMap_assoc]

/-- The cells are columns of a window, no coefficient twice. -/
def apart (l : List (Nat × Nat × Nat)) : Prop := (∀ cell ∈ l, cell.2.1 < 64) ∧ l.Pairwise fun c d => c.2 ≠ d.2

theorem apart_append {l l' : List (Nat × Nat × Nat)} :
    apart (l ++ l') ↔ apart l ∧ apart l' ∧ ∀ c ∈ l, ∀ d ∈ l', c.2 ≠ d.2 := by
  simp only [apart, List.forall_mem_append, List.pairwise_append]
  tauto

theorem scan_apart {w h : Nat} (hw : w ≤ 64) : apart (scan w h) :=
  ⟨fun ⟨y0, x, y⟩ hcell => Nat.lt_of_lt_of_le ((scanVisitsEachCoefficientOnce w h).1 y0 x y |>.mp hcell).1 hw,
    scan_pairwise_ne w h⟩

/-! ## Refined coefficients -/

/-- The refinement pass codes this cell of the scan: `SIG` = 1 and `VIS` = 0 (R187). -/
def Window.refinable (a : Window) (cell : Nat × Nat × Nat) : Bool :=
  isSig (a.coef cell.2.1 cell.2.2) && !isVis (a.coef cell.2.1 cell.2.2)

/-- The call of a refined cell (R187). -/
def Window.refineCall (a : Window) (p : Nat) (cell : Nat × Nat × Nat) : CodEvent :=
  .enc (refLabel (a.coef cell.2.1 cell.2.2)) ((a.mag cell.2.1 cell.2.2).getLsbD p)

/-- The cells of `l`, and no others, are refined as they stood in `a`. -/
structure Refined (p : Nat) (l : List (Nat × Nat × Nat)) (a : Window) (ev : List CodEvent) (c : Window) : Prop where
  calls : ev = (l.filter a.refinable).map (a.refineCall p)
  mags : c.mags = a.mags
  inside : ∀ cell ∈ l, c.coef cell.2.1 cell.2.2 =
    if a.refinable cell then a.coef cell.2.1 cell.2.2 ||| 0x4000#16 else a.coef cell.2.1 cell.2.2
  outside : ∀ wx wy, wx < 66 → (∀ cell ∈ l, (wx, wy) ≠ (cell.2.1 + 1, cell.2.2 + 1)) → c.flag wx wy = a.flag wx wy

namespace Refined

variable {p : Nat} {l l' : List (Nat × Nat × Nat)} {a b c : Window} {e1 e2 : List CodEvent}

theorem nil (a : Window) : Refined p [] a [] a := ⟨rfl, rfl, nofun, fun _ _ _ _ => rfl⟩

theorem coef_eq (h : Refined p l a e1 b) {cell : Nat × Nat × Nat} (hx : cell.2.1 < 64) (hout : ∀ d ∈ l, d.2 ≠ cell.2) :
    b.coef cell.2.1 cell.2.2 = a.coef cell.2.1 cell.2.2 := by
  refine h.outside _ _ (by omega) fun d hd heq => hout d hd ?_
  obtain ⟨h1, h2⟩ := Prod.mk.inj heq
  exact Prod.ext (by omega) (by omega)

/-- First some cells, then others. -/
theorem append (h : Refined p l a e1 b) (h' : Refined p l' b e2 c) (hl : apart (l ++ l')) :
    Refined p (l ++ l') a (e1 ++ e2) c := by
  have hx := hl.1
  obtain ⟨-, -, hne⟩ := apart_append.mp hl
  have hsame : ∀ cell ∈ l', b.coef cell.2.1 cell.2.2 = a.coef cell.2.1 cell.2.2 := fun cell hcell =>
    h.coef_eq (hx cell (List.mem_append_right _ hcell)) fun d hd => hne d hd cell hcell
  have hcan : ∀ cell ∈ l', b.refinable cell = a.refinable cell := fun cell hcell => by
    rw [Window.refinable, Window.refinable, hsame cell hcell]
  refine ⟨?_, h'.mags.trans h.mags, fun cell hcell => ?_, fun wx wy hwx hout => ?_⟩
  · rw [h.calls, h'.calls, List.filter_append, List.map_append, List.filter_congr hcan]
    refine congrArg _ (List.map_congr_left fun cell hcell => ?_)
    rw [Window.refineCall, Window.refineCall, hsame cell (List.mem_of_mem_filter hcell), Window.mag, Window.mag, h.mags]
  · rcases List.mem_append.mp hcell with hmem | hmem
    · rw [← h.inside cell hmem]
      refine h'.outside _ _ (by have := hx cell hcell; omega) fun d hd heq => hne cell hmem d hd ?_
      obtain ⟨h1, h2⟩ := Prod.mk.inj heq
      exact Prod.ext (by omega) (by omega)
    · rw [h'.inside cell hmem, hcan cell hmem, hsame cell hmem]
  · rw [h'.outside wx wy hwx fun d hd => hout d (List.mem_append_right _ hd),
      h.outside wx wy hwx fun d hd => hout d (List.mem_append_left _ hd)]

/-- Parts in a row, of cells that lie apart. -/
theorem each {ι : Type} {R : ι → Visit} {cells : ι → List (Nat × Nat × Nat)} (items : List ι)
    (hR : ∀ i ∈ items, apart (cells i) → ∀ a ev c, R i a ev none c → Refined p (cells i) a ev c)
    (hl : apart (items.flatMap cells)) {a c : Window} {ev : List CodEvent} (h : Visit.each items R a ev none c) :
    Refined p (items.flatMap cells) a ev c := by
  induction items generalizing a ev with
  | nil =>
    obtain ⟨rfl, -, rfl⟩ := h
    exact .nil c
  | cons i rest ih =>
    obtain ⟨hstop, -⟩ | ⟨b, e1, e2, hfirst, hrest, rfl⟩ := h
    · exact absurd rfl hstop
    · rw [List.flatMap_cons] at hl ⊢
      exact (hR i (by simp) (apart_append.mp hl).1 a e1 b hfirst).append
        (ih (fun j hj => hR j (by simp [hj])) (apart_append.mp hl).2.1 hrest) hl

end Refined

/-- A visit of an encoder's refinement pass refines its cell (R187). -/
theorem mrpVisit_refined {g : PassCtx} (hm : g.mode = .enc) {p y0 x y : Nat} {a c : Window} {ev : List CodEvent}
    (h : mrpVisit g p x y a ev none c) : Refined p [(y0, x, y)] a ev c := by
  unfold mrpVisit at h
  dsimp only at h
  by_cases hcan : isSig (a.flag (x + 1) (y + 1)) = true ∧ isVis (a.flag (x + 1) (y + 1)) = false
  · rw [if_pos hcan] at h
    have hrefine : a.refinable (y0, x, y) = true := by
      simpa [Window.refinable, Window.coef] using hcan
    obtain ⟨b, hb, ⟨hne, -⟩ | ⟨a1, e1, e2, ⟨rfl, hcall⟩, hrest, rfl⟩⟩ := h
    · exact absurd rfl hne
    obtain ⟨hne, -⟩ | ⟨a2, e3, e4, hstore, ⟨rfl, -, hflag, hmags, hother⟩, rfl⟩ := hrest
    · exact absurd rfl hne
    obtain ⟨rfl, rfl⟩ : e3 = [] ∧ a2 = a1 := by
      cases b with
      | true =>
        obtain ⟨rfl, -, henc, -⟩ := hstore
        exact ⟨rfl, henc hm⟩
      | false =>
        obtain ⟨rfl, -, rfl⟩ := hstore
        exact ⟨rfl, rfl⟩
    obtain ⟨-, rfl⟩ | ⟨hstop, -⟩ := hcall
    · refine ⟨?_, hmags, fun cell hcell => ?_, fun wx wy hwx hout => hother wx wy hwx (hout (y0, x, y) (by simp))⟩
      · rw [List.filter_cons_of_pos hrefine, hm, hb hm]
        rfl
      · obtain rfl := List.mem_singleton.mp hcell
        rw [if_pos hrefine]
        exact hflag
    · cases hstop
  · rw [if_neg hcan] at h
    have hrefine : a.refinable (y0, x, y) = false := by
      simpa [Window.refinable, Window.coef] using hcan
    obtain ⟨rfl, -, rfl⟩ := h
    refine ⟨by rw [List.filter_cons_of_neg (by simp [hrefine])]; rfl, rfl, fun cell hcell => ?_, fun _ _ _ _ => rfl⟩
    obtain rfl := List.mem_singleton.mp hcell
    rw [hrefine]
    rfl

/-- A refinement pass that goes to its end refines the scan (R187). -/
theorem passVisit_mrp_refined {g : PassCtx} (hm : g.mode = .enc) (hw : g.w ≤ 64) {p : Nat} {a c : Window}
    {ev : List CodEvent} (h : passVisit g .mrp p a ev none c) :
    ∃ calls, ev = calls ++ [.passEnd .mrp p] ∧ Refined p (scan g.w g.h) a calls c := by
  obtain ⟨hne, -⟩ | ⟨b, calls, e2, hcells, ⟨rfl, -, rfl⟩, rfl⟩ := h
  · exact absurd rfl hne
  refine ⟨calls, rfl, ?_⟩
  have hscan := scan_apart (h := g.h) hw
  rw [← flatMap_eq_scan] at hscan ⊢
  exact .each _ (fun k _ hk a ev c hcol => .each _ (fun x _ hx a ev c hrow => .each _
    (fun y _ _ a ev c hcell => mrpVisit_refined hm hcell) hx hrow) hk hcol) hscan hcells

/-- Settles O46: the pass goes to its end (`encPassCompletes`) and refines the scan. -/
theorem refinementCodesTheOldSignificant : Obligations.RefinementCodesTheOldSignificant := by
  intro p s win herr hacc hwin hw hp hfull
  obtain ⟨win', ev, q, hexec, -, -, -, hvisit⟩ := encPassCompletes .mrp p s win herr hacc hwin hp hfull
  obtain ⟨calls, hcalls, hrefined⟩ := passVisit_mrp_refined rfl hw (hvisit hw)
  obtain rfl := List.append_cancel_right hcalls
  refine ⟨_, win', hexec, rfl, ?_, fun x y hx hy => ?_, fun wx wy hwx hout => ?_⟩
  · rw [hrefined.calls]
    rfl
  · exact hrefined.inside (4 * (y / 4), x, y) (((scanVisitsEachCoefficientOnce s.cbW s.cbH).1 ..).mpr ⟨hx, hy, rfl⟩)
  · refine hrefined.outside wx wy hwx fun ⟨y0, x, y⟩ hcell heq => ?_
    obtain ⟨hx, hy, -⟩ := ((scanVisitsEachCoefficientOnce s.cbW s.cbH).1 ..).mp hcell
    obtain ⟨rfl, rfl⟩ := Prod.mk.inj heq
    simp only [inBlock, decide_eq_false_iff_not] at hout
    omega

end Sys2Proof.Machine
end


section
/-! PROOFS. Commands whose port stops answering (R73). A query's walk over a port with finitely many answers is compared
with the same walk over a port that goes on after them (`GoesOn`): either it needs no more and ends the same, or it stops
where the other takes one more. The commands that run passes are `passes_end_or_wait`. -/

namespace Sys2Proof.Machine

/-! ## A walk whose port goes on -/

/-- The same walk over a header port that goes on after its answers. -/
def Walk.goingOn (b : Bool) (k : Walk) : Walk := { k with hdrIn := ⟨k.hdrIn.pending, some b⟩ }

/-- The run `f` from `k` ends the same over a port that goes on, or stops where that one takes another bit. -/
def GoesOn (b : Bool) (f : Walk → Res Walk Unit) (k : Walk) : Prop :=
  match f k with
  | .done _ k' => k'.hdrIn.rest = none ∧ f (k.goingOn b) = .done () (k'.goingOn b)
  | .hold _ k' => ∃ c more, (f (k.goingOn b)).state.hdr = k'.hdr ++ HdrEvent.get c :: more
  | .full _ _ => False

/-- The events of a node of `TT_DEC` come after those before it. -/
theorem decNode_hdr_append (t : TreeSel) (n left : Nat) (k : Walk) :
    ∃ more, (decNode t n left k).state.hdr = k.hdr ++ more := by
  induction left generalizing k with
  | zero => exact ⟨[], (List.append_nil _).symm⟩
  | succ left ih =>
    unfold decNode
    dsimp only
    split
    · split
      · exact ⟨[], (List.append_nil _).symm⟩
      · next b rest _ =>
        cases b with
        | true => exact ⟨[.get true], rfl⟩
        | false =>
          obtain ⟨more, h⟩ := ih { k with
            hdrIn := rest, hdr := k.hdr ++ [HdrEvent.get false], nbits := k.nbits + 1, floor := k.floor + 1 }
          exact ⟨.get false :: more, h.trans (by simp)⟩
    · exact ⟨[], (List.append_nil _).symm⟩

/-- One candidate of a node of `TT_DEC`, its bit answered. -/
theorem decNode_succ_pop (t : TreeSel) (n left : Nat) {k : Walk} {c : Bool} {q : Answers Bool}
    (hval : k.floor < (nodeAt k.nodes n).val) (hpop : k.hdrIn.pop = some (c, q)) :
    decNode t n (left + 1) k =
      if c then .done () { k with
        hdrIn := q, hdr := k.hdr ++ [HdrEvent.get c], nbits := k.nbits + 1
        nodes := putNode k.nodes n { nodeAt k.nodes n with val := k.floor, vis := true } }
      else decNode t n left { k with
        hdrIn := q, hdr := k.hdr ++ [HdrEvent.get c], nbits := k.nbits + 1, floor := k.floor + 1 } := by
  rw [decNode]
  dsimp only
  rw [if_pos hval, hpop]

theorem decNode_goesOn (b : Bool) (t : TreeSel) (n left : Nat) {k : Walk} (hrest : k.hdrIn.rest = none) :
    GoesOn b (decNode t n left) k := by
  induction left generalizing k with
  | zero => exact ⟨hrest, rfl⟩
  | succ left ih =>
    unfold GoesOn
    by_cases hval : k.floor < (nodeAt k.nodes n).val
    · cases hpend : k.hdrIn.pending with
      | nil =>
        have hstop : decNode t n (left + 1) k = .hold (.path t n) k := by
          have hpop : k.hdrIn.pop = none := by rw [Answers.pop, hpend, hrest]; rfl
          rw [decNode]
          dsimp only
          rw [if_pos hval, hpop]
        have hgo : (k.goingOn b).hdrIn.pop = some (b, ⟨[], some b⟩) := by
          rw [Walk.goingOn, hpend]
          rfl
        rw [hstop, decNode_succ_pop t n left (k := k.goingOn b) hval hgo]
        cases b with
        | true => exact ⟨true, [], rfl⟩
        | false =>
          obtain ⟨more, h⟩ := decNode_hdr_append t n left { k with
            hdrIn := ⟨[], some false⟩, hdr := k.hdr ++ [HdrEvent.get false], nbits := k.nbits + 1, floor := k.floor + 1 }
          exact ⟨false, more, h.trans (by simp)⟩
      | cons c rest =>
        have hpop : k.hdrIn.pop = some (c, ⟨rest, none⟩) := by rw [Answers.pop, hpend, hrest]
        have hgo : (k.goingOn b).hdrIn.pop = some (c, ⟨rest, some b⟩) := by
          rw [Walk.goingOn, hpend]
          rfl
        rw [decNode_succ_pop t n left hval hpop, decNode_succ_pop t n left (k := k.goingOn b) hval hgo]
        cases c with
        | true => exact ⟨rfl, rfl⟩
        | false => exact ih rfl
    · have hquiet : ∀ k' : Walk, k'.nodes = k.nodes → k'.floor = k.floor → decNode t n (left + 1) k' = .done () k' :=
        fun k' hn hf => decNode_quiet t n _ (.inr (by rw [hn, hf]; exact Nat.le_of_not_lt hval))
      rw [hquiet k rfl rfl, hquiet (k.goingOn b) rfl rfl]
      exact ⟨hrest, rfl⟩

/-- One part of a walk and then another, whose events come after those before it. -/
theorem GoesOn.bind {b : Bool} {f : Walk → Res Walk Unit} {g : Unit → Walk → Res Walk Unit} {k : Walk}
    (hf : GoesOn b f k) (hg : ∀ k1, k1.hdrIn.rest = none → GoesOn b (g ()) k1)
    (happend : ∀ k1, ∃ more, (g () k1).state.hdr = k1.hdr ++ more) : GoesOn b (fun k => (f k).bind g) k := by
  unfold GoesOn at hf hg ⊢
  dsimp only
  cases hr : f k with
  | done _ k1 =>
    rw [hr] at hf
    obtain ⟨hrest, hgo⟩ := hf
    rw [hgo]
    exact hg k1 hrest
  | full cur k1 =>
    rw [hr] at hf
    exact hf
  | hold cur k1 =>
    rw [hr] at hf
    obtain ⟨c, more, h⟩ := hf
    cases hgo : f (k.goingOn b) with
    | done _ k2 =>
      rw [hgo] at h
      obtain ⟨more', hmore⟩ := happend k2
      refine ⟨c, more ++ more', hmore.trans ?_⟩
      rw [show k2.hdr = _ from h, List.append_assoc]
      rfl
    | full cur2 k2 | hold cur2 k2 =>
      rw [hgo] at h
      exact ⟨c, more, h⟩

/-- Entering a node does not look at the port (R115). -/
theorem enterNode_goingOn (b : Bool) (n : Nat) (k : Walk) : enterNode n (k.goingOn b) = (enterNode n k).goingOn b := by
  by_cases h : (nodeAt k.nodes n).low < k.floor
  · have henter : enterNode n k = { k with nodes := putNode k.nodes n { nodeAt k.nodes n with low := k.floor } } := if_pos h
    rw [henter]
    exact if_pos h
  · have henter : enterNode n k = { k with floor := (nodeAt k.nodes n).low } := if_neg h
    rw [henter]
    exact if_neg h

theorem visitNode_goesOn (b : Bool) (t : TreeSel) (thr n : Nat) {k : Walk} (hrest : k.hdrIn.rest = none) :
    GoesOn b (visitNode true t thr n) k := by
  obtain ⟨-, -, -, hport, -⟩ := enterNode_spec n k
  have hnode : GoesOn b (fun k => decNode t n (thr + 1 - (enterNode n k).floor) (enterNode n k)) k := by
    have hgo := decNode_goesOn b t n (thr + 1 - (enterNode n k).floor) (k := enterNode n k) (by rw [hport, hrest])
    unfold GoesOn at hgo ⊢
    dsimp only
    rwa [enterNode_goingOn]
  exact hnode.bind (g := fun _ k' => .done () (leaveNode n k')) (fun k1 h1 => ⟨h1, rfl⟩)
    fun k1 => ⟨[], (List.append_nil _).symm⟩

theorem walk_goesOn (b : Bool) (t : TreeSel) (thr : Nat) (path : List Nat) {k : Walk} (hrest : k.hdrIn.rest = none) :
    GoesOn b (forEach path (visitNode true t thr)) k := by
  induction path generalizing k with
  | nil => exact ⟨hrest, rfl⟩
  | cons n rest ih =>
    refine (visitNode_goesOn b t thr n hrest).bind (g := fun _ => forEach rest (visitNode true t thr))
      (fun k1 h1 => ih h1) fun k1 => ?_
    obtain ⟨bits, hbits, -⟩ := walk_dec_bits t thr rest k1
    exact ⟨_, hbits⟩

/-! ## A query whose port stops answering -/

theorem queryWalk_dec_endless {s : State} {b : Bool} (hrest : s.hdrIn.rest = some b) (t : TreeSel) (x y thr : Nat)
    (m : Memory Node) : ∃ k, s.queryWalk true t x y thr m = .done () k := by
  rcases queryWalk_dec s t x y thr m with ⟨k, bits, hwalk, -⟩ |
    ⟨k, m1, n, f, zeros, above, below, got, -, -, -, -, hport, hpop, -⟩
  · exact ⟨k, hwalk⟩
  · have hsame := hport.rest_eq
    rw [Answers.eq_of_pop_eq_none hpop, hrest] at hsame
    cases hsame

/-- The root is the last node up any path (R114). -/
theorem IsPyramid.pathUp_getLast {l : List Level} (h : IsPyramid l) {x y : Nat} (hx : ∀ lv ∈ l.head?, x < lv.w)
    (hy : ∀ lv ∈ l.head?, y < lv.h) : (pathUp l x y).getLast? = some (nodeCountOf l - 1) := by
  induction h generalizing x y with
  | root base =>
    have hx0 : x < 1 := hx _ rfl
    have hy0 : y < 1 := hy _ rfl
    obtain rfl : x = 0 := by omega
    obtain rfl : y = 0 := by omega
    simp [pathUp, Level.node, nodeCountOf]
  | @level lv rest many up ih =>
    have hrest := ih (x := x / 2) (y := y / 2) (fun _ hlv => Option.some.inj hlv ▸ half_lt (hx lv rfl))
      (fun _ hlv => Option.some.inj hlv ▸ half_lt_rows (hy lv rfl))
    rw [pathUp]
    rw [pathUp] at hrest ⊢
    rw [List.getLast?_cons_cons, hrest]
    rfl

/-- The path of a leaf begins at the root (R114). -/
theorem treePath_head {w h x y : Nat} (hx : x < w) (hy : y < h) : (treePath w h x y).head? = some (nodeCount w h - 1) := by
  rw [treePath, List.head?_reverse]
  obtain ⟨rest, hlevels⟩ := levels_eq_cons w h
  refine (isPyramid_levels (by omega) (by omega)).pathUp_getLast ?_ ?_
  all_goals
    rw [hlevels]
    rintro lv ⟨⟩
    assumption

/-- A node below its value that the walk comes to within the threshold asks for a bit. -/
theorem decStep_asks {thr f f' : Nat} {nd nd' : Node} {bits : List Bool} (h : decStep thr nd f bits nd' f')
    (hthr : max f nd.low ≤ thr) (hval : max f nd.low < nd.val) : bits ≠ [] := by
  obtain ⟨zeros, hf, -, ⟨rfl, hend, -⟩ | ⟨rfl, -⟩⟩ := h
  · rintro hbits
    obtain rfl : zeros = 0 := by simpa using hbits
    omega
  · simp

/-- On a fresh tree a query that is given no bit waits at the root. -/
theorem freshQuery_waits {t : TreeSel} {x y thr : Nat} {s : State} {m : Memory Node}
    (hfresh : ∀ i, nodeAt m i = Node.fresh) (hx : x < (s.tree t).w) (hy : y < (s.tree t).h)
    (hport : s.hdrIn = ⟨[], none⟩) :
    ∃ k, s.queryWalk true t x y thr m = .hold (.path t (nodeCount (s.tree t).w (s.tree t).h - 1)) k ∧ k.hdr = s.hdr := by
  have hask : ∀ {n rest bits m' f'}, walkVisit (decStep thr) (n :: rest) m 0 bits m' f' → bits ≠ [] := by
    rintro n rest bits m' f' ⟨nd, f1, m1, b1, b2, hstep, -, -, rfl⟩ hnil
    rw [hfresh] at hstep
    exact decStep_asks hstep (Nat.zero_le _) (by decide) (List.append_eq_nil_iff.mp hnil).1
  have hnone : ∀ {bits : List Bool} {q : Answers Bool}, s.hdrIn.gives bits q → bits = [] := fun hgives => by
    have hall := Answers.gives_finite (by rw [hport]) hgives
    rw [hport] at hall
    exact (List.append_eq_nil_iff.mp hall.symm).1
  have hhead := treePath_head hx hy
  rcases queryWalk_dec s t x y thr m with ⟨k, bits, -, -, -, hgives, hvisit⟩ |
    ⟨k, m1, n, f, zeros, above, below, got, hwalk, hpath, hvisit, hhdr, hgives, -, -⟩
  · cases hpath : treePath (s.tree t).w (s.tree t).h x y with
    | nil =>
      rw [hpath] at hhead
      cases hhead
    | cons n rest =>
      rw [hpath] at hvisit
      exact absurd (hnone hgives) (hask hvisit)
  · obtain ⟨hgot, hzeros⟩ := List.append_eq_nil_iff.mp (hnone hgives)
    cases above with
    | nil =>
      rw [hpath] at hhead
      obtain rfl := Option.some.inj hhead
      exact ⟨k, hwalk, by rw [hhdr, hgot, hzeros]; exact List.append_nil _⟩
    | cons n' rest => exact absurd hgot (hask hvisit)

/-- A query given finitely many bits, and the same query on a port that goes on: if it ends it ends the same; if it waits
the other takes one more. -/
theorem queryWalk_finite {s : State} (t : TreeSel) (x y thr : Nat) (m : Memory Node) {answers bits : List Bool} {b : Bool}
    {k : Walk} (hgo : State.queryWalk { s with hdrIn := ⟨answers, some b⟩ } true t x y thr m = .done () k)
    (hbits : k.hdr = s.hdr ++ bits.map .get) :
    (bits.length ≤ answers.length ∧
      State.queryWalk { s with hdrIn := ⟨answers, none⟩ } true t x y thr m =
        .done () { k with hdrIn := ⟨answers.drop bits.length, none⟩ }) ∨
    (answers.length < bits.length ∧
      ∃ (k' : Walk) (m1 : Memory Node) (n f zeros : Nat) (above below : List Nat) (got : List Bool),
        State.queryWalk { s with hdrIn := ⟨answers, none⟩ } true t x y thr m = .hold (.path t n) k' ∧
        treePath (s.tree t).w (s.tree t).h x y = above ++ n :: below ∧ walkVisit (decStep thr) above m 0 got m1 f ∧
        answers = got ++ List.replicate zeros false ∧ k'.hdr = s.hdr ++ answers.map .get ∧ k'.hdrIn = ⟨[], none⟩ ∧
        onlyNode m1 k'.nodes n { nodeAt m1 n with low := max f (nodeAt m1 n).low }) := by
  have hcompare : GoesOn b (forEach (treePath (s.tree t).w (s.tree t).h x y) (visitNode true t thr))
      ⟨m, s.hdr, ⟨answers, none⟩, 0, 0⟩ := walk_goesOn b t thr _ rfl
  unfold GoesOn at hcompare
  have hgo' : forEach (treePath (s.tree t).w (s.tree t).h x y) (visitNode true t thr)
      (Walk.goingOn b ⟨m, s.hdr, ⟨answers, none⟩, 0, 0⟩) = .done () k := hgo
  rw [hgo'] at hcompare
  rcases queryWalk_dec { s with hdrIn := ⟨answers, none⟩ } t x y thr m with ⟨k', bits', hwalk, hhdr, -, hgives, -⟩ |
    ⟨k', m1, n, f, zeros, above, below, got, hwalk, hpath, hvisit, hhdr, hgives, hpop, honly⟩
  · have hrun : forEach (treePath (s.tree t).w (s.tree t).h x y) (visitNode true t thr) ⟨m, s.hdr, ⟨answers, none⟩, 0, 0⟩ =
      .done () k' := hwalk
    rw [hrun] at hcompare
    obtain ⟨hrest, hsame⟩ := hcompare
    obtain rfl : k = k'.goingOn b := Res.done.inj hsame |>.2
    obtain rfl : bits' = bits := map_get_inj (List.append_cancel_left (hhdr.symm.trans hbits))
    have hall : answers = bits' ++ k'.hdrIn.pending := Answers.gives_finite rfl hgives
    have hdrop : answers.drop bits'.length = k'.hdrIn.pending := by rw [hall, List.drop_left]
    refine .inl ⟨by rw [hall]; simp, ?_⟩
    rw [hwalk, hdrop, ← hrest]
    rfl
  · have hrun : forEach (treePath (s.tree t).w (s.tree t).h x y) (visitNode true t thr) ⟨m, s.hdr, ⟨answers, none⟩, 0, 0⟩ =
      .hold (.path t n) k' := hwalk
    rw [hrun] at hcompare
    obtain ⟨c, more, hmore⟩ := hcompare
    have hport := Answers.eq_of_pop_eq_none hpop
    have hall : answers = got ++ List.replicate zeros false ++ k'.hdrIn.pending := Answers.gives_finite rfl hgives
    rw [hport, List.append_nil] at hall
    rw [← hall] at hhdr
    refine .inr ⟨?_, k', m1, n, f, zeros, above, below, got, hwalk, hpath, hvisit, hall, hhdr, hport, honly⟩
    have hlen := congrArg List.length (hbits.symm.trans hmore)
    rw [hhdr] at hlen
    simp at hlen
    omega

/-- Settles O52: the queries as `freshQuery_waits` and `queryWalk_finite` have them (what a waiting walk leaves is
`queryWalk_dec`), the passes as `passes_end_or_wait`. -/
theorem unansweredQueryIsHeld : Obligations.UnansweredQueryIsHeld := by
  refine ⟨?fresh, ?finite, ?passes⟩
  case fresh =>
    intro t x y thr s herr hmode hcoherent hsome hx hy hthr hport
    obtain ⟨m, hm⟩ := Option.isSome_iff_exists.mp hsome
    have hfresh : ∀ i, nodeAt m i = Node.fresh := by
      have hnodes := (hcoherent m hm).1
      rwa [hmode] at hnodes
    obtain ⟨k, hwalk, hhdr⟩ := freshQuery_waits (thr := thr) hfresh hx hy hport
    refine ⟨_, _, (exec_ttDec herr (.inl hmode) ⟨hx, hy, hthr⟩).trans (State.query_waits hm hwalk), rfl, rfl, rfl, rfl,
      ?_, ?_, ?_, ?_⟩
    · exact State.setTree_res0 ..
    · exact State.setTree_res1 ..
    · exact (State.setTree_hdr ..).trans hhdr
    · rw [State.tree_hold, State.tree_afterWalk, if_pos rfl]
      exact hmode
  case finite =>
    intro t x y thr s m answers bits b r herr hmode hm hx hy hthr hexec hbits
    have hquery : ∀ q, exec (.ttDec t x y thr) { s with hdrIn := q } =
        State.query { s with hdrIn := q } (.ttDec t x y thr) true t .dec x y thr := fun q =>
      exec_ttDec (s := { s with hdrIn := q }) herr hmode ⟨hx, hy, hthr⟩
    obtain ⟨k, hwalk⟩ := queryWalk_dec_endless (s := { s with hdrIn := ⟨answers, some b⟩ }) rfl t x y thr m
    rw [hquery, State.query_done (s := { s with hdrIn := ⟨answers, some b⟩ }) hm hwalk] at hexec
    obtain rfl := Host.Outcome.next.inj hexec
    have hkbits : k.hdr = s.hdr ++ bits.map .get := by
      rw [← hbits, State.queried_eq, State.setTree_hdr]
    obtain ⟨hle, hsame⟩ | ⟨hlt, k', m1, n, f, zeros, above, below, got, hhold, hpath, hvisit, hall, hhdr, hport, honly⟩ :=
      queryWalk_finite t x y thr m hwalk hkbits
    · refine ⟨fun _ => ?_, fun hlt => absurd hlt (Nat.not_lt.mpr hle)⟩
      rw [hquery, State.query_done (s := { s with hdrIn := ⟨answers, none⟩ }) hm hsame, State.queried_eq,
        State.queried_eq]
      cases t <;> rfl
    · refine ⟨fun hle => absurd hlt (Nat.not_lt.mpr hle), fun _ => ⟨_, _, n, m1, k'.nodes, above, below, got, f, zeros,
        (hquery _).trans (State.query_waits (s := { s with hdrIn := ⟨answers, none⟩ }) hm hhold), rfl, rfl, rfl, rfl,
        hpath, hvisit, hall, honly, ?_, ?_, ?_, ?_, ?_, ?_, fun i hi => ?_⟩⟩
      · exact (State.afterWalk_err ..).trans herr
      · exact State.setTree_res0 ..
      · exact State.setTree_res1 ..
      · exact (State.setTree_hdr ..).trans hhdr
      · exact (State.setTree_hdrIn ..).trans hport
      · rw [State.tree_hold, State.tree_afterWalk, if_pos rfl]
        rfl
      · rw [hpath, List.mem_append, List.mem_cons, not_or, not_or] at hi
        rw [honly.other hi.2.1, walkVisit_off hvisit hi.1]
  case passes =>
    intro i mode l first s win herr hwin hw hstart henc hdec
    obtain ⟨c, ev, hran, ⟨hexec, -, hvisit⟩ | ⟨⟨k, p, x, y⟩, hexec, hencPop, hdecPop, -, hvisit⟩⟩ :=
      passes_end_or_wait herr hwin hstart henc
    · obtain ⟨a, b, hres⟩ := s.passResults_eq win i (s.withCoding c)
      rw [hres] at hexec
      exact ⟨_, c.win, ev, hexec, herr, rfl, rfl, hran.withCoding_cod, fun hm => (hran.enc hm).1, fun hm => (hran.dec hm).1,
        .inl ⟨rfl, rfl, hvisit hw⟩⟩
    · exact ⟨_, c.win, ev, hexec, herr, rfl, rfl, hran.withCoding_cod, fun hm => (hran.enc hm).1,
        fun hm => (hran.dec hm).1, .inr ⟨_, k, p, x, y, rfl, rfl, rfl, rfl, rfl, rfl,
          fun hm => Answers.pending_eq_nil (hencPop hm), fun hm => Answers.pending_eq_nil (hdecPop hm), hvisit hw⟩⟩

end Sys2Proof.Machine
end


section
/-! PROOFS. The answer `full`, at whatever call it comes (R196, R212). A run over a coder that says `ok` a number of times
and then `full` is compared, part by part, with the same run over a coder that always says `ok` (`MeetsFull`). -/

namespace Sys2Proof.Machine

/-! ## The first call of a cleanup pass -/

/-- The answer `full` stops a coder call of an encoder (R196). -/
theorem codeBit_full (cur : Cursor) (ctx : Nat) (v : Bool) {c : Coding} {more : List EncAnswer}
    (hport : c.encIn.pending = .full :: more) :
    codeBit .enc cur ctx v c = .full cur { c with encIn := { c.encIn with pending := more } } := by
  have hpop : c.encIn.pop = some (.full, { c.encIn with pending := more }) := by rw [Answers.pop, hport]
  simp only [codeBit, hpop]

/-- The scan begins at coefficient (0, 0) (R181). -/
theorem columns_eq_cons {w h : Nat} (hw : 1 ≤ w) (hh : 1 ≤ h) : ∃ rest, columns w h = (0, 0) :: rest := by
  obtain ⟨n, hn⟩ : ∃ n, (h + 3) / 4 = n + 1 := ⟨(h + 3) / 4 - 1, by omega⟩
  obtain ⟨w, rfl⟩ := Nat.exists_eq_add_of_le' hw
  rw [columns, stripes, hn, List.range_succ_eq_map, List.range_succ_eq_map]
  exact ⟨_, rfl⟩

theorem rowsOf_zero_eq_cons {h : Nat} (hh : 1 ≤ h) : ∃ rest, rowsOf h 0 = 0 :: rest := by
  obtain ⟨n, hn⟩ : ∃ n, min 4 (h - 0) = n + 1 := ⟨min 4 (h - 0) - 1, by omega⟩
  rw [rowsOf, hn, List.range_succ_eq_map]
  exact ⟨_, rfl⟩

theorem forEach_cons_full {σ ι : Type} {i : ι} {rest : List ι} {body : ι → σ → Res σ Unit} {s s' : σ} {cur : Cursor}
    (h : body i s = .full cur s') : forEach (i :: rest) body s = .full cur s' := by
  rw [forEach, h]
  rfl

/-- A cleanup pass whose first coefficient is neither significant nor visited is stopped there by `full`. -/
theorem codingPass_cup_full {g : PassCtx} (hm : g.mode = .enc) (hw : 1 ≤ g.w) (hh : 1 ≤ g.h) (p : Nat) {c : Coding}
    {more : List EncAnswer} (hidle : isSig (c.win.coef 0 0) = false ∧ isVis (c.win.coef 0 0) = false)
    (hport : c.encIn.pending = .full :: more) :
    codingPass g .cup p c = .full (.scan .cup p 0 0 0) { c with encIn := { c.encIn with pending := more } } := by
  obtain ⟨hsig, hvis⟩ := hidle
  have hcall := fun ctx v => codeBit_full (.scan .cup p 0 0 0) ctx v hport
  have hcell : cupCell g p 0 0 0 c = .full (.scan .cup p 0 0 0) { c with encIn := { c.encIn with pending := more } } := by
    unfold cupCell
    dsimp only
    rw [hsig, hvis, if_pos (show (!false && !false) = true from rfl), sigThenSign, sigStep, hm, hcall]
    rfl
  have hcolumn : passColumn g .cup p 0 0 c =
      .full (.scan .cup p 0 0 0) { c with encIn := { c.encIn with pending := more } } := by
    show cupColumn g p 0 0 c = _
    unfold cupColumn
    split
    · rw [runColumn]
      dsimp only
      rw [hm, hcall]
      rfl
    · obtain ⟨rest, hrows⟩ := rowsOf_zero_eq_cons hh
      rw [hrows]
      exact forEach_cons_full hcell
  obtain ⟨rest, hcolumns⟩ := columns_eq_cons hw hh
  rw [codingPass, hcolumns, forEach_cons_full (i := (0, 0)) (body := fun col => passColumn g .cup p col.1 col.2) hcolumn]
  rfl

/-- `ERRPOS` of the first coefficient (R36). -/
theorem errPosOf_first (p : Nat) :
    errPosOf (.scan .cup p 0 0 0) = BitVec.ofNat 32 (2 ^ 31 + 2 * 2 ^ 28 + p * 2 ^ 20) := by
  have hsum : 2 ^ 31 + PassKind.cup.code * 2 ^ 28 + p * 2 ^ 20 + 0 * 2 ^ 8 + 0 = 2 ^ 31 + 2 * 2 ^ 28 + p * 2 ^ 20 := by
    rw [PassKind.code]
    omega
  exact congrArg (BitVec.ofNat 32) hsum

theorem firstCall_full {p : Nat} {s : State} {win : Window} {more : List EncAnswer} (herr : s.err = false)
    (hacc : s.cbState = .ready ∨ s.cbState = .active) (hwin : s.window = some win) (hp : p ≤ 30) (hw : 1 ≤ s.cbW)
    (hh : 1 ≤ s.cbH) (hidle : win.coef 0 0 &&& 0x3000#16 = 0#16) (hport : s.encIn.pending = .full :: more) :
    exec (.t1EncPass .cup p) s = .next { s with
      err := true, everErr := true, errCode := some .capacity, errCmd := encode (.t1EncPass .cup p),
      errPos := BitVec.ofNat 32 (2 ^ 31 + 2 * 2 ^ 28 + p * 2 ^ 20), cbState := .dirty, busy := false, held := none,
      encIn := { s.encIn with pending := more } } := by
  have hbit : ∀ i < 16, (0x3000#16).getLsbD i = true → (win.coef 0 0).getLsbD i = false := fun i _ hmask => by
    have hi := congrArg (BitVec.getLsbD · i) hidle
    simpa [hmask, -BitVec.getLsbD_eq_getElem] using hi
  rw [exec_t1EncPass .cup herr hacc hwin hp, codingPass_cup_full (g := s.passCtx .enc) rfl hw hh p
    (c := s.coding win) ⟨hbit 13 (by decide) (by decide), hbit 12 (by decide) (by decide)⟩ hport, hwin, ← errPosOf_first]
  rfl

/-! ## A coder that is full at some call, and one that never is -/

/-- The same run over a coder that takes every bit. -/
def Coding.freely (c : Coding) : Coding := { c with encIn := ⟨[], some .ok⟩ }

/-- The run `f` of an encoder, over a coder that says `ok` `n` times and then `full`: it ends like the run over a coder
that takes every bit, having put as many bits as `ok`s are gone; or it is refused, after `n` bits, the one that run puts
next. -/
def MeetsFull {α : Type} (q : Answers EncAnswer) (f : Coding → Res Coding α) (c : Coding) : Prop :=
  ∀ n, c.encIn = ⟨List.replicate n .ok ++ .full :: q.pending, q.rest⟩ →
    match f c with
    | .done v c' => ∃ left ev, c'.cod = c.cod ++ ev ∧ n = (encBits ev).length + left ∧
        c'.encIn = ⟨List.replicate left .ok ++ .full :: q.pending, q.rest⟩ ∧ f c.freely = .done v c'.freely
    | .full _ c' => ∃ ev ctx b rest, c'.cod = c.cod ++ ev ∧ n = (encBits ev).length ∧ c'.encIn = q ∧
        (f c.freely).state.cod = c'.cod ++ CodEvent.enc ctx b :: rest
    | .hold _ _ => False

/-- A part of an encoder's run, compared over the two coders; its events come after those before it. -/
structure Compared {α : Type} (q : Answers EncAnswer) (f : Coding → Res Coding α) : Prop where
  grows : ∀ c, ∃ ev, (f c).state.cod = c.cod ++ ev
  meets : ∀ c, MeetsFull q f c

namespace Compared

variable {α β : Type} {q : Answers EncAnswer}

/-- A step that no answer can stop: writes into the window, an event without a bit. -/
theorem step {v : α} {h : Coding → Coding} (hcod : ∀ c, ∃ ev, (h c).cod = c.cod ++ ev ∧ encBits ev = [])
    (hport : ∀ c, (h c).encIn = c.encIn) (hfree : ∀ c, h c.freely = (h c).freely) :
    Compared q fun c => .done v (h c) where
  grows c := by
    obtain ⟨ev, hev, -⟩ := hcod c
    exact ⟨ev, hev⟩
  meets c n hn := by
    obtain ⟨ev, hev, hbits⟩ := hcod c
    exact ⟨n, ev, hev, by rw [hbits]; simp, (hport c).trans hn, congrArg (Res.done v) (hfree c)⟩

theorem mapWin {v : α} (f : Window → Window) : Compared q fun c => .done v (c.mapWin f) :=
  step (h := fun c => c.mapWin f) (fun _ => ⟨[], (List.append_nil _).symm, rfl⟩) (fun _ => rfl) fun _ => rfl

theorem done {v : α} : Compared q fun c => .done v c := mapWin id

/-- A coder call. -/
theorem code {m : Mode} (hm : m = .enc) (cur : Cursor) (ctx : Nat) (v : Bool) : Compared q (codeBit m cur ctx v) := by
  subst hm
  have hfree : ∀ c : Coding, codeBit .enc cur ctx v c.freely = .done v (c.freely.emit (.enc ctx v)) := fun _ => rfl
  refine ⟨fun c => ?_, fun c n hn => ?_⟩
  · unfold codeBit
    dsimp only
    split
    · exact ⟨[], (List.append_nil _).symm⟩
    · exact ⟨[], (List.append_nil _).symm⟩
    · exact ⟨[.enc ctx v], rfl⟩
  · rw [hfree]
    cases n with
    | zero =>
      rw [codeBit_full cur ctx v (more := q.pending) (by rw [hn]; rfl)]
      exact ⟨[], ctx, v, [], (List.append_nil _).symm, rfl, by rw [hn], rfl⟩
    | succ n =>
      have hpop : c.encIn.pop = some (.ok, ⟨List.replicate n .ok ++ .full :: q.pending, q.rest⟩) := by
        rw [hn, List.replicate_succ]
        rfl
      simp only [codeBit, hpop]
      exact ⟨n, [.enc ctx v], rfl, Nat.add_comm n 1, rfl, rfl⟩

/-- A run that looks at the window it starts in. -/
theorem of_win {F : Window → Coding → Res Coding α} (h : ∀ win, Compared q (F win)) :
    Compared q fun c => F c.win c :=
  ⟨fun c => (h c.win).grows c, fun c => (h c.win).meets c⟩

theorem ite {p : Prop} [Decidable p] {f g : Coding → Res Coding α} (hf : Compared q f) (hg : Compared q g) :
    Compared q fun c => if p then f c else g c := by
  by_cases hp : p
  · simpa only [if_pos hp] using hf
  · simpa only [if_neg hp] using hg

/-- One part and then another. -/
theorem bind {f : Coding → Res Coding α} {g : α → Coding → Res Coding β} (hf : Compared q f)
    (hg : ∀ v, Compared q (g v)) : Compared q fun c => (f c).bind g where
  grows c := by
    obtain ⟨ev, hev⟩ := hf.grows c
    cases hr : f c with
    | done v c1 =>
      rw [hr] at hev
      obtain ⟨ev', hev'⟩ := (hg v).grows c1
      exact ⟨ev ++ ev', by rw [Res.bind_done, hev', ← List.append_assoc]; exact congrArg (· ++ ev') hev⟩
    | full cur c1 | hold cur c1 =>
      rw [hr] at hev
      exact ⟨ev, hev⟩
  meets c n hn := by
    have hfirst := hf.meets c n hn
    dsimp only
    cases hr : f c with
    | done v c1 =>
      rw [hr] at hfirst
      obtain ⟨left, ev, hcod, hcount, hport, hfree⟩ := hfirst
      have hnext := (hg v).meets c1 left hport
      rw [Res.bind_done, hfree, Res.bind_done]
      cases hr' : g v c1 with
      | done u c2 =>
        rw [hr'] at hnext
        obtain ⟨left', ev', hcod', hcount', hport', hfree'⟩ := hnext
        refine ⟨left', ev ++ ev', by rw [hcod', hcod, List.append_assoc], ?_, hport', hfree'⟩
        rw [encBits_append, List.length_append]
        omega
      | full cur c2 =>
        rw [hr'] at hnext
        obtain ⟨ev', ctx, b, rest, hcod', hcount', hport', hnext'⟩ := hnext
        refine ⟨ev ++ ev', ctx, b, rest, by rw [hcod', hcod, List.append_assoc], ?_, hport', hnext'⟩
        rw [encBits_append, List.length_append]
        omega
      | hold cur c2 =>
        rw [hr'] at hnext
        exact hnext
    | full cur c1 =>
      rw [hr] at hfirst
      obtain ⟨ev, ctx, b, rest, hcod, hcount, hport, hnext⟩ := hfirst
      cases hfree : f c.freely with
      | done v c2 =>
        rw [hfree] at hnext
        obtain ⟨ev', hev'⟩ := (hg v).grows c2
        refine ⟨ev, ctx, b, rest ++ ev', hcod, hcount, hport, ?_⟩
        rw [Res.bind_done, hev', show c2.cod = _ from hnext, List.append_assoc]
        rfl
      | full cur2 c2 | hold cur2 c2 =>
        rw [hfree] at hnext
        exact ⟨ev, ctx, b, rest, hcod, hcount, hport, hnext⟩
    | hold cur c1 =>
      rw [hr] at hfirst
      exact hfirst

theorem forEach {ι : Type} {body : ι → Coding → Res Coding Unit} (l : List ι) (h : ∀ i ∈ l, Compared q (body i)) :
    Compared q (Machine.forEach l body) := by
  induction l with
  | nil => exact done
  | cons i rest ih => exact (h i (by simp)).bind fun _ => ih fun j hj => h j (by simp [hj])

end Compared

/-! ## The passes of an encoder -/

section
variable {q : Answers EncAnswer} {g : PassCtx} (hm : g.mode = .enc)
include hm

theorem storeBit_compared {α : Type} (v : α) (x y p : Nat) (b : Bool) :
    Compared q fun c => .done v (storeBit g x y p b c) := by
  simp only [storeBit_enc g x y p b _ hm]
  exact .done

theorem signStep_compared (cur : Cursor) (x y : Nat) : Compared q (signStep g cur x y) :=
  .of_win (F := fun win c => (codeBit g.mode cur (signLabel (win.coef x y))
      (isNeg (win.coef x y) ^^ signXor (win.coef x y)) c).bind fun b c' =>
        .done () (c'.mapWin fun win' => win'.setSig x y (b ^^ signXor (win.coef x y))))
    fun _ => (Compared.code hm ..).bind fun _ => .mapWin _

theorem sigStep_compared (cur : Cursor) (x y p : Nat) : Compared q (sigStep g cur x y p) :=
  .of_win (F := fun win c => (codeBit g.mode cur (sigLabel g.orient (win.coef x y)) (magBit win x y p) c).bind
      fun b c' => .done b (storeBit g x y p b c'))
    fun _ => (Compared.code hm ..).bind fun b => storeBit_compared hm b x y p b

theorem sigThenSign_compared (cur : Cursor) (x y p : Nat) (vis : Bool) : Compared q (sigThenSign g cur x y p vis) :=
  (sigStep_compared hm cur x y p).bind fun b =>
    (Compared.ite (p := b = true) (signStep_compared hm cur x y) .done).bind fun _ => .mapWin _

theorem sppCell_compared (p y0 x y : Nat) : Compared q (sppCell g p y0 x y) :=
  .of_win (F := fun win c =>
      if !isSig (win.coef x y) && !isVis (win.coef x y) && hasSigNeighbour (win.coef x y) then
        sigThenSign g (.scan .spp p y0 x y) x y p true c
      else .done () c)
    fun _ => (sigThenSign_compared hm ..).ite .done

theorem mrpCell_compared (p y0 x y : Nat) : Compared q (mrpCell g p y0 x y) :=
  .of_win (F := fun win c =>
      if isSig (win.coef x y) && !isVis (win.coef x y) then
        (codeBit g.mode (.scan .mrp p y0 x y) (refLabel (win.coef x y)) (magBit win x y p) c).bind fun b c' =>
          .done () ((storeBit g x y p b c').putOwner x y flagRef true)
      else .done () c)
    fun _ => ((Compared.code hm ..).bind fun b => by
      simp only [storeBit_enc g x y p b _ hm]
      exact .mapWin _).ite .done

theorem cupCell_compared (p y0 x y : Nat) : Compared q (cupCell g p y0 x y) :=
  .of_win (F := fun win c =>
      if !isSig (win.coef x y) && !isVis (win.coef x y) then sigThenSign g (.scan .cup p y0 x y) x y p false c
      else .done () (c.putOwner x y flagVis false))
    fun _ => (sigThenSign_compared hm ..).ite (.mapWin _)

theorem runEnd_compared (p y0 x r : Nat) : Compared q (runEnd g p y0 x r) := by
  have hrows : Compared q fun c => forEach ((rowsOf g.h y0).drop (r + 1)) (fun y' => cupCell g p y0 x y')
      (c.putOwner x (y0 + r) flagVis false) :=
    (Compared.mapWin (v := ()) fun win => win.putBit (x + 1) (y0 + r + 1) flagVis false).bind
      (g := fun _ => forEach ((rowsOf g.h y0).drop (r + 1)) fun y' => cupCell g p y0 x y')
      fun _ => .forEach _ fun y' _ => cupCell_compared hm p y0 x y'
  exact (storeBit_compared hm () x (y0 + r) p true).bind
    (g := fun _ c => (signStep g (.scan .cup p y0 x (y0 + r)) x (y0 + r) c).bind fun _ c1 =>
      forEach ((rowsOf g.h y0).drop (r + 1)) (fun y' => cupCell g p y0 x y') (c1.putOwner x (y0 + r) flagVis false))
    fun _ => (signStep_compared hm ..).bind fun _ => hrows

theorem runColumn_compared (p y0 x : Nat) : Compared q (runColumn g p y0 x) :=
  .of_win (F := fun win c => (codeBit g.mode (.scan .cup p y0 x y0) cxRl (decide (runOf win p y0 x ≠ 4)) c).bind
      (runAfterFound g p y0 x (runOf win p y0 x)))
    fun _ => (Compared.code hm ..).bind fun _ => Compared.ite
      ((Compared.code hm ..).bind fun _ => (Compared.code hm ..).bind fun _ => runEnd_compared hm ..) .done

theorem passColumn_compared (k : PassKind) (p y0 x : Nat) : Compared q (passColumn g k p y0 x) := by
  cases k with
  | spp => exact .forEach _ fun y _ => sppCell_compared hm p y0 x y
  | mrp => exact .forEach _ fun y _ => mrpCell_compared hm p y0 x y
  | cup =>
    exact Compared.of_win (F := fun win c => if quietColumn g win y0 x then runColumn g p y0 x c
        else forEach (rowsOf g.h y0) (fun y => cupCell g p y0 x y) c)
      fun _ => (runColumn_compared hm p y0 x).ite (.forEach _ fun y _ => cupCell_compared hm p y0 x y)

theorem codingPass_compared (k : PassKind) (p : Nat) : Compared q (codingPass g k p) :=
  (Compared.forEach (columns g.w g.h) fun col _ => passColumn_compared hm k p col.1 col.2).bind fun _ =>
    .step (h := fun c => c.emit (.passEnd k p)) (fun _ => ⟨[.passEnd k p], rfl, rfl⟩) (fun _ => rfl) fun _ => rfl

theorem codingPasses_compared (l : List (PassKind × Nat)) : Compared q (codingPasses g l) :=
  .forEach l fun kp _ => codingPass_compared hm kp.1 kp.2

end

/-! ## The statement -/

/-- What a run over one port leaves, told from the same run over another. -/
theorem State.passResults_freely (s : State) (win : Window) (i : Instr) (c : Coding) (q : Answers EncAnswer) :
    s.passResults win i (s.withCoding c) =
      { State.passResults { s with encIn := q } win i (State.withCoding { s with encIn := q } c.freely) with
        encIn := c.encIn } := by
  cases i <;> rfl

/-- Settles O49: the first clause is `firstCall_full`; in general the two runs are compared (`codingPasses_compared`), and
`capacity_state` says what the refused one leaves. -/
theorem fullAnswerRaisesCapacity : Obligations.FullAnswerRaisesCapacity := by
  refine ⟨fun p s win more herr hacc hwin hp hw hh => firstCall_full herr hacc hwin hp hw hh, ?_⟩
  intro i l first s r win n more tr herr hwin hstart hport hfree htr
  have hmeets := (codingPasses_compared (q := ⟨more, s.encIn.rest⟩) (g := s.passCtx .enc) rfl l).meets
    (s.codingAfter win first) n (by rw [← hport]; rfl)
  obtain ⟨c', ev', hfreeRun, hran, -⟩ := Follows.ends_enc (codingPasses_follows (s.passCtx .enc) l
    (s.codingAfter win first).freely) rfl
  rw [exec_startsPasses (s := { s with encIn := ⟨[], some .ok⟩ }) herr hwin hstart] at hfree
  replace hfree : State.finish { s with encIn := ⟨[], some .ok⟩ } i
    (State.passResults { s with encIn := ⟨[], some .ok⟩ } win i)
    (codingPasses (s.passCtx .enc) l (s.codingAfter win first).freely) = .next r := hfree
  rw [hfreeRun] at hfree
  obtain rfl := Host.Outcome.next.inj hfree
  have hcod : c'.cod = s.cod ++ tr := by
    obtain ⟨a, b, hres⟩ := State.passResults_eq { s with encIn := ⟨[], some .ok⟩ } win i
      (State.withCoding { s with encIn := ⟨[], some .ok⟩ } c')
    rw [hres] at htr
    exact htr
  have hexec := exec_startsPasses herr hwin hstart
  cases hrun : codingPasses (s.passCtx .enc) l (s.codingAfter win first) with
  | done _ c =>
    rw [hrun] at hmeets hexec
    obtain ⟨left, ev, hev, hn, hleft, hsame⟩ := hmeets
    obtain rfl : c' = c.freely := (Res.done.inj (hfreeRun.symm.trans hsame)).2
    obtain rfl : tr = first ++ ev := by
      have hcod' : c.cod = s.cod ++ first ++ ev := hev
      exact List.append_cancel_left (hcod.symm.trans (hcod'.trans (List.append_assoc ..)))
    have hlen : (encBits (first ++ ev)).length = (encBits ev).length := by
      rw [encBits_append, hstart.first.2, List.nil_append]
    rw [hlen]
    refine ⟨fun _ => ?_, fun hlt => by omega⟩
    rw [hexec, hport, hn, List.replicate_add, List.append_assoc, List.drop_left' (List.length_replicate ..)]
    have hrest : c.encIn = { s.encIn with pending := List.replicate left .ok ++ .full :: more } := hleft
    rw [← hrest, ← s.passResults_freely win i c]
    rfl
  | full cur c =>
    rw [hrun] at hmeets hexec
    obtain ⟨ev, ctx, b, rest, hev, hn, hleft, hnext⟩ := hmeets
    rw [hfreeRun] at hnext
    obtain ⟨k, p, x, y, post, ev', hstate, -, hcod', hl, hx, hy, hmags, -, hvisit⟩ := capacity_state (i := i) hrun
    obtain rfl : ev' = ev := List.append_cancel_left (hcod'.symm.trans hev)
    obtain rfl : tr = first ++ ev' ++ .enc ctx b :: rest := by
      refine List.append_cancel_left (hcod.symm.trans (hnext.trans ?_))
      rw [hcod', List.append_assoc, List.append_assoc, List.append_assoc]
    refine ⟨fun hle => ?_, fun _ => ⟨k, p, x, y, post, ctx, b, ev', rest, c.win, ?_, rfl, hn.symm, hl, hx, hy,
      hmags, hvisit⟩⟩
    · rw [encBits_append, encBits_append, List.length_append, List.length_append, encBits, List.length_cons] at hle
      omega
    · rw [hexec]
      show Host.Outcome.next ((s.withCoding c).raise .capacity (encode i) (errPosOf cur)) = _
      rw [hstate, hleft] <;> rfl
  | hold cur c =>
    rw [hrun] at hmeets
    exact hmeets.elim

end Sys2Proof.Machine
end
